-- ==== Sys2Proof/Word.lean ====
section
/-! DEFINITION. The widths and the number ranges the manual uses (00_scope, Numbers and names). -/

namespace Sys2Proof

/-- One byte of a link frame, a level, a pan value, a pitch code, an id. -/
abbrev Byte := BitVec 8
/-- A two-byte quantity: song bar, stamps. -/
abbrev Half := BitVec 16
/-- A four-byte quantity: check word, frame count, tap stamps. -/
abbrev Word := BitVec 32
/-- One audio sample, a 16-bit two's complement value. -/
abbrev Sample := BitVec 16
/-- Tracks 0..7. -/
abbrev TrackId := Fin 8
/-- Layer records 0..55. -/
abbrev LayerId := Fin 56
/-- Blocks 0..4095. -/
abbrev BlockId := Fin 4096
/-- Voices 0..23. -/
abbrev VoiceId := Fin 24
/-- Scenes 0..15. -/
abbrev SceneId := Fin 16
/-- Inputs 0..3. -/
abbrev InputId := Fin 4

end Sys2Proof
end

