-- ==== Sys2Proof/Syntax.lean ====
section
/-! DEFINITION. The commands of the OZ48: one constructor per row of spec/opcode_table.json.

A REQUEST row stands for the taking of one request from the request queue (R185). Its operands are the frame's TAG and
its whole payload as it arrived, so that a wrong length (BAD_LENGTH, R184) or a value out of range (BAD_VALUE) is decided
by the command. Where the table splits one request by its first byte (READ and WRITE, the modes of CancelCue ...), the
payload still begins with that byte.

An EVENT row carries what the world outside decides: the samples of a frame, VDD at a crossing, which head, track or
waveform reaches its end, and which receivers take a boundary now (R68, R83, R136, R158: "either may be taken first"). -/

namespace Sys2Proof

/-- A link frame without its start byte, LEN and CHECK, which follow from it (R182). -/
structure Frame where
  kind : Byte
  tag : Byte
  payload : List Byte
  deriving DecidableEq, Repr

/-- The record heads (R67). -/
inductive HeadId where
  | h0
  | h1
  deriving DecidableEq, Repr

/-- The two waveforms of the click generator (R157). -/
inductive Tone where
  | click
  | prompt
  deriving DecidableEq, Repr

/-- Why a frame is discarded (R183). -/
inductive DiscardCause where
  | lenAbove56
  | badCheck
  | kindNotRequest
  deriving DecidableEq, Repr

/-- Which receivers of a boundary take it with the boundary command itself. A receiver left out acts when a later
TICK_BOUNDARY command of the same frame names it, so that both orders of R68, R83, R136 and R158 can be commanded:
the recorder's own ends (R79), the grant pass (R136) and the click test (R158).

With `claims` the claims that the frame brings (R76, R114) come ahead of the frees commanded in the frame from here on: they
are judged against the free list without them. Else they come behind every free of the frame (R97; log 5). A TICK_BOUNDARY
command in a frame that is no boundary names the claims alone. -/
structure Receivers where
  recorder : Bool
  grant : Bool
  click : Bool
  claims : Bool
  deriving DecidableEq, Repr

/-- Every receiver takes the boundary with the boundary command; the claims come behind the frees of the frame. -/
def Receivers.all : Receivers := { recorder := true, grant := true, click := true, claims := false }

/-- The commands. -/
inductive Instr where
  /-- GET_STATUS (R190). -/
  | getStatus (tag : Byte) (payload : List Byte)
  /-- RESET_CAUSE_READ (R169): ResetCause with option 0. -/
  | resetCauseRead (tag : Byte) (payload : List Byte)
  /-- RESET_CAUSE_READ_AND_CLEAR (R169): ResetCause with option 1. -/
  | resetCauseReadAndClear (tag : Byte) (payload : List Byte)
  /-- RESTART_WARM (R173): Restart with kind 0. -/
  | restartWarm (tag : Byte) (payload : List Byte)
  /-- RESTART_COLD (R173): Restart with kind 1. -/
  | restartCold (tag : Byte) (payload : List Byte)
  /-- REQUEST_WARM (R168): the reset asked for by Restart WARM starts. -/
  | requestWarm
  /-- REQUEST_COLD (R168): the reset asked for by Restart COLD starts. -/
  | requestCold
  /-- STANDBY (R176). -/
  | standby (tag : Byte) (payload : List Byte)
  /-- LINK_CONFIG_READ (R187): LinkConfig with action 0. -/
  | linkConfigRead (tag : Byte) (payload : List Byte)
  /-- LINK_CONFIG_WRITE (R187): LinkConfig with action 1. -/
  | linkConfigWrite (tag : Byte) (payload : List Byte)
  /-- SUPPLY_CONFIG_READ (R175): SupplyConfig with action 0; vdd is VDD as measured then, in 10 mV. -/
  | supplyConfigRead (tag : Byte) (payload : List Byte) (vdd : Half)
  /-- SUPPLY_CONFIG_WRITE (R175): SupplyConfig with action 1; vdd is VDD as measured then, in 10 mV. -/
  | supplyConfigWrite (tag : Byte) (payload : List Byte) (vdd : Half)
  /-- HALT_CONFIG_READ (R180): HaltConfig with action 0. -/
  | haltConfigRead (tag : Byte) (payload : List Byte)
  /-- HALT_CONFIG_WRITE (R180): HaltConfig with action 1. -/
  | haltConfigWrite (tag : Byte) (payload : List Byte)
  /-- HALT_CLEAR (R181). -/
  | haltClear (tag : Byte) (payload : List Byte)
  /-- SET_TEMPO (R36). -/
  | setTempo (tag : Byte) (payload : List Byte)
  /-- TAP (R39). -/
  | tap (tag : Byte) (payload : List Byte)
  /-- START (R40). -/
  | start (tag : Byte) (payload : List Byte)
  /-- STOP (R42). -/
  | stop (tag : Byte) (payload : List Byte)
  /-- GET_POSITION (R44). -/
  | getPosition (tag : Byte) (payload : List Byte)
  /-- CUE (R51). -/
  | cue (tag : Byte) (payload : List Byte)
  /-- CANCEL_CUE_BY_ID (R62): CancelCue with mode 0. -/
  | cancelCueById (tag : Byte) (payload : List Byte)
  /-- CANCEL_CUE_BY_TRACK (R62): CancelCue with mode 1. -/
  | cancelCueByTrack (tag : Byte) (payload : List Byte)
  /-- CANCEL_CUE_ALL (R62): CancelCue with mode 2. -/
  | cancelCueAll (tag : Byte) (payload : List Byte)
  /-- LIST_CUES (R63). -/
  | listCues (tag : Byte) (payload : List Byte)
  /-- TRACK_CONFIG (R22). -/
  | trackConfig (tag : Byte) (payload : List Byte)
  /-- TRACK_INFO (R24). -/
  | trackInfo (tag : Byte) (payload : List Byte)
  /-- LAYER_INFO (R25). -/
  | layerInfo (tag : Byte) (payload : List Byte)
  /-- LAYER_MAP (R26). -/
  | layerMap (tag : Byte) (payload : List Byte)
  /-- SET_LEVEL (R23). -/
  | setLevel (tag : Byte) (payload : List Byte)
  /-- POOL_INFO (R103). -/
  | poolInfo (tag : Byte) (payload : List Byte)
  /-- CLEAR_ALL (R19). -/
  | clearAll (tag : Byte) (payload : List Byte)
  /-- BOUNCE (R110). -/
  | bounce (tag : Byte) (payload : List Byte)
  /-- CANCEL_BOUNCE_BY_ID (R125): CancelBounce with mode 0. -/
  | cancelBounceById (tag : Byte) (payload : List Byte)
  /-- CANCEL_BOUNCE_ALL (R125): CancelBounce with mode 1. -/
  | cancelBounceAll (tag : Byte) (payload : List Byte)
  /-- BOUNCE_INFO (R126). -/
  | bounceInfo (tag : Byte) (payload : List Byte)
  /-- FOLD_CONFIG (R124). -/
  | foldConfig (tag : Byte) (payload : List Byte)
  /-- SCENE_WRITE (R150). -/
  | sceneWrite (tag : Byte) (payload : List Byte)
  /-- SCENE_READ (R151). -/
  | sceneRead (tag : Byte) (payload : List Byte)
  /-- SCENE_NEXT_SET (R152): SceneNext with mode 0. -/
  | sceneNextSet (tag : Byte) (payload : List Byte)
  /-- SCENE_NEXT_EMPTY (R152): SceneNext with mode 1. -/
  | sceneNextEmpty (tag : Byte) (payload : List Byte)
  /-- SCENE_STOP (R153). -/
  | sceneStop (tag : Byte) (payload : List Byte)
  /-- CLICK_CONFIG_READ (R160): ClickConfig with action 0. -/
  | clickConfigRead (tag : Byte) (payload : List Byte)
  /-- CLICK_CONFIG_WRITE (R160): ClickConfig with action 1. -/
  | clickConfigWrite (tag : Byte) (payload : List Byte)
  /-- TONES (R165). -/
  | tones (tag : Byte) (payload : List Byte)
  /-- TONE_FLUSH (R166). -/
  | toneFlush (tag : Byte) (payload : List Byte)
  /-- MONITOR_CONFIG_READ (R143): MonitorConfig with action 0. -/
  | monitorConfigRead (tag : Byte) (payload : List Byte)
  /-- MONITOR_CONFIG_WRITE (R143): MonitorConfig with action 1. -/
  | monitorConfigWrite (tag : Byte) (payload : List Byte)
  /-- UNKNOWN_REQUEST (R184): a request whose KIND is not in the catalogue. -/
  | unknownRequest (kind : Byte) (tag : Byte) (payload : List Byte)
  /-- WELL_FORMED_FRAME (R185): a frame completes with a correct CHECK. -/
  | wellFormedFrame (kind : Byte) (tag : Byte) (payload : List Byte)
  /-- FRAME_DISCARD (R183). -/
  | frameDiscard (cause : DiscardCause)
  /-- BYTE_GAP (R183). -/
  | byteGap
  /-- FRAME_SENT (R186). -/
  | frameSent
  /-- LINK_SILENCE_EXPIRY (R188). -/
  | linkSilenceExpiry
  /-- AUDIO_FRAME (R30): the frame's work, with the four input samples ADIN delivers for it. -/
  | audioFrame (in0 : Sample) (in1 : Sample) (in2 : Sample) (in3 : Sample)
  /-- TICK_BOUNDARY (R31). -/
  | tickBoundary (now : Receivers)
  /-- COUNT_IN_BEGIN (R40). -/
  | countInBegin (now : Receivers)
  /-- COUNT_IN_END (R41). -/
  | countInEnd (now : Receivers)
  /-- START_INSTANT (R33). -/
  | startInstant (now : Receivers)
  /-- PENDING_TEMPO_APPLY (R37). -/
  | pendingTempoApply
  /-- CUE_EXECUTE (R58). -/
  | cueExecute
  /-- END_PENDING_SEAL (R79). -/
  | endPendingSeal (head : HeadId)
  /-- TRACK_LENGTH_END (R80). -/
  | trackLengthEnd (head : HeadId)
  /-- ONE_SHOT_SELF_MUTE (R21). -/
  | oneShotSelfMute (track : TrackId)
  /-- BOUNCE_START (R113). -/
  | bounceStart
  /-- BOUNCE_INDEX_BEGIN (R114). -/
  | bounceIndexBegin
  /-- BOUNCE_INDEX_FINISH (R114). -/
  | bounceIndexFinish
  /-- SCENE_COUNTDOWN_END (R147). -/
  | sceneCountdownEnd
  /-- DUE_SCENE_APPLY (R148). -/
  | dueSceneApply
  /-- CLICK_END (R159). -/
  | clickEnd
  /-- TONE_LOAD (R162). -/
  | toneLoad
  /-- TONE_ENTRY_END (R164). -/
  | toneEntryEnd
  /-- WAVEFORM_FLIP (R157). -/
  | waveformFlip (tone : Tone)
  /-- POWER (R168). -/
  | power
  /-- BROWN (R168). -/
  | brown
  /-- PIN (R168). -/
  | pin
  /-- COLD_RESET_END (R170): haltHigh is the HALT pin's level then, which the debouncer starts with after a POWER
  reset (R178). -/
  | coldResetEnd (haltHigh : Bool)
  /-- WARM_RESET_END (R171). -/
  | warmResetEnd
  /-- VERIFY_VISIT_END (R105): upsets are the bytes of the visited block that the sample memory no longer holds as they
  were written, with what they read as now (log 21). -/
  | verifyVisitEnd (upsets : List Host.Cell)
  /-- SUPPLY_LOW (R174): vdd is VDD at the crossing, in 10 mV. -/
  | supplyLow (vdd : Half)
  /-- SUPPLY_OK (R174): vdd is VDD at the crossing, in 10 mV. -/
  | supplyOk (vdd : Half)
  /-- WAKE_END (R177): duration is the standby's, in units of 100 ms, saturating. -/
  | wakeEnd (duration : Half)
  /-- HALT_EDGE (R178). -/
  | haltEdge
  /-- HALT_LINE_INACTIVE (R178). -/
  | haltLineInactive
  /-- START_BYTE (R183). -/
  | startByte
  deriving DecidableEq, Repr

end Sys2Proof
end

