-- ==== Sys2Proof/WellFormed.lean ====
section
/-! DEFINITION. Which commands are well formed: the checks a command's operands pass before its row applies to it.

A request row's payload fits a frame (R182: LEN 0..56), and where the table gives two or three rows to one request, the
payload's first byte is not one of the other rows'. A frame command's KIND is a host kind (R183). -/

namespace Sys2Proof

/-- The payload length the request catalogue gives a KIND (R189); none: the KIND is not in the catalogue. -/
def catalogueLength (kind : Byte) : Option Nat :=
  match kind.toNat with
  | 0x01 => some 0
  | 0x02 => some 1
  | 0x03 => some 1
  | 0x04 => some 0
  | 0x05 => some 6
  | 0x06 => some 4
  | 0x07 => some 4
  | 0x08 => some 0
  | 0x10 => some 3
  | 0x11 => some 0
  | 0x12 => some 1
  | 0x13 => some 0
  | 0x14 => some 0
  | 0x18 => some 7
  | 0x19 => some 2
  | 0x1A => some 1
  | 0x20 => some 6
  | 0x21 => some 1
  | 0x22 => some 1
  | 0x23 => some 3
  | 0x24 => some 2
  | 0x25 => some 0
  | 0x26 => some 0
  | 0x28 => some 8
  | 0x29 => some 2
  | 0x2A => some 1
  | 0x2B => some 1
  | 0x30 => some 13
  | 0x31 => some 1
  | 0x32 => some 2
  | 0x33 => some 0
  | 0x38 => some 5
  | 0x39 => some 13
  | 0x3A => some 0
  | 0x3B => some 8
  | _ => none

/-- A payload that fits a frame (R182). -/
def payloadFits (payload : List Byte) : Bool := payload.length ≤ 56

/-- The payload's first byte is none of the bytes that spell another row of the same request. -/
def firstByteNot (others : List Byte) (payload : List Byte) : Bool :=
  match payload with
  | [] => true
  | b :: _ => !others.contains b

/-- A KIND a host may send (R183). -/
def hostKind (kind : Byte) : Bool := kind.toNat < 0x80

/-- Which commands are well formed. -/
def Instr.wellFormed : Instr → Bool
  | .getStatus _ p => payloadFits p
  | .resetCauseRead _ p => payloadFits p && firstByteNot [1] p
  | .resetCauseReadAndClear _ p => payloadFits p && firstByteNot [0] p
  | .restartWarm _ p => payloadFits p && firstByteNot [1] p
  | .restartCold _ p => payloadFits p && firstByteNot [0] p
  | .requestWarm => true
  | .requestCold => true
  | .standby _ p => payloadFits p
  | .linkConfigRead _ p => payloadFits p && firstByteNot [1] p
  | .linkConfigWrite _ p => payloadFits p && firstByteNot [0] p
  | .supplyConfigRead _ p _ => payloadFits p && firstByteNot [1] p
  | .supplyConfigWrite _ p _ => payloadFits p && firstByteNot [0] p
  | .haltConfigRead _ p => payloadFits p && firstByteNot [1] p
  | .haltConfigWrite _ p => payloadFits p && firstByteNot [0] p
  | .haltClear _ p => payloadFits p
  | .setTempo _ p => payloadFits p
  | .tap _ p => payloadFits p
  | .start _ p => payloadFits p
  | .stop _ p => payloadFits p
  | .getPosition _ p => payloadFits p
  | .cue _ p => payloadFits p
  | .cancelCueById _ p => payloadFits p && firstByteNot [1, 2] p
  | .cancelCueByTrack _ p => payloadFits p && firstByteNot [0, 2] p
  | .cancelCueAll _ p => payloadFits p && firstByteNot [0, 1] p
  | .listCues _ p => payloadFits p
  | .trackConfig _ p => payloadFits p
  | .trackInfo _ p => payloadFits p
  | .layerInfo _ p => payloadFits p
  | .layerMap _ p => payloadFits p
  | .setLevel _ p => payloadFits p
  | .poolInfo _ p => payloadFits p
  | .clearAll _ p => payloadFits p
  | .bounce _ p => payloadFits p
  | .cancelBounceById _ p => payloadFits p && firstByteNot [1] p
  | .cancelBounceAll _ p => payloadFits p && firstByteNot [0] p
  | .bounceInfo _ p => payloadFits p
  | .foldConfig _ p => payloadFits p
  | .sceneWrite _ p => payloadFits p
  | .sceneRead _ p => payloadFits p
  | .sceneNextSet _ p => payloadFits p && firstByteNot [1] p
  | .sceneNextEmpty _ p => payloadFits p && firstByteNot [0] p
  | .sceneStop _ p => payloadFits p
  | .clickConfigRead _ p => payloadFits p && firstByteNot [1] p
  | .clickConfigWrite _ p => payloadFits p && firstByteNot [0] p
  | .tones _ p => payloadFits p
  | .toneFlush _ p => payloadFits p
  | .monitorConfigRead _ p => payloadFits p && firstByteNot [1] p
  | .monitorConfigWrite _ p => payloadFits p && firstByteNot [0] p
  | .unknownRequest k _ p => payloadFits p && hostKind k && catalogueLength k != some p.length
  | .wellFormedFrame k _ p => payloadFits p && hostKind k
  | .frameDiscard _ => true
  | .byteGap => true
  | .frameSent => true
  | .linkSilenceExpiry => true
  | .audioFrame _ _ _ _ => true
  | .tickBoundary _ => true
  | .countInBegin _ => true
  | .countInEnd _ => true
  | .startInstant _ => true
  | .pendingTempoApply => true
  | .cueExecute => true
  | .endPendingSeal _ => true
  | .trackLengthEnd _ => true
  | .oneShotSelfMute _ => true
  | .bounceStart => true
  | .bounceIndexBegin => true
  | .bounceIndexFinish => true
  | .sceneCountdownEnd => true
  | .dueSceneApply => true
  | .clickEnd => true
  | .toneLoad => true
  | .toneEntryEnd => true
  | .waveformFlip _ => true
  | .power => true
  | .brown => true
  | .pin => true
  | .coldResetEnd _ => true
  | .warmResetEnd => true
  | .verifyVisitEnd u => u.all fun c => c.1 < 33554432
  | .supplyLow _ => true
  | .supplyOk _ => true
  | .wakeEnd _ => true
  | .haltEdge => true
  | .haltLineInactive => true
  | .startByte => true

end Sys2Proof
end

