-- ==== Sys2Proof/Config.lean ====
section
/-! DEFINITION. What the spec leaves to the silicon or leaves open: constants without a value. Nothing in Lean can
evaluate them, so a claim that is proved holds whatever they are. -/

namespace Sys2Proof

/-- The "silicon revision number" HELLO carries (R172); the spec names the field and gives no value (log 15). -/
opaque Config.revision : Byte

/-- Whether a defining recording cut by a stop or a halt is sealed while the transport is still RUNNING (true) or
after it has stopped (false). R34 and R85 allow both; the argument counts the uses (log 10). -/
opaque Config.cutWhileRunning : Nat → Bool

/-- Whether BOUNCE_DONE's voice field says 2 (claimed) for a product whose claim joined the wait list. R121 gives the
codes and does not settle this case (log 14). -/
opaque Config.waitingCountsAsClaimed : Bool

/-- Whether a reset asked for as REQUEST_COLD is still cold when a warm cause has joined it and no POWER cause has.
R168 lists REQUEST_COLD as cold, and says of a joined reset without a POWER cause that it is warm (log 22). -/
opaque Config.joinedRequestColdIsCold : Bool

end Sys2Proof
end

