-- ==== Sys2Proof/Machine/State.lean ====
section
/-! DEFINITION. The state of the OZ48, block by block (00_scope, Block Diagram), as plain data, and its value right
after a power-up reset has ended. Every field names the rule of spec/ it comes from. -/

namespace Sys2Proof.Machine

/-- Why the machine stops with a fault. The spec names no fault that stops the part: a request that cannot be carried
out is answered with an outcome code (R191). So there is none, which is safe: no row can end a run. -/
inductive Fault where
  deriving DecidableEq, Repr

/-- Why a command is refused by the model. -/
inductive Refusal where
  /-- Raised by exec's arm for a row that has no meaning yet, and by no other; safe. No arm uses it. -/
  | notModelled (mnemonic : String)
  deriving DecidableEq, Repr

/-! ### Bar clock (chapter 2) -/

/-- The transport's run state (R29). -/
inductive Transport where
  | stopped
  | countIn
  | running
  deriving DecidableEq, Repr

/-- What the frame after an accepted Start begins (R40). -/
inductive StartMark where
  | none
  | countIn
  | start
  deriving DecidableEq, Repr

/-- The bar clock's state (R29). -/
structure Clock where
  /-- Tick divider, 0..P − 1 (R30). -/
  divider : Nat
  /-- The divider was loaded in the present frame, which therefore does not count it down (R30; log 4). -/
  dividerSet : Bool
  /-- Tick in beat, 0..47. -/
  tick : Nat
  /-- Beat in bar, 0..B − 1. -/
  beat : Nat
  /-- Bar in loop m, 0..L − 1. -/
  bar : Nat
  /-- Song bar n, wrapping. -/
  songBar : Half
  /-- Loop position in frames (R32). -/
  loopPos : Nat
  /-- Count-in remaining, 0..4. -/
  countIn : Nat
  /-- Tick period P in frames, 250..1500. -/
  p : Nat
  /-- Meter B, 1..12. -/
  b : Nat
  /-- Loop length L, present exactly while the established flag is on (R29). -/
  loop : Option Nat
  /-- The pending slot: a (P, B) pair (R36). -/
  pendingTempo : Option (Nat × Nat)
  /-- Tap history, oldest first, 0..4 stamps (R39). -/
  taps : List Word
  transport : Transport
  /-- READY frames, wrapping at 2^32. -/
  frameCount : Word
  /-- The boundary that the next frame begins after a Start (R40, R33). -/
  startMark : StartMark
  /-- A seal established L at the BAR boundary of this frame before it was taken: it counts as a LOOP boundary, with
  m = 0 (R34; log 42). -/
  loopSet : Bool
  deriving DecidableEq, Repr

/-- The kinds a boundary carries beside TICK (R31, R55). -/
structure Kinds where
  beat : Bool
  bar : Bool
  loop : Bool
  deriving DecidableEq, Repr

/-- The scene sequencer's step due at the present boundary (R147, R148). -/
inductive SceneStep where
  | countdownEnd
  | dueApply
  deriving DecidableEq, Repr

/-- A grant pass due at the present boundary: a normal one (R136) or the start instant's (R137). -/
inductive GrantDue where
  | none
  | normal
  | start
  deriving DecidableEq, Repr

/-- The click mode (R156). -/
inductive ClickMode where
  | off
  | countIn
  | recording
  | always
  deriving DecidableEq, Repr

/-- A click test with the settings standing at its boundary (R158). -/
structure ClickTest where
  mode : ClickMode
  /-- The accent pitch if beat in bar was 0 there, else the beat pitch. -/
  pitch : Byte
  ticks : Nat
  deriving DecidableEq, Repr

/-- The boundary taken in the present frame and what its receivers still have to do (R33). -/
structure Boundary where
  /-- The kinds of the boundary taken in this frame, if one was. -/
  taken : Option Kinds := none
  /-- The transport state it was produced in (R158). -/
  mark : Transport := .stopped
  /-- The scene sequencer's step, which comes before the cues (R58). -/
  sceneStep : Option SceneStep := none
  /-- The walk in progress: the place in the cue list from which it goes on (R58). -/
  walk : Option Nat := none
  /-- The walk has taken its internal action or a cue, so nothing comes between it and the rest (R58; log 6). -/
  begun : Bool := false
  grant : GrantDue := .none
  /-- The click test that is to be made (R158). -/
  click : Option ClickTest := none
  /-- A pending tempo is to be applied (R37). -/
  tempo : Bool := false
  /-- The head of the prompt queue is to be loaded (R162). -/
  toneLoad : Bool := false
  deriving DecidableEq, Repr

/-! ### Cue queue (chapter 3) -/

/-- The grid a cue waits for (R49). -/
inductive Grid where
  | now
  | tick
  | beat
  | bar
  | loop
  | track
  deriving DecidableEq, Repr

/-- A span in loops (R9). -/
inductive Span where
  | one
  | two
  | four
  deriving DecidableEq, Repr

/-- A span as a number of loops. -/
def Span.loops : Span → Nat
  | .one => 1
  | .two => 2
  | .four => 4

/-- The target of MUTE, UNMUTE and CLEAR (R49). -/
inductive Target where
  | track (t : TrackId)
  | all
  deriving DecidableEq, Repr

/-- A cue's action with its target and its options (R49). -/
inductive Action where
  | record (t : TrackId) (span : Span) (bars : Nat)
  | dub (t : TrackId) (chain : Bool)
  | endRec (t : TrackId)
  | undo (t : TrackId)
  | redo (t : TrackId)
  | mute (target : Target)
  | unmute (target : Target)
  | clear (target : Target)
  | scene (n : SceneId)
  | stop
  deriving DecidableEq, Repr

/-- A cue record (R49). -/
structure Cue where
  id : Byte
  action : Action
  grid : Grid
  delay : Nat
  deriving DecidableEq, Repr

/-- The cue queue (R48). -/
structure CueQueue where
  list : List Cue
  nextId : Byte
  deriving DecidableEq, Repr

/-! ### Tracks and layers (chapter 1) -/

/-- A track record (R1). Its state follows from its stack (R2) and is not stored. -/
structure Track where
  stack : List LayerId
  reservations : Nat
  redo : List LayerId
  span : Option Span
  pass : Nat
  mute : Bool
  oneShot : Bool
  remaining : Nat
  gain : Byte
  pan : Byte
  mask : BitVec 4
  /-- The one-shot count reached 0 in the last frame and the self-mute is still to be taken (R21). -/
  selfMuteDue : Bool
  /-- The pass index was set for the boundary of this instant before its LOOP advance (R10; log 27). -/
  passSet : Bool
  deriving DecidableEq, Repr

/-- The state of a layer record in use (R3); a FREE record is none in the layer table. -/
inductive LayerState where
  | filling
  | sealed
  | undone
  deriving DecidableEq, Repr

/-- Where a layer comes from (R3). -/
inductive Origin where
  | base
  | dub
  | bounce
  deriving DecidableEq, Repr

/-- A layer record in use (R3). A map entry that is none is SILENT. -/
structure Layer where
  state : LayerState
  track : TrackId
  origin : Origin
  map : List (Option BlockId)
  level : Byte
  startStamp : Half
  sealStamp : Option Half
  mask : Option (BitVec 4)
  parents : List LayerId
  clip : Nat
  gapped : Bool
  damaged : Bool
  pin : Option Byte
  deriving DecidableEq, Repr

/-! ### Recorder (chapter 4) -/

/-- The kinds of recording (R67). -/
inductive HeadMode where
  | defining
  | fixed
  | dub
  deriving DecidableEq, Repr

/-- When a recording ends by itself (R67). -/
inductive EndCond where
  | openEnd
  | bars (n : Nat)
  | length
  deriving DecidableEq, Repr

/-- A request to end at a coming BAR boundary (R67). -/
inductive EndPending where
  | none
  | endRec
  | autopilot
  deriving DecidableEq, Repr

/-- A busy head's record (R67); an IDLE head is none. -/
structure Recording where
  /-- STALLED (true) or WRITING (false). -/
  stalled : Bool
  track : TrackId
  layer : LayerId
  mode : HeadMode
  mask : BitVec 4
  endCond : EndCond
  chain : Bool
  endPending : EndPending
  writeOffset : Nat
  startPos : Nat
  index : Option Nat
  /-- One past the last frame written in the block being written (R77). -/
  written : Nat
  /-- The block being written was reopened at a wrap (R76). -/
  reopened : Bool
  /-- The recorder's work at the BAR boundary of this frame is still to be done for this head (R79, R89). -/
  atBar : Bool
  deriving DecidableEq, Repr

/-! ### Block pool (chapter 5) -/

/-- A block's check state, with its check word (R91). -/
inductive Check where
  | none
  | valid (word : Word)
  | bad (word : Word)
  deriving DecidableEq, Repr

/-- The entry of an OWNED block (R91); a block not listed is FREE with check state NONE. -/
structure Owned where
  owner : LayerId
  index : Nat
  check : Check
  deriving DecidableEq, Repr

/-- The verify scan (R104, R106). -/
structure Scan where
  /-- The block whose visit is in progress or next. -/
  next : BlockId
  /-- Frames of the visit. -/
  frames : Nat
  /-- Blocks visited. -/
  checked : Nat
  /-- Blocks freed at the cleanup that started the scan. -/
  freed : Nat
  deriving DecidableEq, Repr

/-- The block pool (R91, R93, R98, R99). -/
structure Pool where
  /-- The OWNED entries, by rising block number. -/
  owned : List (BlockId × Owned)
  free : List BlockId
  lowArmed : Bool
  emptyArmed : Bool
  /-- The claims of the present frame come ahead of the frees commanded from here on: the number of blocks freed so, which
  are the last of the free list. None while they come behind every free (R97; the model's own, log 5). -/
  behind : Option Nat
  scan : Option Scan
  deriving DecidableEq, Repr

/-- The sample memory: bytes by address, addresses rising, no byte that reads as an unlisted one does. -/
abbrev Memory := List Host.Cell

/-! ### Bounce engine (chapter 6) -/

/-- Where a running bounce stands in its present index (R114). -/
inductive IndexPhase where
  /-- The index begins in the coming frame. -/
  | toBegin
  /-- The head claims of the index's first frame are served and its own claim is due, ahead of all else (R95; log 9). -/
  | beginDue
  | filling
  deriving DecidableEq, Repr

/-- What a RUNNING entry holds beside the rest (R109). -/
structure Run where
  snapshot : List Byte
  product : LayerId
  progress : Nat
  frames : Nat
  blocks : Nat
  phase : IndexPhase
  deriving DecidableEq, Repr

/-- An entry of the bounce queue (R109); QUEUED while run is none. -/
structure Bounce where
  id : Byte
  fold : Bool
  auto : Bool
  sources : List LayerId
  dest : TrackId
  levels : Bool
  muteSources : Bool
  mapLen : Nat
  run : Option Run
  /-- The entry joined the queue in this frame (the model's own, log 26), so it does not start in it (R112, R122). -/
  joined : Bool
  deriving DecidableEq, Repr

/-- The bounce engine (R108). -/
structure BounceEngine where
  queue : List Bounce
  nextId : Byte
  threshold : Nat
  /-- The head of the queue became so in this frame, so it starts in the next (R113). -/
  headFresh : Bool
  deriving DecidableEq, Repr

/-! ### Mix engine (chapter 7) -/

/-- An entry of the wait list (R129). -/
structure Waiting where
  layer : LayerId
  stamp : Half
  deriving DecidableEq, Repr

/-- What the request of this frame has changed, with the values that the frame's mix still has (R22, R23, R143, R166;
log 44). -/
inductive Heard where
  | same
  /-- A track's gain and pan (R22). -/
  | track (t : TrackId) (gain pan : Byte)
  /-- A layer's level (R23). -/
  | layer (x : LayerId) (level : Byte)
  /-- The monitor levels (R143). -/
  | monitor (inputs : Vector Byte 4) (main click prompt : Byte)
  /-- The prompt sample (R166). -/
  | prompt (sample : Int)
  deriving DecidableEq, Repr

/-- The mix engine (R129). -/
structure Mix where
  voices : Vector (Option LayerId) 24
  wait : List Waiting
  inputLevels : Vector Byte 4
  mainLevel : Byte
  clickLevel : Byte
  promptLevel : Byte
  /-- The model's own: the layers that were given a voice in this frame, to sound from the next (R132, R136; log 53). -/
  fresh : List LayerId
  /-- The model's own: what this frame's mix has still as it stood before the frame's request (log 44). -/
  heard : Heard
  deriving DecidableEq, Repr

/-- The four output samples of the audio frame port (R142). -/
structure Outputs where
  mainL : Sample
  mainR : Sample
  monL : Sample
  monR : Sample
  deriving DecidableEq, Repr

/-- Four zero samples. -/
def Outputs.zero : Outputs := { mainL := 0, mainR := 0, monL := 0, monR := 0 }

/-! ### Scene sequencer (chapter 8) -/

/-- A scene's action on a track (R144). -/
inductive SceneAct where
  | leave
  | play
  | mute
  deriving DecidableEq, Repr

/-- A scene record (R144). -/
structure Scene where
  valid : Bool
  actions : Vector SceneAct 8
  length : Byte
  next : Option SceneId
  tie : Bool
  deriving DecidableEq, Repr

/-- Bars remaining (R145). -/
inductive Bars where
  | count (n : Nat)
  | stay
  deriving DecidableEq, Repr

/-- A due scene with its source (R145). -/
structure DueScene where
  scene : SceneId
  fromSlot : Bool
  deriving DecidableEq, Repr

/-- The scene sequencer (R145); ACTIVE exactly while a scene is current. -/
structure Sequencer where
  table : Vector Scene 16
  current : Option SceneId
  bars : Bars
  due : Option DueScene
  slot : Option SceneId
  deriving DecidableEq, Repr

/-! ### Click generator (chapter 9) -/

/-- A waveform: its level and the frames of the present half (R157). -/
structure Wave where
  high : Bool
  count : Nat
  /-- The count reached the half-period at the end of the last frame (R157). -/
  flipDue : Bool
  deriving DecidableEq, Repr

/-- A sounding click (R156). -/
structure Click where
  pitch : Byte
  ticks : Nat
  wave : Wave
  deriving DecidableEq, Repr

/-- A tone entry (R161). -/
structure ToneEntry where
  pitch : Byte
  code : Fin 7
  rest : Bool
  tie : Bool
  deriving DecidableEq, Repr

/-- The sounding slot while it holds an entry (R156). -/
structure Slot where
  entry : ToneEntry
  ticks : Nat
  /-- Articulation LAST_SILENT (true) or SOUNDING (false). -/
  lastSilent : Bool
  wave : Wave
  deriving DecidableEq, Repr

/-- The click generator (R156). -/
structure Tones where
  mode : ClickMode
  beatPitch : Byte
  accentPitch : Byte
  clickLen : Nat
  click : Option Click
  /-- A stop was taken in this frame: a click ends with it (R159). -/
  clickEnds : Bool
  queue : List ToneEntry
  slot : Option Slot
  loadPending : Bool
  sounded : Nat
  deriving DecidableEq, Repr

/-! ### Supervisor (chapter 10) -/

/-- The supervisor's state (R167). -/
inductive SupState where
  | reset
  | verifying
  | ready
  | standby
  | waking
  deriving DecidableEq, Repr

/-- A set of reset causes (R169). -/
structure CauseSet where
  power : Bool
  brown : Bool
  pin : Bool
  requestWarm : Bool
  requestCold : Bool
  deriving DecidableEq, Repr

/-- No cause. -/
def CauseSet.empty : CauseSet :=
  { power := false, brown := false, pin := false, requestWarm := false, requestCold := false }

/-- What began a wake (R177). -/
inductive WakeCause where
  | link
  | halt
  | supply
  deriving DecidableEq, Repr

/-- The wake in progress (R177). -/
structure Wake where
  cause : WakeCause
  /-- A halt edge is held until the end of WAKING. -/
  haltHeld : Bool
  deriving DecidableEq, Repr

/-- An accepted Restart (R173). -/
structure Restart where
  cold : Bool
  /-- Frames of the transmit queue still to leave, up to and with the Restart's reply. -/
  ahead : Nat
  deriving DecidableEq, Repr

/-- The supervisor (R167, R169, R174, R178). -/
structure Sup where
  state : SupState
  causes : CauseSet
  /-- The causes of the reset in force (R168). -/
  inForce : CauseSet
  restart : Option Restart
  warnCode : Fin 4
  delayCode : Fin 4
  guard : Bool
  /-- The supply monitor's state: LOW (true) or NORMAL. -/
  low : Bool
  detection : Bool
  /-- The active level of the halt input: HIGH (true) or LOW. -/
  activeHigh : Bool
  latch : Bool
  edgeMemory : Bool
  /-- The debounced halt line's level: HIGH (true) or LOW. -/
  lineHigh : Bool
  wake : Option Wake
  deriving DecidableEq, Repr

/-! ### Link port (chapter 11) -/

/-- The link port (R193). -/
structure Link where
  /-- The receiver assembles a frame (true) or hunts for a start byte (R183). -/
  assembling : Bool
  requests : List Frame
  tx : List Frame
  /-- The report enable set: bit k for report kind 0x40 + k (R187). -/
  enables : BitVec 24
  /-- The silence timeout in units of 100 ms, 0 off (R187). -/
  timeout : Nat
  /-- The link-silence timer runs (R188). -/
  timer : Bool
  autopilot : Bool
  lost : Bool
  /-- A request was taken in this frame (R185). -/
  requestTaken : Bool
  /-- The head of the request queue stood there when this frame began, so it is taken in it (R185; log 32). -/
  requestDue : Bool
  /-- The bytes of the frame that left the line last (R182; log 47). -/
  line : List Byte
  deriving DecidableEq, Repr

/-- The whole state. -/
structure State where
  clock : Clock
  bnd : Boundary
  cues : CueQueue
  tracks : Vector Track 8
  layers : Vector (Option Layer) 56
  head0 : Option Recording
  head1 : Option Recording
  pool : Pool
  mem : Memory
  bounce : BounceEngine
  mix : Mix
  outputs : Outputs
  scenes : Sequencer
  tones : Tones
  sup : Sup
  link : Link
  /-- The model's own: how often a free value of Config has been used (log 10). -/
  freeCount : Nat
  /-- The model's own: the commands that are waiting, first in, first out (log 25). -/
  pending : List Instr
  deriving DecidableEq, Repr

/-! ### The values after a cold reset -/

/-- A track record at cold reset, but for its input mask (R1). -/
def Track.cold (mask : BitVec 4) : Track :=
  { stack := [], reservations := 0, redo := [], span := none, pass := 0, mute := false, oneShot := false, remaining := 0
    gain := 128, pan := 64, mask := mask, selfMuteDue := false, passSet := false }

/-- The eight track records at cold reset: input mask {t mod 4} (R1). -/
def coldTracks : Vector Track 8 :=
  #v[Track.cold 1, Track.cold 2, Track.cold 4, Track.cold 8, Track.cold 1, Track.cold 2, Track.cold 4, Track.cold 8]

/-- The bar clock after a cold reset, READY: the divider is loaded with P − 1 (R29, R30). -/
def Clock.cold : Clock :=
  { divider := 499, dividerSet := true, tick := 0, beat := 0, bar := 0, songBar := 0, loopPos := 0, countIn := 0
    p := 500, b := 4, loop := none, pendingTempo := none, taps := [], transport := .stopped, frameCount := 0
    startMark := .none, loopSet := false }

/-- Blocks 0..4095 in ascending order (R93). -/
def allBlocks : List BlockId := (List.range 4096).map (Fin.ofNat 4096)

/-- The block pool after a cold reset (R107). -/
def Pool.cold : Pool :=
  { owned := [], free := allBlocks, lowArmed := true, emptyArmed := true, behind := none, scan := none }

/-- The bounce engine after a cold reset (R108). -/
def BounceEngine.cold : BounceEngine := { queue := [], nextId := 0, threshold := 0, headFresh := false }

/-- The mix engine after a cold reset (R129). -/
def Mix.cold : Mix :=
  { voices := Vector.replicate 24 none, wait := [], inputLevels := Vector.replicate 4 128, mainLevel := 128
    clickLevel := 128, promptLevel := 128, fresh := [], heard := .same }

/-- A scene record at cold reset (R144). -/
def Scene.cold : Scene :=
  { valid := false, actions := Vector.replicate 8 .leave, length := 0, next := none, tie := false }

/-- The scene sequencer after a cold reset (R144, R145). -/
def Sequencer.cold : Sequencer :=
  { table := Vector.replicate 16 Scene.cold, current := none, bars := .count 0, due := none, slot := none }

/-- The click generator after a cold reset (R156). -/
def Tones.cold : Tones :=
  { mode := .countIn, beatPitch := 47, accentPitch := 23, clickLen := 2, click := none, clickEnds := false, queue := []
    slot := none, loadPending := false, sounded := 0 }

/-- The report enable set after a cold reset: every member on except BAR, bit 0x54 − 0x40 (R187). -/
def coldEnables : BitVec 24 := 0xEFFFFF

/-- The causes held after a power-up (R169; log 19). -/
def CauseSet.powerUp : CauseSet := { CauseSet.empty with power := true }

/-- HELLO as a power-up sends it (R172): part code, revision, causes, state READY, L not established, P 500, B 4, no
layer retained, supply NORMAL, detection disabled, edge memory clear. -/
def powerUpHello : Frame :=
  { kind := 0x40, tag := 0
    payload := [0, 0, 0, 0x48, 0x0B, Config.revision, 1, 2, 0, 0, 0xF4, 0x01, 4, 0, 0, 0, 0] }

/-- The machine right after a power-up reset has ended (R170, R193), nothing commanded yet. -/
def State.reset : State :=
  { clock := Clock.cold
    bnd := {}
    cues := { list := [], nextId := 0 }
    tracks := coldTracks
    layers := Vector.replicate 56 none
    head0 := none
    head1 := none
    pool := Pool.cold
    mem := []
    bounce := BounceEngine.cold
    mix := Mix.cold
    outputs := Outputs.zero
    scenes := Sequencer.cold
    tones := Tones.cold
    sup :=
      { state := .ready, causes := CauseSet.powerUp, inForce := CauseSet.empty, restart := none, warnCode := 1
        delayCode := 1, guard := true, low := false, detection := false, activeHigh := false, latch := false
        edgeMemory := false, lineHigh := true, wake := none }
    link :=
      { assembling := false, requests := [], tx := [powerUpHello], enables := coldEnables, timeout := 0, timer := false
        autopilot := false, lost := false, requestTaken := false, requestDue := false, line := [] }
    freeCount := 0
    pending := [] }

end Sys2Proof.Machine
end

