-- ==== Sys2Proof/Machine/Operands.lean ====
section
/-! DEFINITION. The operand forms of the requests and the fields of replies and reports: bytes, little-endian fields
(00_scope, Numbers and names), numbers of tracks, layers and scenes, and the Cue request's fields (R49, R50). -/

namespace Sys2Proof.Machine

/-- A value as one byte. -/
def byte (n : Nat) : Byte := BitVec.ofNat 8 n

/-- A two-byte field, least significant byte first. -/
def le2 (n : Nat) : List Byte := [byte n, byte (n / 256)]

/-- A four-byte field, least significant byte first. -/
def le4 (n : Nat) : List Byte := [byte n, byte (n / 256), byte (n / 65536), byte (n / 16777216)]

/-- The value of a two-byte field. -/
def fromLe2 (lo hi : Byte) : Nat := lo.toNat + 256 * hi.toNat

/-- The value of a three-byte field. -/
def fromLe3 (b0 b1 b2 : Byte) : Nat := b0.toNat + 256 * b1.toNat + 65536 * b2.toNat

/-- A flag as one byte, 0 or 1. -/
def flagByte (b : Bool) : Byte := if b then 1 else 0

/-- The first n of a list of bytes, filled up to n with a filler. -/
def padTo (n : Nat) (fill : Byte) (l : List Byte) : List Byte := (l ++ List.replicate n fill).take n

/-- A track number 0..7. -/
def trackOf (b : Byte) : Option TrackId := if h : b.toNat < 8 then some ⟨b.toNat, h⟩ else none

/-- A layer number 0..55. -/
def layerOf (b : Byte) : Option LayerId := if h : b.toNat < 56 then some ⟨b.toNat, h⟩ else none

/-- A scene number 0..15. -/
def sceneOf (b : Byte) : Option SceneId := if h : b.toNat < 16 then some ⟨b.toNat, h⟩ else none

/-- A number as a byte. -/
def numByte {n : Nat} (x : Fin n) : Byte := byte x.val

/-- An optional number as a byte, 0xFF when absent. -/
def optNumByte {n : Nat} (x : Option (Fin n)) : Byte := (x.map numByte).getD 0xFF

/-- A supply code 0..3 (R175). -/
def supplyCodeOf (b : Byte) : Option (Fin 4) := if h : b.toNat < 4 then some ⟨b.toNat, h⟩ else none

/-- A span 1, 2 or 4 (R50). -/
def spanOf (b : Byte) : Option Span :=
  match b.toNat with
  | 1 => some .one
  | 2 => some .two
  | 4 => some .four
  | _ => none

/-- A grid 0..5 (R49). -/
def gridOf (b : Byte) : Option Grid :=
  match b.toNat with
  | 0 => some .now
  | 1 => some .tick
  | 2 => some .beat
  | 3 => some .bar
  | 4 => some .loop
  | 5 => some .track
  | _ => none

/-- A target 0..8 of CLEAR, MUTE and UNMUTE (R50). -/
def targetOf (b : Byte) : Option Target :=
  if b.toNat = 8 then some .all else (trackOf b).map .track

/-- An action 0..9 with its target and options, checked as R50 says for that action. -/
def actionOf (action target optA optB : Byte) : Option Action :=
  match action.toNat with
  | 0 => do
    let t ← trackOf target
    let span ← spanOf optA
    if optB.toNat ≤ 64 then some (.record t span optB.toNat) else none
  | 1 => do
    let t ← trackOf target
    if optA.toNat ≤ 1 then some (.dub t (optA.toNat = 1)) else none
  | 2 => (trackOf target).map .endRec
  | 3 => (trackOf target).map .undo
  | 4 => (trackOf target).map .redo
  | 5 => (targetOf target).map .mute
  | 6 => (targetOf target).map .unmute
  | 7 => (targetOf target).map .clear
  | 8 => (sceneOf optA).map .scene
  | 9 => some .stop
  | _ => none

/-- The Cue request's fields, if all are in range (R50): action, grid, delay and the replace flag. -/
def cueFields (action target grid delay optA optB flags : Byte) : Option (Action × Grid × Nat × Bool) := do
  let a ← actionOf action target optA optB
  let g ← gridOf grid
  if delay.toNat ≤ 15 ∧ (g = .now → delay.toNat = 0) ∧ flags.toNat ≤ 1 then
    some (a, g, delay.toNat, flags.toNat = 1)
  else none

/-- A target's code (R60, R63): 0..7, 8 ALL. -/
def Target.code : Target → Byte
  | .track t => numByte t
  | .all => 8

/-- An action's code (R49). -/
def Action.code : Action → Byte
  | .record _ _ _ => 0
  | .dub _ _ => 1
  | .endRec _ => 2
  | .undo _ => 3
  | .redo _ => 4
  | .mute _ => 5
  | .unmute _ => 6
  | .clear _ => 7
  | .scene _ => 8
  | .stop => 9

/-- An action's target; absent for SCENE and STOP (R49). -/
def Action.target : Action → Option Target
  | .record t _ _ => some (.track t)
  | .dub t _ => some (.track t)
  | .endRec t => some (.track t)
  | .undo t => some (.track t)
  | .redo t => some (.track t)
  | .mute g => some g
  | .unmute g => some g
  | .clear g => some g
  | .scene _ => none
  | .stop => none

/-- An action's target as a byte, 0xFF when absent. -/
def Action.targetCode (a : Action) : Byte := (a.target.map Target.code).getD 0xFF

/-- Option A as a byte, 0 when absent (R63). -/
def Action.optA : Action → Byte
  | .record _ span _ => byte span.loops
  | .dub _ chain => flagByte chain
  | .scene n => numByte n
  | _ => 0

/-- Option B as a byte, 0 when absent (R63). -/
def Action.optB : Action → Byte
  | .record _ _ bars => byte bars
  | _ => 0

/-- A grid's code (R49). -/
def Grid.code : Grid → Byte
  | .now => 0
  | .tick => 1
  | .beat => 2
  | .bar => 3
  | .loop => 4
  | .track => 5

/-- A cue as ListCues returns it (R63). -/
def Cue.bytes (c : Cue) : List Byte :=
  [c.id, c.action.code, c.action.targetCode, c.grid.code, byte c.delay, c.action.optA, c.action.optB]

/-- A tone entry from its three bytes; the length code and the flags are checked, and a pitch of 0 is refused on an
entry that is not a rest (R165). -/
def toneEntryOf (pitch code flags : Byte) : Option ToneEntry :=
  if h : code.toNat < 7 then
    if flags.toNat ≤ 3 ∧ (pitch.toNat = 0 → flags.getLsbD 0 = true) then
      some { pitch := pitch, code := ⟨code.toNat, h⟩, rest := flags.getLsbD 0, tie := flags.getLsbD 1 }
    else none
  else none

/-- A scene action 0..2 (R150). -/
def sceneActOf (b : Byte) : Option SceneAct :=
  match b.toNat with
  | 0 => some .leave
  | 1 => some .play
  | 2 => some .mute
  | _ => none

/-- A scene action's code (R150). -/
def SceneAct.code : SceneAct → Byte
  | .leave => 0
  | .play => 1
  | .mute => 2

/-- A SceneWrite's next field: 0..15, or 0xFF for NONE (R150). -/
def sceneNextOf (b : Byte) : Option (Option SceneId) :=
  if b.toNat = 255 then some none else (sceneOf b).map some

/-- A click mode 0..3 (R160). -/
def clickModeOf (b : Byte) : Option ClickMode :=
  match b.toNat with
  | 0 => some .off
  | 1 => some .countIn
  | 2 => some .recording
  | 3 => some .always
  | _ => none

/-- A click mode's code (R160). -/
def ClickMode.code : ClickMode → Byte
  | .off => 0
  | .countIn => 1
  | .recording => 2
  | .always => 3

/-- A map entry as LayerMap returns it: the block number, or 0xFFFF for SILENT (R26). -/
def mapEntryBytes (e : Option BlockId) : List Byte :=
  match e with
  | some b => le2 b.val
  | none => [0xFF, 0xFF]

/-- A request's payload begins with a byte that spells another row of the same request. -/
def spellsOther (others : List Byte) (payload : List Byte) : Bool := !firstByteNot others payload

end Sys2Proof.Machine
end

