-- ==== Sys2Proof/Machine/Flags.lean ====
section
/-! DEFINITION. Every code and every set of flags the spec gives: outcome codes, report kinds, states, the flags of
GetStatus, the marks of LayerInfo, the reset-cause set, and the codes reports carry. -/

namespace Sys2Proof.Machine

/-- The outcome codes (section 11.7). -/
inductive Code where
  | ok
  | badLength
  | unknown
  | badValue
  | full
  | busy
  | wrongState
  | notReady
  | halted
  | locked
  | noSuch
  | lineActive
  | pinned
  | damaged
  | stackFull
  | noLayer
  | tooLong
  | notEmpty
  | noHead
  | loopUnset
  | notRecording
  | nothing
  | lowSupply
  deriving DecidableEq, Repr

/-- An outcome code's byte (section 11.7). -/
def Code.byte : Code → Byte
  | .ok => 0
  | .badLength => 1
  | .unknown => 2
  | .badValue => 3
  | .full => 4
  | .busy => 5
  | .wrongState => 6
  | .notReady => 7
  | .halted => 8
  | .locked => 9
  | .noSuch => 10
  | .lineActive => 11
  | .pinned => 12
  | .damaged => 13
  | .stackFull => 14
  | .noLayer => 15
  | .tooLong => 16
  | .notEmpty => 17
  | .noHead => 18
  | .loopUnset => 19
  | .notRecording => 20
  | .nothing => 21
  | .lowSupply => 22

/-- The report kinds (R191). -/
inductive Report where
  | hello
  | ready
  | cueDone
  | cueFailed
  | layerSealed
  | layerDiscarded
  | loopSet
  | bounceDone
  | bounceAborted
  | foldSkipped
  | voiceWait
  | voiceGrant
  | poolLow
  | poolEmpty
  | supply
  | halt
  | linkSilent
  | scene
  | sceneEnd
  | tonesDone
  | bar
  | tempo
  | woke
  | transport
  deriving DecidableEq, Repr

/-- A report kind's member in the report enable set: KIND − 0x40 (R187, R191). -/
def Report.bit : Report → Nat
  | .hello => 0
  | .ready => 1
  | .cueDone => 2
  | .cueFailed => 3
  | .layerSealed => 4
  | .layerDiscarded => 5
  | .loopSet => 6
  | .bounceDone => 7
  | .bounceAborted => 8
  | .foldSkipped => 9
  | .voiceWait => 10
  | .voiceGrant => 11
  | .poolLow => 12
  | .poolEmpty => 13
  | .supply => 14
  | .halt => 15
  | .linkSilent => 16
  | .scene => 17
  | .sceneEnd => 18
  | .tonesDone => 19
  | .bar => 20
  | .tempo => 21
  | .woke => 22
  | .transport => 23

/-- A report's KIND (R191). -/
def Report.kind (r : Report) : Byte := byte (0x40 + r.bit)

/-- A transport state's code (R40, R44, R45). -/
def Transport.code : Transport → Byte
  | .stopped => 0
  | .countIn => 1
  | .running => 2

/-- A supervisor state's code; only VERIFYING and READY are ever returned (R172, section 11.8). -/
def SupState.code : SupState → Byte
  | .verifying => 1
  | .ready => 2
  | _ => 0

/-- The reset-cause set as a byte (R169). -/
def CauseSet.byte (c : CauseSet) : Byte :=
  (if c.power then 1 else 0) + (if c.brown then 2 else 0) + (if c.pin then 4 else 0)
    + (if c.requestWarm then 8 else 0) + (if c.requestCold then 16 else 0)

/-- The flags byte of GetStatus (section 11.8): bit 0 halted, bit 1 edge memory, bit 2 autopilot, bit 3 supply LOW,
bit 4 reports lost, bit 5 tempo pending. -/
def statusFlags (halted edge autopilot low lost pending : Bool) : Byte :=
  (if halted then 1 else 0) + (if edge then 2 else 0) + (if autopilot then 4 else 0) + (if low then 8 else 0)
    + (if lost then 16 else 0) + (if pending then 32 else 0)

/-- The marks byte of LayerInfo (section 11.8): bit 0 gapped, bit 1 damaged, bit 2 pinned. -/
def markFlags (gapped damaged pinned : Bool) : Byte :=
  (if gapped then 1 else 0) + (if damaged then 2 else 0) + (if pinned then 4 else 0)

/-- One flag per track, bit t for track t (R155). -/
def trackFlags (f : TrackId → Bool) : Byte :=
  (List.finRange 8).foldl (fun acc t => if f t then acc + byte (2 ^ t.val) else acc) 0

/-- The options byte of a bounce (R110, R126): 1 LEVELS, 2 MUTE_SOURCES. -/
def bounceOptions (levels muteSources : Bool) : Byte :=
  (if levels then 1 else 0) + (if muteSources then 2 else 0)

/-- A layer state's code (section 11.8). -/
def LayerState.code : LayerState → Byte
  | .filling => 1
  | .sealed => 2
  | .undone => 3

/-- An origin's code (section 11.8). -/
def Origin.code : Origin → Byte
  | .base => 0
  | .dub => 1
  | .bounce => 2

/-- A head's code (R87). -/
def headCode : HeadId → Byte
  | .h0 => 0
  | .h1 => 1

/-- Why a layer sealed (R87). -/
inductive SealReason where
  | endRec
  | bars
  | limit
  | length
  | chainEnd
  | stop
  | halt
  | pool
  | autopilot
  deriving DecidableEq, Repr

/-- A seal reason's code (R87). -/
def SealReason.code : SealReason → Byte
  | .endRec => 0
  | .bars => 1
  | .limit => 2
  | .length => 3
  | .chainEnd => 4
  | .stop => 5
  | .halt => 6
  | .pool => 7
  | .autopilot => 8

/-- Why a layer was discarded (R88). -/
inductive DiscardReason where
  | undone
  | cleared
  | empty
  | noBar
  | redoDropped
  deriving DecidableEq, Repr

/-- A discard reason's code (R88). -/
def DiscardReason.code : DiscardReason → Byte
  | .undone => 0
  | .cleared => 1
  | .empty => 2
  | .noBar => 3
  | .redoDropped => 4

/-- Why a bounce aborted (R118). -/
inductive AbortCause where
  | cancelled
  | sourceUndone
  | destUndone
  | sourceCleared
  | destCleared
  | noBlocks
  | noLayer
  deriving DecidableEq, Repr

/-- An abort cause's code (R118). -/
def AbortCause.code : AbortCause → Byte
  | .cancelled => 0
  | .sourceUndone => 1
  | .destUndone => 2
  | .sourceCleared => 3
  | .destCleared => 4
  | .noBlocks => 5
  | .noLayer => 6

/-- The reason BOUNCE_ABORTED carries for a cause (R118). -/
def AbortCause.reason : AbortCause → Code
  | .cancelled => .ok
  | .sourceUndone => .wrongState
  | .destUndone => .wrongState
  | .sourceCleared => .noSuch
  | .destCleared => .noSuch
  | .noBlocks => .full
  | .noLayer => .noLayer

/-- Why a tempo was applied or dropped (R45). -/
inductive TempoCause where
  | now
  | bar
  | stop
  | dropped
  deriving DecidableEq, Repr

/-- A tempo cause's code (R45). -/
def TempoCause.code : TempoCause → Byte
  | .now => 0
  | .bar => 1
  | .stop => 2
  | .dropped => 3

/-- Why the transport changed (R45). -/
inductive TransportCause where
  | start
  | countInEnd
  | stopRequest
  | stopCue
  | halt
  deriving DecidableEq, Repr

/-- A transport cause's code (R45). -/
def TransportCause.code : TransportCause → Byte
  | .start => 0
  | .countInEnd => 1
  | .stopRequest => 2
  | .stopCue => 3
  | .halt => 4

/-- Why a scene was applied (R155). -/
inductive SceneCause where
  | cue
  | tied
  | loop
  deriving DecidableEq, Repr

/-- A scene cause's code (R155). -/
def SceneCause.code : SceneCause → Byte
  | .cue => 0
  | .tied => 1
  | .loop => 2

/-- How a prompt phrase ended (R164). -/
inductive TonesEnd where
  | ended
  | flushed
  | standby
  deriving DecidableEq, Repr

/-- A phrase end's code (R164). -/
def TonesEnd.code : TonesEnd → Byte
  | .ended => 0
  | .flushed => 1
  | .standby => 2

/-- What a halt event was taken from (R179). -/
inductive HaltSource where
  | edge
  | enable
  | resetEnd
  | wake
  deriving DecidableEq, Repr

/-- A halt source's code (R179). -/
def HaltSource.code : HaltSource → Byte
  | .edge => 0
  | .enable => 1
  | .resetEnd => 2
  | .wake => 3

/-- A wake cause's code (R177). -/
def WakeCause.code : WakeCause → Byte
  | .link => 0
  | .halt => 1
  | .supply => 2

/-- Bars remaining as SceneRead codes it: 0xFF for STAY (R151). -/
def Bars.readCode : Bars → Byte
  | .count n => byte n
  | .stay => 0xFF

/-- Bars remaining as the SCENE report codes it: 0 for STAY (R155). -/
def Bars.reportCode : Bars → Byte
  | .count n => byte n
  | .stay => 0

end Sys2Proof.Machine
end

