-- ==== Sys2Proof/Machine/Ops.lean ====
section
/-! DEFINITION. The shared operations: the tables' entries, the sample memory, the arithmetic of samples, what the bar
clock's values derive, and the forming of reports and replies. -/

namespace Sys2Proof.Machine

/-! ### Entries of the tables -/

/-- A track record. -/
def State.track (s : State) (t : TrackId) : Track := s.tracks.get t

/-- The state with one track record replaced. -/
def State.setTrack (s : State) (t : TrackId) (r : Track) : State :=
  { s with tracks := s.tracks.set t.val r t.isLt }

/-- The state with one track record changed. -/
def State.modTrack (s : State) (t : TrackId) (f : Track → Track) : State := s.setTrack t (f (s.track t))

/-- The state whose mix of this frame still has this as it stood before the frame's request (log 44). -/
def State.hear (s : State) (h : Heard) : State := { s with mix := { s.mix with heard := h } }

/-- A layer record; none is FREE. -/
def State.layer (s : State) (x : LayerId) : Option Layer := s.layers.get x

/-- The state with one layer record replaced. -/
def State.setLayer (s : State) (x : LayerId) (o : Option Layer) : State :=
  { s with layers := s.layers.set x.val o x.isLt }

/-- The state with one layer record changed, if it is in use. -/
def State.modLayer (s : State) (x : LayerId) (f : Layer → Layer) : State := s.setLayer x ((s.layer x).map f)

/-- A head record; none is IDLE. -/
def State.head (s : State) : HeadId → Option Recording
  | .h0 => s.head0
  | .h1 => s.head1

/-- The state with one head record replaced. -/
def State.setHead (s : State) (h : HeadId) (r : Option Recording) : State :=
  match h with
  | .h0 => { s with head0 := r }
  | .h1 => { s with head1 := r }

/-- The state with one head record changed, if the head is busy. -/
def State.modHead (s : State) (h : HeadId) (f : Recording → Recording) : State := s.setHead h ((s.head h).map f)

/-- How many heads are busy (R67). -/
def State.headsBusy (s : State) : Nat := s.head0.toList.length + s.head1.toList.length

/-- The lowest-numbered IDLE head (R68). -/
def State.idleHead (s : State) : Option HeadId :=
  if s.head0 = none then some .h0 else if s.head1 = none then some .h1 else none

/-- The head that records on a track (R81). -/
def State.headOn (s : State) (t : TrackId) : Option HeadId :=
  if s.head0.map (·.track) = some t then some .h0
  else if s.head1.map (·.track) = some t then some .h1 else none

/-- A head is making a defining recording (R36, R69). -/
def State.definingRuns (s : State) : Bool :=
  s.head0.map (·.mode) = some .defining || s.head1.map (·.mode) = some .defining

/-- The layer records in use (R3). -/
def State.inUse (s : State) : List LayerId := (List.finRange 56).filter fun x => (s.layer x).isSome

/-- The lowest-numbered FREE layer record (R4). -/
def State.freeRecord (s : State) : Option LayerId := (List.finRange 56).find? fun x => (s.layer x).isNone

/-- A track's state (R2). -/
inductive TrackState where
  | empty
  | recording
  | play
  | dub
  deriving DecidableEq, Repr

/-- A track state's code (R24). -/
def TrackState.code : TrackState → Byte
  | .empty => 0
  | .recording => 1
  | .play => 2
  | .dub => 3

/-- A layer record is FILLING. -/
def State.filling (s : State) (x : LayerId) : Bool := (s.layer x).map (·.state) = some .filling

/-- The track's state, as its stack determines it (R2). -/
def State.trackState (s : State) (t : TrackId) : TrackState :=
  match (s.track t).stack.getLast? with
  | none => .empty
  | some x => if s.filling x then (if (s.track t).stack.length = 1 then .recording else .dub) else .play

/-- A layer's place on its track's stack, from the bottom; the stack's length if it is not on it (R130). -/
def State.stackPos (s : State) (t : TrackId) (x : LayerId) : Nat := (s.track t).stack.findIdx (· == x)

/-- Stack length plus reservations (R12). -/
def Track.places (r : Track) : Nat := r.stack.length + r.reservations

/-! ### The sample memory (00_scope; R91) -/

/-- One past the last byte address: 4,096 blocks of 4,096 samples of two bytes. -/
def memorySize : Nat := 33554432

/-- The canonical form: addresses strictly rising and inside the memory, no byte that reads as an unlisted one. -/
abbrev Memory.wf (m : Memory) : Prop :=
  m.Pairwise (fun a b => a.1 < b.1) ∧ ∀ c ∈ m, c.1 < memorySize ∧ c.2 ≠ 0

/-- What an address that is not listed reads as (log 20). -/
def unlistedByte : Byte := 0

/-- The byte at an address. -/
def Memory.read : Memory → Nat → Byte
  | [], _ => unlistedByte
  | c :: m, a => if c.1 = a then c.2 else Memory.read m a

/-- The memory with one byte written; a byte that reads as an unlisted one is not listed. -/
def Memory.write : Memory → Nat → Byte → Memory
  | [], a, v => if v = unlistedByte then [] else [(a, v)]
  | c :: m, a, v =>
    if a < c.1 then (if v = unlistedByte then c :: m else (a, v) :: c :: m)
    else if a = c.1 then (if v = unlistedByte then m else (a, v) :: m)
    else c :: Memory.write m a v

/-- The memory with the bytes lo..hi − 1 set to zero. -/
def Memory.clearRange (m : Memory) (lo hi : Nat) : Memory := m.filter fun c => !(lo ≤ c.1 && c.1 < hi)

/-- The bytes of one block that are listed. -/
def Memory.blockCells (m : Memory) (b : BlockId) : Memory :=
  m.filter fun c => b.val * 8192 ≤ c.1 && c.1 < b.val * 8192 + 8192

/-- The address of a sample's low byte: frame f of block b (log 20). -/
def sampleAddr (b : BlockId) (f : Nat) : Nat := (b.val * 4096 + f % 4096) * 2

/-- One sample. -/
def Memory.sample (m : Memory) (b : BlockId) (f : Nat) : Sample :=
  m.read (sampleAddr b f + 1) ++ m.read (sampleAddr b f)

/-- The memory with one sample written, low byte first. -/
def Memory.writeSample (m : Memory) (b : BlockId) (f : Nat) (x : Sample) : Memory :=
  (m.write (sampleAddr b f) (x.extractLsb' 0 8)).write (sampleAddr b f + 1) (x.extractLsb' 8 8)

/-- The memory with frames lo..hi − 1 of a block set to zero. -/
def Memory.clearFrames (m : Memory) (b : BlockId) (lo hi : Nat) : Memory :=
  m.clearRange ((b.val * 4096 + lo) * 2) ((b.val * 4096 + hi) * 2)

/-! ### Arithmetic of samples (R139) -/

/-- A value clamped to the sample range. -/
def clamp (x : Int) : Int := if x < -32768 then -32768 else if 32767 < x then 32767 else x

/-- A saturating sum: exact over its terms, clamped once. -/
def satSum (l : List Int) : Int := clamp l.sum

/-- A level applied to a sample: s × v / 128, truncated toward zero, saturated. -/
def applyLevel (v : Byte) (x : Int) : Int := clamp ((x * v.toNat).tdiv 128)

/-- A value within the sample range as a sample. -/
def toSample (x : Int) : Sample := BitVec.ofInt 16 x

/-! ### What the bar clock's values derive -/

/-- Bar frames, B × 48 × P (R29). -/
def Clock.barFrames (c : Clock) : Nat := c.b * 48 * c.p

/-- LF, L × bar frames; 0 while L is not established (R29). -/
def Clock.loopFrames (c : Clock) : Nat := (c.loop.getD 0) * c.barFrames

/-- The number of map indices a length in frames covers. -/
def blocksFor (frames : Nat) : Nat := (frames + 4095) / 4096

/-- The map length of a span: ceil(s × LF / 4096) (R4). -/
def Clock.mapLength (c : Clock) (span : Span) : Nat := blocksFor (span.loops * c.loopFrames)

/-- A track's length in frames: span × LF (R80). -/
def State.trackFrames (s : State) (t : TrackId) : Nat :=
  (((s.track t).span.map Span.loops).getD 0) * s.clock.loopFrames

/-- A track's position (R11). -/
def State.trackPos (s : State) (t : TrackId) : Nat := (s.track t).pass * s.clock.loopFrames + s.clock.loopPos

/-- The supervisor is READY. -/
def State.isReady (s : State) : Bool := s.sup.state = .ready

/-- The frame that begins now is a TICK boundary that is not taken yet (R30). -/
def State.tickDue (s : State) : Bool := s.sup.state = .ready && s.clock.divider = 0 && !s.clock.dividerSet

/-- The song moves: RUNNING, and the start instant taken (R33; log 8). -/
def State.moving (s : State) : Bool := s.clock.transport = .running && s.clock.startMark = .none

/-- The frame that begins now is a BAR boundary that is not taken yet (R31). -/
def State.barAhead (s : State) : Bool :=
  s.tickDue && s.moving && s.clock.tick = 47 && s.clock.beat + 1 = s.clock.b

/-- The song bar of the frame that begins now, a BAR boundary not taken yet counted as taken (R3, R71, R130; log 41). -/
def State.songBarNow (s : State) : Half := if s.barAhead then s.clock.songBar + 1 else s.clock.songBar

/-- The song bar and the beat that the BAR boundary to come reaches (R31). -/
def State.atNextBar (s : State) : State :=
  { s with clock := { s.clock with tick := 0, beat := 0, songBar := s.clock.songBar + 1 } }

/-- The frame that begins now is a LOOP boundary that is not taken yet, and whose advance of the pass indices is still to
come (R10, R31). -/
def State.loopAhead (s : State) : Bool :=
  s.barAhead && !s.clock.loopSet
    && (match s.clock.loop with
        | none => true
        | some l => s.clock.bar + 1 = l)

/-- The pass index with which a track leaves this instant, an advance not yet taken counted as taken (R10, R57). -/
def State.leavingPass (s : State) (t : TrackId) : Nat :=
  if s.clock.startMark = .start then 0
  else
    match (s.track t).span with
    | none => 0
    | some span =>
      if s.loopAhead && !(s.track t).passSet then ((s.track t).pass + 1) % span.loops else (s.track t).pass

/-- A track that gains a span takes it and its pass index; at a LOOP boundary not yet taken, that boundary's advance
does not apply to it (R10). -/
def State.gainSpan (s : State) (t : TrackId) (span : Span) (pass : Nat) : State :=
  s.modTrack t fun r => { r with span := some span, pass := pass, passSet := s.loopAhead }

/-- A track's span is absent while its stack, its redo list and its reservations are all empty (R9), and its pass index
is then 0 (R10). -/
def State.trimSpan (s : State) (t : TrackId) : State :=
  s.modTrack t fun r =>
    if r.stack = [] ∧ r.redo = [] ∧ r.reservations = 0 then { r with span := none, pass := 0, passSet := false } else r

/-- Every pass index is set to 0 (R10). -/
def State.zeroPasses (s : State) : State :=
  { s with tracks := s.tracks.map fun r => { r with pass := 0, passSet := false } }

/-- One track's advance at a LOOP boundary (R10). -/
def Track.advancePass (r : Track) : Track :=
  match r.span with
  | none => { r with passSet := false }
  | some span => if r.passSet then { r with passSet := false } else { r with pass := (r.pass + 1) % span.loops }

/-- The pass indices' advance at a LOOP boundary (R10). -/
def State.advancePasses (s : State) : State := { s with tracks := s.tracks.map Track.advancePass }

/-! ### Frames on the line (R182, R183) -/

/-- The sum of a list of bytes modulo 256. -/
def byteSum (l : List Byte) : Byte := l.foldr (· + ·) 0

/-- LEN, KIND, TAG and the payload. -/
def frameBody (f : Frame) : List Byte := byte f.payload.length :: f.kind :: f.tag :: f.payload

/-- CHECK, which makes the sum of a frame's bytes after the start byte 0 modulo 256 (R182). -/
def frameCheck (f : Frame) : Byte := -byteSum (frameBody f)

/-- A frame as the line carries it (R182). -/
def frameWire (f : Frame) : List Byte := 0xB7 :: (frameBody f ++ [frameCheck f])

/-- The frame that a list of bytes spells: a start byte, a LEN of at most 56, that many payload bytes, and a CHECK that
makes the sum 0 (R182, R183). -/
def frameOf : List Byte → Option Frame
  | start :: len :: kind :: tag :: rest =>
    if start = 0xB7 ∧ payloadFits rest.dropLast = true ∧ rest.length = len.toNat + 1
        ∧ byteSum (len :: kind :: tag :: rest) = 0 then
      some { kind := kind, tag := tag, payload := rest.dropLast }
    else none
  | _ => none

/-! ### Reports and replies (R184, R186) -/

/-- Report places in use. -/
def Link.reportsQueued (l : Link) : Nat := (l.tx.filter fun f => f.kind.toNat < 0x80).length

/-- Reply places in use: reserved for a queued request, or holding a reply. -/
def Link.replyPlaces (l : Link) : Nat := l.requests.length + (l.tx.filter fun f => !(f.kind.toNat < 0x80)).length

/-- A frame joins the transmit queue. -/
def State.send (s : State) (f : Frame) : State := { s with link := { s.link with tx := s.link.tx ++ [f] } }

/-- The report header: song bar and beat in bar (R45). -/
def State.header (s : State) : List Byte := le2 s.clock.songBar.toNat ++ [byte s.clock.beat]

/-- A report of this kind is formed: its member of the report enable set is on, and HELLO always (R187). -/
def State.reportEnabled (s : State) (r : Report) : Bool := r == .hello || s.link.enables.getLsbD r.bit

/-- A report with a given header. None is formed while a reset is in force (R168) or while its kind is disabled; one
formed while 16 are queued is lost (R186). -/
def State.reportWith (s : State) (header : List Byte) (r : Report) (fields : List Byte) : State :=
  if s.sup.state = .reset then s
  else if !s.reportEnabled r then s
  else if s.link.reportsQueued < 16 then s.send { kind := r.kind, tag := 0, payload := header ++ fields }
  else { s with link := { s.link with lost := true } }

/-- A report, with the header of the instant at which it is formed (R45). -/
def State.report (s : State) (r : Report) (fields : List Byte) : State := s.reportWith s.header r fields

/-- A reply: the request's kind + 0x80 and its tag (R184). -/
def State.reply (s : State) (kind tag : Byte) (payload : List Byte) : State :=
  s.send { kind := kind + 0x80, tag := tag, payload := payload }

end Sys2Proof.Machine
end

