-- ==== Sys2Proof/Machine/Pool.lean ====
section
/-! DEFINITION. The block pool: the block table, claims, frees, the two pool reports and the check word (chapter 5). -/

namespace Sys2Proof.Machine

/-- The number of blocks a map names. -/
def namedBlocks (map : List (Option BlockId)) : List BlockId := map.filterMap id

/-- The entry of a block; none is FREE (R91). -/
def Pool.entry (p : Pool) (b : BlockId) : Option Owned := (p.owned.find? fun e => e.1 == b).map (·.2)

/-- The OWNED entries with one put in, by rising block number. -/
def putOwned : List (BlockId × Owned) → BlockId → Owned → List (BlockId × Owned)
  | [], b, o => [(b, o)]
  | e :: l, b, o => if b < e.1 then (b, o) :: e :: l else if b = e.1 then (b, o) :: l else e :: putOwned l b o

/-- The pool with the check state of an OWNED block set. -/
def Pool.setCheck (p : Pool) (b : BlockId) (c : Check) : Pool :=
  { p with owned := p.owned.map fun e => if e.1 = b then (e.1, { e.2 with check := c }) else e }

/-- OWNED blocks with check state BAD (R103). -/
def Pool.bad (p : Pool) : Nat :=
  (p.owned.filter fun e => match e.2.check with
    | .bad _ => true
    | _ => false).length

/-! ### The check word (R102) -/

/-- One shift of the register. -/
def crcShift (r : Word) : Word := if r.getLsbD 0 then (r >>> 1) ^^^ 0x82F63B78 else r >>> 1

/-- One byte. -/
def crcByte (r : Word) (b : Byte) : Word :=
  crcShift (crcShift (crcShift (crcShift (crcShift (crcShift (crcShift (crcShift (r ^^^ b.setWidth 32))))))))

/-- The check word over a list of bytes; not inverted. -/
def crcBytes (l : List Byte) : Word := l.foldl crcByte 0xFFFFFFFF

/-- The 8,192 bytes of a block in frame order, each sample low byte first. -/
def Memory.blockBytes (m : Memory) (b : BlockId) : List Byte :=
  (List.range 8192).map fun i => (m.blockCells b).read (b.val * 8192 + i)

/-- The check word of a block as it stands. -/
def State.checkWord (s : State) (b : BlockId) : Word := crcBytes (s.mem.blockBytes b)

/-- A block is closed: its check word is computed over its contents and its check state is VALID (R101, step 2). -/
def State.closeBlock (s : State) (b : BlockId) : State :=
  { s with pool := s.pool.setCheck b (.valid (s.checkWord b)) }

/-- A block is reopened (R92). -/
def State.reopenBlock (s : State) (b : BlockId) : State := { s with pool := s.pool.setCheck b .none }

/-! ### Claims (R94) -/

/-- Who claims (R98). -/
inductive Claimant where
  | head (h : HeadId)
  | bounce
  deriving DecidableEq, Repr

/-- A claimant's code (R98). -/
def Claimant.code : Claimant → Byte
  | .head h => headCode h
  | .bounce => 2

/-- A map with an entry named: set if the index is within the map, else appended (R76, R94). -/
def nameEntry (map : List (Option BlockId)) (k : Nat) (b : BlockId) : List (Option BlockId) :=
  if k < map.length then map.set k (some b) else map ++ [some b]

/-- The free count as the claims of the frame find it: without the blocks freed behind them (R97). -/
def Pool.claimable (p : Pool) : Nat := p.free.length - p.behind.getD 0

/-- The POOL_LOW test after an allocation (R98). -/
def State.lowTest (s : State) (c : Claimant) (x : LayerId) : State :=
  if s.pool.claimable < 128 ∧ s.pool.lowArmed = true then
    State.report { s with pool := { s.pool with lowArmed := false } } .poolLow
      (le2 s.pool.claimable ++ [c.code, numByte x])
  else s

/-- The POOL_EMPTY test after a head's failed claim (R99). -/
def State.emptyTest (s : State) (h : HeadId) (t : TrackId) (x : LayerId) (k : Nat) (cut : Bool) : State :=
  if s.pool.emptyArmed = true then
    State.report { s with pool := { s.pool with emptyArmed := false } } .poolEmpty
      ([headCode h, numByte t, numByte x] ++ le2 k ++ [flagByte cut])
  else s

/-- The block is removed from the head of the free list and allocated to a layer and an index, whose entry then names
it (R94, R92). -/
def State.allocate (s : State) (c : Claimant) (x : LayerId) (k : Nat) (b : BlockId) (rest : List BlockId) : State :=
  State.lowTest
    (State.modLayer
      { s with pool := { s.pool with free := rest, owned := putOwned s.pool.owned b { owner := x, index := k, check := .none } } }
      x fun l => { l with map := nameEntry l.map k b })
    c x

/-- A claim is refused: no block is free to it, or the bounce engine would leave fewer than 32 (R94, R96). -/
def Pool.refuses (p : Pool) (c : Claimant) : Bool := p.claimable = 0 || (c = .bounce && p.claimable ≤ 32)

/-- A claim: served with the head block of the free list, or refused (R94). -/
def State.claim (s : State) (c : Claimant) (x : LayerId) (k : Nat) : Option (BlockId × State) :=
  match s.pool.free with
  | [] => none
  | b :: rest => if s.pool.refuses c then none else some (b, s.allocate c x k b rest)

/-! ### Frees (R93, R100) -/

/-- Both reports are armed where a condition holds. -/
def Pool.arm (p : Pool) (on : Bool) : Pool := { p with lowArmed := p.lowArmed || on, emptyArmed := p.emptyArmed || on }

/-- Blocks become FREE and join the tail in the order given; a free that leaves 192 or more arms both reports (R100), one
behind the claims of the frame once those are made (R97). -/
def Pool.release (p : Pool) (bs : List BlockId) : Pool :=
  let free := p.free ++ bs
  { p.arm (bs ≠ [] && p.behind.isNone && decide (192 ≤ free.length)) with
    owned := p.owned.filter fun e => !bs.contains e.1
    free := free
    behind := p.behind.map (· + bs.length) }

/-- The claims of the frame come ahead of the frees from here on (R97; log 5). -/
def Pool.claimsFirst (p : Pool) : Pool := { p with behind := some (p.behind.getD 0) }

/-- The frees behind the claims are taken: they arm the reports as every free does (R97, R100). -/
def Pool.takeBehind (p : Pool) : Pool := p.arm (p.behind.getD 0 ≠ 0 && decide (192 ≤ p.free.length))

/-- The claims of the frame are made, and the frees behind them taken (R97). -/
def Pool.served (p : Pool) : Pool := { p.takeBehind with behind := none }

/-- A request sees the frees so far and no claim of the frame, so those frees come ahead of the claims (R97; log 49). -/
def Pool.seen (p : Pool) : Pool := { p.takeBehind with behind := p.behind.map fun _ => 0 }

/-- Blocks are freed. -/
def State.freeBlocks (s : State) (bs : List BlockId) : State := { s with pool := s.pool.release bs }

/-- The free list rebuilt: every FREE block in ascending order, and both reports armed (R107). -/
def Pool.rebuild (p : Pool) : Pool :=
  { p with
    free := allBlocks.filter fun b => (p.entry b).isNone
    lowArmed := true
    emptyArmed := true
    behind := none }

end Sys2Proof.Machine
end

