-- ==== Sys2Proof/Machine/Voices.lean ====
section
/-! DEFINITION. Audibility, voices, the wait list, grant passes (chapter 7), and the mute flag and one-shot arming of a
track (R17, R20). -/

namespace Sys2Proof.Machine

/-- A layer record is SEALED and undamaged. -/
def State.soundLayer (s : State) (x : LayerId) : Bool :=
  match s.layer x with
  | some l => l.state = .sealed && !l.damaged
  | none => false

/-- The layers of a track that could sound, bottom to top (R20). -/
def State.soundLayers (s : State) (t : TrackId) : List LayerId := (s.track t).stack.filter s.soundLayer

/-- The transport is RUNNING, its start instant is taken (log 8), and the halt latch is clear. -/
def State.playing (s : State) : Bool := s.moving && !s.sup.latch

/-- A track is audible (R20). -/
def State.trackAudible (s : State) (t : TrackId) : Bool :=
  !(s.track t).mute && s.playing && s.soundLayers t ≠ []

/-- A layer of a track is audible (R128). -/
def State.audible (s : State) (t : TrackId) (x : LayerId) : Bool :=
  s.soundLayer x && (s.track t).stack.contains x && !(s.track t).mute && s.playing

/-- A one-shot track is armed; a self-mute that is due is then not made (R20, R21). -/
def State.armOneShot (s : State) (t : TrackId) : State :=
  if (s.track t).oneShot then
    s.modTrack t fun r => { r with remaining := s.trackFrames t, selfMuteDue := false }
  else s

/-! ### The voice pool and the wait list (R129, R130) -/

/-- The lowest-numbered FREE voice. -/
def Mix.freeVoice (m : Mix) : Option VoiceId := (List.finRange 24).find? fun v => (m.voices.get v).isNone

/-- How many voices are HELD. -/
def Mix.held (m : Mix) : Nat := (m.voices.toList.filter Option.isSome).length

/-- How many voices are FREE. -/
def Mix.freeVoices (m : Mix) : Nat := 24 - m.held

/-- The voice a layer holds. -/
def Mix.voiceOf (m : Mix) (x : LayerId) : Option VoiceId :=
  (List.finRange 24).find? fun v => m.voices.get v = some x

/-- A layer is on the wait list. -/
def Mix.waits (m : Mix) (x : LayerId) : Bool := m.wait.any fun w => w.layer = x

/-- A voice given to a layer, which sounds from the next frame (R132, R136; log 53). -/
def Mix.give (m : Mix) (v : VoiceId) (x : LayerId) : Mix :=
  { m with voices := m.voices.set v.val (some x) v.isLt, fresh := x :: m.fresh }

/-- A layer's voice handed over to another, which sounds where the first did (R133). -/
def Mix.hand (m : Mix) (v : VoiceId) (x p : LayerId) : Mix :=
  { m with voices := m.voices.set v.val (some p) v.isLt, fresh := m.fresh.map fun z => if z = x then p else z }

/-- A layer's voice becomes FREE, and the layer leaves the wait list (R134). -/
def Mix.drop (m : Mix) (x : LayerId) : Mix :=
  { m with
    voices := m.voices.map fun v => if v = some x then none else v
    wait := m.wait.filter fun w => w.layer ≠ x }

/-- Every voice FREE and the wait list empty (R135). -/
def Mix.clear (m : Mix) : Mix := { m with voices := Vector.replicate 24 none, wait := [], fresh := [] }

/-- The next frame's mix: the voices given in this one sound, and what its request has changed acts (R22, R23, R132, R136,
R143, R166; logs 44 and 53). -/
def Mix.nextFrame (m : Mix) : Mix := { m with fresh := [], heard := .same }

/-- A layer's voice is released, or it leaves the wait list (R134). -/
def State.releaseVoice (s : State) (x : LayerId) : State := { s with mix := s.mix.drop x }

/-- The keys of a layer on the wait list: track, then place on its stack (R130). -/
def State.waitKey (s : State) (x : LayerId) : Nat :=
  match s.layer x with
  | some l => l.track.val * 64 + s.stackPos l.track x
  | none => 0

/-- The wait list with an entry at the place its keys give (R130). -/
def insertWaiting (key : LayerId → Nat) (e : Waiting) : List Waiting → List Waiting
  | [] => [e]
  | w :: ws => if key e.layer < key w.layer then e :: w :: ws else w :: insertWaiting key e ws

/-- A layer joins the wait list with the current song bar as its stamp, a BAR boundary of this frame that is not taken yet
counted as taken (R130; log 41). -/
def State.joinWait (s : State) (x : LayerId) : State :=
  { s with mix := { s.mix with wait := insertWaiting s.waitKey { layer := x, stamp := s.songBarNow } s.mix.wait } }

/-- VOICE_WAIT for a layer on the list (R138). -/
def State.reportWait (s : State) (t : TrackId) (x : LayerId) : State :=
  s.report .voiceWait
    [numByte x, numByte t, byte (s.stackPos t x), byte (s.mix.wait.findIdx fun w => w.layer == x),
      byte s.mix.wait.length, byte s.mix.freeVoices]

/-- A claim of a layer of a track, made only if it is audible (R131, R132). Before the start instant's pass it joins
the list as the start instant's own joins do (R137). -/
def State.claimVoice (s : State) (t : TrackId) (x : LayerId) : State :=
  if s.audible t x = false ∨ (s.mix.voiceOf x).isSome = true ∨ s.mix.waits x = true then s
  else if s.bnd.grant = .start then s.joinWait x
  else
    match s.mix.freeVoice, s.mix.wait with
    | some v, [] => State.armOneShot { s with mix := s.mix.give v x } t
    | _, _ => (s.joinWait x).reportWait t x

/-- VOICE_GRANT (R138). -/
def State.reportGrant (s : State) (w : Waiting) (v : VoiceId) : State :=
  match s.layer w.layer with
  | some l =>
    s.report .voiceGrant
      ([numByte w.layer, numByte l.track, byte (s.stackPos l.track w.layer), numByte v] ++ le2 w.stamp.toNat
        ++ [byte s.mix.wait.length])
  | none => s

/-- The track of a layer on the wait list is armed when the layer is granted a voice (R136, step 4). -/
def State.armGranted (s : State) (x : LayerId) : State :=
  match s.layer x with
  | some l => s.armOneShot l.track
  | none => s

/-- One grant: the front layer gets the lowest FREE voice; the start instant's send no report (R136, R137). -/
def State.grantOne (s : State) (start : Bool) (v : VoiceId) (w : Waiting) (ws : List Waiting) : State :=
  let s1 := { s with mix := { s.mix.give v w.layer with wait := ws } }
  State.armGranted (if start then s1 else s1.reportGrant w v) w.layer

/-- Grants while a voice is FREE and the list is not empty, at most n of them. -/
def State.grantLoop (start : Bool) : Nat → State → State
  | 0, s => s
  | n + 1, s =>
    match s.mix.freeVoice, s.mix.wait with
    | some v, w :: ws => State.grantLoop start n (s.grantOne start v w ws)
    | _, _ => s

/-- VOICE_WAIT for each layer still waiting after the start instant's pass, in list order (R137). -/
def State.reportStillWaiting (s : State) : State :=
  s.mix.wait.foldl (fun s w => match s.layer w.layer with
    | some l => s.reportWait l.track w.layer
    | none => s) s

/-- The grant pass that is due, if one is (R136, R137). -/
def State.grantPass (s : State) : State :=
  match s.bnd.grant with
  | .none => s
  | .normal => State.grantLoop false 24 { s with bnd := { s.bnd with grant := .none } }
  | .start => (State.grantLoop true 24 { s with bnd := { s.bnd with grant := .none } }).reportStillWaiting

/-! ### The mute flag (R17) -/

/-- The muting effect on a track whose flag is off; none on one that is muted (R17). -/
def State.muteTrack (s : State) (t : TrackId) : State :=
  if (s.track t).mute then s
  else (s.track t).stack.foldl State.releaseVoice (s.modTrack t fun r => { r with mute := true })

/-- The unmuting effect on a track whose flag is on; none on one that is not muted (R17). -/
def State.unmuteTrack (s : State) (t : TrackId) : State :=
  if (s.track t).mute then
    let s1 := s.modTrack t fun r => { r with mute := false }
    let s2 := (s.track t).stack.foldl (fun s x => s.claimVoice t x) s1
    if s2.trackAudible t then s2.armOneShot t else s2
  else s

/-- The tracks a target names, ascending (R17, R19). -/
def Target.tracks : Target → List TrackId
  | .track t => [t]
  | .all => List.finRange 8

end Sys2Proof.Machine
end

