-- ==== Sys2Proof/Machine/Layers.lean ====
section
/-! DEFINITION. Taking and freeing layer records, the loop length's clearing, and the discard of a redo list
(R4, R6, R13, R35, R70). -/

namespace Sys2Proof.Machine

/-- The block an entry of a layer's map names, if it names one. -/
def State.mapEntry (s : State) (x : LayerId) (i : Nat) : Option BlockId :=
  match s.layer x with
  | some l => (l.map[i]?).join
  | none => none

/-- How many blocks a layer's map names. -/
def State.blocksOf (s : State) (x : LayerId) : Nat :=
  match s.layer x with
  | some l => (namedBlocks l.map).length
  | none => 0

/-- LOOP_SET with the values that stand (R45). -/
def State.reportLoop (s : State) : State :=
  s.report .loopSet
    ([flagByte s.clock.loop.isSome, byte (s.clock.loop.getD 0)] ++ le4 s.clock.loopFrames)

/-- L becomes not established: m becomes 0 and the loop position its value modulo bar frames (R35), with LOOP_SET. -/
def State.clearLoop (s : State) : State :=
  match s.clock.loop with
  | none => s
  | some _ =>
    State.reportLoop
      { s with clock := { s.clock with loop := none, bar := 0, loopPos := s.clock.loopPos % s.clock.barFrames } }

/-- A layer record is taken (R4), stamped with the bar in which the recording starts (R71). -/
def State.takeRecord (s : State) (x : LayerId) (t : TrackId) (origin : Origin) (map : List (Option BlockId))
    (mask : Option (BitVec 4)) (parents : List LayerId) : State :=
  s.setLayer x
    (some { state := .filling, track := t, origin := origin, map := map, level := 128, startStamp := s.songBarNow
            sealStamp := none, mask := mask, parents := parents, clip := 0, gapped := false, damaged := false
            pin := none })

/-- A layer is pushed on top of a track's stack. -/
def State.pushLayer (s : State) (t : TrackId) (x : LayerId) : State :=
  s.modTrack t fun r => { r with stack := r.stack ++ [x] }

/-- A layer is taken off the stack or the redo list that holds it. -/
def State.unlist (s : State) (t : TrackId) (x : LayerId) : State :=
  s.modTrack t fun r => { r with stack := r.stack.filter (· ≠ x), redo := r.redo.filter (· ≠ x) }

/-- A layer record is freed (R6). -/
def State.freeLayer (s : State) (x : LayerId) : State :=
  match s.layer x with
  | none => s
  | some l =>
    let s1 := (((s.unlist l.track x).freeBlocks (namedBlocks l.map)).setLayer x none).releaseVoice x
    let s2 := s1.trimSpan l.track
    if s2.inUse = [] then s2.clearLoop else s2

/-- LAYER_DISCARDED (R88). -/
def State.reportDiscard (s : State) (t : TrackId) (x : LayerId) (reason : DiscardReason) (blocks : Nat) : State :=
  s.report .layerDiscarded ([numByte t, numByte x, reason.code] ++ le2 blocks)

/-- A layer is freed with LAYER_DISCARDED. -/
def State.discardLayer (s : State) (t : TrackId) (x : LayerId) (reason : DiscardReason) : State :=
  (s.freeLayer x).reportDiscard t x reason (s.blocksOf x)

/-- A track's redo list is discarded, front to back (R70, R73, R116). -/
def State.discardRedo (s : State) (t : TrackId) : State :=
  (s.track t).redo.foldl (fun s x => s.discardLayer t x .redoDropped) s

/-- A layer becomes SEALED with the current song bar as its seal stamp (R87). Where a BAR boundary of the frame is not taken
yet, sealEndRec and sealAhead have its song bar standing; a bounce completed ahead of it carries the bar before (log 41). -/
def State.sealLayer (s : State) (x : LayerId) : State :=
  s.modLayer x fun l => { l with state := .sealed, sealStamp := some s.clock.songBar }

end Sys2Proof.Machine
end

