-- ==== Sys2Proof/Machine/BounceOps.lean ====
section
/-! DEFINITION. The bounce engine: its queue, pins and reservations, running, completion, abort and the auto-fold
(chapter 6). -/

namespace Sys2Proof.Machine

/-- A bounce's mode code (R110). -/
def Bounce.modeCode (e : Bounce) : Byte := flagByte e.fold

/-- A bounce's origin code (R118). -/
def Bounce.originCode (e : Bounce) : Byte := flagByte e.auto

/-- A layer's pin is set or cleared (R8). -/
def State.setPin (s : State) (pin : Option Byte) (x : LayerId) : State := s.modLayer x fun l => { l with pin := pin }

/-- The pins on a list of sources. -/
def State.setPins (s : State) (pin : Option Byte) (xs : List LayerId) : State := xs.foldl (fun s x => s.setPin pin x) s

/-- The map length of a layer. -/
def State.mapLen (s : State) (x : LayerId) : Nat :=
  match s.layer x with
  | some l => l.map.length
  | none => 0

/-! ### Joining and leaving the queue -/

/-- An entry joins the tail of the queue: it takes an id, its sources are pinned, and a COPY reserves a place on its
destination (R108, R112). An entry that becomes the head starts in the next frame (R113). -/
def State.enqueueBounce (s : State) (fold auto : Bool) (sources : List LayerId) (dest : TrackId)
    (levels muteSources : Bool) : State :=
  let id := s.bounce.nextId
  let n := match sources with
    | x :: _ => s.mapLen x
    | [] => 0
  let e : Bounce :=
    { id := id, fold := fold, auto := auto, sources := sources, dest := dest, levels := levels
      muteSources := muteSources, mapLen := n, run := none, joined := true }
  let s1 := s.setPins (some id) sources
  let s2 := if fold then s1 else s1.modTrack dest fun r => { r with reservations := r.reservations + 1 }
  { s2 with
    bounce := { s2.bounce with
      queue := s2.bounce.queue ++ [e]
      nextId := id + 1
      headFresh := s2.bounce.headFresh || s2.bounce.queue.isEmpty } }

/-- An abort's product, if the entry has one, is freed (R118, step 1). -/
def State.freeProduct (s : State) (e : Bounce) : State :=
  match e.run with
  | some r => s.freeLayer r.product
  | none => s

/-- The blocks an abort of an entry returns. -/
def State.productBlocks (s : State) (e : Bounce) : Nat :=
  match e.run with
  | some r => s.blocksOf r.product
  | none => 0

/-- A COPY's reservation is removed (R118, step 3). -/
def State.unreserve (s : State) (e : Bounce) : State :=
  if e.fold then s
  else (s.modTrack e.dest fun r => { r with reservations := r.reservations - 1 }).trimSpan e.dest

/-- The entry at a place leaves the queue; the one that becomes the head starts in the frame after (R113). -/
def State.removeBounce (s : State) (i : Nat) : State :=
  { s with
    bounce := { s.bounce with queue := s.bounce.queue.eraseIdx i, headFresh := s.bounce.headFresh || i = 0 } }

/-- BOUNCE_ABORTED (R118). -/
def State.reportAbort (s : State) (e : Bounce) (cause : AbortCause) (blocks : Nat) : State :=
  let progress := match e.run with
    | some r => r.progress
    | none => 0
  s.report .bounceAborted
    ([e.id, e.modeCode, e.originCode, cause.code, cause.reason.byte, flagByte e.run.isSome] ++ le2 progress
      ++ le2 blocks)

/-- The entry at a place of the queue is aborted (R118). -/
def State.abortBounce (s : State) (i : Nat) (cause : AbortCause) : State :=
  match s.bounce.queue[i]? with
  | none => s
  | some e =>
    ((((s.freeProduct e).setPins none e.sources).unreserve e).removeBounce i).reportAbort e cause (s.productBlocks e)

/-- Every entry that a test gives a cause for is aborted, in queue order, at most n of them (R119). -/
def State.abortWhere (f : State → Bounce → Option AbortCause) : Nat → State → State
  | 0, s => s
  | n + 1, s =>
    match s.bounce.queue.findIdx? fun e => (f s e).isSome with
    | none => s
    | some i =>
      match (s.bounce.queue[i]?).bind (f s) with
      | none => s
      | some cause => State.abortWhere f n (s.abortBounce i cause)

/-- Every entry of the queue that a test gives a cause for is aborted. -/
def State.abortBounces (s : State) (f : State → Bounce → Option AbortCause) : State :=
  State.abortWhere f s.bounce.queue.length s

/-- An entry has a source on a track. -/
def State.hasSourceOn (s : State) (t : TrackId) (e : Bounce) : Bool :=
  e.sources.any fun x => (s.layer x).map (·.track) = some t

/-! ### The auto-fold (R122, R123) -/

/-- A layer may be a source of an auto-fold: SEALED, unpinned and undamaged. -/
def State.eligible (s : State) (x : LayerId) : Bool :=
  match s.layer x with
  | some l => l.state = .sealed && l.pin = none && !l.damaged
  | none => false

/-- A FOLD on a track is in the queue. -/
def State.foldQueued (s : State) (t : TrackId) : Bool := s.bounce.queue.any fun e => e.fold && e.dest = t

/-- The auto-fold check on a track. -/
def State.autoFold (s : State) (t : TrackId) : State :=
  let n := (s.track t).stack.length
  if s.bounce.threshold = 0 ∨ n < s.bounce.threshold ∨ s.foldQueued t = true then s
  else
    match (s.track t).stack.filter s.eligible with
    | x :: y :: _ =>
      if s.bounce.queue.length = 4 then
        s.report .foldSkipped [numByte t, byte n, byte s.bounce.threshold, 4]
      else s.enqueueBounce true true [x, y] t true false
    | _ => s

/-! ### Running (R113, R114) -/

/-- The entry at the head of the queue. -/
def State.headBounce (s : State) : Option Bounce := s.bounce.queue.head?

/-- The run of the entry at the head of the queue. -/
def State.running (s : State) : Option Run := s.headBounce.bind (·.run)

/-- The run of the entry at the head replaced. -/
def State.setRun (s : State) (r : Run) : State :=
  { s with
    bounce := { s.bounce with
      queue := match s.bounce.queue with
        | [] => []
        | e :: q => { e with run := some r } :: q } }

/-- An entry's level snapshot (R113, step 2). -/
def State.snapshot (s : State) (e : Bounce) : List Byte :=
  e.sources.map fun x => ((s.layer x).map (·.level)).getD 0

/-- A sample of a product's block: the saturating sum over the sources (R114). -/
def State.bounceSample (s : State) (e : Bounce) (r : Run) (f : Nat) : Sample :=
  toSample <| satSum <| (e.sources.zip r.snapshot).map fun p =>
    match s.mapEntry p.1 r.progress with
    | none => 0
    | some b =>
      let x := (s.mem.sample b f).toInt
      if e.levels then applyLevel p.2 x else x

/-- One frame's four samples of the product's block, if it has one at this index (R114). -/
def State.fillFrame (s : State) (e : Bounce) (r : Run) : State :=
  match s.mapEntry r.product r.progress with
  | none => s
  | some b =>
    { s with
      mem := [0, 1, 2, 3].foldl
        (fun m j => m.writeSample b (4 * r.frames + j) (s.bounceSample e r (4 * r.frames + j))) s.mem }

/-- The bounce engine's work in one frame (R114): an index that is to begin becomes due, one that is being filled gets
four samples. -/
def State.bounceFrame (s : State) : State :=
  match s.headBounce with
  | none => s
  | some e =>
    match e.run with
    | none => s
    | some r =>
      match r.phase with
      | .toBegin => s.setRun { r with phase := .beginDue }
      | .beginDue => s
      | .filling => if r.frames < 1024 then (s.fillFrame e r).setRun { r with frames := r.frames + 1 } else s

/-- The bounce at the head is due to start (R113). -/
def State.bounceStartDue (s : State) : Bool :=
  s.sup.state = .ready && s.headBounce.isSome && s.running.isNone && !s.bounce.headFresh

/-- The start of the bounce at the head (R113). -/
def State.startBounce (s : State) (e : Bounce) : State :=
  match s.freeRecord with
  | none => s.abortBounce 0 .noLayer
  | some x =>
    (s.takeRecord x e.dest .bounce (List.replicate e.mapLen none) none e.sources).setRun
      { snapshot := s.snapshot e, product := x, progress := 0, frames := 0, blocks := 0, phase := .toBegin }

/-- The head became so by what happened at the end of the frame before, so it may start in this one (R113), unless it joined
the queue in this one: it starts no earlier than the frame after (R112, R122; log 9). -/
def State.unfreshHead (s : State) : State :=
  { s with bounce := { s.bounce with headFresh := s.bounce.queue.head?.any (·.joined) } }

/-- The auto-fold check of a completion, which fell at the end of the frame before: an entry it puts at the head may start in
this one (R113, R117; log 9). -/
def State.autoFoldAtEnd (s : State) (t : TrackId) : State :=
  { s.autoFold t with bounce := { (s.autoFold t).bounce with headFresh := s.bounce.headFresh } }

/-- The claim of a completion, which fell at the end of the frame before: the product sounds from this one (R114, R131, R132;
log 53). -/
def State.claimAtEnd (s : State) (t : TrackId) (p : LayerId) : State :=
  { s.claimVoice t p with mix := { (s.claimVoice t p).mix with fresh := s.mix.fresh } }

/-- Every source is SILENT at the run's index. -/
def State.allSilent (s : State) (e : Bounce) (r : Run) : Bool := e.sources.all fun x => (s.mapEntry x r.progress).isNone

/-- The begin of an index: its claim, and its first frame (R114). -/
def State.beginIndex (s : State) (e : Bounce) (r : Run) : State :=
  if s.allSilent e r then s.setRun { r with phase := .filling, frames := 1 }
  else
    match s.claim .bounce r.product r.progress with
    | none => (s.abortBounce 0 .noBlocks).unfreshHead
    | some (_, s1) => (s1.fillFrame e r).setRun { r with phase := .filling, frames := 1, blocks := r.blocks + 1 }

/-- The claims of the frame are made (R97). -/
def State.claimsServed (s : State) : State := { s with pool := s.pool.served }

/-- A claim of the bounce engine is outstanding, from the frame that has ended. -/
def State.beginIsDue (s : State) : Bool := s.isReady && s.running.map (·.phase) = some .beginDue

/-- The running bounce's index begins, where that is due: the last claim of the frame that has ended (R95, R114; log 9). -/
def State.beginHead (s : State) : State :=
  match s.headBounce with
  | none => s
  | some e =>
    match e.run with
    | none => s
    | some r => if s.isReady = true ∧ r.phase = .beginDue then (s.beginIndex e r).claimsServed else s

/-! ### Completion (R115..R117, R121) -/

/-- BOUNCE_DONE's voice code (R121). -/
def State.voiceCode (s : State) (p : LayerId) (handed : Bool) : Byte :=
  if handed then 1
  else if (s.mix.voiceOf p).isSome then 2
  else if s.mix.waits p && Config.waitingCountsAsClaimed then 2
  else 0

/-- BOUNCE_DONE (R121). -/
def State.reportDone (s : State) (e : Bounce) (r : Run) (freed : Nat) (handed : Bool) : State :=
  s.report .bounceDone
    ([e.id, e.modeCode, e.originCode, numByte r.product, numByte e.dest, byte (s.stackPos e.dest r.product)]
      ++ le2 e.mapLen ++ le2 r.blocks ++ [byte freed, s.voiceCode r.product handed])

/-- The lower of a FOLD's two sources on the stack, and the upper (R115). -/
def State.foldPair (s : State) (e : Bounce) : Option (LayerId × LayerId) :=
  match e.sources with
  | [a, b] => if s.stackPos e.dest a < s.stackPos e.dest b then some (a, b) else some (b, a)
  | _ => none

/-- The product takes the lower source's place on the stack, and the upper source leaves it (R115, step 1). -/
def State.placeFold (s : State) (t : TrackId) (x y p : LayerId) : State :=
  (s.modTrack t fun r => { r with stack := (r.stack.map fun z => if z = x then p else z).filter (· ≠ y) }).sealLayer p

/-- The lower source's voice passes to the product, or it leaves the wait list (R115, step 2; R133). -/
def State.handVoice (s : State) (x p : LayerId) : State :=
  match s.mix.voiceOf x with
  | some v => { s with mix := s.mix.hand v x p }
  | none => s.releaseVoice x

/-- A FOLD completes (R115). -/
def State.completeFold (s : State) (e : Bounce) (r : Run) : State :=
  match s.foldPair e with
  | none => s
  | some (x, y) =>
    let handed := (s.mix.voiceOf x).isSome
    let s1 := (s.placeFold e.dest x y r.product).handVoice x r.product
    let s2 := ((s1.freeLayer x).freeLayer y).claimAtEnd e.dest r.product
    (((s2.armOneShot e.dest).removeBounce 0).reportDone e r 2 handed).unfreshHead

/-- The product of a COPY is placed on the destination: below a FILLING top, else on top (R116). -/
def State.placeCopy (s : State) (d : TrackId) (p : LayerId) : State :=
  (s.modTrack d fun r =>
    { r with
      stack := if s.trackState d = .dub then r.stack.dropLast ++ [p] ++ r.stack.getLast?.toList else r.stack ++ [p]
      reservations := r.reservations - 1 }).sealLayer p

/-- The tracks that hold a source, other than the destination, are muted in ascending order (R117, step 2). -/
def State.muteSourceTracks (s : State) (e : Bounce) : State :=
  if e.muteSources then
    ((List.finRange 8).filter fun t => t ≠ e.dest && s.hasSourceOn t e).foldl State.muteTrack s
  else s

/-- A COPY completes (R116, R117). -/
def State.completeCopy (s : State) (e : Bounce) (r : Run) : State :=
  let dropped := (s.track e.dest).redo.length
  let s1 := ((s.discardRedo e.dest).placeCopy e.dest r.product).setPins none e.sources
  let s2 := ((s1.muteSourceTracks e).claimAtEnd e.dest r.product).armOneShot e.dest
  (((s2.removeBounce 0).reportDone e r dropped false).unfreshHead).autoFoldAtEnd e.dest

/-- The finish of an index: its block is closed and the progress index rises, completing the bounce at the map length
(R114). -/
def State.finishIndex (s : State) (e : Bounce) (r : Run) : State :=
  let s1 := match s.mapEntry r.product r.progress with
    | some b => s.closeBlock b
    | none => s
  let r1 : Run := { r with progress := r.progress + 1, frames := 0, phase := .toBegin }
  let s2 := s1.setRun r1
  if r1.progress < e.mapLen then s2 else if e.fold then s2.completeFold e r1 else s2.completeCopy e r1

end Sys2Proof.Machine
end

