-- ==== Sys2Proof/Machine/Recorder.lean ====
section
/-! DEFINITION. The recorder: starting, writing, ending, cutting, sealing and discarding (chapter 4). -/

namespace Sys2Proof.Machine

/-- The supply guard refuses a start (R74). -/
def State.guardRefuses (s : State) : Bool := s.sup.low && s.sup.guard

/-! ### Closing blocks (R77, R101) -/

/-- The block being written is closed: the frames past the last one written are set to zero, unless the block was
reopened at a wrap, and the check word is computed. -/
def State.closeOpen (s : State) (r : Recording) : State :=
  if r.stalled then s
  else
    match r.index.bind (s.mapEntry r.layer) with
    | none => s
    | some b =>
      State.closeBlock (if r.reopened then s else { s with mem := s.mem.clearFrames b r.written 4096 }) b

/-! ### Sealing and discarding (R87, R88) -/

/-- LAYER_SEALED (R87). -/
def State.reportSealed (s : State) (h : HeadId) (r : Recording) (reason : SealReason) (bars : Nat) : State :=
  match s.layer r.layer with
  | none => s
  | some l =>
    s.report .layerSealed
      ([numByte r.track, numByte r.layer, headCode h, reason.code] ++ le2 l.map.length ++ [byte bars, flagByte l.gapped]
        ++ le2 l.clip)

/-- What follows a seal: the claim, the one-shot and the auto-fold check (R87, steps 5 to 7). -/
def State.afterSeal (s : State) (r : Recording) : State :=
  ((s.claimVoice r.track r.layer).armOneShot r.track).autoFold r.track

/-- The layer seals; the head takes the given record, IDLE unless a chain continues (R87, steps 2 to 7). -/
def State.sealRecording (s : State) (h : HeadId) (r : Recording) (reason : SealReason) (bars : Nat) : State :=
  (((s.sealLayer r.layer).setHead h none).reportSealed h r reason bars).afterSeal r

/-- A recording's layer is discarded and the head goes IDLE (R88). -/
def State.discardRecording (s : State) (h : HeadId) (r : Recording) (reason : DiscardReason) : State :=
  (s.setHead h none).discardLayer r.track r.layer reason

/-- The whole bars of a defining recording (R79). -/
def State.wholeBars (s : State) (r : Recording) : Nat := r.writeOffset / s.clock.barFrames

/-- A defining recording's map is shortened to k bars, and the blocks past them are freed (R85). -/
def State.shortenMap (s : State) (x : LayerId) (k : Nat) : State :=
  match s.layer x with
  | none => s
  | some l =>
    let n := blocksFor (k * s.clock.barFrames)
    State.freeBlocks (s.setLayer x (some { l with map := l.map.take n })) (namedBlocks (l.map.drop n))

/-- L becomes established with k bars, the loop position standing at the given frame (R34, R13, R10). -/
def State.establish (s : State) (k pos : Nat) : State :=
  State.reportLoop (State.zeroPasses { s with clock := { s.clock with loop := some k, bar := 0, loopPos := pos } })

/-- A defining recording seals with L = k (R79, R85, R87). -/
def State.sealDefining (s : State) (h : HeadId) (r : Recording) (k pos : Nat) (reason : SealReason) : State :=
  (((s.shortenMap r.layer k).closeOpen r).establish k pos).sealRecording h r reason k

/-- The loop position of a seal taken while RUNNING: the frames since the most recent BAR boundary (R34). -/
def State.framesSinceBar (s : State) : Nat := s.clock.loopPos % s.clock.barFrames

/-- A fixed or overdub recording seals at once; with no frame advanced it is discarded (R81, R84, R86). -/
def State.sealNow (s : State) (h : HeadId) (r : Recording) (reason : SealReason) : State :=
  if r.writeOffset = 0 then s.discardRecording h r .empty
  else (s.closeOpen r).sealRecording h r reason 0

/-- The cut of a defining recording (R85). -/
def State.cutDefining (s : State) (h : HeadId) (r : Recording) (pos : Nat) (reason : SealReason) : State :=
  if s.wholeBars r = 0 then s.discardRecording h r .noBar else s.sealDefining h r (s.wholeBars r) pos reason

/-- The loop position that a cut by a stop or a halt leaves: the seal may be taken before or after the stop (R34, R85;
log 10). -/
def State.cutPosition (s : State) : Nat := if Config.cutWhileRunning s.freeCount then s.framesSinceBar else 0

/-- A stop or a halt cuts a head (R85, R86). -/
def State.cutHead (s : State) (reason : SealReason) (h : HeadId) : State :=
  match s.head h with
  | none => s
  | some r =>
    match r.mode with
    | .defining => State.cutDefining { s with freeCount := s.freeCount + 1 } h r s.cutPosition reason
    | _ => s.sealNow h r reason

/-- A stop or a halt cuts every busy head (R85, R86), H0 before H1: an order of the model's, which is that of the reports, the
auto-fold entries and the bounce ids of the two seals too (log 11). -/
def State.cutHeads (s : State) (reason : SealReason) : State := (s.cutHead reason .h0).cutHead reason .h1

/-! ### Starting (R69..R73) -/

/-- A recording's start: the record is taken, the layer pushed and the head given (R70, R73). -/
def State.beginRecording (s : State) (h : HeadId) (x : LayerId) (origin : Origin) (map : List (Option BlockId))
    (r : Recording) : State :=
  (((s.takeRecord x r.track origin map (some r.mask) []).pushLayer r.track x).setHead h (some r))

/-- A full pending slot is emptied without being applied (R38). Where the pair was due at a BAR boundary of this frame, nothing
is due there any more: a pair staged later in the frame waits for the next one (R37; log 51). -/
def State.dropTempo (s : State) : State :=
  match s.clock.pendingTempo with
  | none => s
  | some (p, b) =>
    State.report
      { s with clock := { s.clock with pendingTempo := none }, bnd := { s.bnd with tempo := false } } .tempo
      (le2 p ++ [byte b, TempoCause.dropped.code])

/-- A new head record, before its first frame (R67). A head started in the walk of a BAR boundary has no work of the
recorder's at that boundary (atBar off): a silence expiry between the two ends it at the following bar (R89; log 40). -/
def newRecording (t : TrackId) (x : LayerId) (mode : HeadMode) (mask : BitVec 4) (endCond : EndCond) (chain : Bool)
    (offset start : Nat) : Recording :=
  { stalled := false, track := t, layer := x, mode := mode, mask := mask, endCond := endCond, chain := chain
    endPending := .none, writeOffset := offset, startPos := start, index := none, written := 0, reopened := false
    atBar := false }

/-- A DEFINING recording starts (R71). -/
def State.startDefining (s : State) (h : HeadId) (x : LayerId) (t : TrackId) (bars : Nat) : State :=
  let s1 := (s.gainSpan t .one 0).dropTempo
  s1.beginRecording h x .base (List.replicate (s1.clock.loopPos / 4096) none)
    (newRecording t x .defining (s1.track t).mask (if bars = 0 then .openEnd else .bars bars) false s1.clock.loopPos 0)

/-- A FIXED recording starts (R72). -/
def State.startFixed (s : State) (h : HeadId) (x : LayerId) (t : TrackId) (span : Span) : State :=
  let s1 := s.gainSpan t span 0
  s1.beginRecording h x .base (List.replicate (s1.clock.mapLength span) none)
    (newRecording t x .fixed (s1.track t).mask .length false 0 s1.clock.loopPos)

/-- Every layer record in use lies on a track's redo list (R69, step 5). -/
def State.allOnRedo (s : State) (t : TrackId) : Bool := s.inUse.all fun x => (s.track t).redo.contains x

/-- A REC will be a defining recording (R69, step 5). -/
def State.recDefines (s : State) (t : TrackId) : Bool := s.clock.loop.isNone || s.allOnRedo t

/-- The first check of R69 that fails. -/
def State.recRefusal (s : State) (t : TrackId) (span : Span) : Option Code :=
  if (s.track t).stack ≠ [] ∨ (s.track t).reservations ≠ 0 then some .notEmpty
  else if s.clock.loop = none ∧ s.definingRuns = true then some .loopUnset
  else if s.guardRefuses then some .lowSupply
  else if s.idleHead = none then some .noHead
  else if s.freeRecord = none ∧ (s.track t).redo = [] then some .noLayer
  else if s.recDefines t = false ∧ 1024 < s.clock.mapLength span then some .tooLong
  else none

/-- The start of a REC that passes its checks (R70). -/
def State.startRec (s : State) (t : TrackId) (span : Span) (bars : Nat) : State :=
  let s1 := s.discardRedo t
  match s1.idleHead, s1.freeRecord with
  | some h, some x => if s.recDefines t then s1.startDefining h x t bars else s1.startFixed h x t span
  | _, _ => s

/-- REC executed on a track (R69, R70). -/
def State.doRec (s : State) (t : TrackId) (span : Span) (bars : Nat) : Code × State :=
  match s.recRefusal t span with
  | some c => (c, s)
  | none => (.ok, s.startRec t span bars)

/-- The track position at which a DUB starts, the pass index being the one with which the track leaves this instant. -/
def State.dubStart (s : State) (t : TrackId) : Nat := s.leavingPass t * s.clock.loopFrames + s.clock.loopPos

/-- The full map of a track's span. -/
def State.fullMap (s : State) (t : TrackId) : List (Option BlockId) :=
  List.replicate (blocksFor (s.trackFrames t)) none

/-- The first check of R73 that fails. -/
def State.dubRefusal (s : State) (t : TrackId) : Option Code :=
  if s.trackState t ≠ .play then some .wrongState
  else if (s.track t).places = 6 then some .stackFull
  else if s.guardRefuses then some .lowSupply
  else if s.idleHead = none then some .noHead
  else if s.freeRecord = none ∧ (s.track t).redo = [] then some .noLayer
  else none

/-- The start of a DUB that passes its checks (R73). -/
def State.startDub (s : State) (t : TrackId) (chain : Bool) : State :=
  let s1 := s.discardRedo t
  match s1.idleHead, s1.freeRecord with
  | some h, some x =>
    s1.beginRecording h x .dub (s1.fullMap t)
      (newRecording t x .dub (s1.track t).mask .length chain 0 (s1.dubStart t))
  | _, _ => s

/-- DUB executed on a track (R73). -/
def State.doDub (s : State) (t : TrackId) (chain : Bool) : Code × State :=
  match s.dubRefusal t with
  | some c => (c, s)
  | none => (.ok, s.startDub t chain)

/-! ### Writing (R75, R76, R78) -/

/-- Where a head's next frame falls in its layer: DEFINING by the write offset, FIXED and DUB by the track position
(R75). -/
def State.headPlace (s : State) (r : Recording) : Nat :=
  match r.mode with
  | .defining => r.writeOffset
  | _ => s.trackPos r.track

/-- The saturating sum of the inputs in a mask (R75). -/
def inputSum (mask : BitVec 4) (ins : Vector Sample 4) : Int :=
  satSum ((List.finRange 4).map fun i => if mask.getLsbD i.val then (ins.get i).toInt else 0)

/-- A head that finds no free block: a DEFINING one is cut, another goes STALLED and leaves its layer gapped (R78,
R82, R99). -/
def State.claimFails (s : State) (h : HeadId) (r : Recording) (i : Nat) : State :=
  match r.mode with
  | .defining => (s.emptyTest h r.track r.layer i true).cutDefining h r s.framesSinceBar .pool
  | _ =>
    ((s.modLayer r.layer fun l => { l with gapped := true }).setHead h
      (some { r with stalled := true, index := some i, reopened := false })).emptyTest h r.track r.layer i false

/-- A head enters an index it has no block for (R76). -/
def State.enterNew (s : State) (h : HeadId) (r : Recording) (i f : Nat) : State :=
  match s.claim (.head h) r.layer i with
  | none => s.claimFails h r i
  | some (b, s1) =>
    State.setHead { s1 with mem := s1.mem.clearFrames b 0 f } h
      (some { r with stalled := false, index := some i, written := f, reopened := false })

/-- A head enters a map index: the block it leaves is closed; an index whose entry names a block is reopened (R76,
R77). -/
def State.enterIndex (s : State) (h : HeadId) (r : Recording) (i f : Nat) : State :=
  let s1 := s.closeOpen r
  match s1.mapEntry r.layer i with
  | some b =>
    (s1.reopenBlock b).setHead h (some { r with stalled := false, index := some i, written := f, reopened := true })
  | none => s1.enterNew h r i f

/-- A frame's sample in the block a WRITING head is in, with the clip count (R75). -/
def State.writeHead (s : State) (r : Recording) (i f : Nat) (x : Int) : State :=
  match s.mapEntry r.layer i with
  | none => s
  | some b =>
    State.modLayer { s with mem := s.mem.writeSample b f (toSample x) } r.layer fun l =>
      { l with clip := if (x = -32768 ∨ x = 32767) ∧ l.clip < 65535 then l.clip + 1 else l.clip }

/-- A head advances by one frame (R75). -/
def State.stepHead (s : State) (h : HeadId) (i f : Nat) (ins : Vector Sample 4) : State :=
  match s.head h with
  | none => s
  | some r =>
    State.modHead (if r.stalled then s else s.writeHead r i f (inputSum r.mask ins)) h fun r =>
      { r with writeOffset := r.writeOffset + 1, written := f + 1 }

/-- A head enters the index its next frame falls in, if that is another one (R76). -/
def State.enterHead (s : State) (h : HeadId) : State :=
  match s.head h with
  | none => s
  | some r =>
    let p := s.headPlace r
    if r.index = some (p / 4096) then s else s.enterIndex h r (p / 4096) (p % 4096)

/-- A head's work in a frame: it enters an index, if it has to, and advances. -/
def State.advanceHead (s : State) (ins : Vector Sample 4) (h : HeadId) : State :=
  match s.head h with
  | none => s
  | some r => (s.enterHead h).stepHead h (s.headPlace r / 4096) (s.headPlace r % 4096) ins

/-! ### Ending (R79..R81, R89) -/

/-- How a defining recording of k bars ends by itself at a BAR boundary, but for its end-pending: LIMIT or BARS (R79). -/
def State.autoEnd (s : State) (r : Recording) : Option SealReason :=
  let k := s.wholeBars r
  if k = 0 then none
  else if k = 64 ∨ 4194304 < (k + 1) * s.clock.barFrames then some .limit
  else if r.endCond = .bars k then some .bars
  else none

/-- The reason of an end-pending head's seal (R79, R89). -/
def EndPending.reason : EndPending → Option SealReason
  | .none => Option.none
  | .endRec => some .endRec
  | .autopilot => some .autopilot

/-- A FIXED or DUB recording has reached its track length (R80). -/
def State.lengthReached (s : State) (r : Recording) : Bool :=
  r.mode ≠ .defining && r.writeOffset = s.trackFrames r.track

/-- An end-pending head's seal at a BAR boundary allows now (R79, R89): the reason it seals with. -/
def State.pendingReason (s : State) (r : Recording) : Option SealReason :=
  match r.mode with
  | .defining => if s.wholeBars r = 0 ∨ (s.autoEnd r).isSome = true then none else r.endPending.reason
  | _ => if s.lengthReached r then none else r.endPending.reason

/-- The recorder's own work for a head at a BAR boundary: the LIMIT and BARS ends are taken; a head whose end-pending
is due keeps the boundary for it; any other is done (R79, R89). -/
def State.recorderAtBar (s : State) (h : HeadId) : State :=
  match s.head h with
  | none => s
  | some r =>
    if r.atBar = false then s
    else
      match (if r.mode = .defining then s.autoEnd r else none) with
      | some reason => s.sealDefining h r (s.wholeBars r) 0 reason
      | none => if (s.pendingReason r).isSome then s else s.setHead h (some { r with atBar := false })

/-- An end-pending head seals (R79, R89). -/
def State.sealPending (s : State) (h : HeadId) (r : Recording) (reason : SealReason) : State :=
  match r.mode with
  | .defining => s.sealDefining h r (s.wholeBars r) 0 reason
  | _ => s.sealNow h r reason

/-- The frame is a BAR boundary taken while RUNNING (R81). -/
def State.atBarBoundary (s : State) : Bool :=
  s.bnd.mark = .running && (match s.bnd.taken with
    | some k => k.bar
    | none => false)

/-- An END_REC taken in the frame of a BAR boundary that is not taken yet seals a defining recording at that boundary:
the seal sees the counters the boundary reaches, and the boundary still to come counts as a LOOP boundary (R34, R81, R83;
log 42). -/
def State.sealAhead (s : State) (h : HeadId) (r : Recording) : State :=
  let k := s.wholeBars r
  { s.atNextBar.sealDefining h r k 0 .endRec with
    clock := { s.clock with loop := some k, bar := 0, loopPos := 0, loopSet := true } }

/-- END_REC on a FIXED or DUB recording (R81, R84). In the frame of a BAR boundary that is not taken yet the seal carries
the song bar and the beat that the boundary reaches, which itself still comes (R83, R87; log 42); in the frame of any other
boundary that is not taken yet the counters that stand (log 41). -/
def State.sealEndRec (s : State) (h : HeadId) (r : Recording) : State :=
  if s.barAhead then
    let u := s.atNextBar.sealNow h r .endRec
    { u with clock := { u.clock with tick := s.clock.tick, beat := s.clock.beat, songBar := s.clock.songBar } }
  else s.sealNow h r .endRec

/-- END_REC executed on a track (R81). -/
def State.doEndRec (s : State) (t : TrackId) : Code × State :=
  match s.headOn t with
  | none => (.notRecording, s)
  | some h =>
    match s.head h with
    | none => (.notRecording, s)
    | some r =>
      match r.mode with
      | .defining =>
        if s.atBarBoundary = true ∧ s.wholeBars r ≠ 0 then
          (.ok, s.sealDefining h r (s.wholeBars r) s.framesSinceBar .endRec)
        else if s.barAhead = true ∧ s.wholeBars r ≠ 0 then (.ok, s.sealAhead h r)
        else (.ok, s.setHead h (some { r with endPending := .endRec }))
      | _ => (.ok, s.sealEndRec h r)

/-- A chain continues at the seal of its layer: a stack place, a record and the guard allow it (R80). -/
def State.chainGoesOn (s : State) (r : Recording) : Bool :=
  r.chain && (s.track r.track).places < 6 && s.freeRecord.isSome && !s.guardRefuses

/-- A chain's next layer, on the same head (R80). -/
def State.continueChain (s : State) (h : HeadId) (r : Recording) : State :=
  match s.freeRecord with
  | none => s
  | some x =>
    s.beginRecording h x .dub (s.fullMap r.track)
      (newRecording r.track x .dub r.mask .length r.chain 0 r.startPos)

/-- A FIXED or DUB recording ends at its track length (R80). -/
def State.endAtLength (s : State) (h : HeadId) (r : Recording) : State :=
  let goesOn := s.chainGoesOn r
  let reason : SealReason := if r.chain && !goesOn then .chainEnd else .length
  let s1 := (s.closeOpen r).sealRecording h r reason 0
  if goesOn then s1.continueChain h r else s1

/-- A head is given its end at the next bar (R89). -/
def State.windDown (s : State) (h : HeadId) : State :=
  s.modHead h fun r =>
    { r with
      chain := false
      endPending := if r.endPending = .endRec then .endRec else .autopilot }

end Sys2Proof.Machine
end

