-- ==== Sys2Proof/Machine/SceneOps.lean ====
section
/-! DEFINITION. The scene sequencer: application, countdown, the targets of an advance, going IDLE (chapter 8), and the
BAR report (R45). -/

namespace Sys2Proof.Machine

/-- The sequencer goes IDLE in one step (R145). -/
def Sequencer.idle (q : Sequencer) : Sequencer :=
  { q with current := none, bars := .count 0, due := none, slot := none }

/-- The sequencer goes IDLE. -/
def State.scenesIdle (s : State) : State := { s with scenes := s.scenes.idle }

/-- The tracks' mute flags, bit t for track t (R155). -/
def State.muteFlags (s : State) : Byte := trackFlags fun t => (s.track t).mute

/-- A scene's action on a track; passed over on an EMPTY one (R146, step 1). -/
def State.sceneAction (s : State) (act : SceneAct) (t : TrackId) : State :=
  if s.trackState t = .empty then s
  else
    match act with
    | .leave => s
    | .play => s.unmuteTrack t
    | .mute => s.muteTrack t

/-- Bars remaining as an application sets it (R146, step 2). -/
def Scene.bars (r : Scene) : Bars := if r.length = 0 then .stay else .count r.length.toNat

/-- A scene is applied (R146). -/
def State.applyScene (s : State) (n : SceneId) (cause : SceneCause) (fromSlot : Bool) : State :=
  let r := s.scenes.table.get n
  let s1 := (List.finRange 8).foldl (fun s t => s.sceneAction (r.actions.get t) t) s
  let s2 := { s1 with scenes := { s1.scenes with current := some n, bars := r.bars, due := none } }
  s2.report .scene
    [numByte n, optNumByte s.scenes.current, cause.code, flagByte fromSlot, r.bars.reportCode,
      s.muteFlags ^^^ s1.muteFlags, s1.muteFlags]

/-- An advance finds no usable target: the sequencer goes IDLE with SCENE_END (R147, R155). -/
def State.endScenes (s : State) (target : Option SceneId) (fromSlot : Bool) : State :=
  s.scenesIdle.report .sceneEnd
    [optNumByte s.scenes.current, flagByte target.isSome, optNumByte target, flagByte fromSlot]

/-- A SCENE cue executed (R149). -/
def State.doScene (s : State) (n : SceneId) : Code × State :=
  if (s.scenes.table.get n).valid then (.ok, s.applyScene n .cue false) else (.noSuch, s)

/-- BAR (R45). -/
def State.reportBar (s : State) : State := s.report .bar [byte s.clock.bar, optNumByte s.scenes.current]

/-- The target of an advance is dealt with (R147). -/
def State.takeTarget (s : State) (target : Option SceneId) (fromSlot : Bool) (loopKind : Bool) : State :=
  match target with
  | none => s.endScenes none fromSlot
  | some n =>
    let r := s.scenes.table.get n
    if !r.valid then s.endScenes (some n) fromSlot
    else if r.tie then s.applyScene n .tied fromSlot
    else if loopKind then s.applyScene n .loop fromSlot
    else { s with scenes := { s.scenes with due := some { scene := n, fromSlot := fromSlot } } }

/-- The target a countdown's end chooses, and whether it is the slot's (R147). -/
def Sequencer.target (q : Sequencer) : Option SceneId × Bool :=
  match q.slot with
  | some n => (some n, true)
  | none => (q.current.bind fun c => (q.table.get c).next, false)

/-- The boundary in progress is a LOOP boundary. -/
def Boundary.isLoop (b : Boundary) : Bool :=
  match b.taken with
  | some k => k.loop
  | none => false

/-- The countdown has ended (R147). -/
def State.countdownEnd (s : State) : State :=
  State.takeTarget { s with scenes := { s.scenes with slot := none } } s.scenes.target.1 s.scenes.target.2 s.bnd.isLoop

/-- A due scene meets its LOOP boundary (R148). -/
def State.dueApply (s : State) : State :=
  match s.scenes.due with
  | none => s
  | some d =>
    if (s.scenes.table.get d.scene).valid then s.applyScene d.scene .loop d.fromSlot
    else s.endScenes (some d.scene) d.fromSlot

/-- The scene step due at the boundary is no longer due: the walk has begun with it (R58). -/
def State.clearSceneStep (s : State) : State := { s with bnd := { s.bnd with sceneStep := none, begun := true } }

/-- The sequencer's countdown at a BAR boundary (R147): its new bars remaining. -/
def Sequencer.countdown (q : Sequencer) : Sequencer :=
  match q.current, q.bars with
  | some _, .count (n + 1) => { q with bars := .count n }
  | _, _ => q

/-- What a BAR boundary leaves the sequencer to do: its countdown has ended, or a due scene meets a LOOP boundary. -/
def Sequencer.stepDue (q : Sequencer) (loopKind : Bool) : Option SceneStep :=
  match q.current, q.bars with
  | some _, .count 1 => some .countdownEnd
  | _, _ => if loopKind && q.due.isSome then some .dueApply else none

end Sys2Proof.Machine
end

