-- ==== Sys2Proof/Machine/TransportOps.lean ====
section
/-! DEFINITION. Tempo staging and application, the stop of the transport, and the halt event (R36, R37, R42, R43,
R179). -/

namespace Sys2Proof.Machine

/-- TEMPO with the values that stand (R45). -/
def State.reportTempo (s : State) (cause : TempoCause) : State :=
  s.report .tempo (le2 s.clock.p ++ [byte s.clock.b, cause.code])

/-- P and B take new values while STOPPED: the held tick and beat become 0 (R36). -/
def State.applyStopped (s : State) (p b : Nat) (cause : TempoCause) : State :=
  State.reportTempo { s with clock := { s.clock with p := p, b := b, tick := 0, beat := 0, pendingTempo := none } } cause

/-- The pair that stands in the slot is applied at a BAR boundary: the divider reload there uses the new P (R37; log 51). -/
def State.applyAtBar (s : State) : State :=
  match s.clock.pendingTempo with
  | none => s
  | some (p, b) =>
    State.reportTempo
      { s with
        clock := { s.clock with p := p, b := b, divider := p - 1, pendingTempo := none }
        bnd := { s.bnd with tempo := false } }
      .bar

/-- A (P, B) pair is applied or staged (R36): the reply's disposition. -/
def State.stageTempo (s : State) (p b : Nat) : Byte × State :=
  match s.clock.transport with
  | .stopped => (0, s.applyStopped p b .now)
  | _ =>
    (if s.clock.pendingTempo = none then 1 else 2,
      { s with clock := { s.clock with pendingTempo := some (p, b) } })

/-- SetTempo and Tap are refused LOCKED (R36, R39). -/
def State.tempoLocked (s : State) : Bool := s.clock.loop.isSome || s.definingRuns

/-- TRANSPORT (R45). -/
def State.reportTransport (s : State) (previous : Transport) (cause : TransportCause) (c : Nat) : State :=
  s.report .transport [s.clock.transport.code, previous.code, cause.code, byte c]

/-- A pending pair is applied because the transport has stopped (R37). -/
def State.applyPendingStopped (s : State) : State :=
  match s.clock.pendingTempo with
  | none => s
  | some (p, b) => s.applyStopped p b .stop

/-- What a boundary had still to do is gone with the stop: walk, scene step, grant pass and pending tempo. The click
test stays (R159). -/
def Boundary.stopped (b : Boundary) : Boundary :=
  { b with sceneStep := none, walk := none, grant := .none, tempo := false }

/-- The transport's own change at a stop (R42). -/
def Clock.stopped (c : Clock) : Clock := { c with transport := .stopped, countIn := 0, startMark := .none }

/-- The transport stops from COUNT_IN or RUNNING, with its effects on the other blocks; nothing changes when it is
STOPPED (R42, R43). The recordings are cut and a full pending slot is applied ahead of the TRANSPORT report, whose header then
carries beat 0 (log 11). -/
def State.stopTransport (s : State) (cause : TransportCause) (reason : SealReason) : State :=
  match s.clock.transport with
  | .stopped => s
  | previous =>
    let s1 := State.cutHeads { s with clock := s.clock.stopped } reason
    let s2 := s1.applyPendingStopped
    let s3 := { s2 with
      mix := s2.mix.clear
      tones := { s2.tones with clickEnds := true }
      bnd := s2.bnd.stopped }
    (s3.reportTransport previous cause 0).scenesIdle

/-- HALT (R179). -/
def State.reportHalt (s : State) (removed heads : Nat) (before : Transport) (source : HaltSource) : State :=
  s.report .halt [byte removed, byte heads, before.code, source.code]

/-- A halt event: taken whole while the latch is clear, nothing while it is set (R179). -/
def State.haltEvent (s : State) (source : HaltSource) : State :=
  if s.sup.latch then s
  else
    let s1 := { s with sup := { s.sup with latch := true }, cues := { s.cues with list := [] } }
    ((s1.stopTransport .halt .halt).scenesIdle).reportHalt s.cues.list.length s.headsBusy s.clock.transport source

end Sys2Proof.Machine
end

