-- ==== Sys2Proof/Machine/TrackOps.lean ====
section
/-! DEFINITION. The track actions: UNDO, REDO, CLEAR, MUTE and UNMUTE of a target (R14..R19). -/

namespace Sys2Proof.Machine

/-- The recording on a track is aborted (R14, R18, step 1). -/
def State.abortRecording (s : State) (t : TrackId) (reason : DiscardReason) : State :=
  match s.headOn t with
  | none => s
  | some h =>
    match s.head h with
    | none => s
    | some r => s.discardRecording h r reason

/-- The bounce that the pin of a layer names (R15, step 1). -/
def State.pinnedBy (s : State) (x : LayerId) (e : Bounce) : Bool :=
  (s.layer x).bind (·.pin) = some e.id && e.sources.contains x

/-- The top layer moves to the front of the redo list (R15, step 3). -/
def State.moveToRedo (s : State) (t : TrackId) (x : LayerId) : State :=
  State.releaseVoice
    (State.modLayer
      (s.modTrack t fun r => { r with stack := r.stack.dropLast, redo := x :: r.redo })
      x fun l => { l with state := .undone })
    x

/-- UNDO on a track in PLAY (R15): the bounce that the layer's pin names is aborted first, then the COPYs to the track in
queue order, also where one of these stands ahead of it in the queue (log 40). -/
def State.undoTop (s : State) (t : TrackId) (x : LayerId) : State :=
  let s1 := s.abortBounces fun s e => if s.pinnedBy x e then some .sourceUndone else none
  let s2 := s1.abortBounces fun _ e => if !e.fold && e.dest = t then some .destUndone else none
  s2.moveToRedo t x

/-- UNDO executed on a track (R14, R15). -/
def State.doUndo (s : State) (t : TrackId) : Code × State :=
  match s.trackState t with
  | .empty => (.nothing, s)
  | .recording => (.ok, s.abortRecording t .undone)
  | .dub => (.ok, s.abortRecording t .undone)
  | .play =>
    match (s.track t).stack.getLast? with
    | none => (.nothing, s)
    | some x => (.ok, s.undoTop t x)

/-- The front of the redo list returns to the top of the stack (R16). -/
def State.moveFromRedo (s : State) (t : TrackId) (x : LayerId) (rest : List LayerId) : State :=
  State.modLayer (s.modTrack t fun r => { r with stack := r.stack ++ [x], redo := rest }) x
    fun l => { l with state := .sealed }

/-- What follows a REDO: the claim, the one-shot and the auto-fold check (R16). -/
def State.afterRedo (s : State) (t : TrackId) (x : LayerId) : State :=
  let s1 := s.claimVoice t x
  (if s1.trackAudible t then s1.armOneShot t else s1).autoFold t

/-- REDO executed on a track (R16). -/
def State.doRedo (s : State) (t : TrackId) : Code × State :=
  if s.trackState t = .recording ∨ s.trackState t = .dub then (.wrongState, s)
  else
    match (s.track t).redo with
    | [] => (.nothing, s)
    | x :: rest =>
      if (s.track t).places = 6 then (.stackFull, s) else (.ok, (s.moveFromRedo t x rest).afterRedo t x)

/-- The cause for which a CLEAR of a track aborts an entry (R119; log 34). -/
def clearCause (t : TrackId) (s : State) (e : Bounce) : Option AbortCause :=
  if s.hasSourceOn t e then some .sourceCleared else if e.dest = t then some .destCleared else none

/-- A cleared track's own fields (R18, step 4). -/
def Track.cleared (r : Track) : Track :=
  { r with span := none, pass := 0, passSet := false, mute := false, oneShot := false, remaining := 0
           selfMuteDue := false }

/-- CLEAR of one track (R18). -/
def State.clearTrack (s : State) (t : TrackId) : State :=
  let s1 := (s.abortRecording t .cleared).abortBounces (clearCause t)
  let s2 := (s1.track t).stack.foldl State.freeLayer s1
  let s3 := (s2.track t).redo.foldl State.freeLayer s2
  s3.modTrack t Track.cleared

/-- CLEAR executed on a target; ALL also sets the scene sequencer IDLE (R18, R19). -/
def State.doClear (s : State) (target : Target) : State :=
  match target with
  | .track t => s.clearTrack t
  | .all => ((List.finRange 8).foldl State.clearTrack s).scenesIdle

end Sys2Proof.Machine
end

