-- ==== Sys2Proof/Machine/CueOps.lean ====
section
/-! DEFINITION. The cue queue: which cues a boundary satisfies, the walk, and the execution of a cue (R53..R60). -/

namespace Sys2Proof.Machine

/-- An action carried out by its owner, with the outcome (section 3.10). REC and DUB fail WRONG_STATE outside a running
transport (R53). -/
def State.doAction (s : State) : Action → Code × State
  | .record t span bars => if s.clock.transport = .running then s.doRec t span bars else (.wrongState, s)
  | .dub t chain => if s.clock.transport = .running then s.doDub t chain else (.wrongState, s)
  | .endRec t => s.doEndRec t
  | .undo t => s.doUndo t
  | .redo t => s.doRedo t
  | .mute g => (.ok, g.tracks.foldl State.muteTrack s)
  | .unmute g => (.ok, g.tracks.foldl State.unmuteTrack s)
  | .clear g => (.ok, s.doClear g)
  | .scene n => s.doScene n
  | .stop => (.ok, s.stopTransport .stopCue .stop)

/-- CUE_DONE or CUE_FAILED, with the header of the boundary or of the request's taking (R60). -/
def State.reportCue (s : State) (header : List Byte) (id : Byte) (a : Action) (c : Code) : State :=
  if c = .ok then s.reportWith header .cueDone [id, a.code, a.targetCode]
  else s.reportWith header .cueFailed [id, a.code, a.targetCode, c.byte]

/-- A cue executed: its action, then its report, which carries the song bar and beat that stood before the action (R60). -/
def State.executeCue (s : State) (id : Byte) (a : Action) : Code × State :=
  let r := s.doAction a
  (r.1, r.2.reportCue s.header id a r.1)

/-- A LOOP boundary satisfies a TRACK cue with this target (R57). -/
def State.trackBoundary (s : State) (target : Option Target) : Bool :=
  match target with
  | some (.track t) => (s.track t).span.isNone || s.leavingPass t = 0
  | _ => true

/-- A boundary of these kinds satisfies a waiting cue (R56, R57). -/
def State.satisfies (s : State) (k : Kinds) (c : Cue) : Bool :=
  match c.grid with
  | .now => false
  | .tick => true
  | .beat => k.beat
  | .bar => k.bar
  | .loop => k.loop
  | .track => k.loop && s.trackBoundary c.action.target

/-- The walk over a list up to the first cue due: satisfied cues with a delay count down (R58). The cues passed, and the
cue that is due with those behind it. -/
def scanCues (sat : Cue → Bool) : List Cue → List Cue × Option (Cue × List Cue)
  | [] => ([], none)
  | c :: cs =>
    if sat c = true ∧ c.delay = 0 then ([], some (c, cs))
    else
      let r := scanCues sat cs
      ((if sat c then { c with delay := c.delay - 1 } else c) :: r.1, r.2)

/-- The walk over the list from a place on, judged as the state stands now (R58). -/
def State.scanFrom (s : State) (i : Nat) : List Cue × Option (Cue × List Cue) :=
  match s.bnd.taken with
  | none => (s.cues.list.drop i, none)
  | some k => scanCues (s.satisfies k) (s.cues.list.drop i)

/-- The walk goes on from a place of the list (R58; log 7): with no cue due from there on it is taken to its end, and else
it stands there, nothing counted down yet, so that the cues are judged when they are visited. -/
def State.walkFrom (s : State) (i : Nat) : State :=
  match s.scanFrom i with
  | (l, none) =>
    { s with cues := { s.cues with list := s.cues.list.take i ++ l }, bnd := { s.bnd with walk := none } }
  | (_, some _) => { s with bnd := { s.bnd with walk := some i } }

/-- A boundary starts its walk, which waits for the internal action that comes first in it (R58). -/
def State.startWalk (s : State) : State :=
  if s.bnd.sceneStep.isSome then { s with bnd := { s.bnd with walk := some 0 } } else s.walkFrom 0

/-- The walk goes on from where it stands. -/
def State.resumeWalk (s : State) : State :=
  match s.bnd.walk with
  | none => s
  | some i => s.walkFrom i

/-- The scene step due at the boundary is taken, the BAR report that waited for it is formed, and the walk goes on (R58,
R145). -/
def State.takeSceneStep (s : State) : State :=
  match s.bnd.sceneStep with
  | none => s
  | some .countdownEnd => s.clearSceneStep.countdownEnd.reportBar.resumeWalk
  | some .dueApply => s.clearSceneStep.dueApply.reportBar.resumeWalk

/-- The walk's next cue that is due is removed and executed, those ahead of it being counted down; a stop ends the walk, else
it goes on. With none due any more, the walk is taken to its end (R58, R59). -/
def State.cueStep (s : State) : State :=
  match s.bnd.walk with
  | none => s
  | some i =>
    match s.scanFrom i with
    | (l, none) =>
      { s with
        cues := { s.cues with list := s.cues.list.take i ++ l }, bnd := { s.bnd with walk := none, begun := true } }
    | (l, some (c, rest)) =>
      let s1 := { s with
        cues := { s.cues with list := s.cues.list.take i ++ (l ++ rest) }
        bnd := { s.bnd with walk := none, begun := true } }
      let s2 := (s1.executeCue c.id c.action).2
      if s2.clock.transport = .running then s2.walkFrom (i + l.length) else s2

/-- At most n cue steps. -/
def State.cueSteps : Nat → State → State
  | 0, s => s
  | n + 1, s => if s.bnd.walk.isSome then State.cueSteps n s.cueStep else s

/-- A walk in progress is taken to its end, its internal action first (R58). -/
def State.walkOut (s : State) : State := State.cueSteps (s.cues.list.length + 1) s.takeSceneStep

/-- A walk that has begun is taken to its end, so that nothing falls between two of its cues (R58; log 6). -/
def State.endBegunWalk (s : State) : State := if s.bnd.begun then s.walkOut else s

/-- What comes ahead of everything else is taken: the bounce engine's claim of the frame that has ended, and the walk in
progress (R58, R61, R95; logs 6, 9). -/
def State.finishWalk (s : State) : State := s.beginHead.walkOut

/-- The same, where only a walk that has begun comes first (R58, R95; logs 6, 9). -/
def State.settleWalk (s : State) : State := s.beginHead.endBegunWalk

end Sys2Proof.Machine
end

