-- ==== Sys2Proof/Machine/ToneOps.lean ====
section
/-! DEFINITION. The click generator: waveforms, the click test, the prompt queue and its sounding slot (chapter 9). -/

namespace Sys2Proof.Machine

/-- A waveform that starts fresh (R157). -/
def Wave.fresh : Wave := { high := true, count := 0, flipDue := false }

/-- The level flips and the count returns to 0 (R157). -/
def Wave.flip (w : Wave) : Wave := { high := !w.high, count := 0, flipDue := false }

/-- A flip that is due is taken. -/
def Wave.settle (w : Wave) : Wave := if w.flipDue then w.flip else w

/-- The sample of a sounding tone (R157). -/
def Wave.sample (w : Wave) : Int := if w.high then 8192 else -8192

/-- A frame in which a tone of pitch F sounds: the count rises; at F + 1 or above its flip is due (R157). -/
def Wave.advance (w : Wave) (pitch : Byte) : Wave :=
  { w with count := w.count + 1, flipDue := w.flipDue || pitch.toNat + 1 ≤ w.count + 1 }

/-- The ticks of a length code (R161). -/
def codeTicks : Fin 7 → Nat
  | 0 => 6
  | 1 => 12
  | 2 => 24
  | 3 => 36
  | 4 => 48
  | 5 => 72
  | 6 => 96

/-- The slot sounds: its entry is no rest and its articulation is SOUNDING (R162). -/
def Slot.sounds (sl : Slot) : Bool := !sl.entry.rest && !sl.lastSilent

/-- The click sample (R157). -/
def Tones.clickSample (t : Tones) : Int :=
  match t.click with
  | some c => c.wave.sample
  | none => 0

/-- The prompt sample (R162). -/
def Tones.promptSample (t : Tones) : Int :=
  match t.slot with
  | some sl => if sl.sounds then sl.wave.sample else 0
  | none => 0

/-- The waveforms' advance in a frame; a click that ends with the frame becomes SILENT (R157, R159). -/
def Tones.frame (t : Tones) : Tones :=
  { t with
    click := if t.clickEnds then none else t.click.map fun c => { c with wave := c.wave.advance c.pitch }
    slot := t.slot.map fun sl => if sl.sounds then { sl with wave := sl.wave.advance sl.entry.pitch } else sl
    clickEnds := false }

/-- The last-tick choice: the sound is kept for a tied successor, neither side being a rest (R163). -/
def Tones.keepsSound (t : Tones) (sl : Slot) : Bool :=
  match t.queue with
  | e :: _ => e.tie && !e.rest && !sl.entry.rest
  | [] => false

/-- The click at a TICK boundary (R159). -/
def Click.tick (c : Click) : Click := { c with ticks := c.ticks - 1 }

/-- The slot at a TICK boundary, with the choice at the start of its last tick (R162, R163). -/
def Tones.tickSlot (t : Tones) (sl : Slot) : Slot :=
  let sl1 := { sl with ticks := sl.ticks - 1 }
  if sl1.ticks = 1 then { sl1 with lastSilent := !t.keepsSound sl } else sl1

/-- The tones at a TICK boundary. -/
def Tones.tick (t : Tones) : Tones := { t with click := t.click.map Click.tick, slot := t.slot.map t.tickSlot }

/-- A mode lets a click start at a boundary of this transport state (R158). -/
def ClickMode.allows (mode : ClickMode) (mark : Transport) (busy : Bool) : Bool :=
  match mode, mark with
  | .off, _ => false
  | _, .stopped => false
  | _, .countIn => true
  | .countIn, .running => false
  | .recording, .running => busy
  | .always, .running => true

/-- The click test of a BEAT boundary at a beat, with the settings standing there (R158). -/
def Tones.testAt (t : Tones) (beat : Nat) : ClickTest :=
  { mode := t.mode, pitch := if beat = 0 then t.accentPitch else t.beatPitch, ticks := t.clickLen }

/-- A click that starts (R158). -/
def Tones.startClick (t : Tones) (c : ClickTest) : Tones :=
  { t with click := some { pitch := c.pitch, ticks := c.ticks, wave := Wave.fresh } }

/-- The click test that is due, if one is: the settings are its boundary's, the heads those of the test (R158). -/
def State.clickTest (s : State) : State :=
  match s.bnd.click with
  | none => s
  | some c =>
    let s1 := { s with bnd := { s.bnd with click := none } }
    if c.mode.allows s.bnd.mark (s.headsBusy ≠ 0) then { s1 with tones := s1.tones.startClick c } else s1

/-- An entry is loaded into the slot (R162). -/
def Tones.load (t : Tones) (e : ToneEntry) (rest : List ToneEntry) (wave : Wave) : Tones :=
  { t with
    queue := rest
    slot := some { entry := e, ticks := codeTicks e.code, lastSilent := false, wave := wave }
    loadPending := false }

/-- The head of the queue is to be loaded at the boundary in progress (R162). -/
def State.toneLoadDue (s : State) : Bool := s.bnd.toneLoad && s.tones.loadPending

/-- TONES_DONE (R164). -/
def State.reportTones (s : State) (cause : TonesEnd) (sounded removed : Nat) : State :=
  s.report .tonesDone [cause.code, byte sounded, byte removed]

/-- An entry's waveform as it is handed on: a tie keeps it, a flip that is due being taken first; else it starts fresh
(R157, R163). -/
def Slot.handed (sl : Slot) : Wave := if sl.lastSilent then Wave.fresh else sl.wave.settle

/-- An entry ends (R164). -/
def State.endEntry (s : State) (sl : Slot) : State :=
  let n := if s.tones.sounded < 255 then s.tones.sounded + 1 else s.tones.sounded
  match s.tones.queue with
  | e :: rest => { s with tones := { s.tones.load e rest sl.handed with sounded := n } }
  | [] => State.reportTones { s with tones := { s.tones with slot := none, sounded := 0 } } .ended n 0

/-- The entries in the slot and the queue. -/
def Tones.entries (t : Tones) : Nat := t.queue.length + t.slot.toList.length

/-- The queue and the slot emptied (R166). -/
def Tones.flushed (t : Tones) : Tones := { t with queue := [], slot := none, loadPending := false, sounded := 0 }

/-- The prompt sample of a frame whose entry is flushed in it, a flip that is due being taken first (R157, R166; log 44). -/
def Tones.lastSample (t : Tones) : Int :=
  match t.slot with
  | some sl => if sl.sounds then sl.wave.settle.sample else 0
  | none => 0

/-- The prompt tones are flushed at once, with TONES_DONE if the slot held an entry (R166). -/
def State.flushTones (s : State) (cause : TonesEnd) : State :=
  let s1 := { s with tones := s.tones.flushed }
  if s.tones.slot.isSome then s1.reportTones cause s.tones.sounded s.tones.entries else s1

end Sys2Proof.Machine
end

