-- ==== Sys2Proof/Machine/Requests.lean ====
section
/-! DEFINITION. The taking of a request from the request queue, shared by every request row (R184, R185, R189). -/

namespace Sys2Proof.Machine

/-- What a command answers. -/
abbrev Result := Host.Outcome State Fault Refusal

/-- The command is taken with this effect. -/
def done (s : State) : Result := .next s

/-- A request's owner: the state once the request is carried out, and the reply's payload. -/
abbrev Owner := State → List Byte → State × List Byte

/-- A reply's payload: the outcome byte and the fields after it. -/
def answer (s : State) (c : Code) (fields : List Byte) : State × List Byte := (s, c.byte :: fields)

/-- The silence timer restarts, or stays stopped with a timeout of 0 (R188). -/
def Link.restartTimer (l : Link) : Link := { l with timer := l.timeout ≠ 0 }

/-- Requests are taken: READY or VERIFYING (R185). -/
def State.takesRequests (s : State) : Bool := s.sup.state = .ready || s.sup.state = .verifying

/-- This request can be taken now: no Restart is accepted (R173), none was taken in this frame (R185), and it is at the
head of the request queue, or the queue is empty and it can arrive (R186; log 2). -/
def State.canTake (s : State) (f : Frame) : Bool :=
  s.takesRequests && s.sup.restart.isNone && !s.link.requestTaken && payloadFits f.payload
    && (match s.link.requests with
        | [] => s.link.replyPlaces < 8
        | g :: _ => g = f)

/-- The arrival of a request that is taken as it arrives (R183). -/
def State.arriveNow (s : State) : State :=
  if s.link.requests = [] then { s with link := { s.link.restartTimer with assembling := false } } else s

/-- The taking itself: a walk in progress is finished first (R61; log 6), the frees so far come ahead of the claims of the
frame (log 49), the request leaves the queue, and the autopilot condition ends (R188). A GetStatus still shows the flag that
this clears (R190; log 43). -/
def State.takeRequest (s : State) : State :=
  let s1 := s.arriveNow.finishWalk
  { s1 with
    pool := s1.pool.seen
    link := { s1.link with requests := s1.link.requests.tail, autopilot := false, requestTaken := true } }

/-- A request row: `kind` is the request's KIND, `others` the first bytes that spell the other rows of that request. A
wrong LEN is answered BAD_LENGTH; otherwise the owner answers (R184). A request that cannot be taken now has no effect
(log 1). -/
def serve (kind : Byte) (others : List Byte) (tag : Byte) (payload : List Byte) (owner : Owner) (s : State) : State :=
  if s.canTake { kind := kind, tag := tag, payload := payload } = false ∨ spellsOther others payload = true then s
  else if catalogueLength kind = some payload.length then
    let r := owner s.takeRequest payload
    r.1.reply kind tag r.2
  else s.takeRequest.reply kind tag [Code.badLength.byte]

/-- n zero bytes: the fields of a refusal's reply for which the owning rule states no value (R184). -/
def zeros (n : Nat) : List Byte := List.replicate n 0

/-- The first byte of a request with a READ and a WRITE action is neither (R143, R160, R175, R180, R187). -/
def badAction (payload : List Byte) : Bool :=
  match payload with
  | a :: _ => 1 < a.toNat
  | [] => false

/-- The request at the head of the queue when this frame began is still to be taken in it (R185; log 32). -/
def State.requestOwed (s : State) : Bool :=
  s.link.requestDue && !s.link.requestTaken && s.sup.restart.isNone && s.link.requests ≠ []

/-- The link port's marks at the end of a frame: in the next one no request is taken yet, and one that waits now is to be
taken (R185). -/
def Link.nextFrame (l : Link) : Link := { l with requestTaken := false, requestDue := l.requests ≠ [] }

end Sys2Proof.Machine
end

