-- ==== Sys2Proof/Machine/Bounces.lean ====
section
/-! DEFINITION. The bounce requests and the bounce engine's event rows (R110..R114, R124..R126). -/

namespace Sys2Proof.Machine

/-- A Bounce reply's fields: id, position, and the source that refused it (R110). -/
def bounceRefused (s : State) (c : Code) (source : Byte) : State × List Byte := answer s c [0, 0xFF, source]

/-- Why a source refuses a Bounce request (R110, step 4). -/
def State.sourceRefusal (s : State) (x : LayerId) : Option Code :=
  match s.layer x with
  | none => some .wrongState
  | some l =>
    if l.state ≠ .sealed then some .wrongState
    else if l.damaged then some .damaged
    else if l.pin.isSome then some .pinned
    else none

/-- The first source that refuses, with its place and its reason. -/
def State.firstRefusal (s : State) (xs : List LayerId) : Option (Nat × Code) :=
  (xs.zipIdx.findSome? fun p => (s.sourceRefusal p.1).map fun c => (p.2, c))

/-- The span a COPY gives its destination: the one whose map length the sources have (R9, R111). -/
def Clock.spanFor (c : Clock) (n : Nat) : Option Span := [Span.one, .two, .four].find? fun span => c.mapLength span = n

/-- The destination checks of a COPY (R111). -/
def State.copyRefusal (s : State) (d : TrackId) (n : Nat) : Option Code :=
  if s.trackState d = .recording then some .wrongState
  else if (s.track d).places = 6 then some .stackFull
  else
    match (s.track d).span with
    | some span => if s.clock.mapLength span ≠ n then some .badValue else none
    | none => if (s.clock.spanFor n).isNone then some .badValue else none

/-- The pass index of the track of the first listed source, as it leaves this instant (R10). -/
def State.sourcePass (s : State) (xs : List LayerId) : Nat :=
  match xs.head?.bind s.layer with
  | some l => s.leavingPass l.track
  | none => 0

/-- An EMPTY destination without a span takes the one chosen (R112, step 2), with the pass index that R10 gives a COPY's
destination, also at a LOOP boundary, where R57 says 0 of every track that gains a span (the model's choice, log 27). -/
def State.copySpan (s : State) (d : TrackId) (xs : List LayerId) (n : Nat) : State :=
  match (s.track d).span, s.clock.spanFor n with
  | none, some span => s.gainSpan d span (s.sourcePass xs)
  | _, _ => s

/-- An accepted Bounce request (R112). -/
def State.acceptBounce (s : State) (fold : Bool) (d : TrackId) (xs : List LayerId) (levels muteSources : Bool) (n : Nat) :
    State × List Byte :=
  let s1 := (if fold then s else s.copySpan d xs n).enqueueBounce fold false xs d levels muteSources
  answer s1 .ok [s.bounce.nextId, byte s.bounce.queue.length, 0xFF]

/-- A Bounce request's checks from step 3 on, its fields being in range (R110). -/
def State.requestBounce (s : State) (fold : Bool) (d : TrackId) (xs : List LayerId) (levels muteSources : Bool) :
    State × List Byte :=
  let n := (xs.head?.map s.mapLen).getD 0
  if s.bounce.queue.length = 4 then bounceRefused s .full 0xFF
  else
    match s.firstRefusal xs with
    | some (i, c) => bounceRefused s c (byte i)
    | none =>
      if xs.any (fun x => s.mapLen x ≠ n) then bounceRefused s .badValue 0xFF
      else if fold then
        match xs.findIdx? fun x => !(s.track d).stack.contains x with
        | some i => bounceRefused s .badValue (byte i)
        | none => s.acceptBounce fold d xs levels muteSources n
      else
        match s.copyRefusal d n with
        | some c => bounceRefused s c 0xFF
        | none => s.acceptBounce fold d xs levels muteSources n

/-- The listed sources as layer numbers; none if one is above 55. -/
def layersOf (bs : List Byte) : Option (List LayerId) := bs.mapM layerOf

/-- The place of the first listed source above 55 (R110, step 2; log 36). -/
def badSource (bs : List Byte) : Byte := byte (bs.findIdx fun b => (layerOf b).isNone)

/-- BOUNCE's owner (R110). -/
def ownBounce : Owner := fun s p =>
  match p with
  | [mode, dest, options, count, x0, x1, x2, x3] =>
    if !s.isReady then bounceRefused s .notReady 0xFF
    else
      let listed := [x0, x1, x2, x3].take count.toNat
      match trackOf dest with
      | none => bounceRefused s .badValue 0xFF
      | some d =>
        if 1 < mode.toNat ∨ 3 < options.toNat ∨ count.toNat = 0 ∨ 4 < count.toNat ∨ (mode = 1 ∧ count.toNat ≠ 2) then
          bounceRefused s .badValue 0xFF
        else
          match layersOf listed with
          | none => bounceRefused s .badValue (badSource listed)
          | some xs =>
            if !decide xs.Nodup then bounceRefused s .badValue 0xFF
            else s.requestBounce (mode = 1) d xs (options.getLsbD 0) (options.getLsbD 1)
  | _ => answer s .badLength []

/-- BOUNCE (R110). -/
def execBounce (tag : Byte) (payload : List Byte) (s : State) : Result := done (serve 0x28 [] tag payload ownBounce s)

/-- The entries of which a test holds are aborted with cause CANCELLED; the reply carries their number (R125). -/
def State.cancelBounces (s : State) (f : Bounce → Bool) : State × List Byte :=
  answer (s.abortBounces fun _ e => if f e then some .cancelled else none) .ok
    [byte (s.bounce.queue.filter f).length]

/-- CANCEL_BOUNCE_BY_ID's owner (R125). -/
def ownCancelBounceById : Owner := fun s p =>
  match p with
  | [_, id] =>
    if !s.isReady then answer s .notReady [0]
    else if badAction p then answer s .badValue [0]
    else if s.bounce.queue.all (fun e => e.id ≠ id) then answer s .noSuch [0]
    else s.cancelBounces fun e => e.id = id
  | _ => answer s .badLength []

/-- CANCEL_BOUNCE_BY_ID (R125). -/
def execCancelBounceById (tag : Byte) (payload : List Byte) (s : State) : Result :=
  done (serve 0x29 [1] tag payload ownCancelBounceById s)

/-- CANCEL_BOUNCE_ALL's owner (R125). -/
def ownCancelBounceAll : Owner := fun s p =>
  if !s.isReady then answer s .notReady [0]
  else if badAction p then answer s .badValue [0]
  else s.cancelBounces fun _ => true

/-- CANCEL_BOUNCE_ALL (R125). -/
def execCancelBounceAll (tag : Byte) (payload : List Byte) (s : State) : Result :=
  done (serve 0x29 [0] tag payload ownCancelBounceAll s)

/-- BounceInfo's entry fields (R126). -/
def Bounce.bytes (e : Bounce) : List Byte :=
  [1, e.id, e.modeCode, e.originCode, bounceOptions e.levels e.muteSources, flagByte e.run.isSome, numByte e.dest,
    byte e.sources.length] ++ padTo 4 0xFF (e.sources.map numByte)
    ++ (match e.run with
        | none => zeros 4 ++ [0xFF] ++ le2 0 ++ le2 e.mapLen ++ le2 0
        | some r =>
          padTo 4 0 r.snapshot ++ [numByte r.product] ++ le2 r.progress ++ le2 e.mapLen ++ le2 r.blocks)

/-- BounceInfo's entry fields with no entry at the position (R126). -/
def noBounceBytes : List Byte := zeros 8 ++ [0xFF, 0xFF, 0xFF, 0xFF] ++ zeros 4 ++ [0xFF] ++ zeros 6

/-- BOUNCE_INFO's owner (R126). -/
def ownBounceInfo : Owner := fun s p =>
  match p with
  | [pos] =>
    if 3 < pos.toNat then answer s .badValue (zeros 26)
    else
      answer s .ok
        ([byte s.bounce.queue.length, pos] ++ ((s.bounce.queue[pos.toNat]?).map Bounce.bytes).getD noBounceBytes
          ++ [byte s.bounce.threshold])
  | _ => answer s .badLength []

/-- BOUNCE_INFO (R126). -/
def execBounceInfo (tag : Byte) (payload : List Byte) (s : State) : Result :=
  done (serve 0x2A [] tag payload ownBounceInfo s)

/-- FOLD_CONFIG's owner (R124). -/
def ownFoldConfig : Owner := fun s p =>
  match p with
  | [a] =>
    if !s.isReady then answer s .notReady [0]
    else if a.toNat = 1 ∨ a.toNat = 2 ∨ 6 < a.toNat then answer s .badValue [0]
    else answer { s with bounce := { s.bounce with threshold := a.toNat } } .ok [byte s.bounce.threshold]
  | _ => answer s .badLength []

/-- FOLD_CONFIG (R124). -/
def execFoldConfig (tag : Byte) (payload : List Byte) (s : State) : Result :=
  done (serve 0x2B [] tag payload ownFoldConfig s)

/-- The head of the queue starts, where that is due (R113). -/
def State.startHead (s : State) : State :=
  if s.bounceStartDue then
    match s.headBounce with
    | some e => s.startBounce e
    | none => s
  else s

/-- BOUNCE_START: the head of the queue starts in the frame after it became so (R113), behind a begun walk; no effect where
none is due. -/
def execBounceStart (s : State) : Result := done s.settleWalk.startHead

/-- BOUNCE_INDEX_BEGIN (R114): the running bounce's index begins, after the head claims of its first frame and ahead of
what the next frame brings (R95; log 9); no effect where none is due. -/
def execBounceIndexBegin (s : State) : Result := done s.beginHead

/-- A running bounce's index has had its 1,024 frames (R114). -/
def State.finishHead (s : State) : State :=
  match s.headBounce with
  | none => s
  | some e =>
    match e.run with
    | none => s
    | some r => if s.isReady = true ∧ r.phase = .filling ∧ r.frames = 1024 then s.finishIndex e r else s

/-- BOUNCE_INDEX_FINISH (R114): the index has had its 1,024 frames, behind a begun walk; no effect where none is due. -/
def execBounceIndexFinish (s : State) : Result := done s.settleWalk.finishHead

end Sys2Proof.Machine
end

