-- ==== Sys2Proof/Machine/ClickTones.lean ====
section
/-! DEFINITION. The click, prompt and monitor requests and the click generator's event rows (R143, R157, R159, R160,
R162, R164..R166). -/

namespace Sys2Proof.Machine

/-- ClickConfig's fields as they stand (R160). -/
def State.clickBytes (s : State) : List Byte :=
  [s.tones.mode.code, s.tones.beatPitch, s.tones.accentPitch, byte s.tones.clickLen, flagByte s.tones.click.isSome]

/-- CLICK_CONFIG_READ's owner (R160). -/
def ownClickConfigRead : Owner := fun s p => answer s (if badAction p then .badValue else .ok) s.clickBytes

/-- CLICK_CONFIG_READ (R160). -/
def execClickConfigRead (tag : Byte) (payload : List Byte) (s : State) : Result :=
  done (serve 0x38 [1] tag payload ownClickConfigRead s)

/-- CLICK_CONFIG_WRITE's owner (R160). -/
def ownClickConfigWrite : Owner := fun s p =>
  match p with
  | [a, mode, beat, accent, len] =>
    if 1 < a.toNat then answer s .badValue s.clickBytes
    else if !s.isReady then answer s .notReady s.clickBytes
    else
      match clickModeOf mode with
      | none => answer s .badValue s.clickBytes
      | some m =>
        if beat = 0 ∨ accent = 0 ∨ len = 0 ∨ 12 < len.toNat then answer s .badValue s.clickBytes
        else
          let s1 := { s with
            tones := { s.tones with mode := m, beatPitch := beat, accentPitch := accent, clickLen := len.toNat } }
          answer s1 .ok s1.clickBytes
  | _ => answer s .badLength []

/-- CLICK_CONFIG_WRITE (R160). -/
def execClickConfigWrite (tag : Byte) (payload : List Byte) (s : State) : Result :=
  done (serve 0x38 [0] tag payload ownClickConfigWrite s)

/-- The tone entries of a Tones request, three bytes each, if all are in range (R165). -/
def toneEntries : List Byte → Option (List ToneEntry)
  | pitch :: code :: flags :: rest => do
    let e ← toneEntryOf pitch code flags
    let es ← toneEntries rest
    some (e :: es)
  | _ => some []

/-- Tones' fields as they stand (R165). -/
def State.toneBytes (s : State) : List Byte := [byte s.tones.queue.length, flagByte s.tones.slot.isSome]

/-- Entries appended to the prompt queue; with the slot IDLE, load pending is set (R162, R165). -/
def Tones.append (t : Tones) (es : List ToneEntry) : Tones :=
  { t with queue := t.queue ++ es, loadPending := t.loadPending || t.slot.isNone }

/-- TONES's owner (R165). -/
def ownTones : Owner := fun s p =>
  match p with
  | n :: rest =>
    if !s.isReady then answer s .notReady s.toneBytes
    else if n = 0 ∨ 4 < n.toNat then answer s .badValue s.toneBytes
    else
      match toneEntries (rest.take (3 * n.toNat)) with
      | none => answer s .badValue s.toneBytes
      | some es =>
        if 4 < s.tones.queue.length + n.toNat then answer s .full s.toneBytes
        else
          let s1 := { s with tones := s.tones.append es }
          answer s1 .ok s1.toneBytes
  | [] => answer s .badLength []

/-- TONES (R165). -/
def execTones (tag : Byte) (payload : List Byte) (s : State) : Result := done (serve 0x39 [] tag payload ownTones s)

/-- TONE_FLUSH's owner (R166). -/
def ownToneFlush : Owner := fun s _ =>
  if !s.isReady then answer s .notReady [0]
  else answer ((s.hear (.prompt s.tones.lastSample)).flushTones .flushed) .ok [byte s.tones.entries]

/-- TONE_FLUSH (R166). -/
def execToneFlush (tag : Byte) (payload : List Byte) (s : State) : Result :=
  done (serve 0x3A [] tag payload ownToneFlush s)

/-- MonitorConfig's fields as they stand (R143). -/
def State.monitorBytes (s : State) : List Byte :=
  s.mix.inputLevels.toList ++ [s.mix.mainLevel, s.mix.clickLevel, s.mix.promptLevel]

/-- MONITOR_CONFIG_READ's owner (R143). -/
def ownMonitorConfigRead : Owner := fun s p => answer s (if badAction p then .badValue else .ok) s.monitorBytes

/-- MONITOR_CONFIG_READ (R143). -/
def execMonitorConfigRead (tag : Byte) (payload : List Byte) (s : State) : Result :=
  done (serve 0x3B [1] tag payload ownMonitorConfigRead s)

/-- MONITOR_CONFIG_WRITE's owner (R143). -/
def ownMonitorConfigWrite : Owner := fun s p =>
  match p with
  | [a, l0, l1, l2, l3, main, click, prompt] =>
    if 1 < a.toNat then answer s .badValue s.monitorBytes
    else if !s.isReady then answer s .notReady s.monitorBytes
    else
      let s1 := { s with
        mix := { s.mix with
          inputLevels := #v[l0, l1, l2, l3], mainLevel := main, clickLevel := click, promptLevel := prompt
          heard := .monitor s.mix.inputLevels s.mix.mainLevel s.mix.clickLevel s.mix.promptLevel } }
      answer s1 .ok s1.monitorBytes
  | _ => answer s .badLength []

/-- MONITOR_CONFIG_WRITE (R143). -/
def execMonitorConfigWrite (tag : Byte) (payload : List Byte) (s : State) : Result :=
  done (serve 0x3B [0] tag payload ownMonitorConfigWrite s)

/-- CLICK_END: the click's ticks remaining reached 0 (R159); no effect where that is not due. -/
def execClickEnd (s : State) : Result :=
  done <|
    if s.isReady = true ∧ (s.tones.click.map (·.ticks)) = some 0 then
      { s with tones := { s.tones with click := none } }
    else s

/-- TONE_LOAD: the head of the queue is loaded into the IDLE slot, its waveform fresh (R162); no effect where that is
not due. -/
def execToneLoad (s : State) : Result :=
  done <|
    if s.toneLoadDue then
      match s.tones.queue with
      | e :: rest => { s with tones := s.tones.load e rest Wave.fresh }
      | [] => s
    else s

/-- The entry in the slot ends, where its ticks remaining reached 0 (R164). -/
def State.entryEnd (s : State) : State :=
  match s.tones.slot with
  | none => s
  | some sl => if s.isReady = true ∧ sl.ticks = 0 then s.endEntry sl else s

/-- TONE_ENTRY_END: the entry's ticks remaining reached 0 (R164), behind a begun walk; no effect where that is not due. -/
def execToneEntryEnd (s : State) : Result := done s.settleWalk.entryEnd

/-- WAVEFORM_FLIP: a half-period is complete (R157); no effect where no flip is due, nor outside READY (R168). -/
def execWaveformFlip (tone : Tone) (s : State) : Result :=
  done <|
    if s.isReady = false then s
    else
      match tone with
      | .click =>
        { s with tones := { s.tones with click := s.tones.click.map fun c => { c with wave := c.wave.settle } } }
      | .prompt =>
        { s with tones := { s.tones with slot := s.tones.slot.map fun sl => { sl with wave := sl.wave.settle } } }

end Sys2Proof.Machine
end

