-- ==== Sys2Proof/Machine/Cues.lean ====
section
/-! DEFINITION. The cue requests and the execution of a due cue (R19, R50..R63). -/

namespace Sys2Proof.Machine

/-- A waiting cue is removed by a replace-flagged request for an action: the same target, or, where that is absent, the
same action (R52). -/
def replaces (a : Action) (c : Cue) : Bool :=
  match a.target with
  | some g => c.action.target = some g
  | none => c.action.code = a.code

/-- How many waiting cues the replace flag would remove (R51, R52). -/
def State.replaceCount (s : State) (a : Action) (replace : Bool) : Nat :=
  if replace then (s.cues.list.filter (replaces a)).length else 0

/-- The replace removal (R52). -/
def State.replaceRemove (s : State) (a : Action) (replace : Bool) : State :=
  if replace then { s with cues := { s.cues with list := s.cues.list.filter fun c => !replaces a c } } else s

/-- A Cue reply's fields (R54). -/
def cueReply (s : State) (c : Code) (disposition id : Byte) (removed : Nat) : State × List Byte :=
  answer s c [disposition, id, byte removed, byte s.cues.list.length]

/-- An accepted Cue request: an id, the replace removal, then the execution of a NOW cue or the joining of the list
(R51, R53). -/
def State.acceptCue (s : State) (a : Action) (g : Grid) (delay : Nat) (replace : Bool) : State × List Byte :=
  let id := s.cues.nextId
  let removed := s.replaceCount a replace
  let s1 := State.replaceRemove { s with cues := { s.cues with nextId := id + 1 } } a replace
  if g = .now then
    let r := s1.executeCue id a
    cueReply r.2 r.1 2 id removed
  else
    let c : Cue := { id := id, action := a, grid := g, delay := delay }
    cueReply { s1 with cues := { s1.cues with list := s1.cues.list ++ [c] } } .ok 1 id removed

/-- A Cue request's checks after the range of its fields (R51). -/
def State.requestCue (s : State) (a : Action) (g : Grid) (delay : Nat) (replace : Bool) : State × List Byte :=
  if s.sup.latch then cueReply s .halted 0 0 0
  else if g ≠ .now ∧ s.cues.list.length - s.replaceCount a replace = 16 then cueReply s .full 0 0 0
  else s.acceptCue a g delay replace

/-- CUE's owner (R50, R51). -/
def ownCue : Owner := fun s p =>
  match p with
  | [action, target, grid, delay, optA, optB, flags] =>
    if !s.isReady then cueReply s .notReady 0 0 0
    else
      match cueFields action target grid delay optA optB flags with
      | none => cueReply s .badValue 0 0 0
      | some (a, g, d, replace) => s.requestCue a g d replace
  | _ => answer s .badLength []

/-- CUE (R51). -/
def execCue (tag : Byte) (payload : List Byte) (s : State) : Result := done (serve 0x18 [] tag payload ownCue s)

/-- CLEAR_ALL's owner: a NOW cue with action CLEAR and target ALL (R19, R51). -/
def ownClearAll : Owner := fun s _ =>
  if !s.isReady then cueReply s .notReady 0 0 0 else s.requestCue (.clear .all) .now 0 false

/-- CLEAR_ALL (R19). -/
def execClearAll (tag : Byte) (payload : List Byte) (s : State) : Result :=
  done (serve 0x26 [] tag payload ownClearAll s)

/-- The waiting cues of which a test holds are removed; the reply carries their number (R62). -/
def State.cancelCues (s : State) (f : Cue → Bool) : State × List Byte :=
  answer { s with cues := { s.cues with list := s.cues.list.filter fun c => !f c } } .ok
    [byte (s.cues.list.filter f).length]

/-- A CancelCue request's mode is out of range (R62). -/
def badCancelMode (payload : List Byte) : Bool :=
  match payload with
  | m :: _ => 2 < m.toNat
  | [] => false

/-- CANCEL_CUE_BY_ID's owner (R62). -/
def ownCancelCueById : Owner := fun s p =>
  match p with
  | [_, id] =>
    if !s.isReady then answer s .notReady [0]
    else if badCancelMode p then answer s .badValue [0]
    else if s.cues.list.all (fun c => c.id ≠ id) then answer s .noSuch [0]
    else s.cancelCues fun c => c.id = id
  | _ => answer s .badLength []

/-- CANCEL_CUE_BY_ID (R62). -/
def execCancelCueById (tag : Byte) (payload : List Byte) (s : State) : Result :=
  done (serve 0x19 [1, 2] tag payload ownCancelCueById s)

/-- CANCEL_CUE_BY_TRACK's owner (R62). -/
def ownCancelCueByTrack : Owner := fun s p =>
  match p with
  | [_, v] =>
    if !s.isReady then answer s .notReady [0]
    else if badCancelMode p then answer s .badValue [0]
    else
      match trackOf v with
      | none => answer s .badValue [0]
      | some t => s.cancelCues fun c => c.action.target = some (.track t)
  | _ => answer s .badLength []

/-- CANCEL_CUE_BY_TRACK (R62). -/
def execCancelCueByTrack (tag : Byte) (payload : List Byte) (s : State) : Result :=
  done (serve 0x19 [0, 2] tag payload ownCancelCueByTrack s)

/-- CANCEL_CUE_ALL's owner (R62). -/
def ownCancelCueAll : Owner := fun s p =>
  if !s.isReady then answer s .notReady [0]
  else if badCancelMode p then answer s .badValue [0]
  else s.cancelCues fun _ => true

/-- CANCEL_CUE_ALL (R62). -/
def execCancelCueAll (tag : Byte) (payload : List Byte) (s : State) : Result :=
  done (serve 0x19 [0, 1] tag payload ownCancelCueAll s)

/-- LIST_CUES's owner (R63). -/
def ownListCues : Owner := fun s p =>
  match p with
  | [pos] =>
    if 15 < pos.toNat then answer s .badValue (zeros 45)
    else
      let shown := (s.cues.list.drop pos.toNat).take 6
      answer s .ok
        ([byte s.cues.list.length, pos, byte shown.length] ++ padTo 42 0xFF (shown.flatMap Cue.bytes))
  | _ => answer s .badLength []

/-- LIST_CUES (R63). -/
def execListCues (tag : Byte) (payload : List Byte) (s : State) : Result :=
  done (serve 0x1A [] tag payload ownListCues s)

/-- CUE_EXECUTE: the cue at which the walk stands is removed and executed, once the boundary's internal action is taken
(R58); no effect where no cue is due. -/
def execCueExecute (s : State) : Result := done (if s.bnd.sceneStep = none then s.cueStep else s)

end Sys2Proof.Machine
end

