-- ==== Sys2Proof/Machine/Halt.lean ====
section
/-! DEFINITION. The supervisor's shared operations: the halt line, HELLO, becoming READY, the start of a reset, and the
wake sources (chapter 10). -/

namespace Sys2Proof.Machine

/-- The debounced halt line is active (R178). -/
def Sup.lineActive (u : Sup) : Bool := u.lineHigh = u.activeHigh

/-- Detection is enabled and the edge memory set: a halt event is taken and the memory is cleared (R178). -/
def State.haltFromMemory (s : State) (source : HaltSource) : State :=
  if s.sup.detection && s.sup.edgeMemory then
    State.haltEvent { s with sup := { s.sup with edgeMemory := false } } source
  else s

/-- The reset-end check (R178). -/
def State.resetEndCheck (s : State) : State :=
  { s with sup := { s.sup with edgeMemory := s.sup.edgeMemory || s.sup.lineActive } }

/-- The reset that a Restart asked for is to start now: the last byte of its reply has left the link (R173). -/
def Sup.restartDue (u : Sup) : Bool :=
  match u.restart with
  | some r => r.ahead = 0
  | none => false

/-- HELLO (R172). -/
def State.hello (s : State) : State :=
  s.report .hello
    ([0x48, 0x0B, Config.revision, s.sup.causes.byte, s.sup.state.code, flagByte s.clock.loop.isSome,
      byte (s.clock.loop.getD 0)] ++ le2 s.clock.p
      ++ [byte s.clock.b, byte s.inUse.length, flagByte s.sup.low, flagByte s.sup.detection, flagByte s.sup.edgeMemory])

/-- The supervisor becomes READY: the tick divider is loaded with P − 1 (R30). -/
def State.becomeReady (s : State) : State :=
  { s with
    sup := { s.sup with state := .ready }
    clock := { s.clock with divider := s.clock.p - 1, dividerSet := true } }

/-- The link port at the start of a reset: the frame being received is abandoned and both queues are emptied (R168). -/
def Link.abandon (l : Link) : Link :=
  { l with assembling := false, requests := [], tx := [], timer := false, requestTaken := false, requestDue := false }

/-- A set of causes with members joined. -/
def CauseSet.join (a b : CauseSet) : CauseSet :=
  { power := a.power || b.power, brown := a.brown || b.brown, pin := a.pin || b.pin
    requestWarm := a.requestWarm || b.requestWarm, requestCold := a.requestCold || b.requestCold }

/-- The reset-cause set when a cause starts: POWER empties it first (R169). -/
def CauseSet.start (held cause : CauseSet) : CauseSet := if cause.power then cause else held.join cause

/-- The click generator and the prompt tones stopped by a reset, their settings kept (R156, R159, R166). -/
def Tones.warm (t : Tones) : Tones := { t.flushed with click := none, clickEnds := false }

/-- A reset starts, or a cause joins the reset in force (R168, R169). The tables keep their values, but in RESET no voice is
held, the cue list is empty, and the click and the prompt tones are silent (R48, R141, R159, R162, R166; log 45). -/
def State.startReset (s : State) (cause : CauseSet) : State :=
  if s.sup.state = .reset then
    { s with sup := { s.sup with causes := s.sup.causes.start cause, inForce := s.sup.inForce.join cause } }
  else
    let s1 := s.finishWalk
    { s1 with
      sup := { s1.sup with
        state := .reset
        causes := s1.sup.causes.start cause
        inForce := cause
        restart := none
        wake := none }
      link := s1.link.abandon
      mix := s1.mix.clear.nextFrame
      cues := { s1.cues with list := [] }
      tones := s1.tones.warm
      outputs := Outputs.zero
      bnd := {} }

/-- A warm cause is among them. -/
def CauseSet.anyWarm (c : CauseSet) : Bool := c.brown || c.pin || c.requestWarm

/-- The reset in force is cold: a POWER cause, or REQUEST_COLD; where a warm cause has joined REQUEST_COLD the spec says
both (R168; log 22). -/
def Sup.coldInForce (u : Sup) : Bool :=
  u.inForce.power || (u.inForce.requestCold && (!u.inForce.anyWarm || Config.joinedRequestColdIsCold))

/-- A wake source in STANDBY: WAKING begins (R177). -/
def State.wake (s : State) (cause : WakeCause) : State :=
  { s with sup := { s.sup with state := .waking, wake := some { cause := cause, haltHeld := cause = .halt } } }

/-- VDD at the warn level, in 10 mV (R174). -/
def warnLevel : Fin 4 → Nat
  | 0 => 340
  | 1 => 350
  | 2 => 360
  | 3 => 370

/-- SUPPLY (R174). -/
def State.reportSupply (s : State) (vdd : Half) : State :=
  s.report .supply ([flagByte s.sup.low, byte s.sup.warnCode.val] ++ le2 vdd.toNat)

/-- READY (R106). -/
def State.reportReady (s : State) (freed checked : Nat) : State :=
  let damaged := (s.inUse.filter fun x => (s.layer x).map (·.damaged) = some true).length
  s.report .ready
    ([byte s.inUse.length, byte damaged] ++ le2 freed ++ le2 checked ++ le2 s.pool.bad)

end Sys2Proof.Machine
end

