-- ==== Sys2Proof/Machine/Frames.lean ====
section
/-! DEFINITION. The boundaries and the audio frame (R30..R33, R40, R41, R75, R140..R142). -/

namespace Sys2Proof.Machine

/-! ### What a boundary is -/

/-- The counters at a TICK boundary taken while RUNNING, with the kinds it carries (R31). Where a seal of this instant has
established L already, the boundary counts as a LOOP boundary with m = 0 (R34). -/
def Clock.tickRunning (c : Clock) : Clock × Kinds :=
  if c.tick < 47 then ({ c with tick := c.tick + 1 }, { beat := false, bar := false, loop := false })
  else if c.beat + 1 < c.b then
    ({ c with tick := 0, beat := c.beat + 1 }, { beat := true, bar := false, loop := false })
  else
    let c1 := { c with tick := 0, beat := 0, songBar := c.songBar + 1 }
    match c.loop with
    | none => ({ c1 with bar := 0, loopPos := 0 }, { beat := true, bar := true, loop := true })
    | some l =>
      if c.bar + 1 < l ∧ c.loopSet = false then
        ({ c1 with bar := c.bar + 1 }, { beat := true, bar := true, loop := false })
      else ({ c1 with bar := 0, loopPos := 0 }, { beat := true, bar := true, loop := true })

/-- The counters at a TICK boundary taken in COUNT_IN that does not end it, with the kinds it carries (R31). -/
def Clock.tickCountIn (c : Clock) : Clock × Kinds :=
  if c.tick < 47 then ({ c with tick := c.tick + 1 }, { beat := false, bar := false, loop := false })
  else if c.beat + 1 < c.b then
    ({ c with tick := 0, beat := c.beat + 1 }, { beat := true, bar := false, loop := false })
  else ({ c with tick := 0, beat := 0, countIn := c.countIn - 1 }, { beat := true, bar := true, loop := false })

/-- The TICK boundary that falls now ends the count-in (R41). -/
def State.countInEnds (s : State) : Bool :=
  s.clock.transport = .countIn && s.clock.tick = 47 && s.clock.beat + 1 = s.clock.b && s.clock.countIn ≤ 1

/-- What every TICK boundary does: the divider reloads (R30), the tones count (R159, R162), and a pending load becomes
due (R162). -/
def State.tickCommon (s : State) (kinds : Kinds) (mark : Transport) : State :=
  { s with
    clock := { s.clock with divider := s.clock.p - 1, dividerSet := true, loopSet := false }
    tones := s.tones.tick
    bnd := { taken := some kinds, mark := mark, toneLoad := s.tones.loadPending && s.tones.slot.isNone } }

/-! ### Its receivers -/

/-- The place of the frame's claims among its frees, as the operand names it (R97; log 5). -/
def State.placeClaims (s : State) (now : Receivers) : State :=
  if now.claims then { s with pool := s.pool.claimsFirst } else s

/-- Which receivers act now, of those that have something to do: the recorder, the click test, the grant pass (log 5). -/
def State.receive (s : State) (now : Receivers) : State :=
  let s0 := s.placeClaims now
  let s1 := if now.recorder then (s0.recorderAtBar .h0).recorderAtBar .h1 else s0
  let s2 := if now.click then s1.clickTest else s1
  if now.grant then s2.grantPass else s2

/-- The recorder has its work at a BAR boundary to do for each busy head (R33). -/
def State.markHeads (s : State) : State :=
  (s.modHead .h0 fun r => { r with atBar := true }).modHead .h1 fun r => { r with atBar := true }

/-- A BAR boundary's marks for its receivers: the heads' work, the grant pass, the countdown, the pending tempo (R33). The
countdown counts the scene that stands, be it one that a NOW cue of this frame has applied ahead of the boundary (R147; the
model's choice, log 54). -/
def State.markBar (s : State) (loopKind : Bool) : State :=
  let s1 := s.markHeads
  { s1 with
    bnd := { s1.bnd with
      grant := .normal
      sceneStep := s.scenes.stepDue loopKind
      tempo := s.clock.pendingTempo.isSome }
    scenes := s.scenes.countdown }

/-- The BAR report, unless it waits for the boundary's scene step (R45, R145). -/
def State.barReportNow (s : State) : State := if s.bnd.sceneStep.isSome then s else s.reportBar

/-- A BEAT boundary's click test is to be made, with the settings that stand now (R158). -/
def State.setClickTest (s : State) (beat : Bool) : State :=
  { s with bnd := { s.bnd with click := if beat then some (s.tones.testAt s.clock.beat) else none } }

/-- A TICK boundary while RUNNING (R31, R33). Where a seal of this instant established L, every pass index became 0 then
and does not advance (R34). -/
def State.takeRunning (s : State) (now : Receivers) : State :=
  let r := s.clock.tickRunning
  let s1 := State.tickCommon { s with clock := r.1 } r.2 .running
  let s2 := if r.2.loop && !s.clock.loopSet then s1.advancePasses else s1
  let s3 := if r.2.bar then (s2.markBar r.2.loop).barReportNow else s2
  let s4 := s3.setClickTest r.2.beat
  (s4.receive now).startWalk

/-- A TICK boundary in COUNT_IN (R31, R33, R37). -/
def State.takeCountIn (s : State) (now : Receivers) : State :=
  let r := s.clock.tickCountIn
  let s1 := State.tickCommon { s with clock := r.1 } r.2 .countIn
  State.receive
    (State.setClickTest { s1 with bnd := { s1.bnd with tempo := r.2.bar && s.clock.pendingTempo.isSome } } r.2.beat) now

/-- A TICK boundary while STOPPED: the tones alone receive it (R31, R33). -/
def State.takeStopped (s : State) (now : Receivers) : State :=
  (s.tickCommon { beat := false, bar := false, loop := false } .stopped).placeClaims now

/-- The boundary that is due, or, in a READY frame in which none is, the receivers that have not acted yet, a begun walk
being finished first (R31, R33; log 5). -/
def State.takeTick (s : State) (now : Receivers) : State :=
  if s.tickDue then
    if s.clock.startMark ≠ .none then s
    else
      match s.clock.transport with
      | .stopped => s.takeStopped now
      | .countIn => if s.countInEnds then s else s.takeCountIn now
      | .running => s.takeRunning now
  else if s.isReady then s.endBegunWalk.receive now
  else s

/-- TICK_BOUNDARY (R31, R33), behind the claim of the frame that has ended (log 9); no effect where a count-in or the start
instant begins or ends instead. With the claims named, a request that comes behind it comes behind the walk too (R61, R97;
log 49). -/
def execTickBoundary (now : Receivers) (s : State) : Result := done (s.beginHead.takeTick now)

/-- The mark of a Start is spent. -/
def State.unmark (s : State) : State := { s with clock := { s.clock with startMark := .none } }

/-- The first frame of a count-in, where one is due: a TICK, BEAT and BAR boundary (R33, R40). -/
def State.countInBegins (s : State) (now : Receivers) : State :=
  if s.tickDue = true ∧ s.clock.startMark = .countIn then
    let s1 := s.unmark.tickCommon { beat := true, bar := true, loop := false } .countIn
    State.receive
      (State.setClickTest { s1 with bnd := { s1.bnd with tempo := s.clock.pendingTempo.isSome } } true) now
  else s

/-- COUNT_IN_BEGIN: the frame after a Start with count-in (R33, R40), behind the claim of the frame that has ended (log 9);
no effect where none is due. -/
def execCountInBegin (now : Receivers) (s : State) : Result := done (s.beginHead.countInBegins now)

/-- A track's layers that are audible join the wait list, bottom to top (R137). -/
def State.joinTrack (s : State) (t : TrackId) : State :=
  (s.track t).stack.foldl
    (fun s x => if s.audible t x = true ∧ s.mix.waits x = false ∧ (s.mix.voiceOf x).isNone = true then s.joinWait x else s) s

/-- A one-shot track that is audible at the start instant is armed (R20). -/
def State.armAtStart (s : State) (t : TrackId) : State := if s.trackAudible t then s.armOneShot t else s

/-- The start instant: a boundary of every kind, handed to the recorder like any BAR boundary (R33, R89, R137). -/
def State.startNow (s : State) (now : Receivers) : State :=
  let s1 := s.zeroPasses.tickCommon { beat := true, bar := true, loop := true } .running
  let s2 := (List.finRange 8).foldl State.joinTrack s1
  let s3 := (List.finRange 8).foldl State.armAtStart s2
  let s4 := { s3 with bnd := { s3.bnd with grant := .start, tempo := s.clock.pendingTempo.isSome } }
  (((s4.setClickTest true).markHeads.reportBar).receive now).startWalk

/-- The start instant in the frame after a Start without count-in, where one is due (R33, R40). -/
def State.startsNow (s : State) (now : Receivers) : State :=
  if s.tickDue = true ∧ s.clock.startMark = .start then s.unmark.startNow now else s

/-- START_INSTANT (R33, R40), behind the claim of the frame that has ended (log 9); no effect where none is due. -/
def execStartInstant (now : Receivers) (s : State) : Result := done (s.beginHead.startsNow now)

/-- The count-in ends: the transport becomes RUNNING (R41). -/
def State.enterRunning (s : State) : State :=
  State.reportTransport
    { s with clock := { s.clock with transport := .running, countIn := 0, tick := 0, beat := 0 } } .countIn .countInEnd 0

/-- The BAR boundary at which count-in remaining reaches 0, where one is due, is the start instant (R41). -/
def State.countInOver (s : State) (now : Receivers) : State :=
  if s.tickDue = true ∧ s.clock.startMark = .none ∧ s.countInEnds = true then s.enterRunning.startNow now else s

/-- COUNT_IN_END (R41), behind the claim of the frame that has ended (log 9); no effect where none is due. -/
def execCountInEnd (now : Receivers) (s : State) : Result := done (s.beginHead.countInOver now)

/-! ### The audio frame -/

/-- A layer's level in this frame's mix, its record having this one: one that the frame's request sets acts from the next
frame (R23, R140; log 44). -/
def Heard.level (h : Heard) (x : LayerId) (now : Byte) : Byte :=
  match h with
  | .layer y level => if x = y then level else now
  | _ => now

/-- A track's gain and pan in this frame's mix: those that the frame's request sets act from the next frame (R22, R140;
log 44). -/
def Heard.gainPan (h : Heard) (t : TrackId) (now : Byte × Byte) : Byte × Byte :=
  match h with
  | .track u gain pan => if t = u then (gain, pan) else now
  | _ => now

/-- The prompt sample in this frame's mix: a flush of the frame gives 0 from the next (R166; log 44). -/
def Heard.promptSample (h : Heard) (now : Int) : Int :=
  match h with
  | .prompt sample => sample
  | _ => now

/-- The mix engine with the monitor levels of this frame's mix: those that the frame's request sets act from the next frame
(R143; log 44). -/
def Mix.monitored (m : Mix) : Mix :=
  match m.heard with
  | .monitor inputs main click prompt =>
    { m with inputLevels := inputs, mainLevel := main, clickLevel := click, promptLevel := prompt }
  | _ => m

/-- A voiced layer's sample (R140). -/
def State.layerSample (s : State) (x : LayerId) : Int :=
  match s.layer x with
  | none => 0
  | some l =>
    let p := s.trackPos l.track
    applyLevel (s.mix.heard.level x l.level)
      (match s.mapEntry x (p / 4096) with
       | some b => (s.mem.sample b (p % 4096)).toInt
       | none => 0)

/-- The voiced layers of a track that sound in this frame: one that is given its voice in it sounds from the next (R132, R136,
R137; log 53). -/
def State.voicedOn (s : State) (t : TrackId) : List LayerId :=
  (s.mix.voices.toList.filterMap id).filter fun x => (s.layer x).map (·.track) = some t ∧ x ∉ s.mix.fresh

/-- A track's gain and pan in this frame's mix (R140). -/
def State.gainPan (s : State) (t : TrackId) : Byte × Byte :=
  s.mix.heard.gainPan t ((s.track t).gain, (s.track t).pan)

/-- The track sum with the track's gain applied (R140). -/
def State.trackSum (s : State) (t : TrackId) : Int :=
  applyLevel (s.gainPan t).1 (satSum ((s.voicedOn t).map s.layerSample))

/-- The left share of a track sum (R140). -/
def leftShare (sum : Int) (pan : Byte) : Int := (sum * (127 - (pan.toNat : Int))).tdiv 127

/-- The right share of a track sum (R140). -/
def rightShare (sum : Int) (pan : Byte) : Int := (sum * (pan.toNat : Int)).tdiv 127

/-- Main left and main right (R141). -/
def State.mainBus (s : State) : Int × Int :=
  if s.sup.latch then (0, 0)
  else
    (satSum ((List.finRange 8).map fun t => leftShare (s.trackSum t) (s.gainPan t).2),
      satSum ((List.finRange 8).map fun t => rightShare (s.trackSum t) (s.gainPan t).2))

/-- The terms of the monitor bus beside the main one (R142). -/
def State.monitorTerms (s : State) (ins : Vector Sample 4) : List Int :=
  let m := s.mix.monitored
  ((List.finRange 4).map fun i => applyLevel (m.inputLevels.get i) (ins.get i).toInt)
    ++ [applyLevel m.clickLevel s.tones.clickSample,
      applyLevel m.promptLevel (s.mix.heard.promptSample s.tones.promptSample)]

/-- The four output samples of a frame (R140..R142). -/
def State.mixFrame (s : State) (ins : Vector Sample 4) : Outputs :=
  let m := s.mainBus
  let terms := s.monitorTerms ins
  { mainL := toSample m.1
    mainR := toSample m.2
    monL := toSample (satSum (applyLevel s.mix.monitored.mainLevel m.1 :: terms))
    monR := toSample (satSum (applyLevel s.mix.monitored.mainLevel m.2 :: terms)) }

/-- A track's one-shot count in a frame; at 0 its self-mute is due (R21). -/
def State.countOneShot (s : State) (t : TrackId) : State :=
  if (s.track t).oneShot = true ∧ s.trackAudible t = true ∧ 0 < (s.track t).remaining then
    s.modTrack t fun r => { r with remaining := r.remaining - 1, selfMuteDue := r.selfMuteDue || r.remaining = 1 }
  else s

/-- The loop position after a frame in which the song moves (R32). -/
def Clock.nextLoopPos (c : Clock) : Nat :=
  let length := if c.loop.isSome then c.loopFrames else c.barFrames
  if c.loopPos + 1 = length then 0 else c.loopPos + 1

/-- The bar clock's own count in a READY frame (R30, R32). -/
def Clock.frame (c : Clock) (moving : Bool) : Clock :=
  { c with
    divider := if c.dividerSet then c.divider else c.divider - 1
    dividerSet := false
    loopSet := false
    frameCount := c.frameCount + 1
    loopPos := if moving then c.nextLoopPos else c.loopPos }

/-- The bounce queue in the next frame: its head and its entries are no longer new (R112, R113). -/
def BounceEngine.nextFrame (b : BounceEngine) : BounceEngine :=
  { b with headFresh := false, queue := b.queue.map fun e => { e with joined := false } }

/-- What was said of the frame that ends is forgotten: the boundary taken, the request taken, the pass indices set ahead
of their boundary, the newness of the bounce queue's head and entries, the newness of the voices and what the mix had still as
it stood before, and, unless the bounce engine's claim is still to come, the place of its claims. -/
def State.closeFrame (s : State) : State :=
  { s with
    bnd := {}
    pool := if s.beginIsDue then s.pool else s.pool.served
    link := s.link.nextFrame
    tracks := s.tracks.map fun r => { r with passSet := false }
    bounce := s.bounce.nextFrame
    mix := s.mix.nextFrame }

/-- A READY frame: the heads advance, the mix is formed, the one-shots, the tones, the bounce and the clock count. A layer
given a voice in this frame, be it at the start instant or by the cut of a DEFINING head for want of a block, sounds from the
next (R82, R132, R136, R137; log 53), and the gain, pan, levels or flush of a request of this frame act from the next (R22, R23,
R143, R166; log 44). Such a cut comes behind the frame's boundary, walk, grant pass and click test, which finds the head still
busy (R158; log 52). -/
def State.readyFrame (s : State) (ins : Vector Sample 4) : State :=
  let s1 := if s.moving then (s.advanceHead ins .h0).advanceHead ins .h1 else s
  let s2 := { s1 with outputs := s1.mixFrame ins }
  let s3 := (List.finRange 8).foldl State.countOneShot s2
  let s4 := { s3 with tones := s3.tones.frame }.bounceFrame
  State.closeFrame { s4 with clock := s4.clock.frame s4.moving }

/-- A VERIFYING frame: the verify scan's visit counts it (R104). -/
def State.verifyFrame (s : State) : State :=
  { s with
    pool := { s.pool with scan := s.pool.scan.map fun v => { v with frames := v.frames + 1 } }
    link := s.link.nextFrame }

/-- A head has something to do before the frame ends: a BAR boundary's work, or its track-length end. -/
def State.headOwes (s : State) (h : HeadId) : Bool :=
  match s.head h with
  | none => false
  | some r => r.atBar || s.lengthReached r

/-- The boundary in progress has something left to do; its click test is made ahead of the heads' work in the frame (log 52). -/
def State.boundaryOwes (s : State) : Bool :=
  s.bnd.sceneStep.isSome || s.bnd.walk.isSome || s.bnd.grant ≠ .none || s.bnd.click.isSome
    || (s.bnd.tempo && s.clock.pendingTempo.isSome) || s.toneLoadDue

/-- The click generator has something left to do. -/
def Tones.owes (t : Tones) : Bool :=
  (match t.click with
   | some c => c.ticks = 0 || c.wave.flipDue
   | none => false)
  || (match t.slot with
      | some sl => sl.ticks = 0 || sl.wave.flipDue
      | none => false)

/-- The bounce engine has something left to do. -/
def State.bounceOwes (s : State) : Bool :=
  s.bounceStartDue
    || (match s.running with
        | some r => r.phase = .beginDue || (r.phase = .filling && r.frames = 1024)
        | none => false)

/-- A step that falls in the present READY frame is outstanding, so the frame does not end (log 3). -/
def State.frameOwes (s : State) : Bool :=
  s.tickDue || s.boundaryOwes || s.headOwes .h0 || s.headOwes .h1 || s.tones.owes || s.bounceOwes
    || s.sup.restartDue || s.requestOwed || (List.finRange 8).any fun t => (s.track t).selfMuteDue

/-- A step that falls in the present VERIFYING frame is outstanding (log 3). -/
def State.verifyOwes (s : State) : Bool :=
  s.sup.restartDue || s.requestOwed
    || (match s.pool.scan with
        | some v => 32 ≤ v.frames
        | none => false)

/-- AUDIO_FRAME: the frame's work, which ends the frame (R30); no effect while a step of the frame is outstanding
(log 3), nor outside READY and VERIFYING (R141). -/
def execAudioFrame (in0 in1 in2 in3 : Sample) (s : State) : Result :=
  done <|
    match s.sup.state with
    | .ready => if s.frameOwes then s else s.readyFrame #v[in0, in1, in2, in3]
    | .verifying => if s.verifyOwes then s else s.verifyFrame
    | _ => s

end Sys2Proof.Machine
end

