-- ==== Sys2Proof/Machine/LinkEvents.lean ====
section
/-! DEFINITION. The link port's event rows (R183, R185, R186, R188). -/

namespace Sys2Proof.Machine

/-- A frame is offered to the request queue (R185). After an accepted Restart no reply is formed (R173; log 23). -/
def State.offer (s : State) (f : Frame) : State :=
  if 8 ≤ s.link.replyPlaces then s
  else if s.link.requests.length < 4 then { s with link := { s.link with requests := s.link.requests ++ [f] } }
  else if s.sup.restart.isSome then s
  else s.reply f.kind f.tag [Code.full.byte]

/-- The receiver hunts for a start byte. -/
def State.hunt (s : State) : State := { s with link := { s.link with assembling := false } }

/-- The silence timer restarts at a frame's arrival, if it is one that runs now (R188). -/
def State.arriveTimer (s : State) : State := if s.takesRequests then { s with link := s.link.restartTimer } else s

/-- A frame's arrival wakes the part from STANDBY (R177). -/
def State.arriveWake (s : State) : State := if s.sup.state = .standby then s.wake .link else s

/-- A whole frame with a correct CHECK arrives (R183, R185). In RESET no frame is received (R168). A KIND of 0x80 or more,
or a LEN above 56, is a discarded frame (R183). -/
def State.arrive (s : State) (f : Frame) : State :=
  if s.sup.state = .reset then s
  else if hostKind f.kind = false ∨ payloadFits f.payload = false then s.hunt
  else s.hunt.arriveTimer.arriveWake.offer f

/-- WELL_FORMED_FRAME: the frame whose bytes on the line spell this KIND, TAG and payload, with the CHECK that makes their
sum 0 (frameOf; R182), arrives, behind a begun walk (R185). -/
def execWellFormedFrame (kind tag : Byte) (payload : List Byte) (s : State) : Result :=
  done (s.settleWalk.arrive { kind := kind, tag := tag, payload := payload })

/-- FRAME_DISCARD: the receiver hunts again and nothing else changes (R183). -/
def execFrameDiscard (_cause : DiscardCause) (s : State) : Result := done s.hunt

/-- BYTE_GAP: the partial frame is discarded and the receiver hunts again (R183). -/
def execByteGap (s : State) : Result := done s.hunt

/-- START_BYTE: a hunting receiver begins assembling (R183); in RESET no frame is received (R168). -/
def execStartByte (s : State) : Result :=
  done (if s.sup.state = .reset then s else { s with link := { s.link with assembling := true } })

/-- A frame has left: one fewer is ahead of the reset that a Restart asked for (R173). -/
def Sup.frameLeft (u : Sup) : Sup :=
  { u with restart := u.restart.map fun r => { r with ahead := r.ahead - 1 } }

/-- The first frame of the transmit queue has left: its bytes, with CHECK, have gone over the line (R182), and its place is
freed (R186). None leaves any more once the reset that a Restart asked for is to start: it starts at the instant its reply has
left (R173). -/
def State.sendFirst (s : State) : State :=
  match s.link.tx with
  | [] => s
  | f :: rest =>
    if s.sup.restartDue then s
    else { s with link := { s.link with tx := rest, line := frameWire f }, sup := s.sup.frameLeft }

/-- FRAME_SENT: the first frame's last byte has left the line (R182, R186), behind a begun walk; no effect with nothing to
send, nor between a Restart's reply and its reset (R173). -/
def execFrameSent (s : State) : Result := done s.settleWalk.sendFirst

/-- A waiting cue is a REC or a DUB (R65). -/
def Cue.records (c : Cue) : Bool :=
  match c.action with
  | .record _ _ _ => true
  | .dub _ _ => true
  | _ => false

/-- The autopilot's work while the song moves: waiting REC and DUB cues are removed and every busy head is given its end
at the next bar (R65, R89). -/
def State.autopilotMoving (s : State) : State :=
  let s1 := { s with cues := { s.cues with list := s.cues.list.filter fun c => !c.records } }
  (s1.windDown .h0).windDown .h1

/-- The expiry of the silence timer (R188). -/
def State.silenceExpires (s : State) : State :=
  let s1 := { s with link := { s.link with timer := false, autopilot := true } }
  match s.clock.transport with
  | .stopped => s1.report .linkSilent [0, 0, s.clock.transport.code, byte s.link.timeout]
  | _ =>
    s1.autopilotMoving.report .linkSilent
      [byte (s.cues.list.filter Cue.records).length, byte s.headsBusy, s.clock.transport.code, byte s.link.timeout]

/-- LINK_SILENCE_EXPIRY: with the timer running, after a walk in progress (R65, R188); no effect with the timer
stopped. -/
def execLinkSilenceExpiry (s : State) : Result :=
  done (if s.link.timer = true ∧ s.takesRequests = true then s.finishWalk.silenceExpires else s)

end Sys2Proof.Machine
end

