-- ==== Sys2Proof/Machine/Recording.lean ====
section
/-! DEFINITION. The recorder's own event rows (R79, R80, R89). -/

namespace Sys2Proof.Machine

/-- An end-pending head's seal where one is due at the BAR boundary in progress. -/
def State.sealDue (s : State) (h : HeadId) : State :=
  match s.head h with
  | none => s
  | some r =>
    if s.isReady = false ∨ r.atBar = false then s
    else
      match s.pendingReason r with
      | none => s
      | some reason => s.sealPending h r reason

/-- END_PENDING_SEAL: a head with an end pending seals at a BAR boundary that allows it (R79, R89), behind a begun walk; no
effect where none is due. -/
def execEndPendingSeal (h : HeadId) (s : State) : Result := done (s.settleWalk.sealDue h)

/-- A head's track-length end where it is due; it waits for a TICK boundary of the same instant (log 28). -/
def State.lengthEndDue (s : State) (h : HeadId) : State :=
  match s.head h with
  | none => s
  | some r => if s.isReady = true ∧ s.tickDue = false ∧ s.lengthReached r = true then s.endAtLength h r else s

/-- TRACK_LENGTH_END: a FIXED or DUB recording has reached its track length (R80), behind a begun walk; no effect where none
is due. -/
def execTrackLengthEnd (h : HeadId) (s : State) : Result := done (s.settleWalk.lengthEndDue h)

end Sys2Proof.Machine
end

