-- ==== Sys2Proof/Machine/Resets.lean ====
section
/-! DEFINITION. The supervisor's event rows: resets, the verify scan, the supply crossings, the wake and the halt line
(chapter 10; R104..R107). -/

namespace Sys2Proof.Machine

/-- One cause alone. -/
def CauseSet.onlyPower : CauseSet := { CauseSet.empty with power := true }
/-- One cause alone. -/
def CauseSet.onlyBrown : CauseSet := { CauseSet.empty with brown := true }
/-- One cause alone. -/
def CauseSet.onlyPin : CauseSet := { CauseSet.empty with pin := true }
/-- One cause alone. -/
def CauseSet.onlyWarm : CauseSet := { CauseSet.empty with requestWarm := true }
/-- One cause alone. -/
def CauseSet.onlyCold : CauseSet := { CauseSet.empty with requestCold := true }

/-- POWER: a cold reset starts or joins the reset in force (R168). -/
def execPower (s : State) : Result := done (s.startReset CauseSet.onlyPower)

/-- BROWN: a warm reset starts or joins the reset in force (R168). -/
def execBrown (s : State) : Result := done (s.startReset CauseSet.onlyBrown)

/-- PIN: a warm reset starts or joins the reset in force (R168). -/
def execPin (s : State) : Result := done (s.startReset CauseSet.onlyPin)

/-- The reset asked for by an accepted Restart starts: its reply has left the link (R173). -/
def State.restartNow (s : State) (cold : Bool) : Bool :=
  match s.sup.restart with
  | some r => r.cold = cold && r.ahead = 0
  | none => false

/-- REQUEST_WARM: the warm reset asked for starts once the reply has left (R168, R173); no effect before. -/
def execRequestWarm (s : State) : Result :=
  done (if s.restartNow false then s.startReset CauseSet.onlyWarm else s)

/-- REQUEST_COLD: the cold reset asked for starts once the reply has left (R168, R173); no effect before. -/
def execRequestCold (s : State) : Result :=
  done (if s.restartNow true then s.startReset CauseSet.onlyCold else s)

/-! ### The end of a cold reset (R170) -/

/-- Every block at its cold values, the supervisor READY, before the reset-end check and HELLO. -/
def State.coldValues (s : State) (haltHigh : Bool) : State :=
  { State.reset with
    sup := { State.reset.sup with
      causes := s.sup.causes
      lineHigh := if s.sup.inForce.power then haltHigh else s.sup.lineHigh }
    link := { State.reset.link with tx := [] }
    freeCount := s.freeCount
    pending := s.pending }

/-- COLD_RESET_END: every block takes its cold values, the supervisor becomes READY, the edge memory check is made and
HELLO is sent (R170); no effect with no cold reset in force. -/
def execColdResetEnd (haltHigh : Bool) (s : State) : Result :=
  done <|
    if s.sup.state = .reset ∧ s.sup.coldInForce = true then (s.coldValues haltHigh).resetEndCheck.hello else s

/-! ### The end of a warm reset (R171) -/

/-- The FILLING layers: the heads' and the running bounce's product (R27). -/
def State.fillingLayers (s : State) : List LayerId := s.inUse.filter s.filling

/-- The blocks the cleanup returns (R107). -/
def State.cleanupBlocks (s : State) : Nat := (s.fillingLayers.map s.blocksOf).sum

/-- The bar clock after a warm reset's cleanup (R47). -/
def Clock.warm (c : Clock) : Clock :=
  { c with
    tick := 0, beat := 0, bar := 0, songBar := 0, loopPos := 0, countIn := 0, pendingTempo := none, taps := []
    transport := .stopped, frameCount := 0, startMark := .none, loopSet := false }

/-- A track record after a warm reset's cleanup, but for its span (R27). -/
def Track.warm (r : Track) : Track :=
  { r with reservations := 0, pass := 0, remaining := 0, selfMuteDue := false, passSet := false }

/-- The cleanup of a warm reset (R171, step 1). -/
def State.cleanup (s : State) : State :=
  let s1 := s.fillingLayers.foldl State.freeLayer { s with head0 := none, head1 := none }
  let s2 := s1.inUse.foldl (fun s x => s.setPin none x) s1
  let s3 := { s2 with tracks := s2.tracks.map Track.warm }
  let s4 := (List.finRange 8).foldl State.trimSpan s3
  { s4 with
    clock := s4.clock.warm
    cues := { list := [], nextId := 0 }
    bounce := { queue := [], nextId := 0, threshold := s4.bounce.threshold, headFresh := false }
    mix := s4.mix.clear.nextFrame
    scenes := s4.scenes.idle
    tones := s4.tones.warm
    pool := { s4.pool with scan := none }
    bnd := {} }

/-- The halt latch is cleared (R171, step 3). -/
def State.unlatch (s : State) : State := { s with sup := { s.sup with latch := false } }

/-- The link port at the end of a warm reset (R193). -/
def Link.warm (l : Link) : Link := Link.restartTimer { l.abandon with autopilot := false, lost := false }

/-- The reset is over: VERIFYING if a layer record is in use, else READY (R171, step 4). -/
def State.leaveReset (s : State) : State :=
  let s1 := { s with link := s.link.warm, sup := { s.sup with inForce := CauseSet.empty } }
  if s.inUse = [] then s1.becomeReady else { s1 with sup := { s1.sup with state := .verifying } }

/-- The first OWNED block from a number on (R104). -/
def Pool.nextOwned (p : Pool) (n : Nat) : Option BlockId := (p.owned.find? fun e => n ≤ e.1.val).map (·.1)

/-- The scan ends: the supervisor becomes READY and READY is sent (R106). -/
def State.endScan (s : State) (freed checked : Nat) : State :=
  State.reportReady (State.becomeReady { s with pool := { s.pool with scan := none } }) freed checked

/-- The verify scan starts; with no block OWNED it ends at once (R104, R106). -/
def State.startScan (s : State) (freed : Nat) : State :=
  match s.pool.nextOwned 0 with
  | none => s.endScan freed 0
  | some b => { s with pool := { s.pool with scan := some { next := b, frames := 0, checked := 0, freed := freed } } }

/-- The end of a warm reset (R171). -/
def State.endWarm (s : State) : State :=
  let freed := s.cleanupBlocks
  let s1 := s.cleanup
  let s2 := { s1 with pool := s1.pool.rebuild }
  let s3 := s2.unlatch.resetEndCheck.leaveReset.hello
  if s3.inUse = [] then (s3.reportReady freed 0).haltFromMemory .resetEnd
  else (s3.haltFromMemory .resetEnd).startScan freed

/-- WARM_RESET_END (R171); no effect with no warm reset in force. -/
def execWarmResetEnd (s : State) : Result :=
  done (if s.sup.state = .reset ∧ s.sup.coldInForce = false then s.endWarm else s)

/-! ### The verify scan (R104..R106) -/

/-- A byte of a block that no longer reads as it was written (log 21). -/
def State.upset (b : BlockId) (s : State) (c : Host.Cell) : State :=
  if b.val * 8192 ≤ c.1 ∧ c.1 < b.val * 8192 + 8192 then { s with mem := s.mem.write c.1 c.2 } else s

/-- A visit's outcome for a stored word (R105). -/
def visitOutcome (stored now : Word) : Check := if stored = now then .valid stored else .bad stored

/-- The stored check word of a block, while it has one. -/
def Check.word : Check → Option Word
  | .none => Option.none
  | .valid w => some w
  | .bad w => some w

/-- The owner of a block left BAD gets the damaged mark (R105). -/
def State.markDamaged (s : State) (b : BlockId) : State :=
  match s.pool.entry b with
  | some ⟨x, _, .bad _⟩ => s.modLayer x fun l => { l with damaged := true }
  | _ => s

/-- The visit of a block: its check state is set, and its owner marked if the block is BAD (R105). -/
def State.visit (s : State) (b : BlockId) : State :=
  match (s.pool.entry b).bind fun o => o.check.word with
  | none => s
  | some w => State.markDamaged { s with pool := s.pool.setCheck b (visitOutcome w (s.checkWord b)) } b

/-- The scan goes on to the next OWNED block, or ends (R104, R106). -/
def State.scanOn (s : State) (v : Scan) : State :=
  match s.pool.nextOwned (v.next.val + 1) with
  | some b => { s with pool := { s.pool with scan := some { v with next := b, frames := 0, checked := v.checked + 1 } } }
  | none => s.endScan v.freed (v.checked + 1)

/-- VERIFY_VISIT_END: the visit's 32 frames are over (R105); no effect before. -/
def execVerifyVisitEnd (upsets : List Host.Cell) (s : State) : Result :=
  done <|
    match s.pool.scan with
    | none => s
    | some v =>
      if s.sup.state = .verifying ∧ v.frames = 32 then
        ((upsets.foldl (State.upset v.next) s).visit v.next).scanOn v
      else s

/-! ### Supply, wake and halt line -/

/-- The monitor's state changes with SUPPLY (R174). -/
def State.cross (s : State) (low : Bool) (vdd : Half) : State :=
  State.reportSupply { s with sup := { s.sup with low := low } } vdd

/-- Into LOW: in NORMAL, with VDD below the warn level (R174); in STANDBY a wake source (R177). -/
def State.fallLow (s : State) (vdd : Half) : State :=
  if s.sup.low = false ∧ vdd.toNat < warnLevel s.sup.warnCode then
    let s1 := s.cross true vdd
    if s.sup.state = .standby then s1.wake .supply else s1
  else s

/-- SUPPLY_LOW: VDD crosses into LOW (R174), behind a begun walk (R58); no effect where it does not. -/
def execSupplyLow (vdd : Half) (s : State) : Result := done (s.settleWalk.fallLow vdd)

/-- Into NORMAL: in LOW, with VDD at or above the warn level plus 0.05 V (R174). -/
def State.riseNormal (s : State) (vdd : Half) : State :=
  if s.sup.low = true ∧ warnLevel s.sup.warnCode + 5 ≤ vdd.toNat then s.cross false vdd else s

/-- SUPPLY_OK: VDD crosses into NORMAL (R174), behind a begun walk (R58); no effect where it does not. -/
def execSupplyOk (vdd : Half) (s : State) : Result := done (s.settleWalk.riseNormal vdd)

/-- The end of a wake (R177). -/
def State.endWake (s : State) (w : Wake) (duration : Half) : State :=
  let s1 := State.becomeReady
    { s with
      sup := { s.sup with wake := none }
      link := s.link.restartTimer.nextFrame }
  let s2 := s1.report .woke ([w.cause.code] ++ le2 duration.toNat)
  if w.haltHeld then s2.haltEvent .wake else s2

/-- WAKE_END: the 2 ms of WAKING are over (R177); no effect otherwise. -/
def execWakeEnd (duration : Half) (s : State) : Result :=
  done <|
    match s.sup.wake with
    | none => s
    | some w => if s.sup.state = .waking then s.endWake w duration else s

/-- The debounced line takes a level. -/
def State.setLine (s : State) (active : Bool) : State :=
  { s with sup := { s.sup with lineHigh := if active then s.sup.activeHigh else !s.sup.activeHigh } }

/-- What an active edge does, the line being active now (R177, R178). -/
def State.edge (s : State) : State :=
  match s.sup.state with
  | .reset => s
  | .ready | .verifying =>
    if s.sup.detection then s.finishWalk.haltEvent .edge
    else { s with sup := { s.sup with edgeMemory := true } }
  | .standby => if s.sup.detection then s.wake .halt else s
  | .waking =>
    if s.sup.detection then
      { s with sup := { s.sup with wake := s.sup.wake.map fun w => { w with haltHeld := true } } }
    else s

/-- HALT_EDGE: the debounced line becomes active (R178); no effect while it is active already. -/
def execHaltEdge (s : State) : Result := done (if s.sup.lineActive then s else (s.setLine true).edge)

/-- HALT_LINE_INACTIVE: the debounced line becomes inactive (R178); no effect while it is inactive already. -/
def execHaltLineInactive (s : State) : Result := done (if s.sup.lineActive then s.setLine false else s)

end Sys2Proof.Machine
end

