-- ==== Sys2Proof/Machine/Scenes.lean ====
section
/-! DEFINITION. The scene requests and the scene sequencer's event rows (R147, R148, R150..R153). -/

namespace Sys2Proof.Machine

/-- A scene record from SceneWrite's fields after the scene number, if all are in range (R150). -/
def sceneRecord (p : List Byte) : Option Scene :=
  match p with
  | [valid, a0, a1, a2, a3, a4, a5, a6, a7, length, next, tie] => do
    let b0 ← sceneActOf a0
    let b1 ← sceneActOf a1
    let b2 ← sceneActOf a2
    let b3 ← sceneActOf a3
    let b4 ← sceneActOf a4
    let b5 ← sceneActOf a5
    let b6 ← sceneActOf a6
    let b7 ← sceneActOf a7
    let n ← sceneNextOf next
    if valid.toNat ≤ 1 ∧ tie.toNat ≤ 1 then
      some { valid := valid = 1, actions := #v[b0, b1, b2, b3, b4, b5, b6, b7], length := length, next := n
             tie := tie = 1 }
    else none
  | _ => none

/-- A scene record replaced. -/
def State.setScene (s : State) (n : SceneId) (r : Scene) : State :=
  { s with scenes := { s.scenes with table := s.scenes.table.set n.val r n.isLt } }

/-- SCENE_WRITE's owner (R150). -/
def ownSceneWrite : Owner := fun s p =>
  match p with
  | scene :: rest =>
    if !s.isReady then answer s .notReady []
    else
      match sceneOf scene, sceneRecord rest with
      | some n, some r => answer (s.setScene n r) .ok []
      | _, _ => answer s .badValue []
  | [] => answer s .badLength []

/-- SCENE_WRITE (R150). -/
def execSceneWrite (tag : Byte) (payload : List Byte) (s : State) : Result :=
  done (serve 0x30 [] tag payload ownSceneWrite s)

/-- SceneRead's fields (R151). -/
def State.sceneBytes (s : State) (n : SceneId) : List Byte :=
  let r := s.scenes.table.get n
  [numByte n, flagByte r.valid] ++ r.actions.toList.map SceneAct.code
    ++ [r.length, optNumByte r.next, flagByte r.tie, flagByte s.scenes.current.isSome, optNumByte s.scenes.current,
        s.scenes.bars.readCode, optNumByte (s.scenes.due.map (·.scene)), optNumByte s.scenes.slot]

/-- SCENE_READ's owner (R151). -/
def ownSceneRead : Owner := fun s p =>
  match p with
  | [scene] =>
    match sceneOf scene with
    | none => answer s .badValue (zeros 18)
    | some n => answer s .ok (s.sceneBytes n)
  | _ => answer s .badLength []

/-- SCENE_READ (R151). -/
def execSceneRead (tag : Byte) (payload : List Byte) (s : State) : Result :=
  done (serve 0x31 [] tag payload ownSceneRead s)

/-- The pending-next slot set. -/
def State.setSlot (s : State) (o : Option SceneId) : State := { s with scenes := { s.scenes with slot := o } }

/-- SCENE_NEXT_SET's owner (R152). -/
def ownSceneNextSet : Owner := fun s p =>
  match p with
  | [_, scene] =>
    if !s.isReady then answer s .notReady [optNumByte s.scenes.slot]
    else if badAction p then answer s .badValue [optNumByte s.scenes.slot]
    else
      match sceneOf scene with
      | none => answer s .badValue [optNumByte s.scenes.slot]
      | some n =>
        if (s.scenes.table.get n).valid then answer (s.setSlot (some n)) .ok [optNumByte s.scenes.slot]
        else answer s .badValue [optNumByte s.scenes.slot]
  | _ => answer s .badLength []

/-- SCENE_NEXT_SET (R152). -/
def execSceneNextSet (tag : Byte) (payload : List Byte) (s : State) : Result :=
  done (serve 0x32 [1] tag payload ownSceneNextSet s)

/-- SCENE_NEXT_EMPTY's owner (R152). -/
def ownSceneNextEmpty : Owner := fun s p =>
  if !s.isReady then answer s .notReady [optNumByte s.scenes.slot]
  else if badAction p then answer s .badValue [optNumByte s.scenes.slot]
  else answer (s.setSlot none) .ok [optNumByte s.scenes.slot]

/-- SCENE_NEXT_EMPTY (R152). -/
def execSceneNextEmpty (tag : Byte) (payload : List Byte) (s : State) : Result :=
  done (serve 0x32 [0] tag payload ownSceneNextEmpty s)

/-- SCENE_STOP's owner (R153). -/
def ownSceneStop : Owner := fun s _ =>
  if !s.isReady then answer s .notReady [optNumByte s.scenes.current]
  else answer s.scenesIdle .ok [optNumByte s.scenes.current]

/-- SCENE_STOP (R153). -/
def execSceneStop (tag : Byte) (payload : List Byte) (s : State) : Result :=
  done (serve 0x33 [] tag payload ownSceneStop s)

/-- SCENE_COUNTDOWN_END: bars remaining has reached 0 at the boundary (R147); no effect where that is not due. -/
def execSceneCountdownEnd (s : State) : Result :=
  done (if s.bnd.sceneStep = some .countdownEnd then s.takeSceneStep else s)

/-- DUE_SCENE_APPLY: a due scene meets its LOOP boundary (R148); no effect where that is not due. -/
def execDueSceneApply (s : State) : Result :=
  done (if s.bnd.sceneStep = some .dueApply then s.takeSceneStep else s)

end Sys2Proof.Machine
end

