-- ==== Sys2Proof/Machine/Status.lean ====
section
/-! DEFINITION. The status and supervisor requests (R169, R173, R175, R176, R180, R181, R184, R187, R190). -/

namespace Sys2Proof.Machine

/-- GetStatus's fields (section 11.8), with the autopilot flag as it stood when the request was taken (R190; log 43). -/
def State.statusBytes (s : State) (autopilot : Bool) : List Byte :=
  [s.sup.state.code, s.clock.transport.code, flagByte s.clock.loop.isSome, byte (s.clock.loop.getD 0)]
    ++ le2 s.clock.p ++ [byte s.clock.b] ++ le2 s.clock.songBar.toNat ++ le2 s.pool.free.length
    ++ [byte s.mix.held, byte s.headsBusy, byte s.cues.list.length, byte s.bounce.queue.length,
        statusFlags s.sup.latch s.sup.edgeMemory autopilot s.sup.low s.link.lost s.clock.pendingTempo.isSome]

/-- GET_STATUS: the status is answered and the reports-lost flag then cleared (R190). -/
def ownGetStatus (autopilot : Bool) : Owner := fun s _ =>
  answer { s with link := { s.link with lost := false } } .ok (s.statusBytes autopilot)

/-- GET_STATUS (R190). -/
def execGetStatus (tag : Byte) (payload : List Byte) (s : State) : Result :=
  done (serve 0x01 [] tag payload (ownGetStatus s.link.autopilot) s)

/-- RESET_CAUSE_READ's owner (R169). -/
def ownResetCauseRead : Owner := fun s p =>
  answer s (if badAction p then .badValue else .ok) [s.sup.causes.byte]

/-- RESET_CAUSE_READ (R169). -/
def execResetCauseRead (tag : Byte) (payload : List Byte) (s : State) : Result :=
  done (serve 0x02 [1] tag payload ownResetCauseRead s)

/-- RESET_CAUSE_READ_AND_CLEAR's owner (R169). -/
def ownResetCauseReadAndClear : Owner := fun s p =>
  if badAction p then answer s .badValue [s.sup.causes.byte]
  else answer { s with sup := { s.sup with causes := CauseSet.empty } } .ok [s.sup.causes.byte]

/-- RESET_CAUSE_READ_AND_CLEAR (R169). -/
def execResetCauseReadAndClear (tag : Byte) (payload : List Byte) (s : State) : Result :=
  done (serve 0x02 [0] tag payload ownResetCauseReadAndClear s)

/-- Restart's owner: the reset starts when the reply, behind all that is queued, has left the link (R173). -/
def ownRestart (cold : Bool) : Owner := fun s p =>
  if badAction p then answer s .badValue []
  else
    answer { s with sup := { s.sup with restart := some { cold := cold, ahead := s.link.tx.length + 1 } } } .ok []

/-- RESTART_WARM (R173). -/
def execRestartWarm (tag : Byte) (payload : List Byte) (s : State) : Result :=
  done (serve 0x03 [1] tag payload (ownRestart false) s)

/-- RESTART_COLD (R173). -/
def execRestartCold (tag : Byte) (payload : List Byte) (s : State) : Result :=
  done (serve 0x03 [0] tag payload (ownRestart true) s)

/-- Standby is refused BUSY (R176). -/
def State.standbyBusy (s : State) : Bool :=
  s.clock.transport ≠ .stopped || s.headsBusy ≠ 0 || s.bounce.queue ≠ [] || s.cues.list ≠ []

/-- A click that ends with the present frame ends at standby entry, which forms no more frames (R159, R176). -/
def Tones.settleClick (t : Tones) : Tones :=
  { t with click := if t.clickEnds then none else t.click, clickEnds := false }

/-- The supervisor enters STANDBY (R176). -/
def State.enterStandby (s : State) : State :=
  let s1 := s.flushTones .standby
  { s1 with
    sup := { s1.sup with state := .standby }
    link := { s1.link with timer := false }
    clock := { s1.clock with taps := [] }
    tones := s1.tones.settleClick
    outputs := Outputs.zero
    pool := { s.pool with behind := none }
    bnd := {} }

/-- STANDBY's owner; requests that already wait wake the part at once (R176). -/
def ownStandby : Owner := fun s _ =>
  if !s.isReady then answer s .notReady []
  else if s.standbyBusy then answer s .busy []
  else
    let s1 := s.enterStandby
    answer (if s1.link.requests = [] then s1 else s1.wake .link) .ok []

/-- STANDBY (R176). -/
def execStandby (tag : Byte) (payload : List Byte) (s : State) : Result :=
  done (serve 0x04 [] tag payload ownStandby s)

/-- LinkConfig's fields as they stand, HELLO's bit shown as set and the bits past the report kinds 0 (R187; log 50). -/
def State.linkConfigBytes (s : State) : List Byte := byte s.link.timeout :: le4 (s.link.enables ||| 1).toNat

/-- LINK_CONFIG_READ's owner (R187). -/
def ownLinkConfigRead : Owner := fun s p =>
  answer s (if badAction p then .badValue else .ok) s.linkConfigBytes

/-- LINK_CONFIG_READ (R187). -/
def execLinkConfigRead (tag : Byte) (payload : List Byte) (s : State) : Result :=
  done (serve 0x05 [1] tag payload ownLinkConfigRead s)

/-- LINK_CONFIG_WRITE's owner (R187). -/
def ownLinkConfigWrite : Owner := fun s p =>
  match p with
  | [a, timeout, e0, e1, e2, _] =>
    if 1 < a.toNat ∨ 50 < timeout.toNat then answer s .badValue s.linkConfigBytes
    else
      let s1 := { s with
        link := Link.restartTimer
          { s.link with timeout := timeout.toNat, enables := BitVec.ofNat 24 (fromLe3 e0 e1 e2) } }
      answer s1 .ok s1.linkConfigBytes
  | _ => answer s .badLength []

/-- LINK_CONFIG_WRITE (R187). -/
def execLinkConfigWrite (tag : Byte) (payload : List Byte) (s : State) : Result :=
  done (serve 0x05 [0] tag payload ownLinkConfigWrite s)

/-- SupplyConfig's fields as they stand, with VDD now (R175). -/
def State.supplyConfigBytes (s : State) (vdd : Half) : List Byte :=
  [byte s.sup.warnCode.val, byte s.sup.delayCode.val, flagByte s.sup.guard, flagByte s.sup.low] ++ le2 vdd.toNat

/-- SUPPLY_CONFIG_READ's owner (R175). -/
def ownSupplyConfigRead (vdd : Half) : Owner := fun s p =>
  answer s (if badAction p then .badValue else .ok) (s.supplyConfigBytes vdd)

/-- SUPPLY_CONFIG_READ (R175). -/
def execSupplyConfigRead (tag : Byte) (payload : List Byte) (vdd : Half) (s : State) : Result :=
  done (serve 0x06 [1] tag payload (ownSupplyConfigRead vdd) s)

/-- SUPPLY_CONFIG_WRITE's owner (R175). -/
def ownSupplyConfigWrite (vdd : Half) : Owner := fun s p =>
  match p with
  | [a, warn, delay, guard] =>
    if 1 < a.toNat then answer s .badValue (s.supplyConfigBytes vdd)
    else if !s.isReady then answer s .notReady (s.supplyConfigBytes vdd)
    else
      match supplyCodeOf warn, supplyCodeOf delay with
      | some w, some d =>
        if 1 < guard.toNat then answer s .badValue (s.supplyConfigBytes vdd)
        else
          let s1 := { s with sup := { s.sup with warnCode := w, delayCode := d, guard := guard = 1 } }
          answer s1 .ok (s1.supplyConfigBytes vdd)
      | _, _ => answer s .badValue (s.supplyConfigBytes vdd)
  | _ => answer s .badLength []

/-- SUPPLY_CONFIG_WRITE (R175). -/
def execSupplyConfigWrite (tag : Byte) (payload : List Byte) (vdd : Half) (s : State) : Result :=
  done (serve 0x06 [0] tag payload (ownSupplyConfigWrite vdd) s)

/-- HaltConfig's fields as they stand (R180). -/
def State.haltConfigBytes (s : State) : List Byte :=
  [flagByte s.sup.detection, flagByte s.sup.activeHigh, flagByte s.sup.edgeMemory, flagByte s.sup.latch,
    flagByte s.sup.lineActive]

/-- HALT_CONFIG_READ's owner (R180). -/
def ownHaltConfigRead : Owner := fun s p =>
  answer s (if badAction p then .badValue else .ok) s.haltConfigBytes

/-- HALT_CONFIG_READ (R180). -/
def execHaltConfigRead (tag : Byte) (payload : List Byte) (s : State) : Result :=
  done (serve 0x07 [1] tag payload ownHaltConfigRead s)

/-- An accepted HaltConfig WRITE: the memory, the level, detection, then a halt event if one is due (R180). -/
def State.writeHaltConfig (s : State) (detection high clear : Bool) : State :=
  State.haltFromMemory
    { s with
      sup := { s.sup with
        edgeMemory := s.sup.edgeMemory && !clear
        activeHigh := high
        detection := detection } }
    .enable

/-- HALT_CONFIG_WRITE's owner (R180). -/
def ownHaltConfigWrite : Owner := fun s p =>
  match p with
  | [a, detection, level, clear] =>
    if 1 < a.toNat then answer s .badValue s.haltConfigBytes
    else if !s.isReady then answer s .notReady s.haltConfigBytes
    else if 1 < detection.toNat ∨ 1 < level.toNat ∨ 1 < clear.toNat then answer s .badValue s.haltConfigBytes
    else
      let s1 := s.writeHaltConfig (detection = 1) (level = 1) (clear = 1)
      answer s1 .ok s1.haltConfigBytes
  | _ => answer s .badLength []

/-- HALT_CONFIG_WRITE (R180). -/
def execHaltConfigWrite (tag : Byte) (payload : List Byte) (s : State) : Result :=
  done (serve 0x07 [0] tag payload ownHaltConfigWrite s)

/-- HALT_CLEAR's owner (R181). -/
def ownHaltClear : Owner := fun s _ =>
  if !s.isReady then answer s .notReady [flagByte s.sup.latch]
  else if s.sup.lineActive then answer s .lineActive [flagByte s.sup.latch]
  else answer { s with sup := { s.sup with latch := false } } .ok [0]

/-- HALT_CLEAR (R181). -/
def execHaltClear (tag : Byte) (payload : List Byte) (s : State) : Result :=
  done (serve 0x08 [] tag payload ownHaltClear s)

/-- UNKNOWN_REQUEST: a KIND not in the catalogue is answered UNKNOWN, a known one with a wrong LEN BAD_LENGTH (R184); a
known one with its own LEN is another row's, and has no effect here (log 33). -/
def execUnknownRequest (kind tag : Byte) (payload : List Byte) (s : State) : Result :=
  if s.canTake { kind := kind, tag := tag, payload := payload } = false ∨ hostKind kind = false
      ∨ catalogueLength kind = some payload.length then done s
  else
    done (s.takeRequest.reply kind tag
      [if (catalogueLength kind).isSome then Code.badLength.byte else Code.unknown.byte])

end Sys2Proof.Machine
end

