-- ==== Sys2Proof/Machine/Tempo.lean ====
section
/-! DEFINITION. The tempo and transport requests, and the pending tempo at a BAR boundary (R36, R37, R39, R40, R42,
R44). -/

namespace Sys2Proof.Machine

/-- P and B of a request are in range (R36). -/
def tempoInRange (p b : Nat) : Bool := 250 ≤ p && p ≤ 1500 && 1 ≤ b && b ≤ 12

/-- SET_TEMPO's owner (R36). -/
def ownSetTempo : Owner := fun s p =>
  match p with
  | [p0, p1, b] =>
    if !s.isReady then answer s .notReady [0]
    else if !tempoInRange (fromLe2 p0 p1) b.toNat then answer s .badValue [0]
    else if s.tempoLocked then answer s .locked [0]
    else
      let r := s.stageTempo (fromLe2 p0 p1) b.toNat
      answer r.2 .ok [r.1]
  | _ => answer s .badLength []

/-- SET_TEMPO (R36). -/
def execSetTempo (tag : Byte) (payload : List Byte) (s : State) : Result :=
  done (serve 0x10 [] tag payload ownSetTempo s)

/-- The tap history with a stamp: emptied first when the newest entry is more than 96,000 frames old (R39). -/
def addTap (taps : List Word) (stamp : Word) : List Word :=
  match taps.getLast? with
  | some newest => if 96000 < (stamp - newest).toNat then [stamp] else taps ++ [stamp]
  | none => [stamp]

/-- The P that four taps form: S / 144, rounded to the nearest whole number (R39). -/
def formedP (taps : List Word) : Nat :=
  match taps.head?, taps.getLast? with
  | some a, some d => ((d - a).toNat + 72) / 144
  | _, _ => 0

/-- The state with another tap history. -/
def State.setTaps (s : State) (taps : List Word) : State := { s with clock := { s.clock with taps := taps } }

/-- The taking of an accepted Tap (R39). -/
def State.takeTap (s : State) : State × List Byte :=
  let taps := addTap s.clock.taps s.clock.frameCount
  if taps.length < 4 then answer (s.setTaps taps) .ok ([byte taps.length] ++ le2 0 ++ [0xFF])
  else
    let p := formedP taps
    let s1 := s.setTaps []
    if 250 ≤ p ∧ p ≤ 1500 then
      let r := s1.stageTempo p s.clock.b
      answer r.2 .ok ([byte taps.length] ++ le2 p ++ [r.1])
    else answer s1 .badValue ([byte taps.length] ++ le2 p ++ [0xFF])

/-- TAP's owner (R39). -/
def ownTap : Owner := fun s _ =>
  if !s.isReady then answer s .notReady [0, 0, 0, 0xFF]
  else if s.tempoLocked then answer s .locked [0, 0, 0, 0xFF]
  else s.takeTap

/-- TAP (R39). -/
def execTap (tag : Byte) (payload : List Byte) (s : State) : Result := done (serve 0x11 [] tag payload ownTap s)

/-- The bar clock's change at an accepted Start (R40). A TICK boundary that is due in the frame of the Start and not taken
yet is dropped with the divider's count: no receiver sees it, and the tick before the Start lasts to the next frame
(log 40). -/
def Clock.started (c : Clock) (countIn : Nat) : Clock :=
  { c with
    tick := 0, beat := 0, bar := 0, songBar := 0, loopPos := 0, divider := 0, dividerSet := true
    countIn := countIn
    transport := if countIn = 0 then .running else .countIn
    startMark := if countIn = 0 then .start else .countIn
    loopSet := false }

/-- START's owner (R40). -/
def ownStart : Owner := fun s p =>
  match p with
  | [c] =>
    if !s.isReady then answer s .notReady [0]
    else if 4 < c.toNat then answer s .badValue [0]
    else if s.sup.latch then answer s .halted [0]
    else if s.clock.transport ≠ .stopped then answer s .wrongState [0]
    else
      let s1 := { s with clock := s.clock.started c.toNat }
      answer (s1.reportTransport .stopped .start c.toNat) .ok [s1.clock.transport.code]
  | _ => answer s .badLength []

/-- START (R40). -/
def execStart (tag : Byte) (payload : List Byte) (s : State) : Result := done (serve 0x12 [] tag payload ownStart s)

/-- STOP's owner (R42). -/
def ownStop : Owner := fun s _ =>
  if !s.isReady then answer s .notReady [0]
  else answer (s.stopTransport .stopRequest .stop) .ok [s.clock.transport.code]

/-- STOP (R42). -/
def execStop (tag : Byte) (payload : List Byte) (s : State) : Result := done (serve 0x13 [] tag payload ownStop s)

/-- GetPosition's fields (R44). -/
def State.positionBytes (s : State) : List Byte :=
  let c := s.clock
  let pending := c.pendingTempo.getD (0, 0)
  [c.transport.code, byte c.countIn, byte c.tick, byte c.beat, byte c.bar] ++ le2 c.songBar.toNat ++ le4 c.loopPos
    ++ le2 c.divider ++ le2 c.p ++ [byte c.b, byte (c.loop.getD 0), flagByte c.loop.isSome, flagByte c.pendingTempo.isSome]
    ++ le2 pending.1 ++ [byte pending.2, byte c.taps.length]

/-- GET_POSITION's owner (R44). -/
def ownGetPosition : Owner := fun s _ => answer s .ok s.positionBytes

/-- GET_POSITION (R44). -/
def execGetPosition (tag : Byte) (payload : List Byte) (s : State) : Result :=
  done (serve 0x14 [] tag payload ownGetPosition s)

/-- PENDING_TEMPO_APPLY: at a BAR boundary with the slot full (R37), behind a begun walk; no effect where none is due. -/
def execPendingTempoApply (s : State) : Result :=
  done (let u := s.settleWalk; if u.bnd.tempo then u.applyAtBar else u)

end Sys2Proof.Machine
end

