-- ==== Sys2Proof/Machine/Tracks.lean ====
section
/-! DEFINITION. The track, layer and pool requests, and the one-shot self-mute (R21..R26, R103). -/

namespace Sys2Proof.Machine

/-- TrackConfig's fields are in range (R22). -/
def trackConfigOk (mask pan mute oneShot : Byte) : Bool :=
  1 ≤ mask.toNat && mask.toNat ≤ 15 && pan.toNat ≤ 127 && mute.toNat ≤ 2 && oneShot.toNat ≤ 2

/-- TrackConfig's mute action: 0 LEAVE, 1 SET, 2 CLEAR (R22). -/
def State.muteAction (s : State) (t : TrackId) (act : Byte) : State :=
  if act = 1 then s.muteTrack t else if act = 2 then s.unmuteTrack t else s

/-- The one-shot flag goes on: armed at once if the track is audible, else with a remaining count of 0 (R20). -/
def State.setOneShot (s : State) (t : TrackId) : State :=
  if (s.track t).oneShot then s
  else
    let s1 := s.modTrack t fun r => { r with oneShot := true, remaining := 0 }
    if s.trackAudible t then s1.armOneShot t else s1

/-- The one-shot flag goes off: the remaining count becomes 0 and no self-mute is pending (R20). -/
def State.clearOneShot (s : State) (t : TrackId) : State :=
  s.modTrack t fun r => { r with oneShot := false, remaining := 0, selfMuteDue := false }

/-- TrackConfig's one-shot action: 0 LEAVE, 1 SET, 2 CLEAR (R22). -/
def State.oneShotAction (s : State) (t : TrackId) (act : Byte) : State :=
  if act = 1 then s.setOneShot t else if act = 2 then s.clearOneShot t else s

/-- TRACK_CONFIG's owner (R22). -/
def ownTrackConfig : Owner := fun s p =>
  match p with
  | [track, mask, gain, pan, mute, oneShot] =>
    if !s.isReady then answer s .notReady []
    else
      match trackOf track with
      | none => answer s .badValue []
      | some t =>
        if !trackConfigOk mask pan mute oneShot then answer s .badValue []
        else
          let s1 := (s.hear (.track t (s.track t).gain (s.track t).pan)).modTrack t fun r =>
            { r with mask := mask.setWidth 4, gain := gain, pan := pan }
          answer ((s1.muteAction t mute).oneShotAction t oneShot) .ok []
  | _ => answer s .badLength []

/-- TRACK_CONFIG (R22). -/
def execTrackConfig (tag : Byte) (payload : List Byte) (s : State) : Result :=
  done (serve 0x20 [] tag payload ownTrackConfig s)

/-- TrackInfo's fields (R24). -/
def State.trackBytes (s : State) (t : TrackId) : List Byte :=
  let r := s.track t
  [numByte t, (s.trackState t).code, byte r.stack.length] ++ padTo 6 0xFF (r.stack.map numByte)
    ++ [byte r.reservations, byte r.redo.length] ++ padTo 6 0xFF (r.redo.map numByte)
    ++ [byte ((r.span.map Span.loops).getD 0), byte r.pass, flagByte r.mute, flagByte r.oneShot] ++ le4 r.remaining
    ++ [r.gain, r.pan, r.mask.setWidth 8]

/-- TRACK_INFO's owner (R24). -/
def ownTrackInfo : Owner := fun s p =>
  match p with
  | [track] =>
    match trackOf track with
    | none => answer s .badValue (zeros 28)
    | some t => answer s .ok (s.trackBytes t)
  | _ => answer s .badLength []

/-- TRACK_INFO (R24). -/
def execTrackInfo (tag : Byte) (payload : List Byte) (s : State) : Result :=
  done (serve 0x21 [] tag payload ownTrackInfo s)

/-- LayerInfo's fields after the layer number for a FREE record (R192). -/
def freeLayerBytes : List Byte := [0, 0xFF, 0xFF] ++ zeros 9 ++ [0xFF, 0xFF, 0xFF, 0xFF] ++ zeros 4

/-- LayerInfo's fields after the layer number for a record in use (section 11.8, R192). -/
def Layer.bytes (l : Layer) : List Byte :=
  [l.state.code, numByte l.track, l.origin.code] ++ le2 l.map.length ++ [l.level] ++ le2 l.startStamp.toNat
    ++ le2 (l.sealStamp.getD 0).toNat ++ [(l.mask.getD 0).setWidth 8, byte l.parents.length]
    ++ padTo 4 0xFF (l.parents.map numByte) ++ le2 l.clip
    ++ [markFlags l.gapped l.damaged l.pin.isSome, l.pin.getD 0]

/-- LAYER_INFO's owner (R25). -/
def ownLayerInfo : Owner := fun s p =>
  match p with
  | [layer] =>
    match layerOf layer with
    | none => answer s .badValue (zeros 21)
    | some x => answer s .ok (numByte x :: ((s.layer x).map Layer.bytes).getD freeLayerBytes)
  | _ => answer s .badLength []

/-- LAYER_INFO (R25). -/
def execLayerInfo (tag : Byte) (payload : List Byte) (s : State) : Result :=
  done (serve 0x22 [] tag payload ownLayerInfo s)

/-- LAYER_MAP's owner (R26). -/
def ownLayerMap : Owner := fun s p =>
  match p with
  | [layer, o0, o1] =>
    match layerOf layer with
    | none => answer s .badValue (zeros 52)
    | some x =>
      match s.layer x with
      | none => answer s .noSuch (zeros 52)
      | some l =>
        if l.map.length ≤ fromLe2 o0 o1 then answer s .badValue (zeros 52)
        else
          let shown := (l.map.drop (fromLe2 o0 o1)).take 24
          answer s .ok ([numByte x, o0, o1, byte shown.length] ++ padTo 48 0xFF (shown.flatMap mapEntryBytes))
  | _ => answer s .badLength []

/-- LAYER_MAP (R26). -/
def execLayerMap (tag : Byte) (payload : List Byte) (s : State) : Result :=
  done (serve 0x23 [] tag payload ownLayerMap s)

/-- SET_LEVEL's owner (R23). -/
def ownSetLevel : Owner := fun s p =>
  match p with
  | [layer, level] =>
    if !s.isReady then answer s .notReady []
    else
      match layerOf layer with
      | none => answer s .badValue []
      | some x =>
        match s.layer x with
        | none => answer s .noSuch []
        | some l => answer ((s.hear (.layer x l.level)).setLayer x (some { l with level := level })) .ok []
  | _ => answer s .badLength []

/-- SET_LEVEL (R23). -/
def execSetLevel (tag : Byte) (payload : List Byte) (s : State) : Result :=
  done (serve 0x24 [] tag payload ownSetLevel s)

/-- A block number as two bytes, 0xFFFF when there is none (R103). -/
def optBlockBytes (b : Option BlockId) : List Byte := mapEntryBytes b

/-- PoolInfo's fields (R103). -/
def State.poolBytes (s : State) : List Byte :=
  le2 s.pool.free.length ++ le2 s.pool.owned.length ++ [flagByte s.pool.lowArmed, flagByte s.pool.emptyArmed]
    ++ optBlockBytes s.pool.free.head? ++ optBlockBytes s.pool.free.getLast? ++ le2 s.pool.bad
    ++ optBlockBytes (s.pool.scan.map (·.next))

/-- POOL_INFO's owner (R103). -/
def ownPoolInfo : Owner := fun s _ => answer s .ok s.poolBytes

/-- POOL_INFO (R103). -/
def execPoolInfo (tag : Byte) (payload : List Byte) (s : State) : Result :=
  done (serve 0x25 [] tag payload ownPoolInfo s)

/-- A track whose count reached 0 mutes itself (R21). -/
def State.selfMute (s : State) (t : TrackId) : State :=
  if s.isReady ∧ (s.track t).selfMuteDue = true then
    State.muteTrack (s.modTrack t fun r => { r with selfMuteDue := false }) t
  else s

/-- ONE_SHOT_SELF_MUTE: a track whose count reached 0 mutes itself (R21), behind a begun walk; no effect where none is due.
It falls in a READY frame: a STANDBY taken in the same frame, after a STOP cue, comes first, and the self-mute is then held
until after the wake (log 40). -/
def execOneShotSelfMute (t : TrackId) (s : State) : Result := done (s.settleWalk.selfMute t)

end Sys2Proof.Machine
end

