-- ==== Sys2Proof/Machine/Dispatch.lean ====
section
/-! DEFINITION. What each command does: one arm per row of spec/opcode_table.json. -/

namespace Sys2Proof.Machine

def exec (i : Instr) (s : State) : Host.Outcome State Fault Refusal :=
  match i with
  | .getStatus tag payload => Sys2Proof.Machine.execGetStatus tag payload s
  | .resetCauseRead tag payload => Sys2Proof.Machine.execResetCauseRead tag payload s
  | .resetCauseReadAndClear tag payload => Sys2Proof.Machine.execResetCauseReadAndClear tag payload s
  | .restartWarm tag payload => Sys2Proof.Machine.execRestartWarm tag payload s
  | .restartCold tag payload => Sys2Proof.Machine.execRestartCold tag payload s
  | .requestWarm => Sys2Proof.Machine.execRequestWarm s
  | .requestCold => Sys2Proof.Machine.execRequestCold s
  | .standby tag payload => Sys2Proof.Machine.execStandby tag payload s
  | .linkConfigRead tag payload => Sys2Proof.Machine.execLinkConfigRead tag payload s
  | .linkConfigWrite tag payload => Sys2Proof.Machine.execLinkConfigWrite tag payload s
  | .supplyConfigRead tag payload vdd => Sys2Proof.Machine.execSupplyConfigRead tag payload vdd s
  | .supplyConfigWrite tag payload vdd => Sys2Proof.Machine.execSupplyConfigWrite tag payload vdd s
  | .haltConfigRead tag payload => Sys2Proof.Machine.execHaltConfigRead tag payload s
  | .haltConfigWrite tag payload => Sys2Proof.Machine.execHaltConfigWrite tag payload s
  | .haltClear tag payload => Sys2Proof.Machine.execHaltClear tag payload s
  | .setTempo tag payload => Sys2Proof.Machine.execSetTempo tag payload s
  | .tap tag payload => Sys2Proof.Machine.execTap tag payload s
  | .start tag payload => Sys2Proof.Machine.execStart tag payload s
  | .stop tag payload => Sys2Proof.Machine.execStop tag payload s
  | .getPosition tag payload => Sys2Proof.Machine.execGetPosition tag payload s
  | .cue tag payload => Sys2Proof.Machine.execCue tag payload s
  | .cancelCueById tag payload => Sys2Proof.Machine.execCancelCueById tag payload s
  | .cancelCueByTrack tag payload => Sys2Proof.Machine.execCancelCueByTrack tag payload s
  | .cancelCueAll tag payload => Sys2Proof.Machine.execCancelCueAll tag payload s
  | .listCues tag payload => Sys2Proof.Machine.execListCues tag payload s
  | .trackConfig tag payload => Sys2Proof.Machine.execTrackConfig tag payload s
  | .trackInfo tag payload => Sys2Proof.Machine.execTrackInfo tag payload s
  | .layerInfo tag payload => Sys2Proof.Machine.execLayerInfo tag payload s
  | .layerMap tag payload => Sys2Proof.Machine.execLayerMap tag payload s
  | .setLevel tag payload => Sys2Proof.Machine.execSetLevel tag payload s
  | .poolInfo tag payload => Sys2Proof.Machine.execPoolInfo tag payload s
  | .clearAll tag payload => Sys2Proof.Machine.execClearAll tag payload s
  | .bounce tag payload => Sys2Proof.Machine.execBounce tag payload s
  | .cancelBounceById tag payload => Sys2Proof.Machine.execCancelBounceById tag payload s
  | .cancelBounceAll tag payload => Sys2Proof.Machine.execCancelBounceAll tag payload s
  | .bounceInfo tag payload => Sys2Proof.Machine.execBounceInfo tag payload s
  | .foldConfig tag payload => Sys2Proof.Machine.execFoldConfig tag payload s
  | .sceneWrite tag payload => Sys2Proof.Machine.execSceneWrite tag payload s
  | .sceneRead tag payload => Sys2Proof.Machine.execSceneRead tag payload s
  | .sceneNextSet tag payload => Sys2Proof.Machine.execSceneNextSet tag payload s
  | .sceneNextEmpty tag payload => Sys2Proof.Machine.execSceneNextEmpty tag payload s
  | .sceneStop tag payload => Sys2Proof.Machine.execSceneStop tag payload s
  | .clickConfigRead tag payload => Sys2Proof.Machine.execClickConfigRead tag payload s
  | .clickConfigWrite tag payload => Sys2Proof.Machine.execClickConfigWrite tag payload s
  | .tones tag payload => Sys2Proof.Machine.execTones tag payload s
  | .toneFlush tag payload => Sys2Proof.Machine.execToneFlush tag payload s
  | .monitorConfigRead tag payload => Sys2Proof.Machine.execMonitorConfigRead tag payload s
  | .monitorConfigWrite tag payload => Sys2Proof.Machine.execMonitorConfigWrite tag payload s
  | .unknownRequest kind tag payload => Sys2Proof.Machine.execUnknownRequest kind tag payload s
  | .wellFormedFrame kind tag payload => Sys2Proof.Machine.execWellFormedFrame kind tag payload s
  | .frameDiscard cause => Sys2Proof.Machine.execFrameDiscard cause s
  | .byteGap => Sys2Proof.Machine.execByteGap s
  | .frameSent => Sys2Proof.Machine.execFrameSent s
  | .linkSilenceExpiry => Sys2Proof.Machine.execLinkSilenceExpiry s
  | .audioFrame in0 in1 in2 in3 => Sys2Proof.Machine.execAudioFrame in0 in1 in2 in3 s
  | .tickBoundary now => Sys2Proof.Machine.execTickBoundary now s
  | .countInBegin now => Sys2Proof.Machine.execCountInBegin now s
  | .countInEnd now => Sys2Proof.Machine.execCountInEnd now s
  | .startInstant now => Sys2Proof.Machine.execStartInstant now s
  | .pendingTempoApply => Sys2Proof.Machine.execPendingTempoApply s
  | .cueExecute => Sys2Proof.Machine.execCueExecute s
  | .endPendingSeal head => Sys2Proof.Machine.execEndPendingSeal head s
  | .trackLengthEnd head => Sys2Proof.Machine.execTrackLengthEnd head s
  | .oneShotSelfMute track => Sys2Proof.Machine.execOneShotSelfMute track s
  | .bounceStart => Sys2Proof.Machine.execBounceStart s
  | .bounceIndexBegin => Sys2Proof.Machine.execBounceIndexBegin s
  | .bounceIndexFinish => Sys2Proof.Machine.execBounceIndexFinish s
  | .sceneCountdownEnd => Sys2Proof.Machine.execSceneCountdownEnd s
  | .dueSceneApply => Sys2Proof.Machine.execDueSceneApply s
  | .clickEnd => Sys2Proof.Machine.execClickEnd s
  | .toneLoad => Sys2Proof.Machine.execToneLoad s
  | .toneEntryEnd => Sys2Proof.Machine.execToneEntryEnd s
  | .waveformFlip tone => Sys2Proof.Machine.execWaveformFlip tone s
  | .power => Sys2Proof.Machine.execPower s
  | .brown => Sys2Proof.Machine.execBrown s
  | .pin => Sys2Proof.Machine.execPin s
  | .coldResetEnd haltHigh => Sys2Proof.Machine.execColdResetEnd haltHigh s
  | .warmResetEnd => Sys2Proof.Machine.execWarmResetEnd s
  | .verifyVisitEnd upsets => Sys2Proof.Machine.execVerifyVisitEnd upsets s
  | .supplyLow vdd => Sys2Proof.Machine.execSupplyLow vdd s
  | .supplyOk vdd => Sys2Proof.Machine.execSupplyOk vdd s
  | .wakeEnd duration => Sys2Proof.Machine.execWakeEnd duration s
  | .haltEdge => Sys2Proof.Machine.execHaltEdge s
  | .haltLineInactive => Sys2Proof.Machine.execHaltLineInactive s
  | .startByte => Sys2Proof.Machine.execStartByte s

end Sys2Proof.Machine
end

