-- ==== Sys2Proof/Safety.lean ====
section
/-! DEFINITION. What is safe: the block goes on whatever it is commanded, and its state stays legal. -/

namespace Sys2Proof.Machine

/-- A command runs: it answers a next state, neither a fault nor a refusal. -/
def Runs (i : Instr) (s : State) : Prop := ∃ s', exec i s = .next s'

/-- The state of the sample memory is legal: its canonical form holds. -/
def State.memoryLegal (s : State) : Prop := s.mem.wf

/-- The link port keeps its limits: 4 requests wait, 16 reports and 8 reply places are in use at most (R185, R186). -/
def State.linkLegal (s : State) : Prop :=
  s.link.requests.length ≤ 4 ∧ s.link.reportsQueued ≤ 16 ∧ s.link.replyPlaces ≤ 8

/-- The bar clock's values are in their ranges (R29): P, B, the pending pair, the ticks, the beats, the bars of the loop,
the count-in and the tap history. After an accepted Start, and while a pending tempo waits at a BAR boundary, the tick
and the beat are 0 (R37, R40). -/
structure State.clockLegal (s : State) : Prop where
  period : 250 ≤ s.clock.p ∧ s.clock.p ≤ 1500
  meter : 1 ≤ s.clock.b ∧ s.clock.b ≤ 12
  pending : ∀ p b, s.clock.pendingTempo = some (p, b) → (250 ≤ p ∧ p ≤ 1500) ∧ 1 ≤ b ∧ b ≤ 12
  tick : s.clock.tick < 48
  beat : s.clock.beat < s.clock.b
  bar : (s.clock.loop = none → s.clock.bar = 0) ∧ ∀ l, s.clock.loop = some l → s.clock.bar < l
  countIn : s.clock.countIn ≤ 4
  taps : s.clock.taps.length ≤ 4
  atZero : (s.clock.startMark ≠ .none ∨ s.bnd.tempo = true) → s.clock.tick = 0 ∧ s.clock.beat = 0

/-- No block is lost and none is in two hands (R91, R93, R94): the free list holds each FREE block once and no OWNED one;
a block that a layer's map names is OWNED by that layer, and named once. -/
structure State.poolLegal (s : State) : Prop where
  freeOnce : s.pool.free.Nodup
  freeIff : ∀ b, b ∈ s.pool.free ↔ s.pool.entry b = none
  named : ∀ x l, s.layer x = some l → ∀ b ∈ namedBlocks l.map, (s.pool.entry b).map (·.owner) = some x
  namedOnce : ∀ x l, s.layer x = some l → (namedBlocks l.map).Nodup

/-- The queues keep their limits: 16 cues wait (R48), 4 bounces (R108), 4 tone entries (R156). -/
def State.queuesLegal (s : State) : Prop :=
  s.cues.list.length ≤ 16 ∧ s.bounce.queue.length ≤ 4 ∧ s.tones.queue.length ≤ 4

end Sys2Proof.Machine
end

