-- ==== Sys2Proof/Certificates/Slice0/Obligations.lean ====
section
/-! DEFINITION. The statements for the provers. Each is a Prop; none is proved here. In a request's statement the state
`s.takeRequest` is the one in which the request is carried out: a walk in progress is finished, and the request has left
the request queue (RequestTakenChangesOnlyTheLink says what that changes). In an event's statement `w.settleWalk` is the state w
with the bounce engine's claim of the frame that has ended made (log 9) and a walk that has begun taken to its end (log 6),
and `w.beginHead` that claim alone; with neither outstanding each is w itself. -/

namespace Sys2Proof.Machine

/-- The frame that a request row takes from the request queue; none for an event row and for UNKNOWN_REQUEST, whose
KIND is its operand. -/
def requestFrame : Instr → Option Frame
  | .getStatus tag p => some ⟨0x01, tag, p⟩
  | .resetCauseRead tag p => some ⟨0x02, tag, p⟩
  | .resetCauseReadAndClear tag p => some ⟨0x02, tag, p⟩
  | .restartWarm tag p => some ⟨0x03, tag, p⟩
  | .restartCold tag p => some ⟨0x03, tag, p⟩
  | .standby tag p => some ⟨0x04, tag, p⟩
  | .linkConfigRead tag p => some ⟨0x05, tag, p⟩
  | .linkConfigWrite tag p => some ⟨0x05, tag, p⟩
  | .supplyConfigRead tag p _ => some ⟨0x06, tag, p⟩
  | .supplyConfigWrite tag p _ => some ⟨0x06, tag, p⟩
  | .haltConfigRead tag p => some ⟨0x07, tag, p⟩
  | .haltConfigWrite tag p => some ⟨0x07, tag, p⟩
  | .haltClear tag p => some ⟨0x08, tag, p⟩
  | .setTempo tag p => some ⟨0x10, tag, p⟩
  | .tap tag p => some ⟨0x11, tag, p⟩
  | .start tag p => some ⟨0x12, tag, p⟩
  | .stop tag p => some ⟨0x13, tag, p⟩
  | .getPosition tag p => some ⟨0x14, tag, p⟩
  | .cue tag p => some ⟨0x18, tag, p⟩
  | .cancelCueById tag p => some ⟨0x19, tag, p⟩
  | .cancelCueByTrack tag p => some ⟨0x19, tag, p⟩
  | .cancelCueAll tag p => some ⟨0x19, tag, p⟩
  | .listCues tag p => some ⟨0x1A, tag, p⟩
  | .trackConfig tag p => some ⟨0x20, tag, p⟩
  | .trackInfo tag p => some ⟨0x21, tag, p⟩
  | .layerInfo tag p => some ⟨0x22, tag, p⟩
  | .layerMap tag p => some ⟨0x23, tag, p⟩
  | .setLevel tag p => some ⟨0x24, tag, p⟩
  | .poolInfo tag p => some ⟨0x25, tag, p⟩
  | .clearAll tag p => some ⟨0x26, tag, p⟩
  | .bounce tag p => some ⟨0x28, tag, p⟩
  | .cancelBounceById tag p => some ⟨0x29, tag, p⟩
  | .cancelBounceAll tag p => some ⟨0x29, tag, p⟩
  | .bounceInfo tag p => some ⟨0x2A, tag, p⟩
  | .foldConfig tag p => some ⟨0x2B, tag, p⟩
  | .sceneWrite tag p => some ⟨0x30, tag, p⟩
  | .sceneRead tag p => some ⟨0x31, tag, p⟩
  | .sceneNextSet tag p => some ⟨0x32, tag, p⟩
  | .sceneNextEmpty tag p => some ⟨0x32, tag, p⟩
  | .sceneStop tag p => some ⟨0x33, tag, p⟩
  | .clickConfigRead tag p => some ⟨0x38, tag, p⟩
  | .clickConfigWrite tag p => some ⟨0x38, tag, p⟩
  | .tones tag p => some ⟨0x39, tag, p⟩
  | .toneFlush tag p => some ⟨0x3A, tag, p⟩
  | .monitorConfigRead tag p => some ⟨0x3B, tag, p⟩
  | .monitorConfigWrite tag p => some ⟨0x3B, tag, p⟩
  | _ => none

/-- The reply lengths of the request catalogue (R189). -/
def replyLength (kind : Byte) : Nat :=
  match kind.toNat with
  | 0x01 => 17
  | 0x02 => 2
  | 0x03 => 1
  | 0x04 => 1
  | 0x05 => 6
  | 0x06 => 7
  | 0x07 => 6
  | 0x08 => 2
  | 0x10 => 2
  | 0x11 => 5
  | 0x12 => 2
  | 0x13 => 2
  | 0x14 => 24
  | 0x18 => 5
  | 0x19 => 2
  | 0x1A => 46
  | 0x20 => 1
  | 0x21 => 29
  | 0x22 => 22
  | 0x23 => 53
  | 0x24 => 1
  | 0x25 => 15
  | 0x26 => 5
  | 0x28 => 4
  | 0x29 => 2
  | 0x2A => 27
  | 0x2B => 2
  | 0x30 => 1
  | 0x31 => 19
  | 0x32 => 2
  | 0x33 => 2
  | 0x38 => 6
  | 0x39 => 3
  | 0x3A => 2
  | 0x3B => 8
  | _ => 1

/-- The request rows that are refused NOT_READY unless the supervisor is READY (R172), and the WRITE rows, whose payload's
first byte spells WRITE. Where its rule does not place that check, the model makes it the first (log 13). -/
def refusedUnlessReady : Instr → Bool
  | .standby _ _ => true
  | .supplyConfigWrite _ p _ => p.head? = some 1
  | .haltConfigWrite _ p => p.head? = some 1
  | .haltClear _ _ => true
  | .setTempo _ _ => true
  | .tap _ _ => true
  | .start _ _ => true
  | .stop _ _ => true
  | .cue _ _ => true
  | .cancelCueById _ _ => true
  | .cancelCueByTrack _ _ => true
  | .cancelCueAll _ _ => true
  | .trackConfig _ _ => true
  | .setLevel _ _ => true
  | .clearAll _ _ => true
  | .bounce _ _ => true
  | .cancelBounceById _ _ => true
  | .cancelBounceAll _ _ => true
  | .foldConfig _ _ => true
  | .sceneWrite _ _ => true
  | .sceneNextSet _ _ => true
  | .sceneNextEmpty _ _ => true
  | .sceneStop _ _ => true
  | .clickConfigWrite _ p => p.head? = some 1
  | .tones _ _ => true
  | .toneFlush _ _ => true
  | .monitorConfigWrite _ p => p.head? = some 1
  | _ => false

/-- A CUE request's fields are in the ranges that R50 states for its action. -/
def cueInRange (action target grid delay optA optB flags : Byte) : Prop :=
  action.toNat ≤ 9 ∧ grid.toNat ≤ 5 ∧ delay.toNat ≤ 15 ∧ (grid = 0 → delay = 0) ∧ flags.toNat ≤ 1
    ∧ (action.toNat ≤ 4 → target.toNat ≤ 7) ∧ (5 ≤ action.toNat → action.toNat ≤ 7 → target.toNat ≤ 8)
    ∧ (action = 0 → (optA = 1 ∨ optA = 2 ∨ optA = 4) ∧ optB.toNat ≤ 64) ∧ (action = 1 → optA.toNat ≤ 1)
    ∧ (action = 8 → optA.toNat ≤ 15)

/-- The cues that stay when a request for an action has its replace flag set or clear (R52). -/
def keptCues (a : Action) (replace : Bool) (l : List Cue) : List Cue :=
  l.filter fun c => !(replace && (match a.target with
    | some g => decide (c.action.target = some g)
    | none => decide (c.action.code = a.code)))

/-- Why a layer record refuses a Bounce as a source, if it does (R110, step 4). -/
def sourceCode (o : Option Layer) : Option Byte :=
  match o with
  | none => some 6
  | some l => if l.state ≠ .sealed then some 6 else if l.damaged then some 13 else if l.pin ≠ none then some 12 else none

/-- A track's mute flag after a scene is applied (R146): EMPTY tracks and LEAVE keep it. -/
def sceneFlag (r : Scene) (s : State) (k : TrackId) : Bool :=
  if (s.track k).stack = [] then (s.track k).mute
  else
    match r.actions.get k with
    | .leave => (s.track k).mute
    | .play => false
    | .mute => true

/-- The block a WRITING head has open, its layer's map being `map`. -/
def openBlock (r : Recording) (map : List (Option BlockId)) : Option BlockId :=
  if r.stalled then none else r.index.bind fun i => (map[i]?).join

/-- What a byte reads as once the block a head has open is closed (R77): the frames of the block from the last one written on
are zero, unless the block was reopened; every other byte stays. -/
def closedRead (s : State) (r : Recording) (map : List (Option BlockId)) (a : Nat) : Byte :=
  match openBlock r map with
  | none => s.mem.read a
  | some b =>
    if r.reopened = false ∧ b.val * 8192 + 2 * r.written ≤ a ∧ a < b.val * 8192 + 8192 then 0 else s.mem.read a

/-- The block a head has open is closed with the check word over what it holds (R101). -/
def OpenBlockChecked (s t : State) (r : Recording) (map : List (Option BlockId)) : Prop :=
  ∀ b o, openBlock r map = some b → s.pool.entry b = some o →
    t.pool.entry b = some { o with check := .valid (crcBytes (t.mem.blockBytes b)) }

/-- Head h seals its layer (R87), up to the auto-fold check: the layer is SEALED with this map and this stamp, its open block
is closed, and the head is IDLE. The other layers, the stacks and the bounce queue stay. -/
def SealLeaves (s t : State) (h : HeadId) (r : Recording) (l : Layer) (map : List (Option BlockId)) (stamp : Half) : Prop :=
  t.head h = none ∧ t.layer r.layer = some { l with state := .sealed, sealStamp := some stamp, map := map }
    ∧ (∀ x, x ≠ r.layer → t.layer x = s.layer x)
    ∧ (∀ k, (t.track k).stack = (s.track k).stack ∧ (t.track k).redo = (s.track k).redo)
    ∧ t.bounce = s.bounce ∧ (∀ a, t.mem.read a = closedRead s r map a) ∧ OpenBlockChecked s t r map

/-- Head h loses its layer (R6, R88): the record is FREE, its blocks join the free list's tail, and the head is IDLE. The
other layers and the memory stay, and with no layer left L is not established. -/
def DiscardLeaves (s t : State) (h : HeadId) (r : Recording) (l : Layer) : Prop :=
  t.head h = none ∧ t.layer r.layer = none ∧ (∀ x, x ≠ r.layer → t.layer x = s.layer x)
    ∧ t.pool.free = s.pool.free ++ namedBlocks l.map ∧ (∀ b ∈ namedBlocks l.map, t.pool.entry b = none)
    ∧ (∀ k, (t.track k).stack
      = if k = l.track then (s.track k).stack.filter (fun x => decide (x ≠ r.layer)) else (s.track k).stack)
    ∧ t.mem = s.mem ∧ t.bounce = s.bounce ∧ (t.inUse = [] → t.clock.loop = none)

/-- The pool once the frees behind the claims of the frame are taken (R97, R100): they arm both reports where they leave 192
blocks free or more. What is freed from here on comes ahead of the claims of the frame or behind them, as `place` says. -/
def freesTaken (p : Pool) (place : Option Nat) : Pool :=
  let on := decide (p.behind.getD 0 ≠ 0 ∧ 192 ≤ p.free.length)
  { p with behind := place, lowArmed := p.lowArmed || on, emptyArmed := p.emptyArmed || on }

/-- Two states agree in the tracks, the layers, the pool, the memory and the bounce engine. -/
def SameTables (t v : State) : Prop :=
  t.tracks = v.tracks ∧ t.layers = v.layers ∧ t.pool = v.pool ∧ t.mem = v.mem ∧ t.bounce = v.bounce

/-- What a stop or a halt leaves of head h's recording (R85, R86): a DEFINING one of k whole bars seals with L = k and a map
of ceil(k × bar frames / 4096) entries, the blocks past them freed; with no whole bar it is discarded. A FIXED or DUB one
seals with its map as it is, or, with no frame written, is discarded. Where the loop position of L's start stands is a free
value (log 10). -/
def CutLeaves (s t : State) (h : HeadId) (r : Recording) (l : Layer) : Prop :=
  let barFrames := s.clock.b * 48 * s.clock.p
  let k := r.writeOffset / barFrames
  let n := (k * barFrames + 4095) / 4096
  (r.mode = .defining →
    (k = 0 → DiscardLeaves s t h r l)
    ∧ (k ≠ 0 → (∃ w, SealLeaves s w h r l (l.map.take n) s.clock.songBar ∧ SameTables t (w.autoFold r.track)
        ∧ w.pool.free = s.pool.free ++ namedBlocks (l.map.drop n))
      ∧ t.head h = none ∧ t.clock.loop = some k ∧ t.clock.bar = 0
      ∧ (t.clock.loopPos = 0 ∨ t.clock.loopPos = s.clock.loopPos % barFrames) ∧ ∀ j, (t.track j).pass = 0))
  ∧ (r.mode ≠ .defining →
    (r.writeOffset = 0 → DiscardLeaves s t h r l)
    ∧ (r.writeOffset ≠ 0 → (∃ w, SealLeaves s w h r l l.map s.clock.songBar ∧ SameTables t (w.autoFold r.track)
        ∧ w.pool.free = s.pool.free)
      ∧ t.head h = none ∧ t.clock.loop = s.clock.loop ∧ t.clock.loopPos = s.clock.loopPos))

/-- A grant pass (R136): while a voice is FREE and a layer waits, the front layer of the wait list gets the lowest FREE voice,
and its track's one-shot is armed. A layer that is granted a voice is heard from the next frame (log 53). -/
def VoicesGranted (s t : State) : Prop :=
  let free := (List.finRange 24).filter fun v => (s.mix.voices.get v).isNone
  let n := min free.length s.mix.wait.length
  t.mix.wait = s.mix.wait.drop n
    ∧ (∀ i w, i < n → s.mix.wait[i]? = some w → ∃ v, free[i]? = some v ∧ t.mix.voices.get v = some w.layer
      ∧ ∀ l, s.layer w.layer = some l → (s.track l.track).oneShot = true →
        (t.track l.track).remaining = s.trackFrames l.track)
    ∧ (∀ v, (v ∉ free ∨ v ∈ free.drop n) → t.mix.voices.get v = s.mix.voices.get v)
    ∧ ∀ x, x ∈ t.mix.fresh ↔ x ∈ s.mix.fresh ∨ ∃ w ∈ s.mix.wait.take n, w.layer = x

/-- The tones at a TICK boundary (R159, R162, R163): the click and the slot count a tick; the slot's last tick is silent unless
a tied entry that is no rest follows an entry that is none. -/
def tonesTicked (t : Tones) : Tones :=
  { t with
    click := t.click.map fun c => { c with ticks := c.ticks - 1 }
    slot := t.slot.map fun sl =>
      { sl with
        ticks := sl.ticks - 1
        lastSilent := if sl.ticks = 2 then
            !(match t.queue with
              | [] => false
              | e :: _ => e.tie && !e.rest && !sl.entry.rest)
          else sl.lastSilent } }

/-- The click that a BEAT boundary asks for, with the settings and the beat that stand there (R158). -/
def clickAsked (s : State) (beat : Nat) : ClickTest :=
  { mode := s.tones.mode, pitch := if beat = 0 then s.tones.accentPitch else s.tones.beatPitch, ticks := s.tones.clickLen }

/-- The tones after a click test (R158): the click starts in a count-in unless the mode is OFF, and while RUNNING in mode
ALWAYS, or RECORDING with a head busy. -/
def clickTested (s : State) (mark : Transport) (c : ClickTest) (tones : Tones) : Tones :=
  if (mark = .countIn ∧ c.mode ≠ .off)
      ∨ (mark = .running ∧ (c.mode = .always ∨ (c.mode = .recording ∧ (s.head0 ≠ none ∨ s.head1 ≠ none)))) then
    { tones with
      click := some { pitch := c.pitch, ticks := c.ticks, wave := { high := true, count := 0, flipDue := false } } }
  else tones

/-- A boundary of these kinds satisfies a waiting cue (R56, R57); a TRACK cue by the pass index with which its track leaves this
instant, a COPY's destination with the one of R10 (log 27). -/
def cueMet (k : Kinds) (span : TrackId → Option Span) (pass : TrackId → Nat) (q : Cue) : Bool :=
  match q.grid with
  | .now => false
  | .tick => true
  | .beat => k.beat
  | .bar => k.bar
  | .loop => k.loop
  | .track => k.loop && (match q.action.target with
    | some (.track n) => (span n).isNone || decide (pass n = 0)
    | _ => true)

/-- Cues visited by a walk and not executed (R58): the delay of each one met is lowered by one. -/
def visitedCues (met : Cue → Bool) (l : List Cue) : List Cue :=
  l.map fun q => if met q then { q with delay := q.delay - 1 } else q

/-- The walk over the cues from a place on (R58): with a cue to come that is met and has no delay left it stands there, and
nothing is counted down before it goes on; with none it has visited every cue to come and is over. -/
def WalkStands (met : Cue → Bool) (before after : List Cue) (start : Nat) (walk : Option Nat) : Prop :=
  ((∃ q ∈ before.drop start, met q = true ∧ q.delay = 0) → walk = some start ∧ after = before)
    ∧ ((∀ q ∈ before.drop start, met q = true → q.delay ≠ 0) →
      walk = none ∧ after = before.take start ++ visitedCues met (before.drop start))

/-- The wait list with a layer put where its keys, track and place on the stack, give (R130): behind every entry with keys not
above its own that stands ahead of the first entry with higher ones. -/
def JoinsTheWaitList (s : State) (x : LayerId) (list : List Waiting) : Prop :=
  ∃ before after, s.mix.wait = before ++ after
    ∧ list = before ++ { layer := x, stamp := s.songBarNow } :: after
    ∧ (∀ e ∈ before, s.waitKey e.layer ≤ s.waitKey x) ∧ ∀ e, after.head? = some e → s.waitKey x < s.waitKey e.layer

/-- An IDLE head is the one a recording takes: the lowest-numbered (R68). -/
def TakesHead (s : State) (h : HeadId) : Prop := s.head h = none ∧ (h = .h1 → s.head0 ≠ none)

/-- A FREE layer record is the one a recording takes: the lowest-numbered (R4). -/
def TakesRecord (s : State) (x : LayerId) : Prop := s.layer x = none ∧ ∀ y, y < x → s.layer y ≠ none

/-- A track's redo list is discarded (R6, R13, R70, R88): front to back, each layer's record is FREE, its blocks join the free
list's tail, and LAYER_DISCARDED (REDO_DROPPED) is sent; a track that keeps nothing loses its span; with no record left in use L
is not established, and LOOP_SET is sent ahead of the last report. With an empty list nothing changes. -/
def RedoDropped (s v : State) (t : TrackId) : Prop :=
  let redo := (s.track t).redo
  let blocks := fun x => namedBlocks (((s.layer x).map (·.map)).getD [])
  let emptied := { s.track t with redo := [] }
  let dropped := fun (w : State) (x : LayerId) =>
    w.report .layerDiscarded ([byte t.val, byte x.val, 4] ++ le2 (blocks x).length)
  let last := ∀ y, s.layer y ≠ none → y ∈ redo
  (redo = [] → v = s)
  ∧ v.head0 = s.head0 ∧ v.head1 = s.head1 ∧ v.mem = s.mem ∧ v.bounce = s.bounce ∧ v.cues = s.cues ∧ v.sup = s.sup
  ∧ v.scenes = s.scenes ∧ v.tones = s.tones ∧ v.bnd = s.bnd ∧ (¬last → v.clock = s.clock)
  ∧ (redo ≠ [] → redo.Nodup → (∀ x ∈ redo, (s.layer x).map (·.track) = some t ∧ x ∉ (s.track t).stack) →
    v.track t = (if (s.track t).stack = [] ∧ (s.track t).reservations = 0 then
        { emptied with span := none, pass := 0, passSet := false } else emptied)
    ∧ (∀ k, k ≠ t → v.track k = s.track k) ∧ (∀ x, v.layer x = if x ∈ redo then none else s.layer x)
    ∧ v.pool.free = s.pool.free ++ redo.flatMap blocks ∧ (∀ b ∈ redo.flatMap blocks, v.pool.entry b = none)
    ∧ v.mix = { s.mix with
        voices := s.mix.voices.map (Option.filter fun x => decide (x ∉ redo))
        wait := s.mix.wait.filter fun w => decide (w.layer ∉ redo) }
    ∧ (s.clock.loop = none ∨ ¬last → v.clock = s.clock ∧ v.link = (redo.foldl dropped s).link)
    ∧ (s.clock.loop ≠ none → last → v.clock
        = { s.clock with loop := none, bar := 0, loopPos := s.clock.loopPos % (s.clock.b * 48 * s.clock.p) }
      ∧ ∀ before x, redo = before ++ [x] →
        v.link = (dropped ((before.foldl dropped s).report .loopSet [0, 0, 0, 0, 0, 0]) x).link))

/-- A bounce's product, where it has one, is a record of its own on the destination, on no stack and no redo list, and no source
(R109). -/
def RunsApart (s : State) (e : Bounce) : Prop :=
  ∀ r, e.run = some r → (s.layer r.product).map (·.track) = some e.dest
    ∧ (∀ k, r.product ∉ (s.track k).stack ∧ r.product ∉ (s.track k).redo)
    ∧ ∀ f ∈ s.bounce.queue, r.product ∉ f.sources

/-- The blocks that the product of a bounce names, if it has one. -/
def productNames (s : State) (e : Bounce) : List BlockId :=
  e.run.elim [] fun r => namedBlocks (((s.layer r.product).map (·.map)).getD [])

/-- BOUNCE_ABORTED of an entry of s's queue (R118). -/
def abortReported (s : State) (cause reason : Byte) (w : State) (e : Bounce) : State :=
  w.report .bounceAborted
    ([e.id, flagByte e.fold, flagByte e.auto, cause, reason, flagByte e.run.isSome] ++ le2 (e.run.elim 0 (·.progress))
      ++ le2 (productNames s e).length)

/-- What an UNDO of layer x on track t leaves of the bounces it aborts, `named` by the layer's pin and `copies` to the track
(R8, R15, R118, R119): they leave the queue one after another with BOUNCE_ABORTED, SOURCE_UNDONE and then DEST_UNDONE; a product is
FREE and its blocks join the free list's tail, the sources' pins are cleared, the COPYs' reservations are gone, and a track that
keeps nothing loses its span. Every other record stays. -/
def BouncesUndone (s u : State) (t : TrackId) (x : LayerId) (named copies : List Bounce) : Prop :=
  let gone := named ++ copies
  let blocks := productNames s
  let reserved := fun k : TrackId =>
    (s.track k).reservations - (gone.filter fun e => !e.fold && decide (e.dest = k)).length
  u.link = (copies.foldl (abortReported s 2 6) (named.foldl (abortReported s 1 6) s)).link
    ∧ u.bounce.nextId = s.bounce.nextId ∧ u.bounce.threshold = s.bounce.threshold
    ∧ (∀ e ∈ gone, ∀ r, e.run = some r → u.layer r.product = none)
    ∧ (∀ e ∈ gone, ∀ y ∈ e.sources, ∀ m, u.layer y = some m → m.pin = none)
    ∧ (∀ y, y ≠ x → (∀ e ∈ gone, y ∉ e.sources ∧ ∀ r, e.run = some r → r.product ≠ y) → u.layer y = s.layer y)
    ∧ u.pool.free = s.pool.free ++ gone.flatMap blocks ∧ (∀ b ∈ gone.flatMap blocks, u.pool.entry b = none)
    ∧ (∀ y, y ≠ x → (∀ e ∈ gone, ∀ r, e.run = some r → r.product ≠ y) →
      u.mix.voiceOf y = s.mix.voiceOf y ∧ u.mix.waits y = s.mix.waits y)
    ∧ (∀ k, (u.track k).reservations = reserved k
      ∧ (k ≠ t → (u.track k).stack = (s.track k).stack ∧ (u.track k).redo = (s.track k).redo
        ∧ ((∀ e ∈ gone, e.dest ≠ k) → u.track k = s.track k)
        ∧ ((∃ e ∈ gone, e.fold = false ∧ e.dest = k) → (s.track k).stack = [] → (s.track k).redo = [] → reserved k = 0 →
          (u.track k).span = none)))
    ∧ u.mem = s.mem ∧ u.clock = s.clock ∧ u.cues = s.cues ∧ u.head0 = s.head0 ∧ u.head1 = s.head1 ∧ u.sup = s.sup
    ∧ u.scenes = s.scenes

/-- A recording that has taken a head and a layer record (R4, R67, R70): the head record, the FILLING layer on top of the
stack, and what stays. -/
def RecordingBegins (s t : State) (h : HeadId) (x : LayerId) (k : TrackId) (origin : Origin) (map : List (Option BlockId))
    (r : Recording) : Prop :=
  t.head h = some r ∧ (∀ j, j ≠ h → t.head j = s.head j) ∧ (t.track k).stack = (s.track k).stack ++ [x]
    ∧ (t.track k).redo = (s.track k).redo ∧ t.layer x = some
      { state := .filling, track := k, origin := origin, map := map, level := 128, startStamp := s.songBarNow
        sealStamp := none, mask := some (s.track k).mask, parents := [], clip := 0, gapped := false, damaged := false
        pin := none }
    ∧ (∀ y, y ≠ x → t.layer y = s.layer y) ∧ (∀ j, j ≠ k → t.track j = s.track j) ∧ t.mem = s.mem ∧ t.pool = s.pool
    ∧ t.mix = s.mix ∧ t.bounce = s.bounce ∧ t.cues = s.cues ∧ t.sup = s.sup

end Sys2Proof.Machine

open Sys2Proof Sys2Proof.Machine

/-! ### The block as a whole -/

/-- A step takes the command at the front of the queue and runs it on the state with the queue's rest. -/
def Obligations.StepRunsTheFrontCommand : Prop :=
  ∀ (s : State) (c : Instr) (rest : List Instr), s.pending = c :: rest → step s = exec c { s with pending := rest }

/-- On an empty queue a step leaves the state as it is (the model's choice, log 25). -/
def Obligations.EmptyQueueLeavesTheState : Prop := ∀ s : State, s.pending = [] → step s = .next s

/-- No command stops the block, and none touches the commands that wait. -/
def Obligations.EveryCommandRunsAndKeepsTheQueue : Prop :=
  ∀ (i : Instr) (s : State), ∃ t, exec i s = .next t ∧ t.pending = s.pending

/-- The state after reset is legal in every way of Safety. -/
def Obligations.ResetStateIsLegal : Prop :=
  State.reset.memoryLegal ∧ State.reset.linkLegal ∧ State.reset.clockLegal ∧ State.reset.poolLegal
    ∧ State.reset.queuesLegal

/-- The sample memory keeps the model's canonical form (log 20, the model's choice): addresses strictly rising, no zero byte
listed; and no byte lies outside the 4,096 blocks (R91). -/
def Obligations.MemoryFormIsKeptByEveryStep : Prop :=
  ∀ s t : State, s.memoryLegal → step s = .next t → t.memoryLegal

/-- The link port's limits: 4 requests waiting, 16 reports queued, 8 reply places. -/
def Obligations.LinkLimitsAreKeptByEveryStep : Prop :=
  ∀ s t : State, s.linkLegal → step s = .next t → t.linkLegal

/-- The bar clock keeps these ranges of R29: P, B and the pending pair, tick in beat, beat in bar, bar in loop below L (and 0
without one), count-in remaining and the number of taps. Nothing is said of L's upper end, the divider or the loop position. -/
def Obligations.ClockRangesAreKeptByEveryStep : Prop :=
  ∀ s t : State, s.clockLegal → step s = .next t → t.clockLegal

/-- The free list holds every FREE block once and no OWNED one; a block that a layer's map names is OWNED by that layer, and
named once. -/
def Obligations.BlockPartitionIsKeptByEveryStep : Prop :=
  ∀ s t : State, s.poolLegal → step s = .next t → t.poolLegal

/-- At most 16 cues, 4 bounces and 4 tone entries wait. -/
def Obligations.QueueLimitsAreKeptByEveryStep : Prop :=
  ∀ s t : State, s.queuesLegal → step s = .next t → t.queuesLegal

/-! ### Requests in general (R184, R185, R189) -/

/-- With no walk and no claim of the bounce engine outstanding, the taking of a request changes the link port alone: the request
leaves the queue and the autopilot condition ends. With an empty queue the request arrives as it is taken, so that the receiver
hunts and the timer restarts then (the model's choice, log 2). Where frees of this frame stand behind its claims, they come
ahead of them from now on (the model's choice, log 49). -/
def Obligations.RequestTakenChangesOnlyTheLink : Prop :=
  ∀ s : State, s.bnd.walk = none → s.bnd.sceneStep = none → s.beginIsDue = false →
    let taken := { s with
      link := { s.link with
        assembling := if s.link.requests = [] then false else s.link.assembling
        timer := if s.link.requests = [] then decide (s.link.timeout ≠ 0) else s.link.timer
        requests := s.link.requests.tail
        autopilot := false
        requestTaken := true } }
    (s.pool.behind = none → s.takeRequest = taken)
      ∧ ∀ n, s.pool.behind = some n → s.takeRequest = { taken with pool := freesTaken s.pool (some 0) }

/-- Every request row: a known KIND with another LEN than the catalogue's is answered BAD_LENGTH, by the outcome byte
alone, and nothing else happens.

UNKNOWN_REQUEST: a KIND not in the catalogue is answered UNKNOWN, a known one with another LEN BAD_LENGTH. -/
def Obligations.WrongLengthsAndUnknownKindsAreAnswered : Prop :=
  (∀ (i : Instr) (f : Frame) (s : State), requestFrame i = some f → i.wellFormed = true → s.canTake f = true →
     catalogueLength f.kind ≠ some f.payload.length → exec i s = .next (s.takeRequest.reply f.kind f.tag [1]))
  ∧ (∀ (kind tag : Byte) (p : List Byte) (s : State), kind.toNat < 0x80 →
     s.canTake { kind := kind, tag := tag, payload := p } = true → catalogueLength kind ≠ some p.length →
     exec (.unknownRequest kind tag p) s
       = .next (s.takeRequest.reply kind tag [if catalogueLength kind = none then 2 else 1]))

/-- Every request row: a request of the catalogue's length receives a reply of its kind + 0x80 with its tag, of the
catalogue's length whether it was carried out or refused, behind every report it caused. -/
def Obligations.RepliesHaveTheCatalogueLength : Prop :=
  ∀ (i : Instr) (f : Frame) (s : State), requestFrame i = some f → i.wellFormed = true → s.canTake f = true →
    catalogueLength f.kind = some f.payload.length →
    ∃ t p, exec i s = .next t ∧ t.link.tx.getLast? = some { kind := f.kind + 0x80, tag := f.tag, payload := p }
      ∧ p.length = replyLength f.kind

/-- The rows that need READY are refused NOT_READY outside it, and nothing else happens; that this check comes ahead of the
fields' is the model's choice where the row's rule does not place it (log 13). -/
def Obligations.RequestsAreRefusedNotReady : Prop :=
  ∀ (i : Instr) (f : Frame) (s : State), requestFrame i = some f → refusedUnlessReady i = true →
    i.wellFormed = true → s.canTake f = true → catalogueLength f.kind = some f.payload.length → s.sup.state ≠ .ready →
    ∃ fields, exec i s = .next (s.takeRequest.reply f.kind f.tag (7 :: fields))

/-! ### Status and supervisor requests -/

/-- GET_STATUS (R190, section 11.8): the autopilot flag as it stood when the request was taken, which clears it (log 43), and
reports lost are answered; the second is then cleared.
RESET_CAUSE_READ and RESET_CAUSE_READ_AND_CLEAR: the set as it stood is answered, and the second empties it.

GET_POSITION and POOL_INFO (R44, R103): they answer the bar clock's and the pool's values and change nothing. -/
def Obligations.StatusPositionAndPoolAreAnswered : Prop :=
  ((∀ (s : State) (tag : Byte), s.canTake { kind := 0x01, tag := tag, payload := [] } = true →
      let u := s.takeRequest
      exec (.getStatus tag []) s = .next
        (State.reply { u with link := { u.link with lost := false } } 0x01 tag
          ([0, u.sup.state.code, u.clock.transport.code, flagByte u.clock.loop.isSome, byte (u.clock.loop.getD 0)]
            ++ le2 u.clock.p ++ [byte u.clock.b] ++ le2 u.clock.songBar.toNat ++ le2 u.pool.free.length
            ++ [byte u.mix.held, byte u.headsBusy, byte u.cues.list.length, byte u.bounce.queue.length,
                statusFlags u.sup.latch u.sup.edgeMemory s.link.autopilot u.sup.low u.link.lost
                  u.clock.pendingTempo.isSome])))
   ∧ (∀ (s : State) (tag : Byte),
      (s.canTake { kind := 0x02, tag := tag, payload := [0] } = true →
        exec (.resetCauseRead tag [0]) s = .next (s.takeRequest.reply 0x02 tag [0, s.sup.causes.byte]))
      ∧ (s.canTake { kind := 0x02, tag := tag, payload := [1] } = true →
        exec (.resetCauseReadAndClear tag [1]) s = .next
          (State.reply { s.takeRequest with sup := { s.sup with causes := CauseSet.empty } } 0x02 tag
            [0, s.sup.causes.byte]))))
  ∧ (∀ (s : State) (tag : Byte),
     let u := s.takeRequest
     let block := fun b : Option BlockId => (b.map fun b => le2 b.val).getD [0xFF, 0xFF]
     (s.canTake { kind := 0x14, tag := tag, payload := [] } = true →
       exec (.getPosition tag []) s = .next
         (u.reply 0x14 tag
           ([0, u.clock.transport.code, byte u.clock.countIn, byte u.clock.tick, byte u.clock.beat, byte u.clock.bar]
             ++ le2 u.clock.songBar.toNat ++ le4 u.clock.loopPos ++ le2 u.clock.divider ++ le2 u.clock.p
             ++ [byte u.clock.b, byte (u.clock.loop.getD 0), flagByte u.clock.loop.isSome,
                 flagByte u.clock.pendingTempo.isSome]
             ++ le2 (u.clock.pendingTempo.getD (0, 0)).1
             ++ [byte (u.clock.pendingTempo.getD (0, 0)).2, byte u.clock.taps.length])))
     ∧ (s.canTake { kind := 0x25, tag := tag, payload := [] } = true →
       exec (.poolInfo tag []) s = .next
         (u.reply 0x25 tag
           ([0] ++ le2 u.pool.free.length ++ le2 u.pool.owned.length
             ++ [flagByte u.pool.lowArmed, flagByte u.pool.emptyArmed] ++ block u.pool.free.head?
             ++ block u.pool.free.getLast? ++ le2 u.pool.bad ++ block (u.pool.scan.map (·.next))))))

/-- RESTART_WARM and RESTART_COLD: the reset waits for the frames queued ahead and the reply to leave.

POWER, BROWN, PIN, REQUEST_WARM and REQUEST_COLD (R168, R169, R173): at the start of a reset, with no walk or claim
outstanding, the supervisor is in RESET, the cause joins the held set (POWER empties it first), the frame being received and
both link queues are gone, the outputs are zero, no voice is held or waited for (R141), the cue list is empty (R48), and the
click and the prompt tones are stopped (R159, R162, R166; log 45), and every other table stays. In RESET a cause joins the
reset in force. The requested resets start where a Restart of their kind is accepted and no frame is left ahead, and else
nothing happens (the model's choice, log 1). -/
def Obligations.RestartAndCausesStartAReset : Prop :=
  (∀ (s : State) (tag : Byte) (cold : Bool),
     s.canTake { kind := 0x03, tag := tag, payload := [flagByte cold] } = true →
     exec (if cold then .restartCold tag [1] else .restartWarm tag [0]) s = .next
       (State.reply
         { s.takeRequest with
           sup := { s.sup with restart := some { cold := cold, ahead := s.takeRequest.link.tx.length + 1 } } }
         0x03 tag [0]))
  ∧ (∀ s : State,
     let only := fun (p b n w c : Bool) => ({ power := p, brown := b, pin := n, requestWarm := w, requestCold := c } : CauseSet)
     let held := s.sup.causes
     let f := s.sup.inForce
     let started := fun (causes inForce : CauseSet) =>
       { s with
         sup := { s.sup with state := .reset, causes := causes, inForce := inForce, restart := none, wake := none }
         link := { s.link with
           assembling := false, requests := [], tx := [], timer := false, requestTaken := false, requestDue := false }
         mix := { s.mix with voices := Vector.replicate 24 none, wait := [], fresh := [], heard := .same }
         cues := { s.cues with list := [] }
         tones := { s.tones with
           click := none, clickEnds := false, queue := [], slot := none, loadPending := false, sounded := 0 }
         outputs := Outputs.zero
         bnd := {} }
     let joined := fun (causes inForce : CauseSet) => { s with sup := { s.sup with causes := causes, inForce := inForce } }
     (s.sup.state ≠ .reset → s.bnd.walk = none → s.bnd.sceneStep = none → s.beginIsDue = false →
       exec .power s = .next (started (only true false false false false) (only true false false false false))
       ∧ exec .brown s = .next (started { held with brown := true } (only false true false false false))
       ∧ exec .pin s = .next (started { held with pin := true } (only false false true false false))
       ∧ (s.sup.restart = some { cold := false, ahead := 0 } →
         exec .requestWarm s = .next (started { held with requestWarm := true } (only false false false true false)))
       ∧ (s.sup.restart = some { cold := true, ahead := 0 } →
         exec .requestCold s = .next (started { held with requestCold := true } (only false false false false true))))
     ∧ (s.sup.state = .reset →
       exec .power s = .next (joined (only true false false false false) { f with power := true })
       ∧ exec .brown s = .next (joined { held with brown := true } { f with brown := true })
       ∧ exec .pin s = .next (joined { held with pin := true } { f with pin := true }))
     ∧ ((∀ n, s.sup.restart = some n → n.cold = true ∨ n.ahead ≠ 0) → exec .requestWarm s = .next s)
     ∧ ((∀ n, s.sup.restart = some n → n.cold = false ∨ n.ahead ≠ 0) → exec .requestCold s = .next s))

/-- STANDBY, accepted: the tones are flushed, a click that ends with the frame is SILENT (log 31), the silence timer and the
tap history are cleared, the outputs zero, everything else kept; with a request waiting behind it WAKING begins at once.

STANDBY is refused BUSY while the transport moves, a head is busy, a bounce is queued or a cue waits. -/
def Obligations.StandbyIsEnteredOrRefusedBusy : Prop :=
  (∀ (s : State) (tag : Byte), s.canTake { kind := 0x04, tag := tag, payload := [] } = true → s.sup.state = .ready →
     s.takeRequest.standbyBusy = false →
     let u := s.takeRequest.flushTones .standby
     exec (.standby tag []) s = .next
       (State.reply
         { u with
           sup := if s.link.requests.tail = [] then { s.sup with state := .standby }
             else { s.sup with state := .waking, wake := some { cause := .link, haltHeld := false } }
           link := { u.link with timer := false }
           clock := { u.clock with taps := [] }
           tones := { u.tones with click := if u.tones.clickEnds then none else u.tones.click, clickEnds := false }
           pool := { u.pool with behind := none }
           outputs := Outputs.zero
           bnd := {} }
         0x04 tag [0]))
  ∧ (∀ (s : State) (tag : Byte), s.canTake { kind := 0x04, tag := tag, payload := [] } = true → s.sup.state = .ready →
     let u := s.takeRequest
     (u.clock.transport ≠ .stopped ∨ u.head0 ≠ none ∨ u.head1 ≠ none ∨ u.bounce.queue ≠ [] ∨ u.cues.list ≠ []) →
     exec (.standby tag []) s = .next (u.reply 0x04 tag [5]))

/-- LINK_CONFIG_READ and LINK_CONFIG_WRITE: an accepted write sets the timeout and the set, and restarts or stops the
silence timer; the reply carries both, with HELLO's bit shown as set and the bits past the report kinds 0 (the model's choice,
log 50); a timeout above 50 refuses the write.

SUPPLY_CONFIG_READ and SUPPLY_CONFIG_WRITE: a write in range sets the three settings, one out of range none. -/
def Obligations.LinkAndSupplyConfigReadAndWrite : Prop :=
  (∀ (s : State) (tag n e0 e1 e2 e3 : Byte),
     (s.canTake { kind := 0x05, tag := tag, payload := [0, n, e0, e1, e2, e3] } = true →
       exec (.linkConfigRead tag [0, n, e0, e1, e2, e3]) s = .next
         (s.takeRequest.reply 0x05 tag (0 :: byte s.link.timeout :: le4 (s.link.enables ||| 1).toNat)))
     ∧ (s.canTake { kind := 0x05, tag := tag, payload := [1, n, e0, e1, e2, e3] } = true →
       exec (.linkConfigWrite tag [1, n, e0, e1, e2, e3]) s = .next
         (if n.toNat ≤ 50 then
           let enables := BitVec.ofNat 24 (fromLe3 e0 e1 e2)
           State.reply
             { s.takeRequest with
               link := { s.takeRequest.link with timeout := n.toNat, enables := enables, timer := decide (n ≠ 0) } }
             0x05 tag (0 :: n :: le4 (enables ||| 1).toNat)
          else s.takeRequest.reply 0x05 tag (3 :: byte s.link.timeout :: le4 (s.link.enables ||| 1).toNat))))
  ∧ (∀ (s : State) (tag w d g : Byte) (vdd : Half),
     (s.canTake { kind := 0x06, tag := tag, payload := [0, w, d, g] } = true →
       exec (.supplyConfigRead tag [0, w, d, g] vdd) s = .next
         (s.takeRequest.reply 0x06 tag
           ([0, byte s.sup.warnCode.val, byte s.sup.delayCode.val, flagByte s.sup.guard, flagByte s.sup.low]
             ++ le2 vdd.toNat)))
     ∧ (s.canTake { kind := 0x06, tag := tag, payload := [1, w, d, g] } = true → s.sup.state = .ready →
       (∀ (hw : w.toNat < 4) (hd : d.toNat < 4), g.toNat ≤ 1 →
         exec (.supplyConfigWrite tag [1, w, d, g] vdd) s = .next
           (State.reply
             { s.takeRequest with
               sup := { s.sup with warnCode := ⟨w.toNat, hw⟩, delayCode := ⟨d.toNat, hd⟩, guard := decide (g = 1) } }
             0x06 tag ([0, w, d, g, flagByte s.sup.low] ++ le2 vdd.toNat)))
       ∧ (4 ≤ w.toNat ∨ 4 ≤ d.toNat ∨ 2 ≤ g.toNat →
         exec (.supplyConfigWrite tag [1, w, d, g] vdd) s = .next
           (s.takeRequest.reply 0x06 tag
             ([3, byte s.sup.warnCode.val, byte s.sup.delayCode.val, flagByte s.sup.guard, flagByte s.sup.low]
               ++ le2 vdd.toNat)))))

/-- HALT_CONFIG_READ and HALT_CONFIG_WRITE where no halt event is due: the memory, the level and detection are set, and
the reply carries the five values, the line judged against the level that stands.

HALT_CLEAR: the latch is cleared, or with the line active the request is refused LINE_ACTIVE and the latch stays. -/
def Obligations.HaltConfigAndHaltClear : Prop :=
  (∀ (s : State) (tag : Byte) (d h c : Bool),
     (∀ b1 b2 b3 : Byte, s.canTake { kind := 0x07, tag := tag, payload := [0, b1, b2, b3] } = true →
       exec (.haltConfigRead tag [0, b1, b2, b3]) s = .next
         (s.takeRequest.reply 0x07 tag
           [0, flagByte s.sup.detection, flagByte s.sup.activeHigh, flagByte s.sup.edgeMemory, flagByte s.sup.latch,
             flagByte (decide (s.sup.lineHigh = s.sup.activeHigh))]))
     ∧ (s.canTake { kind := 0x07, tag := tag, payload := [1, flagByte d, flagByte h, flagByte c] } = true →
       s.sup.state = .ready → (d && s.sup.edgeMemory && !c) = false →
       exec (.haltConfigWrite tag [1, flagByte d, flagByte h, flagByte c]) s = .next
         (State.reply
           { s.takeRequest with
             sup := { s.sup with edgeMemory := s.sup.edgeMemory && !c, activeHigh := h, detection := d } }
           0x07 tag
           [0, flagByte d, flagByte h, flagByte (s.sup.edgeMemory && !c), flagByte s.sup.latch,
             flagByte (decide (s.sup.lineHigh = h))])))
  ∧ (∀ (s : State) (tag : Byte), s.canTake { kind := 0x08, tag := tag, payload := [] } = true → s.sup.state = .ready →
     exec (.haltClear tag []) s = .next
       (if s.sup.lineHigh = s.sup.activeHigh then s.takeRequest.reply 0x08 tag [11, flagByte s.sup.latch]
        else State.reply { s.takeRequest with sup := { s.sup with latch := false } } 0x08 tag [0, 0]))


/-! ### Tempo and transport -/

/-- SET_TEMPO (R36): out of range or locked it changes nothing; STOPPED it applies the pair at once and reports it; else it
stages the pair.
TAP (R39): it is refused while the tempo is locked (the reply's fields are log 12's); a stamp more than 96,000 frames after the newest empties the
history; with fewer than four stamps nothing else happens; four stamps empty the history, and their mean is staged as an
accepted SetTempo with the B that stands, if it is in range.

PENDING_TEMPO_APPLY (R37): where a BAR boundary finds the slot full, P and B take its values, the divider reloads with the
new P, the slot is empty and TEMPO (cause BAR) is sent, behind a begun walk (log 6). With none due nothing happens (the
model's choice, log 1). -/
def Obligations.SetTempoAndTapApplyOrStage : Prop :=
  ((∀ (s : State) (tag p0 p1 b : Byte), s.canTake { kind := 0x10, tag := tag, payload := [p0, p1, b] } = true →
      s.sup.state = .ready →
      let u := s.takeRequest
      let p := p0.toNat + 256 * p1.toNat
      exec (.setTempo tag [p0, p1, b]) s = .next
        (if p < 250 ∨ 1500 < p ∨ b.toNat < 1 ∨ 12 < b.toNat then u.reply 0x10 tag [3, 0]
         else if u.clock.loop.isSome = true ∨ u.definingRuns = true then u.reply 0x10 tag [9, 0]
         else if u.clock.transport = .stopped then
           State.reply
             (State.report
               { u with
                 clock := { u.clock with p := p, b := b.toNat, tick := 0, beat := 0, pendingTempo := none } }
               .tempo [p0, p1, b, 0])
             0x10 tag [0, 0]
         else
           State.reply { u with clock := { u.clock with pendingTempo := some (p, b.toNat) } } 0x10 tag
             [0, if u.clock.pendingTempo = none then 1 else 2]))
   ∧ (∀ (s : State) (tag : Byte), s.canTake { kind := 0x11, tag := tag, payload := [] } = true → s.sup.state = .ready →
      let u := s.takeRequest
      let now := u.clock.frameCount
      let locked := u.clock.loop.isSome = true ∨ u.definingRuns = true
      (locked → exec (.tap tag []) s = .next (u.reply 0x11 tag [9, 0, 0, 0, 0xFF]))
      ∧ (¬locked →
        ((∀ newest, u.clock.taps.getLast? = some newest → 96000 < (now - newest).toNat) →
          exec (.tap tag []) s = .next
            (State.reply { u with clock := { u.clock with taps := [now] } } 0x11 tag [0, 1, 0, 0, 0xFF]))
        ∧ (∀ newest, u.clock.taps.getLast? = some newest → (now - newest).toNat ≤ 96000 → u.clock.taps.length < 3 →
          exec (.tap tag []) s = .next
            (State.reply { u with clock := { u.clock with taps := u.clock.taps ++ [now] } } 0x11 tag
              [0, byte (u.clock.taps.length + 1), 0, 0, 0xFF]))
        ∧ (∀ t0 t1 t2, u.clock.taps = [t0, t1, t2] → (now - t2).toNat ≤ 96000 →
          let p := ((now - t0).toNat + 72) / 144
          exec (.tap tag []) s = .next
            (if p < 250 ∨ 1500 < p then
               State.reply { u with clock := { u.clock with taps := [] } } 0x11 tag ([3, 4] ++ le2 p ++ [0xFF])
             else if u.clock.transport = .stopped then
               State.reply
                 (State.report
                   { u with
                     clock := { u.clock with p := p, tick := 0, beat := 0, taps := [], pendingTempo := none } }
                   .tempo (le2 p ++ [byte u.clock.b, 0]))
                 0x11 tag ([0, 4] ++ le2 p ++ [0])
             else
               State.reply { u with clock := { u.clock with taps := [], pendingTempo := some (p, u.clock.b) } } 0x11 tag
                 ([0, 4] ++ le2 p ++ [if u.clock.pendingTempo = none then 1 else 2]))))))
  ∧ (∀ w : State,
     let s := w.settleWalk
     (s.bnd.tempo = false → exec .pendingTempoApply w = .next s)
     ∧ (∀ p b, s.bnd.tempo = true → s.clock.pendingTempo = some (p, b) →
       exec .pendingTempoApply w = .next
         (State.report
           { s with
             clock := { s.clock with p := p, b := b, divider := p - 1, pendingTempo := none }
             bnd := { s.bnd with tempo := false } }
           .tempo (le2 p ++ [byte b, 1]))))

/-- START (R40): a count-in above 4, the halt latch and a transport that moves refuse it, in this order; else the counters
and the divider are 0, the transport is entered, and TRANSPORT (cause START) is sent before the reply. The divider is not
counted down in this frame (log 4), and a boundary due in it is dropped (log 40). -/
def Obligations.StartZeroesTheSongAndEntersTheTransport : Prop :=
  ∀ (s : State) (tag c : Byte), s.canTake { kind := 0x12, tag := tag, payload := [c] } = true → s.sup.state = .ready →
    let u := s.takeRequest
    let entered : Transport := if c = 0 then .running else .countIn
    exec (.start tag [c]) s = .next
      (if 4 < c.toNat then u.reply 0x12 tag [3, 0]
       else if u.sup.latch = true then u.reply 0x12 tag [8, 0]
       else if u.clock.transport ≠ .stopped then u.reply 0x12 tag [6, 0]
       else
         State.reply
           (State.report
             { u with
               clock := { u.clock with
                 tick := 0, beat := 0, bar := 0, songBar := 0, loopPos := 0, divider := 0, dividerSet := true
                 countIn := c.toNat, transport := entered, startMark := if c = 0 then .start else .countIn
                 loopSet := false } }
             .transport [entered.code, 0, 0, c])
           0x12 tag [0, entered.code])

/-- STOP (R42): while STOPPED nothing changes. Else the transport becomes STOPPED, both heads are idle, every voice is
free, the wait list is empty, the sequencer is IDLE, the pending slot is empty and the click ends with the frame; with no
head busy and the slot empty the state is given whole; where the slot was full no clause speaks of TRANSPORT's header (log 11). One head busy alone is cut: CutLeaves says what that leaves of the
layers, the maps, the blocks and L (R34, R85, R86). The waiting cues stay. The reply carries the transport state before.

A STOP cue's action (R42, R59) has the same effects with cause STOP_CUE, while RUNNING and in COUNT_IN. -/
def Obligations.StopStopsTheTransport : Prop :=
  let idle := fun q : Sequencer => { q with current := none, bars := .count 0, due := none, slot := none }
  let stops := fun u t : State =>
    t.clock.transport = .stopped ∧ t.clock.countIn = 0 ∧ t.clock.pendingTempo = none
      ∧ t.clock.songBar = u.clock.songBar ∧ t.clock.divider = u.clock.divider
      ∧ t.head0 = none ∧ t.head1 = none ∧ t.mix.voices = Vector.replicate 24 none ∧ t.mix.wait = []
      ∧ t.scenes = idle u.scenes
      ∧ t.tones = { u.tones with clickEnds := true } ∧ t.cues = u.cues ∧ t.sup = u.sup
      ∧ t.bnd = { u.bnd with sceneStep := none, walk := none, grant := .none, tempo := false }
      ∧ (∀ p b, u.clock.pendingTempo = some (p, b) →
        t.clock.p = p ∧ t.clock.b = b ∧ t.clock.tick = 0 ∧ t.clock.beat = 0)
      ∧ (u.clock.pendingTempo = none →
        t.clock.p = u.clock.p ∧ t.clock.b = u.clock.b ∧ t.clock.tick = u.clock.tick ∧ t.clock.beat = u.clock.beat)
      ∧ (∀ h r l, u.head h = some r → (∀ j, j ≠ h → u.head j = none) → u.layer r.layer = some l → u.poolLegal →
        CutLeaves u t h r l)
  let stopped := fun (u : State) (cause : Byte) =>
    { State.report
        { u with
          clock := { u.clock with transport := .stopped, countIn := 0, startMark := .none }
          mix := { u.mix with voices := Vector.replicate 24 none, wait := [], fresh := [] }
          tones := { u.tones with clickEnds := true }
          bnd := { u.bnd with sceneStep := none, walk := none, grant := .none, tempo := false } }
        .transport [0, u.clock.transport.code, cause, 0]
      with scenes := idle u.scenes }
  (∀ (s : State) (tag : Byte), s.canTake { kind := 0x13, tag := tag, payload := [] } = true → s.sup.state = .ready →
    let u := s.takeRequest
    (u.clock.transport = .stopped → exec (.stop tag []) s = .next (u.reply 0x13 tag [0, 0]))
    ∧ (u.clock.transport ≠ .stopped →
      (∃ t : State, exec (.stop tag []) s = .next (t.reply 0x13 tag [0, u.clock.transport.code]) ∧ stops u t)
      ∧ (u.head0 = none → u.head1 = none → u.clock.pendingTempo = none →
        exec (.stop tag []) s = .next ((stopped u 2).reply 0x13 tag [0, u.clock.transport.code]))))
  ∧ (∀ s : State, s.clock.transport ≠ .stopped →
    (∃ t : State, s.doAction .stop = (.ok, t) ∧ stops s t)
    ∧ (s.head0 = none → s.head1 = none → s.clock.pendingTempo = none → s.doAction .stop = (.ok, stopped s 3)))

/-! ### Cues -/

/-- CUE (R50, R51): a field out of range refuses it BAD_VALUE, then the halt latch HALTED; a refusal changes nothing and
takes no id.

CUE with another grid than NOW (R51, R52, R54): the replaced cues go, the cue joins the tail with the next id; with 16
left by the removal it is refused FULL and nothing changes. -/
def Obligations.CueIsRefusedOrJoinsTheList : Prop :=
  (∀ (s : State) (tag action target grid delay optA optB flags : Byte),
     s.canTake { kind := 0x18, tag := tag, payload := [action, target, grid, delay, optA, optB, flags] } = true →
     s.sup.state = .ready →
     let u := s.takeRequest
     (¬cueInRange action target grid delay optA optB flags →
       exec (.cue tag [action, target, grid, delay, optA, optB, flags]) s
         = .next (u.reply 0x18 tag [3, 0, 0, 0, byte u.cues.list.length]))
     ∧ (cueInRange action target grid delay optA optB flags → u.sup.latch = true →
       exec (.cue tag [action, target, grid, delay, optA, optB, flags]) s
         = .next (u.reply 0x18 tag [8, 0, 0, 0, byte u.cues.list.length])))
  ∧ (∀ (s : State) (tag action target grid delay optA optB flags : Byte) (a : Action) (g : Grid) (d : Nat) (replace : Bool),
     s.canTake { kind := 0x18, tag := tag, payload := [action, target, grid, delay, optA, optB, flags] } = true →
     s.sup.state = .ready → s.sup.latch = false →
     cueFields action target grid delay optA optB flags = some (a, g, d, replace) → g ≠ .now →
     let u := s.takeRequest
     let kept := keptCues a replace u.cues.list
     exec (.cue tag [action, target, grid, delay, optA, optB, flags]) s = .next
       (if kept.length = 16 then u.reply 0x18 tag [4, 0, 0, 0, byte u.cues.list.length]
        else
          State.reply
            { u with
              cues :=
                { list := kept ++ [{ id := u.cues.nextId, action := a, grid := g, delay := d }]
                  nextId := u.cues.nextId + 1 } }
            0x18 tag
            [0, 1, u.cues.nextId, byte (u.cues.list.length - kept.length), byte (kept.length + 1)]))

/-- CUE with grid NOW (R51, R53, R54, R60): it takes an id, the replaced cues go, its action is carried out at once, and
CUE_DONE or CUE_FAILED is formed behind the action's own reports, with the song bar and the beat that stood when the request
was taken; the reply carries the action's outcome. -/
def Obligations.NowCueIsExecutedAtOnce : Prop :=
  ∀ (s : State) (tag action target grid delay optA optB flags : Byte) (a : Action) (d : Nat) (replace : Bool),
    s.canTake { kind := 0x18, tag := tag, payload := [action, target, grid, delay, optA, optB, flags] } = true →
    s.sup.state = .ready → s.sup.latch = false →
    cueFields action target grid delay optA optB flags = some (a, .now, d, replace) →
    let u := s.takeRequest
    let kept := keptCues a replace u.cues.list
    let r := State.doAction { u with cues := { list := kept, nextId := u.cues.nextId + 1 } } a
    exec (.cue tag [action, target, grid, delay, optA, optB, flags]) s = .next
      (State.reply
        (if r.1 = .ok then r.2.reportWith u.header .cueDone [u.cues.nextId, a.code, a.targetCode]
         else r.2.reportWith u.header .cueFailed [u.cues.nextId, a.code, a.targetCode, r.1.byte])
        0x18 tag
        [r.1.byte, 2, u.cues.nextId, byte (u.cues.list.length - kept.length), byte r.2.cues.list.length])

/-- What an action's owner answers where it changes nothing (R15, R16, R53, R69, R73, R81, R149): REC and DUB outside RUNNING, and
while RUNNING the first of their checks that fails, in the order of the rules, none of which lets a start through; END_REC
with no recording on the track, UNDO on an EMPTY track, REDO while the track records, with nothing to redo or with no place on
the stack, a SCENE that is not valid, MUTE of a muted track, UNMUTE of one that is not muted, STOP while STOPPED. -/
def Obligations.ActionsThatChangeNothing : Prop :=
  ∀ (s : State) (t : TrackId) (span : Span) (bars : Nat) (chain : Bool) (n : SceneId),
    (s.clock.transport ≠ .running → s.doAction (.record t span bars) = (.wrongState, s)
      ∧ s.doAction (.dub t chain) = (.wrongState, s))
    ∧ (s.clock.transport = .running →
      let places := (s.track t).stack.length + (s.track t).reservations
      let noRecord := (∀ x, s.layer x ≠ none) ∧ (s.track t).redo = []
      let fixed := s.clock.loop ≠ none ∧ ∃ x, s.layer x ≠ none ∧ x ∉ (s.track t).redo
      let mapLength := (span.loops * ((s.clock.loop.getD 0) * (s.clock.b * 48 * s.clock.p)) + 4095) / 4096
      let started := fun r : Code × State => r.1 = .ok
      (let r := s.doAction (.record t span bars)
       if (s.track t).stack ≠ [] ∨ (s.track t).reservations ≠ 0 then r = (.notEmpty, s)
       else if s.clock.loop = none ∧ s.definingRuns = true then r = (.loopUnset, s)
       else if s.sup.low = true ∧ s.sup.guard = true then r = (.lowSupply, s)
       else if s.head0 ≠ none ∧ s.head1 ≠ none then r = (.noHead, s)
       else if noRecord then r = (.noLayer, s)
       else if fixed ∧ 1024 < mapLength then r = (.tooLong, s)
       else started r)
      ∧ (let r := s.doAction (.dub t chain)
        if s.trackState t ≠ .play then r = (.wrongState, s)
        else if places = 6 then r = (.stackFull, s)
        else if s.sup.low = true ∧ s.sup.guard = true then r = (.lowSupply, s)
        else if s.head0 ≠ none ∧ s.head1 ≠ none then r = (.noHead, s)
        else if noRecord then r = (.noLayer, s)
        else started r))
    ∧ (s.headOn t = none → s.doAction (.endRec t) = (.notRecording, s))
    ∧ ((s.track t).stack = [] → s.doAction (.undo t) = (.nothing, s))
    ∧ (s.trackState t = .recording ∨ s.trackState t = .dub → s.doAction (.redo t) = (.wrongState, s))
    ∧ (s.trackState t = .play ∨ s.trackState t = .empty → (s.track t).redo = [] → s.doAction (.redo t) = (.nothing, s))
    ∧ (s.trackState t = .play ∨ s.trackState t = .empty → (s.track t).redo ≠ [] →
      (s.track t).stack.length + (s.track t).reservations = 6 → s.doAction (.redo t) = (.stackFull, s))
    ∧ ((s.scenes.table.get n).valid = false → s.doAction (.scene n) = (.noSuch, s))
    ∧ ((s.track t).mute = true → s.doAction (.mute (.track t)) = (.ok, s))
    ∧ ((s.track t).mute = false → s.doAction (.unmute (.track t)) = (.ok, s))
    ∧ (s.clock.transport = .stopped → s.doAction .stop = (.ok, s))

/-- MUTE and UNMUTE (R17, R53): they succeed; the flag takes its value; a muted track's layers hold no voice and do not wait; the other tracks,
the memory, the heads and the clock stay. An UNMUTE claims a voice for each layer of the stack, bottom to top, and arms an
audible one-shot. With target ALL the effect on one track is taken on tracks 0 to 7 in ascending order.
A claim (R131, R132): a layer that is not audible, or that has a voice or waits, claims nothing; with the wait list empty and
a voice FREE the layer gets the lowest FREE voice, to sound from the next frame (log 53), and a one-shot is armed; else it joins the wait list at its keys with
the current song bar, which counts a BAR boundary of this frame that is not taken yet as taken (log 41), and VOICE_WAIT is sent,
but for a claim ahead of the start instant's pass (R137).

ONE_SHOT_SELF_MUTE (R21), behind a begun walk (log 6): a track whose count has reached 0 mutes itself with the muting effect,
with no report; its layers hold no voice. With no self-mute due nothing happens (the model's choice, log 1). -/
def Obligations.MuteFlagAndOneShotSelfMute : Prop :=
  (∀ (s : State) (t : TrackId),
     let m := (s.doAction (.mute (.track t))).2
     let v := (s.doAction (.unmute (.track t))).2
     (s.doAction (.mute (.track t))).1 = .ok ∧ (s.doAction (.unmute (.track t))).1 = .ok
       ∧ (m.track t).mute = true ∧ (v.track t).mute = false
       ∧ ((s.track t).mute = false → ∀ x ∈ (s.track t).stack, m.mix.voiceOf x = none ∧ m.mix.waits x = false)
       ∧ (∀ k, k ≠ t → m.track k = s.track k ∧ v.track k = s.track k)
       ∧ (m.track t).stack = (s.track t).stack ∧ (v.track t).stack = (s.track t).stack
       ∧ (m.track t).remaining = (s.track t).remaining
       ∧ m.layers = s.layers ∧ v.layers = s.layers ∧ m.mem = s.mem ∧ v.mem = s.mem ∧ m.clock = s.clock
       ∧ v.clock = s.clock ∧ m.head0 = s.head0 ∧ v.head0 = s.head0 ∧ m.head1 = s.head1 ∧ v.head1 = s.head1
       ∧ ((s.track t).mute = true →
         let c := (s.track t).stack.foldl (fun w x => w.claimVoice t x) (s.modTrack t fun r => { r with mute := false })
         v = if c.trackAudible t = true ∧ (s.track t).oneShot = true then
             c.modTrack t fun r => { r with remaining := s.trackFrames t, selfMuteDue := false }
           else c))
  ∧ (∀ s : State,
     let onAll := fun a : Target → Action => (List.finRange 8).foldl (fun w k => (w.doAction (a (.track k))).2) s
     let m := onAll .mute
     let v := onAll .unmute
     s.doAction (.mute .all) = (.ok, m) ∧ s.doAction (.unmute .all) = (.ok, v)
       ∧ (∀ k, (m.track k).mute = true ∧ (v.track k).mute = false ∧ (m.track k).stack = (s.track k).stack
         ∧ (v.track k).stack = (s.track k).stack ∧ (m.track k).remaining = (s.track k).remaining)
       ∧ (∀ k, (s.track k).mute = false → ∀ x ∈ (s.track k).stack, m.mix.voiceOf x = none ∧ m.mix.waits x = false)
       ∧ m.layers = s.layers ∧ v.layers = s.layers ∧ m.mem = s.mem ∧ v.mem = s.mem ∧ m.clock = s.clock
       ∧ v.clock = s.clock ∧ m.head0 = s.head0 ∧ v.head0 = s.head0 ∧ m.head1 = s.head1 ∧ v.head1 = s.head1)
  ∧ (∀ (s : State) (k : TrackId) (x : LayerId),
     let c := s.claimVoice k x
     let holds := ∃ v, s.mix.voices.get v = some x
     let waits := ∃ w ∈ s.mix.wait, w.layer = x
     (s.audible k x = false ∨ holds ∨ waits → c = s)
     ∧ (s.audible k x = true → ¬holds → ¬waits →
       (∀ v, s.bnd.grant ≠ .start → s.mix.wait = [] → s.mix.voices.get v = none →
         (∀ y, y < v → s.mix.voices.get y ≠ none) →
         c.mix = { s.mix with voices := s.mix.voices.set v.val (some x) v.isLt, fresh := x :: s.mix.fresh }
           ∧ c.link = s.link
           ∧ c.track k = (if (s.track k).oneShot then
               { s.track k with remaining := s.trackFrames k, selfMuteDue := false } else s.track k)
           ∧ ∀ j, j ≠ k → c.track j = s.track j)
       ∧ (s.bnd.grant = .start ∨ s.mix.wait ≠ [] ∨ (∀ v, s.mix.voices.get v ≠ none) →
         ∃ list, JoinsTheWaitList s x list ∧ c.mix = { s.mix with wait := list } ∧ c.tracks = s.tracks
           ∧ (let joined := { s with mix := { s.mix with wait := list } }
             c = if s.bnd.grant = .start then joined
               else joined.report .voiceWait
                 [byte x.val, byte k.val, byte ((s.track k).stack.findIdx (· == x)),
                   byte (list.findIdx fun w => w.layer == x), byte list.length,
                   byte s.mix.freeVoices]))))
  ∧ (∀ (w : State) (k : TrackId),
     let s := w.settleWalk
     (s.sup.state = .ready → (s.track k).selfMuteDue = true →
       ∃ t, exec (.oneShotSelfMute k) w = .next t ∧ (t.track k).mute = true ∧ (t.track k).selfMuteDue = false
         ∧ (t.track k).remaining = (s.track k).remaining ∧ (t.track k).stack = (s.track k).stack
         ∧ ((s.track k).mute = false → ∀ x ∈ (s.track k).stack, t.mix.voiceOf x = none ∧ t.mix.waits x = false)
         ∧ (∀ j, j ≠ k → t.track j = s.track j) ∧ t.layers = s.layers ∧ t.mem = s.mem ∧ t.clock = s.clock
         ∧ t.link = s.link ∧ t.cues = s.cues ∧ t.sup = s.sup)
     ∧ ((s.track k).selfMuteDue = false → exec (.oneShotSelfMute k) w = .next s))

/-- REC on an EMPTY track while RUNNING that passes its checks (R68 to R72): the redo list is discarded first, as RedoDropped says,
and then the lowest IDLE head and the lowest FREE record take it. Without L, or with no layer in use but those of the redo list,
it is DEFINING, from the present frame of the bar, and empties the pending slot; with L and another layer in use it is FIXED,
its map SILENT over the span. DUB on a track in PLAY (R73), behind the same discard: an overdub of the whole map
from the track's position, the pass being the one with which the track leaves this instant. A BAR boundary of this frame that
is not taken yet counts as taken in the start stamp (log 41). A pair dropped at the BAR boundary at which it was due is due no
more (log 51).

UNDO of a recording (R14) discards its layer. UNDO on a track in PLAY (R15, R118, R119) aborts the bounce that the top layer's pin
names and then, in queue order, the COPYs to the track (log 40): BouncesUndone says what that leaves; the layer's own pin is
cleared. UNDO and REDO (R15, R16), with no bounce that the layer's pin names or that
copies to the track: the top layer moves to the front of the redo list, UNDONE and without a voice; the front of the redo list
returns to the top of the stack, SEALED, and the auto-fold check follows. Maps, blocks, memory and the other layers and tracks
stay. -/
def Obligations.RecUndoAndRedoTakeTheirEffect : Prop :=
  (∀ (s : State) (t : TrackId), RedoDropped s (s.discardRedo t) t)
  ∧ (∀ (s : State) (t : TrackId) (h : HeadId) (x : LayerId), s.clock.transport = .running →
     let v := s.discardRedo t
     (s.sup.low && s.sup.guard) = false → TakesHead s h → TakesRecord v x →
     let loopFrames := (s.clock.loop.getD 0) * (s.clock.b * 48 * s.clock.p)
     let begins := fun (mode : HeadMode) (endCond : EndCond) (chain : Bool) (offset start : Nat) =>
       ({ stalled := false, track := t, layer := x, mode := mode, mask := (v.track t).mask, endCond := endCond, chain := chain
          endPending := .none, writeOffset := offset, startPos := start, index := none, written := 0, reopened := false
          atBar := false } : Recording)
     ((s.track t).stack = [] → (s.track t).reservations = 0 → ∀ (span : Span) (bars : Nat),
       ((s.clock.loop = none ∧ s.definingRuns = false)
           ∨ (s.clock.loop ≠ none ∧ ∀ y, s.layer y ≠ none → y ∈ (s.track t).redo) →
         ∃ u, s.doAction (.record t span bars) = (.ok, u)
           ∧ RecordingBegins v u h x t .base (List.replicate (v.clock.loopPos / 4096) none)
             (begins .defining (if bars = 0 then .openEnd else .bars bars) false v.clock.loopPos 0)
           ∧ (u.track t).span = some .one ∧ (u.track t).pass = 0 ∧ u.clock = { v.clock with pendingTempo := none }
           ∧ u.bnd = { s.bnd with tempo := s.bnd.tempo && s.clock.pendingTempo.isNone })
       ∧ (∀ n y, s.clock.loop = some n → s.layer y ≠ none → y ∉ (s.track t).redo →
         (span.loops * loopFrames + 4095) / 4096 ≤ 1024 →
         ∃ u, s.doAction (.record t span bars) = (.ok, u)
           ∧ RecordingBegins v u h x t .base (List.replicate ((span.loops * loopFrames + 4095) / 4096) none)
             (begins .fixed .length false 0 s.clock.loopPos)
           ∧ (u.track t).span = some span ∧ (u.track t).pass = 0 ∧ u.clock = s.clock))
     ∧ (s.trackState t = .play → (s.track t).stack.length + (s.track t).reservations ≠ 6 → ∀ chain : Bool,
       ∃ u, s.doAction (.dub t chain) = (.ok, u)
         ∧ RecordingBegins v u h x t .dub (List.replicate ((v.trackFrames t + 4095) / 4096) none)
           (begins .dub .length chain 0 (v.leavingPass t * v.clock.loopFrames + v.clock.loopPos))
         ∧ (u.track t).span = (v.track t).span ∧ (u.track t).pass = (v.track t).pass ∧ u.clock = v.clock))
  ∧ (∀ (s : State) (t : TrackId) (h : HeadId) (r : Recording) (l : Layer), s.headOn t = some h → s.head h = some r →
     s.layer r.layer = some l → s.trackState t = .recording ∨ s.trackState t = .dub →
     ∃ u, s.doAction (.undo t) = (.ok, u) ∧ DiscardLeaves s u h r l ∧ (∀ j, j ≠ h → u.head j = s.head j)
       ∧ u.cues = s.cues ∧ u.sup = s.sup)
  ∧ (∀ (s : State) (t : TrackId) (x : LayerId) (l : Layer) (rest : List LayerId), s.layer x = some l →
     (s.trackState t = .play → (s.track t).stack = rest ++ [x] → l.pin = none →
       (∀ e ∈ s.bounce.queue, e.dest = t → e.fold = true) →
       ∃ u, s.doAction (.undo t) = (.ok, u) ∧ (u.track t).stack = rest ∧ (u.track t).redo = x :: (s.track t).redo
         ∧ u.layer x = some { l with state := .undone } ∧ u.mix.voiceOf x = none ∧ u.mix.waits x = false
         ∧ (∀ y, y ≠ x → u.layer y = s.layer y) ∧ (∀ k, k ≠ t → u.track k = s.track k) ∧ u.mem = s.mem ∧ u.pool = s.pool
         ∧ u.clock = s.clock ∧ u.head0 = s.head0 ∧ u.head1 = s.head1 ∧ u.link = s.link)
     ∧ (s.trackState t = .play → (s.track t).stack = rest ++ [x] → (∀ e ∈ s.bounce.queue, RunsApart s e) →
       (∀ e ∈ s.bounce.queue.tail, e.run = none) →
       let named := fun e : Bounce => decide (l.pin = some e.id) && e.sources.contains x
       let copies := fun e : Bounce => !e.fold && decide (e.dest = t)
       let others := s.bounce.queue.eraseP named
       let first := s.bounce.queue.find? named
       let gone := first.toList ++ others.filter copies
       ∃ u, s.doAction (.undo t) = (.ok, u) ∧ BouncesUndone s u t x first.toList (others.filter copies)
         ∧ u.bounce.queue = (others.filter fun e => !copies e) ∧ (u.track t).stack = rest
         ∧ (u.track t).redo = x :: (s.track t).redo
         ∧ u.layer x = some { l with state := .undone, pin := if gone.any (·.sources.contains x) then none else l.pin }
         ∧ u.mix.voiceOf x = none ∧ u.mix.waits x = false)
     ∧ (s.trackState t ≠ .recording → s.trackState t ≠ .dub → (s.track t).redo = x :: rest →
       ((s.track t).stack.length + (s.track t).reservations = 6 → s.doAction (.redo t) = (.stackFull, s))
       ∧ ((s.track t).stack.length + (s.track t).reservations ≠ 6 →
         ∃ u : State, s.doAction (.redo t) = (.ok, u.autoFold t) ∧ (u.track t).stack = (s.track t).stack ++ [x]
           ∧ (u.track t).redo = rest ∧ u.layer x = some { l with state := .sealed }
           ∧ (∀ y, y ≠ x → u.layer y = s.layer y) ∧ (∀ k, k ≠ t → u.track k = s.track k) ∧ u.mem = s.mem
           ∧ u.pool = s.pool ∧ u.clock = s.clock ∧ u.head0 = s.head0 ∧ u.head1 = s.head1 ∧ u.bounce = s.bounce)))

/-- CANCEL_CUE_BY_ID, CANCEL_CUE_BY_TRACK and CANCEL_CUE_ALL (R62): the cues of the mode go, the others keep their order and
their delays, and the number is answered. -/
def Obligations.CancelCueRemovesTheCuesOfItsMode : Prop :=
  ∀ (s : State) (tag v : Byte), s.sup.state = .ready →
    let u := s.takeRequest
    let without := fun f : Cue → Bool => { u with cues := { u.cues with list := u.cues.list.filter fun c => !f c } }
    (s.canTake { kind := 0x19, tag := tag, payload := [0, v] } = true →
      exec (.cancelCueById tag [0, v]) s = .next
        (if u.cues.list.filter (fun c => c.id = v) = [] then u.reply 0x19 tag [10, 0]
         else
           State.reply (without fun c => c.id = v) 0x19 tag
             [0, byte (u.cues.list.filter fun c => c.id = v).length]))
    ∧ (s.canTake { kind := 0x19, tag := tag, payload := [1, v] } = true →
      (7 < v.toNat → exec (.cancelCueByTrack tag [1, v]) s = .next (u.reply 0x19 tag [3, 0]))
      ∧ (∀ h : v.toNat < 8,
        exec (.cancelCueByTrack tag [1, v]) s = .next
          (State.reply (without fun c => c.action.target = some (.track ⟨v.toNat, h⟩)) 0x19 tag
            [0, byte (u.cues.list.filter fun c => c.action.target = some (.track ⟨v.toNat, h⟩)).length])))
    ∧ (s.canTake { kind := 0x19, tag := tag, payload := [2, v] } = true →
      exec (.cancelCueAll tag [2, v]) s = .next
        (State.reply { u with cues := { u.cues with list := [] } } 0x19 tag [0, byte u.cues.list.length]))

/-- CLEAR of one track (R18): every layer on its stack and its redo list is FREE, and a recording on it has ended. With none
running and no bounce queued, their blocks join the free list, the stack's layers bottom to top and then the redo list's, the
span is absent, and the pass index, the mute and one-shot flags and the count are cleared; every other layer and track and
the memory stay, and with no layer left L is not established. With bounces queued, those with a source on the track or the track
for destination are aborted first, in queue order (R119; log 34). With target ALL, as a cue's action, the tracks are cleared in
ascending order and the sequencer is IDLE (R19).

CLEAR_ALL (R18, R19): an id is taken; every layer that a track's stack or redo list names is FREE, the tracks' flags,
spans and counts are cleared, the sequencer is IDLE, and L is not established if the last record was freed. Settings, the
scene table and the waiting cues stay. -/
def Obligations.ClearAllFreesEveryLayer : Prop :=
  (∀ (s : State) (t : TrackId), ∃ u, s.doAction (.clear (.track t)) = (.ok, u)
     ∧ (∀ x, x ∈ (s.track t).stack ∨ x ∈ (s.track t).redo → u.layer x = none)
     ∧ (∀ h, s.headOn t = some h → u.head h = none)
     ∧ (s.headOn t = none → s.bounce.queue = [] →
       (∀ x ∈ (s.track t).stack ++ (s.track t).redo, (s.layer x).map (·.track) = some t) →
       ((s.track t).stack ++ (s.track t).redo).Nodup →
       u.track t =
           { s.track t with
             stack := [], redo := [], span := none, pass := 0, passSet := false, mute := false, oneShot := false
             remaining := 0, selfMuteDue := false }
         ∧ (∀ k, k ≠ t → u.track k = s.track k)
         ∧ (∀ x, x ∉ (s.track t).stack ++ (s.track t).redo → u.layer x = s.layer x)
         ∧ u.pool.free = s.pool.free ++ ((s.track t).stack ++ (s.track t).redo).flatMap (fun x =>
           namedBlocks (((s.layer x).map (·.map)).getD []))
         ∧ (∀ x ∈ (s.track t).stack ++ (s.track t).redo, u.mix.voiceOf x = none ∧ u.mix.waits x = false)
         ∧ u.mem = s.mem ∧ u.scenes = s.scenes ∧ u.bounce = s.bounce ∧ u.cues = s.cues ∧ u.head0 = s.head0
         ∧ u.head1 = s.head1 ∧ u.sup = s.sup
         ∧ (u.inUse ≠ [] → u.clock = s.clock) ∧ (s.inUse ≠ [] → u.inUse = [] → u.clock.loop = none))
     ∧ (s.headOn t = none → (∀ e ∈ s.bounce.queue, RunsApart s e) → (∀ e ∈ s.bounce.queue.tail, e.run = none) →
       (∀ x ∈ (s.track t).stack ++ (s.track t).redo, (s.layer x).map (·.track) = some t) →
       ((s.track t).stack ++ (s.track t).redo).Nodup →
       let drawn := fun e : Bounce => e.sources.any fun x => decide ((s.layer x).map (·.track) = some t)
       let gone := s.bounce.queue.filter fun e => drawn e || decide (e.dest = t)
       u.bounce.queue = (s.bounce.queue.filter fun e => !(drawn e || decide (e.dest = t)))
         ∧ (∀ e ∈ gone, ∀ r, e.run = some r → u.layer r.product = none)
         ∧ (∀ e ∈ gone, ∀ y ∈ e.sources, ∀ m, u.layer y = some m → m.pin = none)
         ∧ (∀ k, (u.track k).reservations
           = (s.track k).reservations - (gone.filter fun e => !e.fold && decide (e.dest = k)).length)
         ∧ u.pool.free = s.pool.free ++ gone.flatMap (productNames s)
           ++ ((s.track t).stack ++ (s.track t).redo).flatMap (fun x => namedBlocks (((s.layer x).map (·.map)).getD []))
         ∧ (u.inUse ≠ [] →
           u.link = (gone.foldl (fun w e => abortReported s (if drawn e then 3 else 4) 10 w e) s).link)))
  ∧ (∀ s : State,
     let v := (List.finRange 8).foldl (fun w k => (w.doAction (.clear (.track k))).2) s
     s.doAction (.clear .all)
       = (.ok, { v with scenes := { s.scenes with current := none, bars := .count 0, due := none, slot := none } }))
  ∧ (∀ (s : State) (tag : Byte), s.canTake { kind := 0x26, tag := tag, payload := [] } = true → s.sup.state = .ready →
     let u := s.takeRequest
     (s.sup.latch = true → exec (.clearAll tag []) s = .next (u.reply 0x26 tag [8, 0, 0, 0, byte u.cues.list.length]))
     ∧ (s.sup.latch = false →
       ∃ t : State, exec (.clearAll tag []) s
           = .next (t.reply 0x26 tag [0, 2, u.cues.nextId, 0, byte u.cues.list.length])
         ∧ t.cues = { list := u.cues.list, nextId := u.cues.nextId + 1 }
         ∧ (∀ k x, x ∈ (u.track k).stack ∨ x ∈ (u.track k).redo → t.layer x = none)
         ∧ (∀ k, (t.track k).span = none ∧ (t.track k).pass = 0 ∧ (t.track k).mute = false
           ∧ (t.track k).oneShot = false ∧ (t.track k).remaining = 0 ∧ (t.track k).gain = (u.track k).gain
           ∧ (t.track k).pan = (u.track k).pan ∧ (t.track k).mask = (u.track k).mask)
         ∧ t.scenes = { u.scenes with current := none, bars := .count 0, due := none, slot := none }
         ∧ (u.inUse ≠ [] → t.inUse = [] → t.clock.loop = none)
         ∧ t.tones = u.tones ∧ t.sup = u.sup ∧ t.clock.transport = u.clock.transport))


/-! ### Tracks and layers -/

/-- TRACK_CONFIG (R22, R20): a field out of range refuses it BAD_VALUE and changes nothing; else mask, gain and pan are
stored, the mute flag and then the one-shot flag take their actions, and one that goes on is armed if the track is audible.
The stack, the other tracks, the layers, the memory, the heads and the clock stay; with both actions LEAVE the state is given
whole. The mix of this frame still has the gain and pan before (log 44).

SET_LEVEL (R23): a layer above 55 refuses it BAD_VALUE, a FREE one NO_SUCH; else the layer's level alone is set, and the mix of
this frame still has the one before (log 44). -/
def Obligations.TrackConfigAndSetLevelSetTheirRecord : Prop :=
  (∀ (s : State) (tag track mask gain pan mute oneShot : Byte),
     s.canTake { kind := 0x20, tag := tag, payload := [track, mask, gain, pan, mute, oneShot] } = true →
     s.sup.state = .ready →
     let u := s.takeRequest
     let bad := 7 < track.toNat ∨ mask = 0 ∨ 15 < mask.toNat ∨ 127 < pan.toNat ∨ 2 < mute.toNat ∨ 2 < oneShot.toNat
     (bad → exec (.trackConfig tag [track, mask, gain, pan, mute, oneShot]) s = .next (u.reply 0x20 tag [3]))
     ∧ (∀ h : track.toNat < 8, ¬bad →
       let k : TrackId := ⟨track.toNat, h⟩
       (∃ t : State, exec (.trackConfig tag [track, mask, gain, pan, mute, oneShot]) s = .next (t.reply 0x20 tag [0])
         ∧ (t.track k).mask = mask.setWidth 4 ∧ (t.track k).gain = gain ∧ (t.track k).pan = pan
         ∧ (t.track k).mute = (if mute = 1 then true else if mute = 2 then false else (u.track k).mute)
         ∧ (t.track k).oneShot = (if oneShot = 1 then true else if oneShot = 2 then false else (u.track k).oneShot)
         ∧ (oneShot = 1 → (u.track k).oneShot = false →
           (t.track k).remaining = if t.trackAudible k then t.trackFrames k else 0)
         ∧ (oneShot = 2 → (t.track k).remaining = 0)
         ∧ (mute = 1 → (u.track k).mute = false →
           ∀ x ∈ (u.track k).stack, t.mix.voiceOf x = none ∧ t.mix.waits x = false)
         ∧ (t.track k).stack = (u.track k).stack ∧ (t.track k).redo = (u.track k).redo
         ∧ (t.track k).span = (u.track k).span ∧ (t.track k).pass = (u.track k).pass
         ∧ (∀ j, j ≠ k → t.track j = u.track j) ∧ t.layers = u.layers ∧ t.mem = u.mem ∧ t.pool = u.pool
         ∧ t.clock = u.clock ∧ t.cues = u.cues ∧ t.head0 = u.head0 ∧ t.head1 = u.head1 ∧ t.bounce = u.bounce
         ∧ t.scenes = u.scenes ∧ t.tones = u.tones ∧ t.sup = u.sup
         ∧ t.mix.heard = .track k (u.track k).gain (u.track k).pan)
       ∧ (mute = 0 → oneShot = 0 →
         exec (.trackConfig tag [track, mask, gain, pan, mute, oneShot]) s = .next
           (State.reply
             { u.setTrack k { u.track k with mask := mask.setWidth 4, gain := gain, pan := pan } with
               mix := { u.mix with heard := .track k (u.track k).gain (u.track k).pan } }
             0x20 tag [0]))))
  ∧ (∀ (s : State) (tag n level : Byte), s.canTake { kind := 0x24, tag := tag, payload := [n, level] } = true →
     s.sup.state = .ready →
     let u := s.takeRequest
     (55 < n.toNat → exec (.setLevel tag [n, level]) s = .next (u.reply 0x24 tag [3]))
     ∧ (∀ h : n.toNat < 56,
       (u.layer ⟨n.toNat, h⟩ = none → exec (.setLevel tag [n, level]) s = .next (u.reply 0x24 tag [10]))
       ∧ (∀ l, u.layer ⟨n.toNat, h⟩ = some l →
         exec (.setLevel tag [n, level]) s = .next
           (State.reply
             { u.setLayer ⟨n.toNat, h⟩ (some { l with level := level }) with
               mix := { u.mix with heard := .layer ⟨n.toNat, h⟩ l.level } }
             0x24 tag [0]))))

/-- TRACK_INFO, LAYER_INFO and LAYER_MAP (R24, R25, R26, R192): the record is answered and nothing changes; a number above
the table's refuses BAD_VALUE, a FREE layer's map NO_SUCH, an offset at or past the map's end BAD_VALUE. -/
def Obligations.TrackAndLayersAreAnswered : Prop :=
  ∀ (s : State) (tag n o0 o1 : Byte),
    let u := s.takeRequest
    let fill := fun (k : Nat) (l : List Byte) => (l ++ List.replicate k 0xFF).take k
    (s.canTake { kind := 0x21, tag := tag, payload := [n] } = true →
      (7 < n.toNat → ∃ z, exec (.trackInfo tag [n]) s = .next (u.reply 0x21 tag (3 :: z)))
      ∧ (∀ h : n.toNat < 8,
        let r := u.track ⟨n.toNat, h⟩
        exec (.trackInfo tag [n]) s = .next
          (u.reply 0x21 tag
            ([0, n, (u.trackState ⟨n.toNat, h⟩).code, byte r.stack.length] ++ fill 6 (r.stack.map fun x => byte x.val)
              ++ [byte r.reservations, byte r.redo.length] ++ fill 6 (r.redo.map fun x => byte x.val)
              ++ [byte ((r.span.map Span.loops).getD 0), byte r.pass, flagByte r.mute, flagByte r.oneShot]
              ++ le4 r.remaining ++ [r.gain, r.pan, r.mask.setWidth 8]))))
    ∧ (s.canTake { kind := 0x22, tag := tag, payload := [n] } = true →
      (55 < n.toNat → ∃ z, exec (.layerInfo tag [n]) s = .next (u.reply 0x22 tag (3 :: z)))
      ∧ (∀ h : n.toNat < 56,
        (u.layer ⟨n.toNat, h⟩ = none →
          exec (.layerInfo tag [n]) s = .next
            (u.reply 0x22 tag
              [0, n, 0, 0xFF, 0xFF, 0, 0, 0, 0, 0, 0, 0, 0, 0, 0xFF, 0xFF, 0xFF, 0xFF, 0, 0, 0, 0]))
        ∧ (∀ l, u.layer ⟨n.toNat, h⟩ = some l →
          exec (.layerInfo tag [n]) s = .next
            (u.reply 0x22 tag
              ([0, n, l.state.code, byte l.track.val, l.origin.code] ++ le2 l.map.length ++ [l.level]
                ++ le2 l.startStamp.toNat ++ le2 (l.sealStamp.getD 0).toNat
                ++ [(l.mask.getD 0).setWidth 8, byte l.parents.length] ++ fill 4 (l.parents.map fun x => byte x.val)
                ++ le2 l.clip ++ [markFlags l.gapped l.damaged l.pin.isSome, l.pin.getD 0])))))
    ∧ (s.canTake { kind := 0x23, tag := tag, payload := [n, o0, o1] } = true →
      (55 < n.toNat → ∃ z, exec (.layerMap tag [n, o0, o1]) s = .next (u.reply 0x23 tag (3 :: z)))
      ∧ (∀ h : n.toNat < 56,
        (u.layer ⟨n.toNat, h⟩ = none → ∃ z, exec (.layerMap tag [n, o0, o1]) s = .next (u.reply 0x23 tag (10 :: z)))
        ∧ (∀ l, u.layer ⟨n.toNat, h⟩ = some l →
          let offset := o0.toNat + 256 * o1.toNat
          let shown := (l.map.drop offset).take 24
          (l.map.length ≤ offset → ∃ z, exec (.layerMap tag [n, o0, o1]) s = .next (u.reply 0x23 tag (3 :: z)))
          ∧ (offset < l.map.length →
            exec (.layerMap tag [n, o0, o1]) s = .next
              (u.reply 0x23 tag
                ([0, n, o0, o1, byte shown.length]
                  ++ fill 48 (shown.flatMap fun e => (e.map fun b => le2 b.val).getD [0xFF, 0xFF])))))))

/-- LIST_CUES, BOUNCE_INFO and SCENE_READ (R63, R126, R151): the list from a position on, the entry at a position and the
sequencer with one record are answered, and nothing changes; a position or a scene above the last refuses BAD_VALUE. -/
def Obligations.QueuesAndScenesAreAnswered : Prop :=
  ∀ (s : State) (tag n : Byte),
    let u := s.takeRequest
    let fill := fun (k : Nat) (c : Byte) (l : List Byte) => (l ++ List.replicate k c).take k
    let scene := fun o : Option SceneId => (o.map fun n => byte n.val).getD 0xFF
    (s.canTake { kind := 0x1A, tag := tag, payload := [n] } = true →
      (15 < n.toNat → ∃ z, exec (.listCues tag [n]) s = .next (u.reply 0x1A tag (3 :: z)))
      ∧ (n.toNat ≤ 15 →
        let shown := (u.cues.list.drop n.toNat).take 6
        exec (.listCues tag [n]) s = .next
          (u.reply 0x1A tag
            ([0, byte u.cues.list.length, n, byte shown.length]
              ++ fill 42 0xFF
                (shown.flatMap fun c =>
                  [c.id, c.action.code, c.action.targetCode, c.grid.code, byte c.delay, c.action.optA, c.action.optB])))))
    ∧ (s.canTake { kind := 0x2A, tag := tag, payload := [n] } = true →
      (3 < n.toNat → ∃ z, exec (.bounceInfo tag [n]) s = .next (u.reply 0x2A tag (3 :: z)))
      ∧ (n.toNat ≤ 3 →
        exec (.bounceInfo tag [n]) s = .next
          (u.reply 0x2A tag
            ([0, byte u.bounce.queue.length, n]
              ++ (match u.bounce.queue[n.toNat]? with
                | none => List.replicate 8 0 ++ List.replicate 4 0xFF ++ List.replicate 4 0 ++ [0xFF] ++ List.replicate 6 0
                | some e =>
                  [1, e.id, flagByte e.fold, flagByte e.auto, bounceOptions e.levels e.muteSources, flagByte e.run.isSome,
                    byte e.dest.val, byte e.sources.length] ++ fill 4 0xFF (e.sources.map fun x => byte x.val)
                  ++ (match e.run with
                    | none => [0, 0, 0, 0, 0xFF, 0, 0] ++ le2 e.mapLen ++ [0, 0]
                    | some r =>
                      fill 4 0 r.snapshot ++ [byte r.product.val] ++ le2 r.progress ++ le2 e.mapLen ++ le2 r.blocks))
              ++ [byte u.bounce.threshold]))))
    ∧ (s.canTake { kind := 0x31, tag := tag, payload := [n] } = true →
      (15 < n.toNat → ∃ z, exec (.sceneRead tag [n]) s = .next (u.reply 0x31 tag (3 :: z)))
      ∧ (∀ h : n.toNat < 16,
        let r := u.scenes.table.get ⟨n.toNat, h⟩
        exec (.sceneRead tag [n]) s = .next
          (u.reply 0x31 tag
            ([0, n, flagByte r.valid] ++ r.actions.toList.map SceneAct.code
              ++ [r.length, scene r.next, flagByte r.tie, flagByte u.scenes.current.isSome, scene u.scenes.current,
                  match u.scenes.bars with
                  | .count k => byte k
                  | .stay => 0xFF,
                  scene (u.scenes.due.map (·.scene)), scene u.scenes.slot]))))


/-! ### Bounces and the block pool -/

/-- BOUNCE (R110, R111): a field out of range refuses it BAD_VALUE, a full queue FULL; the first source of the list that is not
SEALED, is damaged or is pinned refuses it with its place; unequal map lengths and a FOLD's source off the destination's stack
refuse it BAD_VALUE, a COPY to a track that records its base WRONG_STATE, to one without a place STACK_FULL, to one whose span,
or without a span every span, has another map length BAD_VALUE. A refusal changes nothing. Which place the reply names for a
source above 55, a repeated one, unequal lengths and a FOLD's source off the stack is the model's reading (log 36). -/
def Obligations.BounceIsRefused : Prop :=
  ∀ (s : State) (tag m d o c x0 x1 x2 x3 : Byte) (xs : List LayerId),
    s.canTake { kind := 0x28, tag := tag, payload := [m, d, o, c, x0, x1, x2, x3] } = true → s.sup.state = .ready →
    let u := s.takeRequest
    let answers := fun (code place : Byte) =>
      exec (.bounce tag [m, d, o, c, x0, x1, x2, x3]) s = .next (u.reply 0x28 tag [code, 0, 0xFF, place])
    let lengthOf := fun x => ((u.layer x).map fun l => l.map.length).getD 0
    (1 < m.toNat ∨ 7 < d.toNat ∨ 3 < o.toNat ∨ c = 0 ∨ 4 < c.toNat ∨ (m = 1 ∧ c ≠ 2) → answers 3 0xFF)
    ∧ (m.toNat ≤ 1 → ∀ hd : d.toNat < 8, o.toNat ≤ 3 → 1 ≤ c.toNat → c.toNat ≤ 4 → (m = 1 → c = 2) →
      (∀ before b after, [x0, x1, x2, x3].take c.toNat = before ++ b :: after → (∀ y ∈ before, y.toNat ≤ 55) →
        55 < b.toNat → answers 3 (byte before.length))
      ∧ ([x0, x1, x2, x3].take c.toNat = xs.map (fun x => byte x.val) →
      (¬xs.Nodup → answers 3 0xFF)
      ∧ (xs.Nodup →
        (u.bounce.queue.length = 4 → answers 4 0xFF)
        ∧ (u.bounce.queue.length ≠ 4 →
          (∀ before x after code, xs = before ++ x :: after → (∀ y ∈ before, sourceCode (u.layer y) = none) →
            sourceCode (u.layer x) = some code → answers code (byte before.length))
          ∧ ((∀ y ∈ xs, sourceCode (u.layer y) = none) →
            ((∃ y ∈ xs, ∃ z ∈ xs, lengthOf y ≠ lengthOf z) → answers 3 0xFF)
            ∧ ((∀ y ∈ xs, ∀ z ∈ xs, lengthOf y = lengthOf z) →
              (m = 1 → ∀ before x after, xs = before ++ x :: after →
                (∀ y ∈ before, y ∈ (u.track ⟨d.toNat, hd⟩).stack) → x ∉ (u.track ⟨d.toNat, hd⟩).stack →
                answers 3 (byte before.length))
              ∧ (m = 0 →
                (u.trackState ⟨d.toNat, hd⟩ = .recording → answers 6 0xFF)
                ∧ (u.trackState ⟨d.toNat, hd⟩ ≠ .recording →
                  ((u.track ⟨d.toNat, hd⟩).stack.length + (u.track ⟨d.toNat, hd⟩).reservations = 6 → answers 14 0xFF)
                  ∧ ((u.track ⟨d.toNat, hd⟩).stack.length + (u.track ⟨d.toNat, hd⟩).reservations ≠ 6 → ∀ y ∈ xs,
                    (∀ span, (u.track ⟨d.toNat, hd⟩).span = some span → u.clock.mapLength span ≠ lengthOf y →
                      answers 3 0xFF)
                    ∧ ((u.track ⟨d.toNat, hd⟩).span = none → (∀ span, u.clock.mapLength span ≠ lengthOf y) →
                      answers 3 0xFF))))))))))

/-- BOUNCE accepted (R108, R112): the entry joins the tail QUEUED with the next id, its sources are pinned, and a COPY
reserves a place on its destination, which takes the span of that map length if it had none.

The auto-fold check on a track (R122, R123), made where RecUndoAndRedoTakeTheirEffect, BounceIndexFinishes and
RecordingsEndByThemselves say: with the threshold 0 or above the stack's length, with a FOLD to the track in the queue, or with
fewer than two SEALED, unpinned and undamaged layers on the stack it does nothing; with four entries in the queue it sends
FOLD_SKIPPED; else an AUTO FOLD of the two lowest of those layers joins the queue. -/
def Obligations.BounceJoinsTheQueue : Prop :=
  (∀ (s : State) (tag o x0 x1 x2 x3 : Byte) (fold : Bool) (d : TrackId) (xs : List LayerId) (n : Nat),
    s.canTake
      { kind := 0x28, tag := tag, payload := [flagByte fold, byte d.val, o, byte xs.length, x0, x1, x2, x3] } = true →
    s.sup.state = .ready → o.toNat ≤ 3 → xs ≠ [] → xs.length ≤ 4 →
    [x0, x1, x2, x3].take xs.length = xs.map (fun x => byte x.val) → xs.Nodup →
    let u := s.takeRequest
    u.bounce.queue.length ≠ 4 → (∀ x ∈ xs, sourceCode (u.layer x) = none) →
    (∀ x ∈ xs, (u.layer x).map (fun l => l.map.length) = some n) →
    (fold = true → xs.length = 2 ∧ ∀ x ∈ xs, x ∈ (u.track d).stack) →
    (fold = false → u.trackState d ≠ .recording ∧ (u.track d).stack.length + (u.track d).reservations ≠ 6
      ∧ (∀ span, (u.track d).span = some span → u.clock.mapLength span = n)
      ∧ ((u.track d).span = none → ∃ span, u.clock.mapLength span = n)) →
    ∃ t : State,
      exec (.bounce tag [flagByte fold, byte d.val, o, byte xs.length, x0, x1, x2, x3]) s
          = .next (t.reply 0x28 tag [0, u.bounce.nextId, byte u.bounce.queue.length, 0xFF])
        ∧ t.bounce.queue = u.bounce.queue ++
          [{ id := u.bounce.nextId, fold := fold, auto := false, sources := xs, dest := d, levels := o.getLsbD 0
             muteSources := o.getLsbD 1, mapLen := n, run := none, joined := true }]
        ∧ t.bounce.nextId = u.bounce.nextId + 1
        ∧ (∀ x ∈ xs, t.layer x = (u.layer x).map fun l => { l with pin := some u.bounce.nextId })
        ∧ (∀ x, x ∉ xs → t.layer x = u.layer x)
        ∧ (t.track d).reservations = (u.track d).reservations + (if fold then 0 else 1)
        ∧ (fold = false → ∃ span, (t.track d).span = some span ∧ u.clock.mapLength span = n)
        ∧ (∀ k, k ≠ d → t.track k = u.track k) ∧ (t.track d).stack = (u.track d).stack ∧ t.mem = u.mem
        ∧ t.pool = u.pool ∧ t.clock = u.clock ∧ t.cues = u.cues ∧ t.mix = u.mix ∧ t.sup = u.sup)
  ∧ (∀ (s : State) (k : TrackId),
     let stack := (s.track k).stack
     let able := fun x => ∃ l, s.layer x = some l ∧ l.state = .sealed ∧ l.pin = none ∧ l.damaged = false
     (s.bounce.threshold = 0 ∨ stack.length < s.bounce.threshold ∨ (∃ e ∈ s.bounce.queue, e.fold = true ∧ e.dest = k) →
       s.autoFold k = s)
     ∧ (s.bounce.threshold ≠ 0 → s.bounce.threshold ≤ stack.length →
       (∀ e ∈ s.bounce.queue, e.dest = k → e.fold = false) →
       ((∀ before x after, stack = before ++ x :: after → able x → ∀ y ∈ after, ¬able y) → s.autoFold k = s)
       ∧ (∀ before x mid y after, stack = before ++ x :: (mid ++ y :: after) → able x → able y →
         (∀ z ∈ before ++ mid, ¬able z) →
         (s.bounce.queue.length = 4 →
           s.autoFold k
             = s.report .foldSkipped [byte k.val, byte stack.length, byte s.bounce.threshold, 4])
         ∧ (s.bounce.queue.length ≠ 4 →
           let t := s.autoFold k
           t.bounce =
               { s.bounce with
                 queue := s.bounce.queue ++
                   [{ id := s.bounce.nextId, fold := true, auto := true, sources := [x, y], dest := k, levels := true
                      muteSources := false, mapLen := ((s.layer x).map fun l => l.map.length).getD 0, run := none
                      joined := true }]
                 nextId := s.bounce.nextId + 1
                 headFresh := s.bounce.headFresh || s.bounce.queue.isEmpty }
             ∧ (∀ z, t.layer z = if z = x ∨ z = y then (s.layer z).map fun l => { l with pin := some s.bounce.nextId }
               else s.layer z)
             ∧ t.tracks = s.tracks ∧ t.mem = s.mem ∧ t.pool = s.pool ∧ t.link = s.link ∧ t.clock = s.clock
             ∧ t.mix = s.mix ∧ t.head0 = s.head0 ∧ t.head1 = s.head1 ∧ t.sup = s.sup))))

/-- CANCEL_BOUNCE_BY_ID and CANCEL_BOUNCE_ALL (R118, R125): the entries of the mode leave the queue, the others keep their
order, the running product of one that leaves is FREE, its sources' pins are cleared, a COPY's place on its destination is no
longer reserved, and the number is answered. -/
def Obligations.CancelBounceAbortsTheEntriesOfItsMode : Prop :=
  ∀ (s : State) (tag id : Byte), s.sup.state = .ready →
    let u := s.takeRequest
    let leaves := fun (t : State) (gone : List Bounce) =>
      (∀ e ∈ gone, ∀ r, e.run = some r → t.layer r.product = none)
        ∧ (∀ e ∈ gone, ∀ x ∈ e.sources, ∀ l, t.layer x = some l → l.pin = none)
        ∧ (∀ x, (∀ e ∈ gone, x ∉ e.sources ∧ ∀ r, e.run = some r → r.product ≠ x) → t.layer x = u.layer x)
        ∧ (∀ k, (t.track k).reservations
          = (u.track k).reservations - (gone.filter fun e => !e.fold && decide (e.dest = k)).length)
        ∧ t.mem = u.mem ∧ t.cues = u.cues ∧ t.head0 = u.head0 ∧ t.head1 = u.head1 ∧ t.sup = u.sup
    (s.canTake { kind := 0x29, tag := tag, payload := [0, id] } = true →
      let named := u.bounce.queue.filter fun e => e.id = id
      (named = [] → exec (.cancelBounceById tag [0, id]) s = .next (u.reply 0x29 tag [10, 0]))
      ∧ (named ≠ [] → ∃ t : State,
        exec (.cancelBounceById tag [0, id]) s = .next (t.reply 0x29 tag [0, byte named.length])
          ∧ t.bounce.queue = u.bounce.queue.filter (fun e => e.id ≠ id)
          ∧ leaves t named))
    ∧ (s.canTake { kind := 0x29, tag := tag, payload := [1, id] } = true → ∃ t : State,
      exec (.cancelBounceAll tag [1, id]) s = .next (t.reply 0x29 tag [0, byte u.bounce.queue.length])
        ∧ t.bounce.queue = [] ∧ leaves t u.bounce.queue)

/-- FOLD_CONFIG (R124): the threshold takes the value and the previous one is answered; 1, 2 and a value above 6 refuse it
BAD_VALUE; unless READY it is refused NOT_READY. Nothing else changes. A refusal's second byte 0 (log 12) and NOT_READY ahead
of BAD_VALUE (log 13) are the model's choices. -/
def Obligations.FoldConfigSetsTheThreshold : Prop :=
  ∀ (s : State) (tag a : Byte), s.canTake { kind := 0x2B, tag := tag, payload := [a] } = true →
    let u := s.takeRequest
    exec (.foldConfig tag [a]) s = .next
      (if s.sup.state ≠ .ready then u.reply 0x2B tag [7, 0]
       else if a = 1 ∨ a = 2 ∨ 6 < a.toNat then u.reply 0x2B tag [3, 0]
       else
         State.reply { u with bounce := { u.bounce with threshold := a.toNat } } 0x2B tag
           [0, byte u.bounce.threshold])

/-- BOUNCE_START (R113, R118), behind a begun walk (log 6): the head of the queue takes the lowest FREE layer record for its
product and the level snapshot and is RUNNING; with no record FREE it leaves the queue and its sources lose their pins. A head
that became so in this frame does not start yet (log 9), so that nothing happens (the model's choice, log 1). The start stamp
counts a BAR boundary of this frame that is not taken yet as taken (log 41).

AUDIO_FRAME with a RUNNING head of the queue and no record head busy (R114): an index that is to begin becomes due behind the
frame's head claims (log 9), and one that is being filled gets four more samples, the saturating sums of the sources', where
it has a block; every other byte stays. The entries of the queue are no longer new (the model's own mark, log 26). -/
def Obligations.BounceStartsItsHead : Prop :=
  (∀ (w : State) (e : Bounce) (q : List Bounce),
    let s := w.settleWalk
    s.sup.state = .ready → s.bounce.queue = e :: q → e.run = none →
    (s.bounce.headFresh = true → exec .bounceStart w = .next s)
    ∧ (s.bounce.headFresh = false →
      (∀ x, s.layer x = none → (∀ y, y < x → s.layer y ≠ none) →
        exec .bounceStart w = .next
          { s.setLayer x
              (some
                { state := .filling, track := e.dest, origin := .bounce, map := List.replicate e.mapLen none, level := 128
                  startStamp := s.songBarNow, sealStamp := none, mask := none, parents := e.sources, clip := 0
                  gapped := false, damaged := false, pin := none })
            with
            bounce := { s.bounce with
              queue :=
                { e with
                  run := some
                    { snapshot := e.sources.map fun y => ((s.layer y).map (·.level)).getD 0
                      product := x, progress := 0, frames := 0, blocks := 0, phase := .toBegin } } :: q } })
      ∧ ((∀ x, s.layer x ≠ none) → ∃ t, exec .bounceStart w = .next t ∧ t.bounce.queue = q ∧ t.mem = s.mem
        ∧ t.pool.free = s.pool.free ∧ (∀ y l, t.layer y = some l → y ∈ e.sources → l.pin = none)
        ∧ (∀ y, y ∉ e.sources → t.layer y = s.layer y))))
  ∧ (∀ (s : State) (in0 in1 in2 in3 : Sample) (e : Bounce) (q : List Bounce) (r : Run), s.sup.state = .ready →
     s.frameOwes = false → s.head0 = none → s.head1 = none → s.bounce.queue = e :: q → e.run = some r → s.memoryLegal →
     let queue := fun t : State => fun v : Run =>
       t.bounce.queue = { e with run := some v, joined := false } :: q.map fun x => { x with joined := false }
     ∃ t, exec (.audioFrame in0 in1 in2 in3) s = .next t ∧ t.layers = s.layers ∧ t.cues = s.cues ∧ t.sup = s.sup
       ∧ (r.phase = .toBegin → queue t { r with phase := .beginDue } ∧ t.mem = s.mem ∧ t.pool = s.pool)
       ∧ (r.phase = .filling → r.frames < 1024 →
         queue t { r with frames := r.frames + 1 } ∧ t.pool = freesTaken s.pool none
         ∧ (s.mapEntry r.product r.progress = none → t.mem = s.mem)
         ∧ (∀ b, s.mapEntry r.product r.progress = some b →
           (∀ a, (a < sampleAddr b (4 * r.frames) ∨ sampleAddr b (4 * r.frames) + 8 ≤ a) → t.mem.read a = s.mem.read a)
           ∧ (∀ j, j < 4 → t.mem.sample b (4 * r.frames + j)
             = toSample (satSum ((e.sources.zip r.snapshot).map fun p =>
               let x := match s.mapEntry p.1 r.progress with
                 | none => 0
                 | some c => (s.mem.sample c (4 * r.frames + j)).toInt
               if e.levels then applyLevel p.2 x else x))))))

/-- BOUNCE_INDEX_BEGIN (R94, R96, R97, R114), after the heads' claims of the index's first frame, so that its first four samples
are written with it (log 9). An index whose sources are all SILENT claims nothing; else the head of the free list goes to the
product, the index's first four samples are the saturating sums of the sources' and every other byte of the memory stays; a
claim that would leave fewer than 32 blocks free aborts the bounce, and the next entry may start at once, as the abort falls in
the frame that is over (log 9). The blocks freed behind the claims of the frame (log 5) do
not count. With no claim due nothing happens (the model's choice, log 1). -/
def Obligations.BounceIndexBeginsWithItsClaim : Prop :=
  ∀ s : State,
    (s.beginIsDue = false → exec .bounceIndexBegin s = .next s)
    ∧ ∀ (e : Bounce) (q : List Bounce) (r : Run),
    s.sup.state = .ready → s.bounce.queue = e :: q → e.run = some r → r.phase = .beginDue →
    let silent := ∀ x ∈ e.sources, s.mapEntry x r.progress = none
    (silent → ∃ t, exec .bounceIndexBegin s = .next t
      ∧ t.bounce.queue = { e with run := some { r with phase := .filling, frames := 1 } } :: q ∧ t.mem = s.mem
      ∧ t.pool = freesTaken s.pool none ∧ t.layers = s.layers)
    ∧ (¬silent →
      (∀ b rest l, s.pool.free = b :: rest → 32 + s.pool.behind.getD 0 ≤ rest.length → s.layer r.product = some l →
        r.progress < l.map.length → r.product ∉ e.sources → r.frames = 0 → s.memoryLegal →
        ∃ t, exec .bounceIndexBegin s = .next t
          ∧ t.bounce.queue
            = { e with run := some { r with phase := .filling, frames := 1, blocks := r.blocks + 1 } } :: q
          ∧ t.pool.free = rest ∧ t.pool.behind = none
          ∧ t.pool.entry b = some { owner := r.product, index := r.progress, check := .none }
          ∧ t.mapEntry r.product r.progress = some b
          ∧ (∀ a, (a < sampleAddr b 0 ∨ sampleAddr b 0 + 8 ≤ a) → t.mem.read a = s.mem.read a)
          ∧ (∀ j, j < 4 → t.mem.sample b j
            = toSample (satSum ((e.sources.zip r.snapshot).map fun p =>
              match s.mapEntry p.1 r.progress with
              | none => 0
              | some c =>
                if e.levels then applyLevel p.2 (s.mem.sample c j).toInt else (s.mem.sample c j).toInt))))
      ∧ (s.pool.free.length < 33 + s.pool.behind.getD 0 → ∃ t, exec .bounceIndexBegin s = .next t ∧ t.bounce.queue = q
        ∧ t.bounce.headFresh = q.head?.any (·.joined) ∧ t.layer r.product = none ∧ t.mem = s.mem ∧ t.pool.behind = none))

/-- BOUNCE_INDEX_FINISH (R101, R114, R115, R116, R117, R133), behind a begun walk (log 6): after 1,024 frames the index's block
is closed with its check word and the next index is to begin. After the last one the entry leaves the queue and the sources
lose their pins; the next entry may start at once, as the completion falls at the end of the frame that is over (log 9), unless
it joined the queue in this one (R112, R122). The product's seal stamp is the song bar that stands, also in the frame of a BAR boundary that is not taken yet (the model's
choice, log 41). A COPY's destination loses its redo list, and the product lies SEALED on top of it, below an overdub that is
still recording; the auto-fold check on it follows. A FOLD's product lies in the place of the lower source and has its voice,
and both sources are FREE. A voice that the product claims sounds from the frame now in progress, and one it takes over sounds
where it did (log 53). -/
def Obligations.BounceIndexFinishes : Prop :=
  ∀ (w : State) (e : Bounce) (q : List Bounce) (r : Run) (p : Layer),
    let s := w.settleWalk
    s.sup.state = .ready → s.bounce.queue = e :: q → e.run = some r → r.phase = .filling → r.frames = 1024 →
    s.layer r.product = some p → p.pin = none → s.poolLegal →
    let closed := fun t : State => ∀ b o, s.mapEntry r.product r.progress = some b → s.pool.entry b = some o →
      t.pool.entry b = some { o with check := .valid (crcBytes (s.mem.blockBytes b)) }
    let sealedProduct := some { p with state := .sealed, sealStamp := some s.clock.songBar }
    (r.progress + 1 < e.mapLen →
      ∃ t, exec .bounceIndexFinish w = .next t
        ∧ t.bounce.queue
          = { e with run := some { r with progress := r.progress + 1, frames := 0, phase := .toBegin } } :: q
        ∧ closed t ∧ t.mem = s.mem ∧ t.layers = s.layers ∧ t.pool.free = s.pool.free)
    ∧ (e.mapLen ≤ r.progress + 1 → e.fold = false → r.product ∉ (s.track e.dest).redo →
      (∀ z ∈ (s.track e.dest).redo, (s.layer z).map (·.track) = some e.dest ∧ z ∉ (s.track e.dest).stack) →
      ∃ t : State, exec .bounceIndexFinish w
          = .next { t.autoFold e.dest with bounce := { (t.autoFold e.dest).bounce with headFresh := t.bounce.headFresh } }
        ∧ t.bounce.queue = q ∧ t.bounce.headFresh = q.head?.any (·.joined) ∧ t.mem = s.mem ∧ closed t
        ∧ (t.track e.dest).stack
          = (if s.trackState e.dest = .dub then
              (s.track e.dest).stack.dropLast ++ [r.product] ++ (s.track e.dest).stack.getLast?.toList
             else (s.track e.dest).stack ++ [r.product])
        ∧ (t.track e.dest).redo = [] ∧ (∀ z ∈ (s.track e.dest).redo, t.layer z = none)
        ∧ (t.track e.dest).reservations = (s.track e.dest).reservations - 1
        ∧ t.layer r.product = sealedProduct ∧ t.mix.fresh = s.mix.fresh
        ∧ (∀ x ∈ e.sources, ∀ l, t.layer x = some l → l.pin = none)
        ∧ (∀ k, (t.track k).mute = ((s.track k).mute
          || (e.muteSources && decide (k ≠ e.dest) && e.sources.any fun x =>
            decide (x ∉ (s.track e.dest).redo) && decide ((s.layer x).map (·.track) = some k)))))
    ∧ (∀ x y, e.mapLen ≤ r.progress + 1 → e.fold = true → e.sources = [x, y] ∨ e.sources = [y, x] → x ≠ y →
      r.product ≠ x → r.product ≠ y → s.layer x ≠ none → s.layer y ≠ none → s.stackPos e.dest x < s.stackPos e.dest y →
      ∃ t, exec .bounceIndexFinish w = .next t ∧ t.bounce.queue = q ∧ t.bounce.headFresh = q.head?.any (·.joined)
        ∧ t.mem = s.mem ∧ closed t
        ∧ (t.track e.dest).stack
          = ((s.track e.dest).stack.map fun z => if z = x then r.product else z).filter (· ≠ y)
        ∧ t.layer x = none ∧ t.layer y = none ∧ t.layer r.product = sealedProduct
        ∧ (∀ v, s.mix.voiceOf x = some v → t.mix.voiceOf r.product ≠ none
          ∧ ((∀ i, s.mix.voices.get i ≠ some r.product) → t.mix.voiceOf r.product = some v))
        ∧ t.mix.fresh = (if (s.mix.voiceOf x).isSome then s.mix.fresh.map fun z => if z = x then r.product else z
          else s.mix.fresh)
        ∧ t.mix.voiceOf x = none ∧ t.mix.waits x = false ∧ t.mix.voiceOf y = none ∧ t.mix.waits y = false)

/-- The check word (R101, R102, R105): the register starts at all ones, each byte is combined into its low eight bits and shifted through
eight times, and the word is not inverted; a block's 8,192 bytes are its samples in frame order, each low byte first; the same
word is stored at a close and compared at a verify visit. -/
def Obligations.CheckWordShiftsAndFolds : Prop :=
  crcBytes [] = 0xFFFFFFFF ∧ (∀ l b, crcBytes (l ++ [b]) = crcByte (crcBytes l) b)
    ∧ (∀ (r : Word) (b : Byte), crcByte r b = crcShift^[8] (r ^^^ b.setWidth 32))
    ∧ (∀ r : Word, crcShift r = if r.getLsbD 0 then r >>> 1 ^^^ 0x82F63B78 else r >>> 1)
    ∧ (∀ (m : Memory) (b : BlockId), (m.blockBytes b).length = 8192
      ∧ ∀ f, f < 4096 → (m.blockBytes b)[2 * f]? = some ((m.sample b f).extractLsb' 0 8)
        ∧ (m.blockBytes b)[2 * f + 1]? = some ((m.sample b f).extractLsb' 8 8))
    ∧ (∀ (s : State) (b : BlockId) (o : Owned), s.pool.entry b = some o →
      (s.closeBlock b).pool.entry b = some { o with check := .valid (crcBytes (s.mem.blockBytes b)) }
        ∧ ∀ w, o.check.word = some w → (s.visit b).pool.entry b
          = some { o with check := if crcBytes (s.mem.blockBytes b) = w then .valid w else .bad w })
    ∧ crcBytes [0x31, 0x32, 0x33, 0x34, 0x35, 0x36, 0x37, 0x38, 0x39] = 0x1CF96D7C


/-! ### Scenes -/

/-- SCENE_WRITE (R150): a field out of range refuses it BAD_VALUE and leaves the record; else the record alone takes every
value.

SCENE_NEXT_SET and SCENE_NEXT_EMPTY (R152): the slot takes the scene, or is emptied, and its value before is answered; a
scene above 15 or not valid refuses the SET BAD_VALUE. -/
def Obligations.SceneWriteAndSceneNext : Prop :=
  (∀ (s : State) (tag n valid a0 a1 a2 a3 a4 a5 a6 a7 length next tie : Byte),
     let p := [n, valid, a0, a1, a2, a3, a4, a5, a6, a7, length, next, tie]
     s.canTake { kind := 0x30, tag := tag, payload := p } = true → s.sup.state = .ready →
     let u := s.takeRequest
     let bad := 15 < n.toNat ∨ 1 < valid.toNat ∨ 1 < tie.toNat ∨ (∃ a ∈ [a0, a1, a2, a3, a4, a5, a6, a7], 2 < a.toNat)
       ∨ (15 < next.toNat ∧ next ≠ 255)
     let act := fun a : Byte => if a = 0 then SceneAct.leave else if a = 1 then SceneAct.play else SceneAct.mute
     (bad → exec (.sceneWrite tag p) s = .next (u.reply 0x30 tag [3]))
     ∧ (∀ h : n.toNat < 16, ¬bad → ∃ r : Scene,
       exec (.sceneWrite tag p) s = .next
           (State.reply { u with scenes := { u.scenes with table := u.scenes.table.set n.toNat r h } } 0x30 tag [0])
         ∧ r.valid = decide (valid = 1) ∧ r.actions = #v[act a0, act a1, act a2, act a3, act a4, act a5, act a6, act a7]
         ∧ r.length = length ∧ r.next.map (·.val) = (if next = 255 then none else some next.toNat)
         ∧ r.tie = decide (tie = 1)))
  ∧ (∀ (s : State) (tag n : Byte), s.sup.state = .ready →
     let u := s.takeRequest
     let before := (u.scenes.slot.map fun k => byte k.val).getD 0xFF
     (s.canTake { kind := 0x32, tag := tag, payload := [0, n] } = true →
       (15 < n.toNat → exec (.sceneNextSet tag [0, n]) s = .next (u.reply 0x32 tag [3, before]))
       ∧ (∀ h : n.toNat < 16, exec (.sceneNextSet tag [0, n]) s = .next
         (if (u.scenes.table.get ⟨n.toNat, h⟩).valid = true then
            State.reply { u with scenes := { u.scenes with slot := some ⟨n.toNat, h⟩ } } 0x32 tag [0, before]
          else u.reply 0x32 tag [3, before])))
     ∧ (s.canTake { kind := 0x32, tag := tag, payload := [1, n] } = true →
       exec (.sceneNextEmpty tag [1, n]) s = .next
         (State.reply { u with scenes := { u.scenes with slot := none } } 0x32 tag [0, before])))

/-- SCENE_STOP (R153): unless READY it is refused NOT_READY; else the sequencer is IDLE, with no due scene and an empty slot,
the mute flags stay, no report is sent, and the current scene before is answered. -/
def Obligations.SceneStopSetsTheSequencerIdle : Prop :=
  ∀ (s : State) (tag : Byte), s.canTake { kind := 0x33, tag := tag, payload := [] } = true →
    let u := s.takeRequest
    let before := (u.scenes.current.map fun n => byte n.val).getD 0xFF
    exec (.sceneStop tag []) s = .next
      (if s.sup.state = .ready then
         State.reply
           { u with scenes := { u.scenes with current := none, bars := .count 0, due := none, slot := none } } 0x33 tag
           [0, before]
       else u.reply 0x33 tag [7, before])

/-- SCENE_COUNTDOWN_END (R147): the target is the slot's scene, which empties, else the current scene's next. No target, or
one that is not valid, sets the sequencer IDLE; a valid one is applied if it is tied or the boundary is a LOOP boundary, else
it becomes due. The walk has begun with it (log 6) and goes on at the cues: with one due it
stands where it stood, and with none they count down and it is over (R58, log 7). With no countdown ended nothing happens (the model's choice, log 1).

A SCENE cue's action (R146, R149, R155), in every transport state, with the scene valid: for each track that is not EMPTY, in
ascending order, PLAY has the effect of UNMUTE and MUTE that of MUTE; the scene is current with its length to run, the due scene
goes, the slot stays, and SCENE (cause CUE) is sent.

DUE_SCENE_APPLY (R148): a due scene that is still valid is applied, one that is not sets the sequencer IDLE. With none
met by a LOOP boundary nothing happens (log 1). -/
def Obligations.ScenesAdvanceAtTheBar : Prop :=
  let goesOn := fun s t : State =>
    t.bnd = { s.bnd with sceneStep := none, begun := true, walk := t.bnd.walk } ∧ t.cues.nextId = s.cues.nextId
      ∧ (s.bnd.walk = none → t.bnd.walk = none ∧ t.cues = s.cues)
      ∧ ∀ i k, s.bnd.walk = some i → s.bnd.taken = some k →
        WalkStands (cueMet k (fun n => (t.track n).span) t.leavingPass) s.cues.list t.cues.list i t.bnd.walk
  (∀ s : State,
     (s.bnd.sceneStep ≠ some .countdownEnd → exec .sceneCountdownEnd s = .next s)
     ∧ (s.bnd.sceneStep = some .countdownEnd →
       let target := match s.scenes.slot with
         | some n => some n
         | none => s.scenes.current.bind fun c => (s.scenes.table.get c).next
       let loopKind := (s.bnd.taken.map (·.loop)) = some true
       ∃ t, exec .sceneCountdownEnd s = .next t ∧ goesOn s t
         ∧ t.scenes.table = s.scenes.table ∧ t.scenes.slot = none ∧ t.mem = s.mem ∧ t.clock = s.clock
         ∧ t.layers = s.layers ∧ t.sup = s.sup
         ∧ (target = none → t.scenes.current = none ∧ t.scenes.bars = .count 0 ∧ t.scenes.due = none
           ∧ t.tracks = s.tracks)
         ∧ (∀ n, target = some n →
           let r := s.scenes.table.get n
           (r.valid = false → t.scenes.current = none ∧ t.scenes.bars = .count 0 ∧ t.scenes.due = none
             ∧ t.tracks = s.tracks)
           ∧ (r.valid = true → (r.tie = true ∨ loopKind) →
             t.scenes.current = some n ∧ t.scenes.bars = (if r.length = 0 then .stay else .count r.length.toNat)
               ∧ t.scenes.due = none ∧ ∀ k, (t.track k).mute = sceneFlag r s k)
           ∧ (r.valid = true → r.tie = false → ¬loopKind →
             t.scenes = { s.scenes with slot := none, due := some { scene := n, fromSlot := s.scenes.slot.isSome } }
               ∧ t.tracks = s.tracks))))
  ∧ (∀ s : State,
     (s.bnd.sceneStep ≠ some .dueApply → exec .dueSceneApply s = .next s)
     ∧ (∀ d, s.bnd.sceneStep = some .dueApply → s.scenes.due = some d →
       let r := s.scenes.table.get d.scene
       ∃ t, exec .dueSceneApply s = .next t ∧ goesOn s t
         ∧ t.scenes.table = s.scenes.table ∧ t.mem = s.mem ∧ t.clock = s.clock ∧ t.layers = s.layers
         ∧ t.sup = s.sup ∧ t.scenes.due = none
         ∧ (r.valid = true → t.scenes.current = some d.scene
           ∧ t.scenes.bars = (if r.length = 0 then .stay else .count r.length.toNat) ∧ t.scenes.slot = s.scenes.slot
           ∧ ∀ k, (t.track k).mute = sceneFlag r s k)
         ∧ (r.valid = false → t.scenes.current = none ∧ t.scenes.bars = .count 0 ∧ t.scenes.slot = none
           ∧ t.tracks = s.tracks)))
  ∧ (∀ (s : State) (n : SceneId),
     let r := s.scenes.table.get n
     let act := fun (w : State) (k : TrackId) =>
       if (w.track k).stack = [] then w
       else
         match r.actions.get k with
         | .leave => w
         | .play => (w.doAction (.unmute (.track k))).2
         | .mute => (w.doAction (.mute (.track k))).2
     let v := (List.finRange 8).foldl act s
     r.valid = true → ∃ changed after : Byte,
       s.doAction (.scene n) = (.ok,
         State.report
           { v with
             scenes := { s.scenes with
               current := some n, bars := if r.length = 0 then .stay else .count r.length.toNat, due := none } }
           .scene
           [byte n.val, (s.scenes.current.map fun m => byte m.val).getD 0xFF, 0, 0, r.length, changed, after])
       ∧ (∀ k : TrackId, (v.track k).mute = sceneFlag r s k ∧ (v.track k).stack = (s.track k).stack
         ∧ after.getLsbD k.val = sceneFlag r s k
         ∧ changed.getLsbD k.val = ((s.track k).mute != sceneFlag r s k))
       ∧ v.layers = s.layers ∧ v.mem = s.mem ∧ v.clock = s.clock ∧ v.cues = s.cues ∧ v.bnd = s.bnd ∧ v.pool = s.pool
       ∧ v.head0 = s.head0 ∧ v.head1 = s.head1 ∧ v.sup = s.sup)

/-! ### Click, prompt and monitor -/

/-- CLICK_CONFIG_READ, CLICK_CONFIG_WRITE, MONITOR_CONFIG_READ and MONITOR_CONFIG_WRITE (R143, R160): an accepted WRITE sets
the settings, and the reply carries those that stand; a click setting out of range refuses it. The mix of the frame of a
MonitorConfig WRITE still has the levels before (log 44). An action above 1 refuses it
BAD_VALUE also outside READY (the model's choice, log 13). -/
def Obligations.ClickAndMonitorConfigReadAndWrite : Prop :=
  ∀ (s : State) (tag b1 b2 b3 b4 b5 b6 b7 : Byte),
    let u := s.takeRequest
    let click :=
      [u.tones.mode.code, u.tones.beatPitch, u.tones.accentPitch, byte u.tones.clickLen, flagByte u.tones.click.isSome]
    let levels := u.mix.inputLevels.toList ++ [u.mix.mainLevel, u.mix.clickLevel, u.mix.promptLevel]
    (∀ a : Byte, 1 < a.toNat →
      (s.canTake { kind := 0x38, tag := tag, payload := [a, b1, b2, b3, b4] } = true →
        exec (.clickConfigRead tag [a, b1, b2, b3, b4]) s = .next (u.reply 0x38 tag (3 :: click))
        ∧ exec (.clickConfigWrite tag [a, b1, b2, b3, b4]) s = .next (u.reply 0x38 tag (3 :: click)))
      ∧ (s.canTake { kind := 0x3B, tag := tag, payload := [a, b1, b2, b3, b4, b5, b6, b7] } = true →
        exec (.monitorConfigRead tag [a, b1, b2, b3, b4, b5, b6, b7]) s = .next (u.reply 0x3B tag (3 :: levels))
        ∧ exec (.monitorConfigWrite tag [a, b1, b2, b3, b4, b5, b6, b7]) s = .next (u.reply 0x3B tag (3 :: levels))))
    ∧ (s.canTake { kind := 0x38, tag := tag, payload := [0, b1, b2, b3, b4] } = true →
      exec (.clickConfigRead tag [0, b1, b2, b3, b4]) s = .next (u.reply 0x38 tag (0 :: click)))
    ∧ (s.canTake { kind := 0x38, tag := tag, payload := [1, b1, b2, b3, b4] } = true →
      exec (.clickConfigWrite tag [1, b1, b2, b3, b4]) s = .next
        (if s.sup.state ≠ .ready then u.reply 0x38 tag (7 :: click)
         else if 3 < b1.toNat ∨ b2 = 0 ∨ b3 = 0 ∨ b4 = 0 ∨ 12 < b4.toNat then u.reply 0x38 tag (3 :: click)
         else
           State.reply
             { u with
               tones := { u.tones with
                 mode := if b1 = 0 then .off else if b1 = 1 then .countIn else if b1 = 2 then .recording else .always
                 beatPitch := b2, accentPitch := b3, clickLen := b4.toNat } }
             0x38 tag [0, b1, b2, b3, b4, flagByte u.tones.click.isSome]))
    ∧ (s.canTake { kind := 0x3B, tag := tag, payload := [0, b1, b2, b3, b4, b5, b6, b7] } = true →
      exec (.monitorConfigRead tag [0, b1, b2, b3, b4, b5, b6, b7]) s = .next (u.reply 0x3B tag (0 :: levels)))
    ∧ (s.canTake { kind := 0x3B, tag := tag, payload := [1, b1, b2, b3, b4, b5, b6, b7] } = true →
      exec (.monitorConfigWrite tag [1, b1, b2, b3, b4, b5, b6, b7]) s = .next
        (if s.sup.state ≠ .ready then u.reply 0x3B tag (7 :: levels)
         else
           State.reply
             { u with
               mix := { u.mix with
                 inputLevels := #v[b1, b2, b3, b4], mainLevel := b5, clickLevel := b6, promptLevel := b7
                 heard := .monitor u.mix.inputLevels u.mix.mainLevel u.mix.clickLevel u.mix.promptLevel } }
             0x3B tag [0, b1, b2, b3, b4, b5, b6, b7]))

/-- TONES (R161, R162, R165): a count or an entry out of range refuses it BAD_VALUE, a queue without the room FULL; else the
entries join the tail in order, and load pending is set if the slot is IDLE.

TONE_FLUSH (R164, R166): the queue and the slot are emptied at once and the number removed is answered; TONES_DONE is
sent first if the slot held an entry. The click stays; the mix of this frame still has the prompt sample before (log 44). -/
def Obligations.TonesJoinAndAreFlushed : Prop :=
  (∀ (s : State) (tag n : Byte) (rest : List Byte), rest.length = 12 →
     s.canTake { kind := 0x39, tag := tag, payload := n :: rest } = true → s.sup.state = .ready →
     let u := s.takeRequest
     let answers := fun (t : State) (code : Byte) =>
       exec (.tones tag (n :: rest)) s
         = .next (t.reply 0x39 tag [code, byte t.tones.queue.length, flagByte t.tones.slot.isSome])
     let badEntry := fun i => 6 < (rest.getD (3 * i + 1) 0).toNat ∨ 3 < (rest.getD (3 * i + 2) 0).toNat
       ∨ (rest.getD (3 * i) 0 = 0 ∧ (rest.getD (3 * i + 2) 0).getLsbD 0 = false)
     (n = 0 ∨ 4 < n.toNat → answers u 3)
     ∧ (1 ≤ n.toNat → n.toNat ≤ 4 →
       ((∃ i, i < n.toNat ∧ badEntry i) → answers u 3)
       ∧ ((∀ i, i < n.toNat → ¬badEntry i) →
         (4 < u.tones.queue.length + n.toNat → answers u 4)
         ∧ (u.tones.queue.length + n.toNat ≤ 4 → ∃ es : List ToneEntry, es.length = n.toNat
           ∧ (∀ i e, es[i]? = some e → e.pitch = rest.getD (3 * i) 0 ∧ e.code.val = (rest.getD (3 * i + 1) 0).toNat
             ∧ e.rest = (rest.getD (3 * i + 2) 0).getLsbD 0 ∧ e.tie = (rest.getD (3 * i + 2) 0).getLsbD 1)
           ∧ answers
               { u with
                 tones := { u.tones with
                   queue := u.tones.queue ++ es, loadPending := u.tones.loadPending || u.tones.slot.isNone } }
               0))))
  ∧ (∀ (s : State) (tag : Byte), s.canTake { kind := 0x3A, tag := tag, payload := [] } = true → s.sup.state = .ready →
     let u := s.takeRequest
     let removed := byte (u.tones.queue.length + if u.tones.slot.isSome then 1 else 0)
     let sample : Int := match u.tones.slot with
       | some sl =>
         if sl.entry.rest = false ∧ sl.lastSilent = false then (if sl.wave.high ≠ sl.wave.flipDue then 8192 else -8192) else 0
       | none => 0
     let t := { u with
       tones := { u.tones with queue := [], slot := none, loadPending := false, sounded := 0 }
       mix := { u.mix with heard := .prompt sample } }
     exec (.toneFlush tag []) s = .next
       (State.reply
         (if u.tones.slot.isSome then State.report t .tonesDone [1, byte u.tones.sounded, removed] else t)
         0x3A tag [0, removed]))

/-- CLICK_END, TONE_LOAD, TONE_ENTRY_END and WAVEFORM_FLIP (R157, R159, R162, R163, R164): what each does where it is due. A
click whose ticks are spent is SILENT. A load puts the head of the queue in the slot with a fresh waveform. An entry that
ends, behind a begun walk (log 6), hands over to the next one, which starts fresh unless it is tied to it, or, with the queue
empty, ends the phrase with TONES_DONE; a flip that is due is made before the waveform is handed over (log 29). A flip turns
the level over and starts the count anew; outside READY none does (R168). -/
def Obligations.TonesAndClicksGoOn : Prop :=
  (∀ s : State,
    (s.sup.state = .ready → ∀ c, s.tones.click = some c → c.ticks = 0 →
      exec .clickEnd s = .next { s with tones := { s.tones with click := none } })
    ∧ (∀ e q, s.bnd.toneLoad = true → s.tones.loadPending = true → s.tones.queue = e :: q →
      exec .toneLoad s = .next
        { s with
          tones := { s.tones with
            queue := q
            slot := some
              { entry := e, ticks := codeTicks e.code, lastSilent := false
                wave := { high := true, count := 0, flipDue := false } }
            loadPending := false } })
    ∧ (∀ c, s.sup.state = .ready → s.tones.click = some c → c.wave.flipDue = true →
      exec (.waveformFlip .click) s = .next
        { s with
          tones := { s.tones with
            click := some { c with wave := { high := !c.wave.high, count := 0, flipDue := false } } } })
    ∧ (∀ sl, s.sup.state = .ready → s.tones.slot = some sl → sl.wave.flipDue = true →
      exec (.waveformFlip .prompt) s = .next
        { s with
          tones := { s.tones with
            slot := some { sl with wave := { high := !sl.wave.high, count := 0, flipDue := false } } } })
    ∧ (s.sup.state ≠ .ready → ∀ tone, exec (.waveformFlip tone) s = .next s))
  ∧ (∀ w : State,
     let s := w.settleWalk
     s.sup.state = .ready → ∀ sl, s.tones.slot = some sl → sl.ticks = 0 →
      let sounded := if s.tones.sounded < 255 then s.tones.sounded + 1 else s.tones.sounded
      (s.tones.queue = [] →
        exec .toneEntryEnd w = .next
          (State.report { s with tones := { s.tones with slot := none, sounded := 0 } } .tonesDone [0, byte sounded, 0]))
      ∧ (∀ e q, s.tones.queue = e :: q →
        exec .toneEntryEnd w = .next
          { s with
            tones := { s.tones with
              queue := q
              slot := some
                { entry := e, ticks := codeTicks e.code, lastSilent := false
                  wave :=
                    if sl.lastSilent then { high := true, count := 0, flipDue := false }
                    else if sl.wave.flipDue then { high := !sl.wave.high, count := 0, flipDue := false }
                    else sl.wave }
              loadPending := false
              sounded := sounded } }))



/-! ### The link -/

/-- WELL_FORMED_FRAME (R177, R183, R185), behind a begun walk (log 6), also where the receiver hunts (a frame given whole, log
24): the receiver hunts again, the silence timer restarts while requests are taken, a
part in STANDBY begins WAKING with cause LINK, and the frame joins the request queue if a reply place is free and fewer than 4
wait; with 4 waiting it is answered FULL (after an accepted Restart not even that: the model's reading, log 23); with no reply
place free it is dropped. In RESET no frame is received. -/
def Obligations.WellFormedFramesAreOfferedToTheQueue : Prop :=
  ∀ (w : State) (kind tag : Byte) (p : List Byte),
    let s := w.settleWalk
    (s.sup.state = .reset → exec (.wellFormedFrame kind tag p) w = .next s)
    ∧ (kind.toNat < 0x80 → p.length ≤ 56 → s.sup.state ≠ .reset →
      let arrived :=
        { s with
          link := { s.link with
            assembling := false
            timer := if s.sup.state = .ready ∨ s.sup.state = .verifying then decide (s.link.timeout ≠ 0)
              else s.link.timer }
          sup := { s.sup with
            state := if s.sup.state = .standby then .waking else s.sup.state
            wake := if s.sup.state = .standby then some { cause := .link, haltHeld := false } else s.sup.wake } }
      let places := s.link.requests.length + (s.link.tx.filter fun f => 0x80 ≤ f.kind.toNat).length
      exec (.wellFormedFrame kind tag p) w = .next
        (if 8 ≤ places then arrived
         else if s.link.requests.length < 4 then
           { arrived with
             link := { arrived.link with
               requests := s.link.requests ++ [{ kind := kind, tag := tag, payload := p }] } }
         else if s.sup.restart ≠ none then arrived
         else arrived.reply kind tag [4]))

/-- FRAME_DISCARD, BYTE_GAP and START_BYTE (R168, R183): a discarded or interrupted frame leaves the receiver hunting and
changes nothing else; a start byte begins assembly, outside RESET. A start byte while a frame is assembled, and a discard or a
gap while the receiver hunts, are taken the same way (the model's choice, log 24).

FRAME_SENT (R173, R182, R186), behind a begun walk (log 6): the first frame of the transmit queue has left, its bytes on the
line (the model's record of them, log 47), and its place is free; an accepted Restart has one frame fewer ahead of it, and once
its reply has left no frame leaves any more. With nothing to send nothing happens (the model's choice, log 1). A frame's bytes are the start byte, LEN, KIND, TAG, the payload
and the CHECK that makes the sum of all but the start byte 0; a list of bytes spells a frame only if it is that frame's. -/
def Obligations.ReceiverAndSenderGoOn : Prop :=
  (∀ (s : State) (c : DiscardCause),
     exec (.frameDiscard c) s = .next { s with link := { s.link with assembling := false } }
     ∧ exec .byteGap s = .next { s with link := { s.link with assembling := false } }
     ∧ (s.sup.state ≠ .reset → exec .startByte s = .next { s with link := { s.link with assembling := true } })
     ∧ (s.sup.state = .reset → exec .startByte s = .next s))
  ∧ (∀ w : State,
     let s := w.settleWalk
     (s.link.tx = [] → exec .frameSent w = .next s)
     ∧ (∀ r, s.sup.restart = some r → r.ahead = 0 → exec .frameSent w = .next s)
     ∧ (∀ f rest, s.link.tx = f :: rest → (∀ r, s.sup.restart = some r → r.ahead ≠ 0) →
       exec .frameSent w = .next
         { s with
           link := { s.link with tx := rest, line := frameWire f }
           sup := { s.sup with restart := s.sup.restart.map fun r => { r with ahead := r.ahead - 1 } } }))
  ∧ (∀ f : Frame, f.payload.length ≤ 56 →
     ∃ check : Byte, frameWire f = [0xB7, byte f.payload.length, f.kind, f.tag] ++ f.payload ++ [check]
       ∧ byte (((frameWire f).drop 1).map (·.toNat)).sum = 0 ∧ frameOf (frameWire f) = some f)
  ∧ (∀ (bytes : List Byte) (f : Frame), frameOf bytes = some f → f.payload.length ≤ 56 ∧ frameWire f = bytes)

/-- LINK_SILENCE_EXPIRY (R65, R89, R188), once a walk in progress is finished (log 6): the timer stops and the autopilot flag is set;
while the song moves the waiting REC and DUB cues go and every busy head ends at the next bar; LINK_SILENT is sent. With the
timer stopped nothing happens (the model's choice, log 1). -/
def Obligations.SilenceExpirySetsTheAutopilot : Prop :=
  ∀ s : State,
    (s.link.timer = false → exec .linkSilenceExpiry s = .next s)
    ∧ (s.link.timer = true → s.sup.state = .ready ∨ s.sup.state = .verifying →
      let u := s.finishWalk
      let records := fun c : Cue => match c.action with
        | .record _ _ _ => true
        | .dub _ _ => true
        | _ => false
      let marked := fun r : Recording =>
        { r with chain := false, endPending := if r.endPending = .endRec then .endRec else .autopilot }
      let link := { u.link with timer := false, autopilot := true }
      exec .linkSilenceExpiry s = .next
        (if u.clock.transport = .stopped then
           State.report { u with link := link } .linkSilent [0, 0, 0, byte u.link.timeout]
         else
           State.report
             { u with
               link := link
               cues := { u.cues with list := u.cues.list.filter fun c => !records c }
               head0 := u.head0.map marked
               head1 := u.head1.map marked }
             .linkSilent
             [byte (u.cues.list.filter records).length, byte u.headsBusy, u.clock.transport.code,
               byte u.link.timeout]))

/-! ### Frames and boundaries -/

/-- Levels and sums (R139): a level v passes s × v / 128 truncated toward zero and saturated, so that 128 leaves a sample as
it is and 0 gives zero; a saturating sum is exact over its terms and limited once. -/
def Obligations.LevelsAndSumsSaturate : Prop :=
  (∀ (v : Byte) (x : Int),
    let y := (x * v.toNat).tdiv 128
    applyLevel v x = if y < -32768 then -32768 else if 32767 < y then 32767 else y)
  ∧ (∀ l : List Int, satSum l = if l.sum < -32768 then -32768 else if 32767 < l.sum then 32767 else l.sum)
  ∧ (∀ x : Sample, applyLevel 128 x.toInt = x.toInt ∧ applyLevel 0 x.toInt = 0 ∧ toSample x.toInt = x)

/-- AUDIO_FRAME with both heads idle and no bounce queued (R11, R21, R30, R32, R104, R140, R141, R142, R157): in READY the
divider and the frame count go on, the loop position while the song moves; the four outputs are the mix of the voiced layers,
the inputs, the click and the prompt, but for the layers that were given their voice in this frame (log 53), and with the gain
and pan, the level, the monitor levels or the prompt sample that a request of this frame has changed as they stood before it (log
44); the one-shot counts and the waveforms go on; nothing else changes, but that from the next frame on the new voices sound and
those values act, that a request waiting now is to be taken in the next frame (R185) and that frees of the frame that stand behind its claims are taken (R97,
R100; log 5). A divider loaded in the frame is not counted down (log 4). In VERIFYING
the visit counts the frame. Elsewhere, and while a step of the frame is outstanding (the model's choice, log 3), such as a
request that waited when the frame began (log 32), nothing happens. WritingHeadStoresItsSample has the busy heads,
BounceStartsItsHead the running bounce. -/
def Obligations.FrameCountsTheClockAndFormsTheMix : Prop :=
  ∀ (s : State) (in0 in1 in2 in3 : Sample),
    let ins : InputId → Int := ![in0.toInt, in1.toInt, in2.toInt, in3.toInt]
    (s.sup.state ≠ .ready → s.sup.state ≠ .verifying → exec (.audioFrame in0 in1 in2 in3) s = .next s)
    ∧ (s.sup.state = .verifying → s.sup.restart = none →
      s.link.requestDue = false ∨ s.link.requestTaken = true ∨ s.link.requests = [] →
      (∀ v, s.pool.scan = some v → v.frames < 32 →
        exec (.audioFrame in0 in1 in2 in3) s = .next
          { s with
            pool := { s.pool with scan := some { v with frames := v.frames + 1 } }
            link := { s.link with requestTaken := false, requestDue := decide (s.link.requests ≠ []) } }))
    ∧ (s.sup.state = .ready → s.frameOwes = true → exec (.audioFrame in0 in1 in2 in3) s = .next s)
    ∧ (s.sup.state = .ready → s.frameOwes = false → s.head0 = none → s.head1 = none → s.bounce.queue = [] →
      let moving := s.clock.transport = .running ∧ s.clock.startMark = .none
      let length := if s.clock.loop.isSome then (s.clock.loop.getD 0) * (s.clock.b * 48 * s.clock.p)
        else s.clock.b * 48 * s.clock.p
      let sounds := fun t : TrackId => (s.mix.voices.toList.filterMap id).filter fun x =>
        decide ((s.layer x).map (·.track) = some t ∧ x ∉ s.mix.fresh)
      let layerSample := fun x : LayerId => match s.layer x with
        | none => 0
        | some l =>
          let p := s.trackPos l.track
          applyLevel (match s.mix.heard with
              | .layer y before => if x = y then before else l.level
              | _ => l.level)
            (match s.mapEntry x (p / 4096) with
             | none => 0
             | some b => (s.mem.sample b (p % 4096)).toInt)
      let gainPan := fun t : TrackId => match s.mix.heard with
        | .track u gain pan => if t = u then (gain, pan) else ((s.track t).gain, (s.track t).pan)
        | _ => ((s.track t).gain, (s.track t).pan)
      let trackSum := fun t : TrackId => applyLevel (gainPan t).1 (satSum ((sounds t).map layerSample))
      let left := if s.sup.latch then 0
        else satSum ((List.finRange 8).map fun t => (trackSum t * (127 - ((gainPan t).2.toNat : Int))).tdiv 127)
      let right := if s.sup.latch then 0
        else satSum ((List.finRange 8).map fun t => (trackSum t * ((gainPan t).2.toNat : Int)).tdiv 127)
      let levels := match s.mix.heard with
        | .monitor inputs main click prompt => (inputs, main, click, prompt)
        | _ => (s.mix.inputLevels, s.mix.mainLevel, s.mix.clickLevel, s.mix.promptLevel)
      let prompt := match s.mix.heard with
        | .prompt sample => sample
        | _ => s.tones.promptSample
      let terms := ((List.finRange 4).map fun i => applyLevel (levels.1.get i) (ins i))
        ++ [applyLevel levels.2.2.1 s.tones.clickSample, applyLevel levels.2.2.2 prompt]
      let advance := fun (w : Wave) (pitch : Byte) =>
        { w with count := w.count + 1, flipDue := w.flipDue || decide (pitch.toNat + 1 ≤ w.count + 1) }
      ∃ t, exec (.audioFrame in0 in1 in2 in3) s = .next t
        ∧ t.clock =
          { s.clock with
            divider := if s.clock.dividerSet then s.clock.divider else s.clock.divider - 1
            dividerSet := false
            loopSet := false
            frameCount := s.clock.frameCount + 1
            loopPos := if moving then (if s.clock.loopPos + 1 = length then 0 else s.clock.loopPos + 1)
              else s.clock.loopPos }
        ∧ t.outputs =
          { mainL := toSample left, mainR := toSample right
            monL := toSample (satSum (applyLevel levels.2.1 left :: terms))
            monR := toSample (satSum (applyLevel levels.2.1 right :: terms)) }
        ∧ (∀ k, t.track k =
          if (s.track k).oneShot = true ∧ s.trackAudible k = true ∧ 0 < (s.track k).remaining then
            { s.track k with
              remaining := (s.track k).remaining - 1, selfMuteDue := decide ((s.track k).remaining = 1)
              passSet := false }
          else { s.track k with passSet := false })
        ∧ t.tones =
          { s.tones with
            click := if s.tones.clickEnds then none
              else s.tones.click.map fun c => { c with wave := advance c.wave c.pitch }
            slot := s.tones.slot.map fun sl =>
              if sl.entry.rest = false ∧ sl.lastSilent = false then
                { sl with wave := advance sl.wave sl.entry.pitch } else sl
            clickEnds := false }
        ∧ t.bnd = {}
        ∧ t.link = { s.link with requestTaken := false, requestDue := decide (s.link.requests ≠ []) } ∧ t.mem = s.mem
        ∧ t.pool = freesTaken s.pool none
        ∧ t.layers = s.layers ∧ t.mix = { s.mix with fresh := [], heard := .same } ∧ t.cues = s.cues
        ∧ t.scenes = s.scenes ∧ t.sup = s.sup ∧ t.head0 = none ∧ t.head1 = none ∧ t.bounce.queue = [])

/-- The heads in AUDIO_FRAME while the song moves (R75, R76, R77, R78, R82, R94, R95, R98, R99). A head enters an index that is
not the one it is in: it closes the block it leaves, and reopens the block the map names there, or claims the head of the free
list, whose frames before its own become zero, or, with no block free, goes STALLED and leaves its layer gapped, or, DEFINING,
is cut; the blocks freed behind the claims of the frame are not free to it (R97; log 5). A WRITING head then stores the saturating sum of its mask's inputs at its place, with the clip count, and every other
byte stays; a STALLED head stores nothing; both advance by one frame. H0 claims before H1.

A TICK_BOUNDARY in a READY frame that is no boundary may put the claims of the frame, the heads' and the running bounce's,
ahead of what is freed from then on (R97; the operand is the model's choice, log 5): such blocks join the tail, arm no report
until the claims are made, and are counted apart. -/
def Obligations.WritingHeadStoresItsSample : Prop :=
  (∀ (s : State) (h : HeadId) (r : Recording) (l : Layer), s.head h = some r → s.layer r.layer = some l → s.poolLegal →
     let place := if r.mode = .defining then r.writeOffset else s.trackPos r.track
     let i := place / 4096
     let f := place % 4096
     let t := s.enterHead h
     let closes := (∀ a, t.mem.read a = closedRead s r l.map a) ∧ OpenBlockChecked s t r l.map
     let stays := (∀ x, x ≠ r.layer → t.layer x = s.layer x) ∧ (∀ j, j ≠ h → t.head j = s.head j) ∧ t.cues = s.cues
       ∧ t.mix = s.mix ∧ t.bounce = s.bounce ∧ t.sup = s.sup ∧ t.scenes = s.scenes ∧ t.tones = s.tones
     let entered := fun reopened : Bool =>
       some { r with stalled := false, index := some i, written := f, reopened := reopened }
     (r.index = some i → t = s)
     ∧ (r.index ≠ some i →
       (∀ b, l.map[i]? = some (some b) →
         closes ∧ stays ∧ t.layers = s.layers ∧ t.head h = entered true ∧ t.pool.free = s.pool.free
           ∧ t.clock = s.clock ∧ t.tracks = s.tracks ∧ t.link = s.link
           ∧ ∀ o, s.pool.entry b = some o → t.pool.entry b = some { o with check := .none })
       ∧ (l.map[i]? = some none ∨ l.map.length = i →
         (∀ b rest, s.pool.free = b :: rest → s.pool.behind.getD 0 ≤ rest.length →
           let count := rest.length - s.pool.behind.getD 0
           stays ∧ t.head h = entered false
             ∧ t.layer r.layer
               = some { l with map := if l.map.length = i then l.map ++ [some b] else l.map.set i (some b) }
             ∧ t.pool.free = rest ∧ t.pool.entry b = some { owner := r.layer, index := i, check := .none }
             ∧ (∀ a, t.mem.read a
               = if b.val * 8192 ≤ a ∧ a < b.val * 8192 + 2 * f then 0 else closedRead s r l.map a)
             ∧ OpenBlockChecked s t r l.map ∧ t.pool.lowArmed = (s.pool.lowArmed && decide (128 ≤ count))
             ∧ t.link = (if count < 128 ∧ s.pool.lowArmed = true then
                 (s.report .poolLow (le2 count ++ [headCode h, byte r.layer.val])).link else s.link)
             ∧ t.clock = s.clock ∧ t.tracks = s.tracks)
         ∧ (s.pool.free.length ≤ s.pool.behind.getD 0 → r.mode ≠ .defining →
           closes ∧ stays ∧ t.head h = some { r with stalled := true, index := some i, reopened := false }
             ∧ t.layer r.layer = some { l with gapped := true } ∧ t.pool.free = s.pool.free ∧ t.pool.emptyArmed = false
             ∧ t.link = (if s.pool.emptyArmed then
                 (s.report .poolEmpty ([headCode h, byte r.track.val, byte r.layer.val] ++ le2 i ++ [0])).link
               else s.link)
             ∧ t.clock = s.clock ∧ t.tracks = s.tracks)
         ∧ (s.pool.free.length ≤ s.pool.behind.getD 0 → r.mode = .defining →
           let barFrames := s.clock.b * 48 * s.clock.p
           let k := r.writeOffset / barFrames
           let n := (k * barFrames + 4095) / 4096
           (∀ a, t.mem.read a = closedRead s r l.map a) ∧ t.head h = none
             ∧ (k = 0 → t.layer r.layer = none ∧ (∀ x, x ≠ r.layer → t.layer x = s.layer x)
               ∧ t.pool.free = s.pool.free ++ namedBlocks l.map)
             ∧ (k ≠ 0 → ∃ w : State, t = w.autoFold r.track
               ∧ w.layer r.layer
                 = some { l with state := .sealed, sealStamp := some s.clock.songBar, map := l.map.take n }
               ∧ (∀ x, x ≠ r.layer → w.layer x = s.layer x) ∧ w.pool.free = s.pool.free ++ namedBlocks (l.map.drop n)
               ∧ w.clock = { s.clock with loop := some k, bar := 0, loopPos := s.clock.loopPos % barFrames }
               ∧ ∀ j, (w.track j).pass = 0)))))
  ∧ (∀ (s : State) (in0 in1 in2 in3 : Sample), s.sup.state = .ready → s.frameOwes = false →
     s.clock.transport = .running → s.clock.startMark = .none → s.bounce.queue = [] → s.memoryLegal →
     let ins : InputId → Int := ![in0.toInt, in1.toInt, in2.toInt, in3.toInt]
     let placeOf := fun r : Recording => if r.mode = .defining then r.writeOffset else s.trackPos r.track
     let sumOf := fun r : Recording => satSum ((List.finRange 4).map fun k => if r.mask.getLsbD k.val then ins k else 0)
     (∀ h r, s.head h = some r → (∀ j, j ≠ h → s.head j = none) →
       let i := placeOf r / 4096
       let f := placeOf r % 4096
       let sum := sumOf r
       let u := s.enterHead h
       ∃ t, exec (.audioFrame in0 in1 in2 in3) s = .next t ∧ t.pool = freesTaken u.pool none ∧ t.cues = s.cues ∧ t.sup = s.sup
         ∧ t.scenes = s.scenes ∧ (∀ j, j ≠ h → t.head j = none)
         ∧ (u.head h = none → t.head h = none ∧ t.mem = u.mem ∧ t.layers = u.layers)
         ∧ ∀ v, u.head h = some v →
           t.head h = some { v with writeOffset := v.writeOffset + 1, written := f + 1 }
           ∧ (v.stalled = true → t.mem = u.mem ∧ t.layers = u.layers)
           ∧ ∀ l b, v.stalled = false → u.layer r.layer = some l → l.map[i]? = some (some b) →
             t.mem.sample b f = toSample sum
             ∧ (∀ a, a ≠ sampleAddr b f → a ≠ sampleAddr b f + 1 → t.mem.read a = u.mem.read a)
             ∧ t.layer r.layer = some { l with
                 clip := if (sum = -32768 ∨ sum = 32767) ∧ l.clip < 65535 then l.clip + 1 else l.clip }
             ∧ ∀ x, x ≠ r.layer → t.layer x = u.layer x)
     ∧ (∀ r0 r1 l0 l1, s.head0 = some r0 → s.head1 = some r1 → r0.layer ≠ r1.layer → s.layer r0.layer = some l0 →
       s.layer r1.layer = some l1 → r0.index = none → r1.index = none → s.poolLegal →
       let i0 := placeOf r0 / 4096
       let i1 := placeOf r1 / 4096
       (l0.map[i0]? = some none ∨ l0.map.length = i0) → (l1.map[i1]? = some none ∨ l1.map.length = i1) →
       (∀ b0 b1 rest, s.pool.free = b0 :: b1 :: rest → s.pool.behind.getD 0 ≤ rest.length →
         ∃ t, exec (.audioFrame in0 in1 in2 in3) s = .next t ∧ t.pool.free = rest
           ∧ t.mapEntry r0.layer i0 = some b0 ∧ t.mapEntry r1.layer i1 = some b1
           ∧ t.mem.sample b0 (placeOf r0 % 4096) = toSample (sumOf r0)
           ∧ t.mem.sample b1 (placeOf r1 % 4096) = toSample (sumOf r1))
       ∧ (∀ b0 rest, s.pool.free = b0 :: rest → s.pool.behind.getD 0 = rest.length → r1.mode ≠ .defining →
         ∃ t, exec (.audioFrame in0 in1 in2 in3) s = .next t ∧ t.pool.free = rest
           ∧ t.mapEntry r0.layer i0 = some b0 ∧ t.mem.sample b0 (placeOf r0 % 4096) = toSample (sumOf r0)
           ∧ (t.layer r1.layer).map (·.gapped) = some true ∧ (t.head1).map (·.stalled) = some true)))
  ∧ (∀ w : State, w.sup.state = .ready → w.tickDue = false →
     let s := w.settleWalk
     exec (.tickBoundary { recorder := false, grant := false, click := false, claims := true }) w
       = .next { s with pool := { s.pool with behind := some (s.pool.behind.getD 0) } })
  ∧ ∀ (p : Pool) (bs : List BlockId), (p.release bs).free = p.free ++ bs
      ∧ (p.release bs).behind = p.behind.map (· + bs.length)
      ∧ (p.release bs).lowArmed = (p.lowArmed || decide (bs ≠ [] ∧ p.behind = none ∧ 192 ≤ p.free.length + bs.length))
      ∧ (p.release bs).emptyArmed = (p.emptyArmed || decide (bs ≠ [] ∧ p.behind = none ∧ 192 ≤ p.free.length + bs.length))

/-- TICK_BOUNDARY where one is due (R10, R30, R31, R33, R45, R56, R57, R58, R136, R147, R158), with the recorder's own ends left
for later or no head busy, and the claims not named, behind the bounce engine's claim of the frame before (log 9). While STOPPED the divider reloads and only the tones count. In COUNT_IN tick, beat and
count-in remaining count. While RUNNING tick, beat, bar, song bar and the loop position count, each only where the one before
wrapped; the pass indices advance at a LOOP boundary, but where a seal of this instant set L (R34; log 42); at a BAR boundary
the grant pass is made and BAR is sent, unless the scene sequencer's step comes first; then the walk waits for it. The
countdown counts the scene that stands, a NOW cue's of this frame too (the model's choice, log 54). Else, with a
cue due the walk stands at the list's start and nothing is counted down yet; with none due every cue met counts down and the
walk is over (log 7). A BEAT boundary asks for its click. The grant pass and the click test
are made with the boundary or, where the operand leaves them out, by a later TICK_BOUNDARY of the frame (the model's choice,
log 5), the click with the settings of its boundary. -/
def Obligations.BoundariesCountTheSong : Prop :=
  (∀ (w : State) (now : Receivers),
     let s := w.beginHead
     s.sup.state = .ready → s.clock.divider = 0 → s.clock.dividerSet = false →
     s.clock.startMark = .none → (now.recorder = true → s.head0 = none ∧ s.head1 = none) → now.claims = false →
     let c := s.clock
     let beat := decide (47 ≤ c.tick)
     let bar := beat && decide (c.b ≤ c.beat + 1)
     let loop := bar && (match c.loop with
       | none => true
       | some l => decide (l ≤ c.bar + 1) || c.loopSet)
     let beatNow := if bar then 0 else if beat then c.beat + 1 else c.beat
     let tested := fun mark : Transport =>
       if beat = true ∧ now.click = true then clickTested s mark (clickAsked s beatNow) (tonesTicked s.tones)
       else tonesTicked s.tones
     let asked := if beat = true ∧ now.click = false then some (clickAsked s beatNow) else none
     let load := s.tones.loadPending && s.tones.slot.isNone
     (c.transport = .stopped →
       exec (.tickBoundary now) w = .next
         { s with
           clock := { c with divider := c.p - 1, dividerSet := true, loopSet := false }
           tones := tonesTicked s.tones
           bnd :=
             { taken := some { beat := false, bar := false, loop := false }, mark := .stopped, toneLoad := load } })
     ∧ (c.transport = .countIn → ¬(bar = true ∧ c.countIn ≤ 1) →
       exec (.tickBoundary now) w = .next
         { s with
           clock :=
             { c with
               divider := c.p - 1, dividerSet := true, loopSet := false, tick := if beat then 0 else c.tick + 1
               beat := beatNow, countIn := if bar then c.countIn - 1 else c.countIn }
           tones := tested .countIn
           bnd :=
             { taken := some { beat := beat, bar := bar, loop := false }, mark := .countIn, click := asked
               tempo := bar && c.pendingTempo.isSome, toneLoad := load } })
     ∧ (c.transport = .running →
       ∃ t, exec (.tickBoundary now) w = .next t
         ∧ t.clock =
           { c with
             divider := c.p - 1, dividerSet := true, loopSet := false, tick := if beat then 0 else c.tick + 1
             beat := beatNow
             songBar := if bar then c.songBar + 1 else c.songBar
             bar := if loop then 0 else if bar then c.bar + 1 else c.bar
             loopPos := if loop then 0 else c.loopPos }
         ∧ t.bnd =
           { taken := some { beat := beat, bar := bar, loop := loop }, mark := .running, walk := t.bnd.walk
             grant := if bar = true ∧ now.grant = false then .normal else .none
             click := asked
             tempo := bar && c.pendingTempo.isSome
             sceneStep := if bar = true ∧ s.scenes.current ≠ none ∧ s.scenes.bars = .count 1 then some .countdownEnd
               else if loop = true ∧ s.scenes.due ≠ none then some .dueApply else none
             toneLoad := load }
         ∧ t.head0 = s.head0.map (fun r => if bar then { r with atBar := true } else r)
         ∧ t.head1 = s.head1.map (fun r => if bar then { r with atBar := true } else r)
         ∧ (∀ k, (t.track k).span = (s.track k).span ∧ (t.track k).stack = (s.track k).stack
           ∧ (t.track k).mute = (s.track k).mute ∧ (t.track k).redo = (s.track k).redo
           ∧ (t.track k).pass = (match (s.track k).span with
             | none => (s.track k).pass
             | some sp =>
               if loop = true ∧ c.loopSet = false ∧ (s.track k).passSet = false then ((s.track k).pass + 1) % sp.loops
               else (s.track k).pass))
         ∧ t.scenes = { s.scenes with
             bars := match s.scenes.bars with
               | .count (n + 1) => if bar = true ∧ s.scenes.current.isSome then .count n else .count (n + 1)
               | b => b }
         ∧ t.tones = tested .running
         ∧ (if bar = true ∧ now.grant = true then VoicesGranted s t else t.mix = s.mix)
         ∧ (bar = false ∨ now.grant = false ∨ s.mix.wait = [] →
           t.link = if bar = true ∧ t.bnd.sceneStep = none then
               (s.reportWith (le2 t.clock.songBar.toNat ++ [0]) .bar
                 [byte t.clock.bar, (s.scenes.current.map fun n => byte n.val).getD 0xFF]).link
             else s.link)
         ∧ t.layers = s.layers ∧ t.mem = s.mem ∧ t.pool = s.pool ∧ t.bounce = s.bounce ∧ t.sup = s.sup
         ∧ t.cues.nextId = s.cues.nextId
         ∧ (t.bnd.sceneStep ≠ none → t.bnd.walk = some 0 ∧ t.cues = s.cues)
         ∧ (t.bnd.sceneStep = none → WalkStands
           (cueMet { beat := beat, bar := bar, loop := loop } (fun k => (t.track k).span) fun k => (t.track k).pass)
           s.cues.list t.cues.list 0 t.bnd.walk)))
  ∧ (∀ w : State, w.sup.state = .ready → w.tickDue = false →
     let s := w.settleWalk
     (∀ c, s.bnd.click = some c →
       exec (.tickBoundary { recorder := false, grant := false, click := true, claims := false }) w
         = .next { s with bnd := { s.bnd with click := none }, tones := clickTested s s.bnd.mark c s.tones })
     ∧ (s.bnd.grant = .normal →
       ∃ t, exec (.tickBoundary { recorder := false, grant := true, click := false, claims := false }) w = .next t
         ∧ VoicesGranted s t ∧ t.bnd = { s.bnd with grant := .none } ∧ t.clock = s.clock ∧ t.layers = s.layers
         ∧ t.cues = s.cues ∧ t.mem = s.mem ∧ t.pool = s.pool ∧ t.sup = s.sup))

/-- COUNT_IN_BEGIN, COUNT_IN_END and START_INSTANT where they are due (R10, R20, R33, R40, R41, R137, R158), with the recorder's
own ends left for later or no head busy, and the claims not named, behind the bounce engine's claim of the frame before (log 9): the first frame of a count-in is a TICK, BEAT and BAR boundary of the
click and the bar clock alone. The start instant is a boundary of every kind, the recorder's included (RUNNING since the
Start, log 8): every pass index is 0, every layer that is audible waits for a voice or holds one, a layer that is granted one sounds from
the first frame after this instant (log 53), the audible one-shot tracks are armed, and with a cue due the walk stands at the list's start, nothing counted down yet, while with none due every cue
counts down and the walk is over (log 7). Both ask for a click, tested with the boundary unless
the operand leaves it for later (the model's choice, log 5). -/
def Obligations.CountInAndStartInstant : Prop :=
  ∀ (w : State) (now : Receivers),
    let s := w.beginHead
    s.sup.state = .ready → s.clock.divider = 0 → s.clock.dividerSet = false →
    (now.recorder = true → s.head0 = none ∧ s.head1 = none) → now.claims = false →
    let tested := fun (mark : Transport) (beat : Nat) =>
      if now.click then clickTested s mark (clickAsked s beat) (tonesTicked s.tones) else tonesTicked s.tones
    let asked := fun beat : Nat => if now.click then none else some (clickAsked s beat)
    let load := s.tones.loadPending && s.tones.slot.isNone
    let started := fun (t : State) =>
      t.bnd.taken = some { beat := true, bar := true, loop := true } ∧ t.bnd.mark = .running
        ∧ t.bnd.tempo = s.clock.pendingTempo.isSome ∧ t.bnd.sceneStep = none ∧ t.bnd.toneLoad = load
        ∧ t.bnd.click = asked t.clock.beat ∧ t.tones = tested .running t.clock.beat
        ∧ t.bnd.grant = (if now.grant then .none else .start)
        ∧ WalkStands (fun q => decide (q.grid ≠ .now)) s.cues.list t.cues.list 0 t.bnd.walk
        ∧ (∀ k, (t.track k).pass = 0 ∧ (t.track k).stack = (s.track k).stack ∧ (t.track k).mute = (s.track k).mute
          ∧ (∀ x ∈ (s.track k).stack, t.audible k x = true → t.mix.waits x = true ∨ (t.mix.voiceOf x).isSome = true)
          ∧ ((s.track k).oneShot = true → t.trackAudible k = true → (t.track k).remaining = s.trackFrames k))
        ∧ (∀ x v, t.mix.voices.get v = some x → s.mix.voices.get v = some x ∨ x ∈ t.mix.fresh)
        ∧ t.head0 = s.head0.map (fun r => { r with atBar := true })
        ∧ t.head1 = s.head1.map (fun r => { r with atBar := true })
        ∧ t.layers = s.layers ∧ t.mem = s.mem ∧ t.pool = s.pool ∧ t.scenes = s.scenes ∧ t.bounce = s.bounce
        ∧ t.sup = s.sup
    let reloaded := { s.clock with startMark := .none, divider := s.clock.p - 1, dividerSet := true, loopSet := false }
    (s.clock.startMark = .countIn →
      exec (.countInBegin now) w = .next
        { s with
          clock := reloaded
          tones := tested .countIn s.clock.beat
          bnd :=
            { taken := some { beat := true, bar := true, loop := false }, mark := .countIn, click := asked s.clock.beat
              tempo := s.clock.pendingTempo.isSome, toneLoad := load } })
    ∧ (s.clock.startMark = .start →
      ∃ t, exec (.startInstant now) w = .next t ∧ t.clock = reloaded ∧ started t)
    ∧ (s.clock.startMark = .none → s.clock.transport = .countIn → s.clock.tick = 47 → s.clock.beat + 1 = s.clock.b →
      s.clock.countIn ≤ 1 →
      ∃ t, exec (.countInEnd now) w = .next t
        ∧ t.clock = { reloaded with transport := .running, countIn := 0, tick := 0, beat := 0 } ∧ started t)

/-- CUE_EXECUTE (R56, R57, R58, R59, R60): from the place where the walk stands, the first cue met (a TRACK cue by the pass index
that R10 gives, for a COPY's destination the model's choice, log 27) that has no delay left leaves
the list, the cues met ahead of it counting down; its owner carries its action out, and CUE_DONE or CUE_FAILED is formed behind
the action's own reports, with the song bar and the beat of the boundary. The walk then stands behind the cues visited, or with none
due there visits the rest (log 7), or it ends where the transport no longer runs. With no such cue left, which something taken ahead of the walk may bring about, the
cues to come are visited and the walk is over. While the scene step is still to come, or with no walk in progress, nothing
happens (the model's choice, log 1). -/
def Obligations.DueCueLeavesTheListAndIsExecuted : Prop :=
  ∀ s : State,
    (s.bnd.sceneStep ≠ none ∨ s.bnd.walk = none → exec .cueExecute s = .next s)
    ∧ (∀ i k, s.bnd.sceneStep = none → s.bnd.walk = some i → s.bnd.taken = some k →
      let met := cueMet k (fun n => (s.track n).span) s.leavingPass
      ((∀ q ∈ s.cues.list.drop i, met q = true → q.delay ≠ 0) →
        exec .cueExecute s = .next
          { s with
            cues := { s.cues with list := s.cues.list.take i ++ visitedCues met (s.cues.list.drop i) }
            bnd := { s.bnd with walk := none, begun := true } })
      ∧ (∀ before c after, s.cues.list.drop i = before ++ c :: after → met c = true → c.delay = 0 →
        (∀ q ∈ before, met q = true → q.delay ≠ 0) →
        let r := State.doAction
          { s with
            cues := { s.cues with list := s.cues.list.take i ++ (visitedCues met before ++ after) }
            bnd := { s.bnd with walk := none, begun := true } }
          c.action
        let u := if r.1 = .ok then r.2.reportWith s.header .cueDone [c.id, c.action.code, c.action.targetCode]
          else r.2.reportWith s.header .cueFailed [c.id, c.action.code, c.action.targetCode, r.1.byte]
        (u.clock.transport ≠ .running → exec .cueExecute s = .next u)
        ∧ (∀ m, u.clock.transport = .running → u.bnd.taken = some m → ∃ l w,
          exec .cueExecute s = .next { u with cues := { u.cues with list := l }, bnd := { u.bnd with walk := w } }
            ∧ WalkStands (cueMet m (fun n => (u.track n).span) u.leavingPass) u.cues.list l (i + before.length) w)))
/-! ### The recorder's ends -/

/-- END_PENDING_SEAL, TRACK_LENGTH_END and the BARS and LIMIT ends of TICK_BOUNDARY, behind a begun walk (log 6), and END_REC
(R34, R77, R79, R80, R81, R84, R87, R89): the layer is SEALED with the current song bar as its stamp, its open block is closed,
the head is IDLE, and the auto-fold check follows. A FIXED or DUB head that has written no frame loses its layer. A DEFINING one
leaves a map of ceil(k × bar frames / 4096) entries and L established with its k whole bars, every pass index 0. At the track
length, behind the TICK boundary of the instant (log 28), a chain goes on in the lowest FREE record. Where no end is due nothing
happens (the model's choice, log 1). END_REC off a BAR boundary, or with no whole bar, leaves a DEFINING recording its end
pending; in the frame of a BAR boundary that is not taken yet it seals on the counters that boundary reaches (log 42), and so it seals
a FIXED or DUB recording there. -/
def Obligations.RecordingsEndByThemselves : Prop :=
  (∀ (w : State) (h : HeadId) (r : Recording) (l : Layer),
     let s := w.settleWalk
     s.sup.state = .ready → s.head h = some r → s.layer r.layer = some l → s.poolLegal →
     let other : HeadId := if h = .h0 then .h1 else .h0
     let barFrames := s.clock.b * 48 * s.clock.p
     let k := r.writeOffset / barFrames
     let n := (k * barFrames + 4095) / 4096
     let length := (((s.track r.track).span.map Span.loops).getD 0) * ((s.clock.loop.getD 0) * barFrames)
     let ends := fun (u : State) (map : List (Option BlockId)) => SealLeaves s u h r l map s.clock.songBar
       ∧ u.pool.free = s.pool.free ++ namedBlocks (l.map.drop map.length)
       ∧ u.head other = s.head other ∧ u.cues = s.cues ∧ u.scenes = s.scenes ∧ u.sup = s.sup
     let definingEnd := fun u : State => ends u (l.map.take n)
       ∧ u.clock = { s.clock with loop := some k, bar := 0, loopPos := 0 } ∧ ∀ j, (u.track j).pass = 0
     let byItself := k = 64 ∨ 4194304 < (k + 1) * barFrames ∨ r.endCond = .bars k
     (r.atBar = false → exec (.endPendingSeal h) w = .next s)
     ∧ (r.atBar = true → r.endPending ≠ .none → r.mode ≠ .defining → r.writeOffset ≠ length →
       (r.writeOffset ≠ 0 → ∃ u : State, exec (.endPendingSeal h) w = .next (u.autoFold r.track) ∧ ends u l.map
         ∧ u.clock = s.clock)
       ∧ (r.writeOffset = 0 → ∃ t, exec (.endPendingSeal h) w = .next t ∧ DiscardLeaves s t h r l
         ∧ t.head other = s.head other ∧ t.cues = s.cues))
     ∧ (r.atBar = true → r.endPending ≠ .none → r.mode = .defining → k ≠ 0 → ¬byItself →
       ∃ u : State, exec (.endPendingSeal h) w = .next (u.autoFold r.track) ∧ definingEnd u)
     ∧ (r.atBar = true → s.head other = none → r.mode = .defining → k ≠ 0 → byItself → w.tickDue = false →
       ∃ u : State, exec (.tickBoundary { recorder := true, grant := false, click := false, claims := false }) w
           = .next (u.autoFold r.track) ∧ definingEnd u)
     ∧ (r.mode = .defining ∨ r.writeOffset ≠ length → exec (.trackLengthEnd h) w = .next s)
     ∧ (r.mode ≠ .defining → r.writeOffset = length → s.tickDue = false →
       let fits := r.chain = true ∧ (s.track r.track).stack.length + (s.track r.track).reservations < 6
         ∧ (s.sup.low && s.sup.guard) = false
       (¬fits ∨ (∀ x, s.layer x ≠ none) → ∃ u : State, exec (.trackLengthEnd h) w = .next (u.autoFold r.track) ∧ ends u l.map ∧ u.clock = s.clock)
       ∧ (∀ x, fits → TakesRecord s x →
         ∃ u t : State, exec (.trackLengthEnd h) w = .next t ∧ ends u l.map ∧ u.clock = s.clock
           ∧ t.head h = some
             { stalled := false, track := r.track, layer := x, mode := .dub, mask := r.mask, endCond := .length
               chain := true, endPending := .none, writeOffset := 0, startPos := r.startPos, index := none, written := 0
               reopened := false, atBar := false }
           ∧ t.layer x = some
             { state := .filling, track := r.track, origin := .dub, map := List.replicate ((length + 4095) / 4096) none
               level := 128, startStamp := s.clock.songBar, sealStamp := none, mask := some r.mask, parents := [], clip := 0
               gapped := false, damaged := false, pin := none }
           ∧ (∀ y, y ≠ x → t.layer y = (u.autoFold r.track).layer y) ∧ t.bounce = (u.autoFold r.track).bounce
           ∧ (t.track r.track).stack = (s.track r.track).stack ++ [x] ∧ t.head other = s.head other ∧ t.mem = u.mem
           ∧ t.clock = s.clock ∧ t.cues = s.cues ∧ t.scenes = s.scenes ∧ t.sup = s.sup)))
  ∧ (∀ (s : State) (k : TrackId) (h : HeadId) (r : Recording) (l : Layer), s.headOn k = some h → s.head h = some r →
     s.layer r.layer = some l → s.poolLegal →
     let barFrames := s.clock.b * 48 * s.clock.p
     let bars := r.writeOffset / barFrames
     let map := l.map.take ((bars * barFrames + 4095) / 4096)
     let atBar := s.bnd.mark = .running ∧ (s.bnd.taken.map (·.bar)) = some true
     (r.mode ≠ .defining →
       (r.writeOffset = 0 → ∃ t, s.doAction (.endRec k) = (.ok, t) ∧ DiscardLeaves s t h r l)
       ∧ (r.writeOffset ≠ 0 → s.barAhead = false → ∃ u : State, s.doAction (.endRec k) = (.ok, u.autoFold k)
         ∧ SealLeaves s u h r l l.map s.clock.songBar ∧ u.clock = s.clock ∧ u.pool.free = s.pool.free)
       ∧ (r.writeOffset ≠ 0 → s.barAhead = true → ∃ u t : State, s.doAction (.endRec k) = (.ok, t)
         ∧ SealLeaves s u h r l l.map (s.clock.songBar + 1) ∧ SameTables t (u.autoFold k)
         ∧ u.pool.free = s.pool.free ∧ t.clock = s.clock ∧ t.head h = none ∧ t.cues = s.cues ∧ t.sup = s.sup))
     ∧ (r.mode = .defining →
       (bars ≠ 0 → atBar → ∃ u : State, s.doAction (.endRec k) = (.ok, u.autoFold k)
         ∧ SealLeaves s u h r l map s.clock.songBar
         ∧ u.clock = { s.clock with loop := some bars, bar := 0, loopPos := s.clock.loopPos % barFrames }
         ∧ ∀ j, (u.track j).pass = 0)
       ∧ (bars ≠ 0 → ¬atBar → s.barAhead = true → ∃ u t : State, s.doAction (.endRec k) = (.ok, t)
         ∧ SealLeaves s u h r l map (s.clock.songBar + 1) ∧ SameTables t (u.autoFold k)
         ∧ t.clock = { s.clock with loop := some bars, bar := 0, loopPos := 0, loopSet := true }
         ∧ t.head h = none ∧ ∀ j, (t.track j).pass = 0)
       ∧ (bars = 0 ∨ (¬atBar ∧ s.barAhead = false) →
         s.doAction (.endRec k) = (.ok, s.setHead h (some { r with endPending := .endRec })))))

/-! ### Resets and the verify scan -/

/-- COLD_RESET_END (R1, R28, R29, R47, R66, R90, R107, R108, R129, R144, R156, R170, R172, R174, R178, R187, R193): with a POWER cause in force, or
REQUEST_COLD and no warm cause, every block takes its cold values, the supervisor is READY, the held causes stay, the edge
memory is set if the line is at the active level LOW, and HELLO is the one frame queued. After a POWER reset the debounced
line is at the pin's level. With no reset in force nothing happens (the model's choice, log 1).
State.reset, which stands for the end of a power-up (log 19), has the values of the rules' cold columns; the sample memory is
empty there, which is the model's choice (log 20). -/
def Obligations.ColdResetEndsAtTheColdValues : Prop :=
  ∀ (s : State) (pinHigh : Bool),
    (s.sup.state ≠ .reset → exec (.coldResetEnd pinHigh) s = .next s)
    ∧ (s.sup.state = .reset →
      (s.sup.inForce.power = true ∨ (s.sup.inForce.requestCold = true ∧ s.sup.inForce.brown = false
        ∧ s.sup.inForce.pin = false ∧ s.sup.inForce.requestWarm = false)) →
      let line := if s.sup.inForce.power then pinHigh else s.sup.lineHigh
      exec (.coldResetEnd pinHigh) s = .next
        { State.reset with
          sup := { State.reset.sup with causes := s.sup.causes, lineHigh := line, edgeMemory := !line }
          link := { State.reset.link with
            tx :=
              [{ kind := 0x40, tag := 0
                 payload :=
                  [0, 0, 0, 0x48, 0x0B, Config.revision, s.sup.causes.byte, 2, 0, 0, 0xF4, 0x01, 4, 0, 0, 0,
                    flagByte (!line)] }] }
          freeCount := s.freeCount
          pending := s.pending })
    ∧ (let z := State.reset
      (∀ k : TrackId, z.track k =
        { stack := [], reservations := 0, redo := [], span := none, pass := 0, mute := false, oneShot := false
          remaining := 0, gain := 128, pan := 64, mask := 1 <<< (k.val % 4), selfMuteDue := false, passSet := false })
      ∧ (∀ x, z.layer x = none) ∧ z.head0 = none ∧ z.head1 = none
      ∧ z.clock.p = 500 ∧ z.clock.b = 4 ∧ z.clock.loop = none ∧ z.clock.transport = .stopped ∧ z.clock.divider = 499
      ∧ z.clock.tick = 0 ∧ z.clock.beat = 0 ∧ z.clock.bar = 0 ∧ z.clock.songBar = 0 ∧ z.clock.loopPos = 0
      ∧ z.clock.countIn = 0 ∧ z.clock.pendingTempo = none ∧ z.clock.taps = [] ∧ z.clock.frameCount = 0
      ∧ z.cues.list = [] ∧ z.cues.nextId = 0
      ∧ z.pool.free = (List.range 4096).map (Fin.ofNat 4096) ∧ z.pool.owned = [] ∧ z.pool.lowArmed = true
      ∧ z.pool.emptyArmed = true ∧ z.pool.scan = none
      ∧ z.bounce.queue = [] ∧ z.bounce.nextId = 0 ∧ z.bounce.threshold = 0
      ∧ (∀ v, z.mix.voices.get v = none) ∧ z.mix.wait = [] ∧ (∀ i, z.mix.inputLevels.get i = 128)
      ∧ z.mix.mainLevel = 128 ∧ z.mix.clickLevel = 128 ∧ z.mix.promptLevel = 128
      ∧ (∀ n, (z.scenes.table.get n).valid = false ∧ (z.scenes.table.get n).length = 0
        ∧ (z.scenes.table.get n).next = none ∧ (z.scenes.table.get n).tie = false
        ∧ ∀ k, (z.scenes.table.get n).actions.get k = .leave)
      ∧ z.scenes.current = none ∧ z.scenes.bars = .count 0 ∧ z.scenes.due = none ∧ z.scenes.slot = none
      ∧ z.tones.mode = .countIn ∧ z.tones.beatPitch = 47 ∧ z.tones.accentPitch = 23 ∧ z.tones.clickLen = 2
      ∧ z.tones.click = none ∧ z.tones.queue = [] ∧ z.tones.slot = none ∧ z.tones.loadPending = false
      ∧ z.tones.sounded = 0
      ∧ z.sup.state = .ready ∧ z.sup.warnCode = 1 ∧ z.sup.delayCode = 1 ∧ z.sup.guard = true ∧ z.sup.low = false
      ∧ z.sup.detection = false ∧ z.sup.activeHigh = false ∧ z.sup.latch = false
      ∧ (∀ r : Report, z.reportEnabled r = (r != .bar)) ∧ z.link.timeout = 0 ∧ z.link.timer = false
      ∧ z.link.autopilot = false ∧ z.link.lost = false ∧ z.link.requests = [] ∧ z.link.assembling = false)

/-- WARM_RESET_END (R27, R47, R66, R107, R127, R156, R171, R178, R193): with warm causes alone in force the FILLING layers are
freed, every other layer is kept without its pin, the stacks lose the FILLING layers alone, the tracks' and the mix's
settings, the scene table and the memory stay; the cue list, the bounce queue, the voices and the position are gone; the free
list rises and both pool reports are armed; a track with no layer left loses its span; HELLO is the first frame queued; the
supervisor is READY with no layer in use, and VERIFYING with a block to visit; READY, at once or at the scan's end, counts the
blocks the FILLING layers had (R106); the halt latch is set only by a halt event from the edge memory. Outside RESET nothing
happens (the model's choice, log 1). -/
def Obligations.WarmResetKeepsTheSealedLayers : Prop :=
  ∀ s : State,
    (s.sup.state ≠ .reset → exec .warmResetEnd s = .next s)
    ∧ (s.sup.state = .reset → s.sup.inForce.power = false → s.sup.inForce.requestCold = false →
      let edge := s.sup.edgeMemory || decide (s.sup.lineHigh = s.sup.activeHigh)
      let returned := ((List.finRange 56).map fun x => match s.layer x with
        | some l => if l.state = .filling then (namedBlocks l.map).length else 0
        | none => 0).sum
      ∃ t, exec .warmResetEnd s = .next t
        ∧ t.head0 = none ∧ t.head1 = none ∧ t.cues = { list := [], nextId := 0 } ∧ t.mem = s.mem
        ∧ (∀ x l, s.layer x = some l → l.state ≠ .filling → t.layer x = some { l with pin := none })
        ∧ (∀ x l, s.layer x = some l → l.state = .filling → t.layer x = none)
        ∧ (∀ x, s.layer x = none → t.layer x = none)
        ∧ (∀ k,
          (t.track k).stack
              = (s.track k).stack.filter
                  (fun x => decide ((s.layer x).map (fun l => (l.state, l.track)) ≠ some (.filling, k)))
            ∧ (t.track k).redo
              = (s.track k).redo.filter
                  (fun x => decide ((s.layer x).map (fun l => (l.state, l.track)) ≠ some (.filling, k)))
            ∧ (t.track k).span = (if (t.track k).stack = [] ∧ (t.track k).redo = [] then none else (s.track k).span)
            ∧ (t.track k).reservations = 0 ∧ (t.track k).pass = 0 ∧ (t.track k).remaining = 0
            ∧ (t.track k).mute = (s.track k).mute ∧ (t.track k).oneShot = (s.track k).oneShot
            ∧ (t.track k).gain = (s.track k).gain ∧ (t.track k).pan = (s.track k).pan
            ∧ (t.track k).mask = (s.track k).mask)
        ∧ t.mix = { s.mix with voices := Vector.replicate 24 none, wait := [], fresh := [], heard := .same }
        ∧ t.bounce = { queue := [], nextId := 0, threshold := s.bounce.threshold, headFresh := false }
        ∧ t.scenes = { s.scenes with current := none, bars := .count 0, due := none, slot := none }
        ∧ t.tones = { s.tones with
            click := none, clickEnds := false, queue := [], slot := none, loadPending := false, sounded := 0 }
        ∧ t.clock.transport = .stopped ∧ t.clock.tick = 0 ∧ t.clock.beat = 0 ∧ t.clock.bar = 0 ∧ t.clock.songBar = 0
        ∧ t.clock.loopPos = 0 ∧ t.clock.countIn = 0 ∧ t.clock.pendingTempo = none ∧ t.clock.taps = []
        ∧ t.clock.frameCount = 0 ∧ t.clock.p = s.clock.p ∧ t.clock.b = s.clock.b
        ∧ (t.inUse ≠ [] → t.clock.loop = s.clock.loop)
        ∧ (s.inUse ≠ [] → t.inUse = [] → t.clock.loop = none)
        ∧ t.pool.free = allBlocks.filter (fun b => (t.pool.entry b).isNone) ∧ t.pool.lowArmed = true
        ∧ t.pool.emptyArmed = true
        ∧ t.link.requests = [] ∧ t.link.enables = s.link.enables ∧ t.link.timeout = s.link.timeout
        ∧ t.link.timer = decide (s.link.timeout ≠ 0) ∧ t.link.autopilot = false
        ∧ t.link.tx.head? = some
          { kind := 0x40, tag := 0
            payload := [0, 0, 0, 0x48, 0x0B, Config.revision, s.sup.causes.byte, if t.inUse = [] then 2 else 1,
              flagByte t.clock.loop.isSome, byte (t.clock.loop.getD 0)] ++ le2 t.clock.p
              ++ [byte t.clock.b, byte t.inUse.length, flagByte s.sup.low, flagByte s.sup.detection, flagByte edge] }
        ∧ (t.inUse = [] → t.sup.state = .ready ∧ (s.link.enables.getLsbD 1 = true → t.link.tx[1]? = some
          { kind := 0x41, tag := 0, payload := [0, 0, 0, 0, 0] ++ le2 returned ++ [0, 0] ++ le2 t.pool.bad }))
        ∧ (t.inUse ≠ [] → t.pool.owned = [] → t.sup.state = .ready ∧ t.pool.scan = none)
        ∧ (t.inUse ≠ [] → ∀ e rest, t.pool.owned = e :: rest → t.sup.state = .verifying
          ∧ t.pool.scan = some { next := e.1, frames := 0, checked := 0, freed := returned })
        ∧ t.sup.latch = (s.sup.detection && edge) ∧ t.sup.edgeMemory = (edge && !s.sup.detection)
        ∧ t.sup.causes = s.sup.causes ∧ t.sup.inForce = CauseSet.empty ∧ t.sup.detection = s.sup.detection
        ∧ t.sup.low = s.sup.low)

/-- VERIFY_VISIT_END (R104, R105, R106): after 32 frames the visited block is VALID if its recomputed word is the stored one
and else BAD, which marks its owner damaged; the scan goes on to the next OWNED block, or ends with the supervisor READY.
READY then counts the layers in use and the damaged ones, the blocks freed, those checked and those BAD. The bytes outside the
block stay, and with no upset, which is the model's operand (log 21), all of them do. Before the 32nd frame's end nothing
happens (the model's choice, log 1). -/
def Obligations.VerifyVisitSetsTheCheckState : Prop :=
  ∀ (s : State) (upsets : List Host.Cell) (v : Scan), s.sup.state = .verifying → s.pool.scan = some v →
    (v.frames ≠ 32 → exec (.verifyVisitEnd upsets) s = .next s)
    ∧ (∀ o w, v.frames = 32 → s.pool.entry v.next = some o → o.check.word = some w → s.memoryLegal →
      (∀ c ∈ upsets, c.1 < memorySize) →
      ∃ t, exec (.verifyVisitEnd upsets) s = .next t
        ∧ (∀ a, (a < sampleAddr v.next 0 ∨ sampleAddr v.next 0 + 8192 ≤ a) → t.mem.read a = s.mem.read a)
        ∧ (upsets = [] → t.mem = s.mem)
        ∧ (let good := decide (crcBytes (t.mem.blockBytes v.next) = w)
          t.pool.entry v.next = some { o with check := if good then .valid w else .bad w }
          ∧ (∀ l, s.layer o.owner = some l → t.layer o.owner = some { l with damaged := l.damaged || !good })
          ∧ (∀ x, x ≠ o.owner → t.layer x = s.layer x))
        ∧ (match s.pool.owned.find? (fun e => decide (v.next.val < e.1.val)) with
          | some e => t.sup = s.sup
            ∧ t.pool.scan = some { v with next := e.1, frames := 0, checked := v.checked + 1 } ∧ t.clock = s.clock
          | none => t.sup = { s.sup with state := .ready } ∧ t.pool.scan = none
            ∧ t.clock = { s.clock with divider := s.clock.p - 1, dividerSet := true }
            ∧ t.link = (s.report .ready
              ([byte s.inUse.length,
                  byte (s.inUse.filter fun x => (t.layer x).map (·.damaged) = some true).length]
                ++ le2 v.freed ++ le2 (v.checked + 1) ++ le2 t.pool.bad)).link)
        ∧ t.pool.free = s.pool.free ∧ t.tracks = s.tracks ∧ t.cues = s.cues ∧ t.mix = s.mix)

/-! ### Supply, wake and halt -/

/-- SUPPLY_LOW, SUPPLY_OK and WAKE_END (R30, R174, R177, R188): a crossing below the warn level (3.40 V and 0.10 V a code), or
back at 0.05 V above it, changes the monitor's state and sends SUPPLY, and into LOW in STANDBY begins WAKING. The end of
WAKING makes the supervisor READY with the divider loaded and the silence timer restarted, sends WOKE, and takes a held halt
edge. The crossings come behind a begun walk (log 6); that the operand is judged against the level is the model's reading
(log 17). Where the level is not crossed or no wake is in progress nothing happens (the model's choice, log 1). -/
def Obligations.SupplyCrossingsAndWakes : Prop :=
  (∀ (w : State) (vdd : Half),
    let s := w.settleWalk
    let warn := 340 + 10 * s.sup.warnCode.val
    let code := byte s.sup.warnCode.val
    (s.sup.low = true ∨ warn ≤ vdd.toNat → exec (.supplyLow vdd) w = .next s)
    ∧ (s.sup.low = false → vdd.toNat < warn →
      let u := State.report { s with sup := { s.sup with low := true } } .supply ([1, code] ++ le2 vdd.toNat)
      exec (.supplyLow vdd) w = .next
        (if s.sup.state = .standby then
           { u with
             sup := { u.sup with state := .waking, wake := some { cause := .supply, haltHeld := false } } }
         else u))
    ∧ (s.sup.low = false ∨ vdd.toNat < warn + 5 → exec (.supplyOk vdd) w = .next s)
    ∧ (s.sup.low = true → warn + 5 ≤ vdd.toNat →
      exec (.supplyOk vdd) w = .next
        (State.report { s with sup := { s.sup with low := false } } .supply ([0, code] ++ le2 vdd.toNat))))
  ∧ (∀ (s : State) (d : Half),
    (s.sup.state ≠ .waking → exec (.wakeEnd d) s = .next s)
    ∧ (∀ w, s.sup.state = .waking → s.sup.wake = some w →
      let u := State.report
        { s with
          sup := { s.sup with state := .ready, wake := none }
          clock := { s.clock with divider := s.clock.p - 1, dividerSet := true }
          link := { s.link with
            timer := decide (s.link.timeout ≠ 0), requestTaken := false, requestDue := decide (s.link.requests ≠ []) } }
        .woke (w.cause.code :: le2 d.toNat)
      (w.haltHeld = false ∨ s.sup.latch = true → exec (.wakeEnd d) s = .next u)
      ∧ (w.haltHeld = true → s.sup.latch = false → ∃ t, exec (.wakeEnd d) s = .next t ∧ t.sup.latch = true
        ∧ t.sup.state = .ready ∧ t.cues.list = [] ∧ t.clock.transport = .stopped ∧ t.scenes.current = none)))

/-- HALT_EDGE and HALT_LINE_INACTIVE (R43, R64, R177, R178, R179): the debounced line takes its level. An edge in READY or
VERIFYING, with no walk or claim outstanding, takes a halt event if detection is enabled and else sets the edge memory; in STANDBY and
WAKING it is a wake source if detection is enabled; in RESET the line alone moves. The halt event sets the latch, empties the
cue list, stops the transport with cause HALT, sets the sequencer IDLE and sends HALT last, with the cues removed, the heads cut,
the transport before and the source; it changes nothing while the latch is set. While STOPPED, and with both heads idle and the
pending slot empty, the state is given whole, TRANSPORT among its reports; CutLeaves says what the event leaves of a recording
that runs alone (R34, R85, R86). Where the line is at that level already nothing happens (the model's choice, log 1).

HALT_CONFIG_WRITE that enables detection with the edge memory set and not cleared (R180): a halt event of source ENABLE is taken,
the same in all, the memory is cleared, and the reply carries the halt items as they stand then. -/
def Obligations.HaltLineAndEnableTakeTheirEffect : Prop :=
  let idle := fun q : Sequencer => { q with current := none, bars := .count 0, due := none, slot := none }
  let halted := fun (u v : State) (source : Byte) =>
    v.report .halt [byte u.cues.list.length, byte u.headsBusy, u.clock.transport.code, source]
  let halts := fun (u : State) (source : Byte) (t : State) =>
    let latched := { u with sup := { u.sup with latch := true }, cues := { u.cues with list := [] } }
    (u.clock.transport = .stopped → t = halted u { latched with scenes := idle u.scenes } source)
    ∧ (u.clock.transport ≠ .stopped →
      (∃ v, t = halted u v source) ∧ t.sup = { u.sup with latch := true } ∧ t.cues = { u.cues with list := [] }
      ∧ t.clock.transport = .stopped ∧ t.clock.countIn = 0 ∧ t.clock.pendingTempo = none ∧ t.head0 = none
      ∧ t.head1 = none ∧ t.mix.voices = Vector.replicate 24 none ∧ t.mix.wait = [] ∧ t.scenes = idle u.scenes
      ∧ t.tones = { u.tones with clickEnds := true }
      ∧ (∀ h r l, u.head h = some r → (∀ j, j ≠ h → u.head j = none) → u.layer r.layer = some l → u.poolLegal →
        CutLeaves u t h r l)
      ∧ (u.head0 = none → u.head1 = none → u.clock.pendingTempo = none →
        t = halted u
          { State.report
              { latched with
                clock := { u.clock with transport := .stopped, countIn := 0, startMark := .none }
                mix := { u.mix with voices := Vector.replicate 24 none, wait := [], fresh := [] }
                tones := { u.tones with clickEnds := true }
                bnd := { u.bnd with sceneStep := none, walk := none, grant := .none, tempo := false } }
              .transport [0, u.clock.transport.code, 4, 0]
            with scenes := idle u.scenes }
          source))
  (∀ s : State,
     let active := decide (s.sup.lineHigh = s.sup.activeHigh)
     let line := fun (u : Sup) => { u with lineHigh := s.sup.activeHigh }
     (active = true → exec .haltEdge s = .next s)
     ∧ (active = false → exec .haltLineInactive s = .next s)
     ∧ (active = true →
       exec .haltLineInactive s = .next { s with sup := { s.sup with lineHigh := !s.sup.activeHigh } })
     ∧ (active = false → s.sup.state = .reset → exec .haltEdge s = .next { s with sup := line s.sup })
     ∧ (active = false → s.sup.state = .standby →
       exec .haltEdge s = .next
         { s with
           sup := if s.sup.detection then
               { line s.sup with state := .waking, wake := some { cause := .halt, haltHeld := true } }
             else line s.sup })
     ∧ (active = false → s.sup.state = .waking →
       exec .haltEdge s = .next
         { s with
           sup := if s.sup.detection then
               { line s.sup with wake := s.sup.wake.map fun w => { w with haltHeld := true } }
             else line s.sup })
     ∧ (active = false → (s.sup.state = .ready ∨ s.sup.state = .verifying) →
       (s.sup.detection = false → exec .haltEdge s = .next { s with sup := { line s.sup with edgeMemory := true } })
       ∧ (s.sup.detection = true → s.bnd.walk = none → s.bnd.sceneStep = none → s.beginIsDue = false →
         let u := { s with sup := line s.sup }
         (s.sup.latch = true → exec .haltEdge s = .next u)
         ∧ (s.sup.latch = false → ∃ t, exec .haltEdge s = .next t ∧ halts u 0 t))))
  ∧ (∀ (s : State) (tag : Byte) (h : Bool),
     s.canTake { kind := 0x07, tag := tag, payload := [1, 1, flagByte h, 0] } = true → s.sup.state = .ready →
     s.sup.edgeMemory = true →
     let w := s.takeRequest
     let u := { w with sup := { w.sup with detection := true, activeHigh := h, edgeMemory := false } }
     let reply := fun t : State => t.reply 0x07 tag [0, 1, flagByte h, 0, 1, flagByte (decide (w.sup.lineHigh = h))]
     (w.sup.latch = true → exec (.haltConfigWrite tag [1, 1, flagByte h, 0]) s = .next (reply u))
     ∧ (w.sup.latch = false →
       ∃ t, exec (.haltConfigWrite tag [1, 1, flagByte h, 0]) s = .next (reply t) ∧ halts u 1 t))
end

