-- ==== Sys2Proof/Laws/State.lean ====
section
/-! SUPPORT. What each update of the state leaves as it was, field by field, and what it writes. -/

namespace Sys2Proof.Machine

/-! ### setTrack -/

@[simp] theorem State.setTrack_clock (s : State) (t : TrackId) (r : Track) : (s.setTrack t r).clock = s.clock := rfl
@[simp] theorem State.setTrack_bnd (s : State) (t : TrackId) (r : Track) : (s.setTrack t r).bnd = s.bnd := rfl
@[simp] theorem State.setTrack_cues (s : State) (t : TrackId) (r : Track) : (s.setTrack t r).cues = s.cues := rfl
@[simp] theorem State.setTrack_layers (s : State) (t : TrackId) (r : Track) : (s.setTrack t r).layers = s.layers := rfl
@[simp] theorem State.setTrack_head0 (s : State) (t : TrackId) (r : Track) : (s.setTrack t r).head0 = s.head0 := rfl
@[simp] theorem State.setTrack_head1 (s : State) (t : TrackId) (r : Track) : (s.setTrack t r).head1 = s.head1 := rfl
@[simp] theorem State.setTrack_pool (s : State) (t : TrackId) (r : Track) : (s.setTrack t r).pool = s.pool := rfl
@[simp] theorem State.setTrack_mem (s : State) (t : TrackId) (r : Track) : (s.setTrack t r).mem = s.mem := rfl
@[simp] theorem State.setTrack_bounce (s : State) (t : TrackId) (r : Track) : (s.setTrack t r).bounce = s.bounce := rfl
@[simp] theorem State.setTrack_mix (s : State) (t : TrackId) (r : Track) : (s.setTrack t r).mix = s.mix := rfl
@[simp] theorem State.setTrack_outputs (s : State) (t : TrackId) (r : Track) : (s.setTrack t r).outputs = s.outputs := rfl
@[simp] theorem State.setTrack_scenes (s : State) (t : TrackId) (r : Track) : (s.setTrack t r).scenes = s.scenes := rfl
@[simp] theorem State.setTrack_tones (s : State) (t : TrackId) (r : Track) : (s.setTrack t r).tones = s.tones := rfl
@[simp] theorem State.setTrack_sup (s : State) (t : TrackId) (r : Track) : (s.setTrack t r).sup = s.sup := rfl
@[simp] theorem State.setTrack_link (s : State) (t : TrackId) (r : Track) : (s.setTrack t r).link = s.link := rfl
@[simp] theorem State.setTrack_freeCount (s : State) (t : TrackId) (r : Track) : (s.setTrack t r).freeCount = s.freeCount := rfl
@[simp] theorem State.setTrack_pending (s : State) (t : TrackId) (r : Track) : (s.setTrack t r).pending = s.pending := rfl

/-! ### modTrack -/

@[simp] theorem State.modTrack_clock (s : State) (t : TrackId) (f : Track → Track) : (s.modTrack t f).clock = s.clock := rfl
@[simp] theorem State.modTrack_bnd (s : State) (t : TrackId) (f : Track → Track) : (s.modTrack t f).bnd = s.bnd := rfl
@[simp] theorem State.modTrack_cues (s : State) (t : TrackId) (f : Track → Track) : (s.modTrack t f).cues = s.cues := rfl
@[simp] theorem State.modTrack_layers (s : State) (t : TrackId) (f : Track → Track) : (s.modTrack t f).layers = s.layers := rfl
@[simp] theorem State.modTrack_head0 (s : State) (t : TrackId) (f : Track → Track) : (s.modTrack t f).head0 = s.head0 := rfl
@[simp] theorem State.modTrack_head1 (s : State) (t : TrackId) (f : Track → Track) : (s.modTrack t f).head1 = s.head1 := rfl
@[simp] theorem State.modTrack_pool (s : State) (t : TrackId) (f : Track → Track) : (s.modTrack t f).pool = s.pool := rfl
@[simp] theorem State.modTrack_mem (s : State) (t : TrackId) (f : Track → Track) : (s.modTrack t f).mem = s.mem := rfl
@[simp] theorem State.modTrack_bounce (s : State) (t : TrackId) (f : Track → Track) : (s.modTrack t f).bounce = s.bounce := rfl
@[simp] theorem State.modTrack_mix (s : State) (t : TrackId) (f : Track → Track) : (s.modTrack t f).mix = s.mix := rfl
@[simp] theorem State.modTrack_outputs (s : State) (t : TrackId) (f : Track → Track) : (s.modTrack t f).outputs = s.outputs := rfl
@[simp] theorem State.modTrack_scenes (s : State) (t : TrackId) (f : Track → Track) : (s.modTrack t f).scenes = s.scenes := rfl
@[simp] theorem State.modTrack_tones (s : State) (t : TrackId) (f : Track → Track) : (s.modTrack t f).tones = s.tones := rfl
@[simp] theorem State.modTrack_sup (s : State) (t : TrackId) (f : Track → Track) : (s.modTrack t f).sup = s.sup := rfl
@[simp] theorem State.modTrack_link (s : State) (t : TrackId) (f : Track → Track) : (s.modTrack t f).link = s.link := rfl
@[simp] theorem State.modTrack_freeCount (s : State) (t : TrackId) (f : Track → Track) : (s.modTrack t f).freeCount = s.freeCount := rfl
@[simp] theorem State.modTrack_pending (s : State) (t : TrackId) (f : Track → Track) : (s.modTrack t f).pending = s.pending := rfl

/-! ### setLayer -/

@[simp] theorem State.setLayer_clock (s : State) (x : LayerId) (o : Option Layer) : (s.setLayer x o).clock = s.clock := rfl
@[simp] theorem State.setLayer_bnd (s : State) (x : LayerId) (o : Option Layer) : (s.setLayer x o).bnd = s.bnd := rfl
@[simp] theorem State.setLayer_cues (s : State) (x : LayerId) (o : Option Layer) : (s.setLayer x o).cues = s.cues := rfl
@[simp] theorem State.setLayer_tracks (s : State) (x : LayerId) (o : Option Layer) : (s.setLayer x o).tracks = s.tracks := rfl
@[simp] theorem State.setLayer_head0 (s : State) (x : LayerId) (o : Option Layer) : (s.setLayer x o).head0 = s.head0 := rfl
@[simp] theorem State.setLayer_head1 (s : State) (x : LayerId) (o : Option Layer) : (s.setLayer x o).head1 = s.head1 := rfl
@[simp] theorem State.setLayer_pool (s : State) (x : LayerId) (o : Option Layer) : (s.setLayer x o).pool = s.pool := rfl
@[simp] theorem State.setLayer_mem (s : State) (x : LayerId) (o : Option Layer) : (s.setLayer x o).mem = s.mem := rfl
@[simp] theorem State.setLayer_bounce (s : State) (x : LayerId) (o : Option Layer) : (s.setLayer x o).bounce = s.bounce := rfl
@[simp] theorem State.setLayer_mix (s : State) (x : LayerId) (o : Option Layer) : (s.setLayer x o).mix = s.mix := rfl
@[simp] theorem State.setLayer_outputs (s : State) (x : LayerId) (o : Option Layer) : (s.setLayer x o).outputs = s.outputs := rfl
@[simp] theorem State.setLayer_scenes (s : State) (x : LayerId) (o : Option Layer) : (s.setLayer x o).scenes = s.scenes := rfl
@[simp] theorem State.setLayer_tones (s : State) (x : LayerId) (o : Option Layer) : (s.setLayer x o).tones = s.tones := rfl
@[simp] theorem State.setLayer_sup (s : State) (x : LayerId) (o : Option Layer) : (s.setLayer x o).sup = s.sup := rfl
@[simp] theorem State.setLayer_link (s : State) (x : LayerId) (o : Option Layer) : (s.setLayer x o).link = s.link := rfl
@[simp] theorem State.setLayer_freeCount (s : State) (x : LayerId) (o : Option Layer) : (s.setLayer x o).freeCount = s.freeCount := rfl
@[simp] theorem State.setLayer_pending (s : State) (x : LayerId) (o : Option Layer) : (s.setLayer x o).pending = s.pending := rfl

/-! ### modLayer -/

@[simp] theorem State.modLayer_clock (s : State) (x : LayerId) (f : Layer → Layer) : (s.modLayer x f).clock = s.clock := rfl
@[simp] theorem State.modLayer_bnd (s : State) (x : LayerId) (f : Layer → Layer) : (s.modLayer x f).bnd = s.bnd := rfl
@[simp] theorem State.modLayer_cues (s : State) (x : LayerId) (f : Layer → Layer) : (s.modLayer x f).cues = s.cues := rfl
@[simp] theorem State.modLayer_tracks (s : State) (x : LayerId) (f : Layer → Layer) : (s.modLayer x f).tracks = s.tracks := rfl
@[simp] theorem State.modLayer_head0 (s : State) (x : LayerId) (f : Layer → Layer) : (s.modLayer x f).head0 = s.head0 := rfl
@[simp] theorem State.modLayer_head1 (s : State) (x : LayerId) (f : Layer → Layer) : (s.modLayer x f).head1 = s.head1 := rfl
@[simp] theorem State.modLayer_pool (s : State) (x : LayerId) (f : Layer → Layer) : (s.modLayer x f).pool = s.pool := rfl
@[simp] theorem State.modLayer_mem (s : State) (x : LayerId) (f : Layer → Layer) : (s.modLayer x f).mem = s.mem := rfl
@[simp] theorem State.modLayer_bounce (s : State) (x : LayerId) (f : Layer → Layer) : (s.modLayer x f).bounce = s.bounce := rfl
@[simp] theorem State.modLayer_mix (s : State) (x : LayerId) (f : Layer → Layer) : (s.modLayer x f).mix = s.mix := rfl
@[simp] theorem State.modLayer_outputs (s : State) (x : LayerId) (f : Layer → Layer) : (s.modLayer x f).outputs = s.outputs := rfl
@[simp] theorem State.modLayer_scenes (s : State) (x : LayerId) (f : Layer → Layer) : (s.modLayer x f).scenes = s.scenes := rfl
@[simp] theorem State.modLayer_tones (s : State) (x : LayerId) (f : Layer → Layer) : (s.modLayer x f).tones = s.tones := rfl
@[simp] theorem State.modLayer_sup (s : State) (x : LayerId) (f : Layer → Layer) : (s.modLayer x f).sup = s.sup := rfl
@[simp] theorem State.modLayer_link (s : State) (x : LayerId) (f : Layer → Layer) : (s.modLayer x f).link = s.link := rfl
@[simp] theorem State.modLayer_freeCount (s : State) (x : LayerId) (f : Layer → Layer) : (s.modLayer x f).freeCount = s.freeCount := rfl
@[simp] theorem State.modLayer_pending (s : State) (x : LayerId) (f : Layer → Layer) : (s.modLayer x f).pending = s.pending := rfl

/-! ### setHead -/

@[simp] theorem State.setHead_clock (s : State) (h : HeadId) (r : Option Recording) : (s.setHead h r).clock = s.clock := by cases h <;> rfl
@[simp] theorem State.setHead_bnd (s : State) (h : HeadId) (r : Option Recording) : (s.setHead h r).bnd = s.bnd := by cases h <;> rfl
@[simp] theorem State.setHead_cues (s : State) (h : HeadId) (r : Option Recording) : (s.setHead h r).cues = s.cues := by cases h <;> rfl
@[simp] theorem State.setHead_tracks (s : State) (h : HeadId) (r : Option Recording) : (s.setHead h r).tracks = s.tracks := by cases h <;> rfl
@[simp] theorem State.setHead_layers (s : State) (h : HeadId) (r : Option Recording) : (s.setHead h r).layers = s.layers := by cases h <;> rfl
@[simp] theorem State.setHead_pool (s : State) (h : HeadId) (r : Option Recording) : (s.setHead h r).pool = s.pool := by cases h <;> rfl
@[simp] theorem State.setHead_mem (s : State) (h : HeadId) (r : Option Recording) : (s.setHead h r).mem = s.mem := by cases h <;> rfl
@[simp] theorem State.setHead_bounce (s : State) (h : HeadId) (r : Option Recording) : (s.setHead h r).bounce = s.bounce := by cases h <;> rfl
@[simp] theorem State.setHead_mix (s : State) (h : HeadId) (r : Option Recording) : (s.setHead h r).mix = s.mix := by cases h <;> rfl
@[simp] theorem State.setHead_outputs (s : State) (h : HeadId) (r : Option Recording) : (s.setHead h r).outputs = s.outputs := by cases h <;> rfl
@[simp] theorem State.setHead_scenes (s : State) (h : HeadId) (r : Option Recording) : (s.setHead h r).scenes = s.scenes := by cases h <;> rfl
@[simp] theorem State.setHead_tones (s : State) (h : HeadId) (r : Option Recording) : (s.setHead h r).tones = s.tones := by cases h <;> rfl
@[simp] theorem State.setHead_sup (s : State) (h : HeadId) (r : Option Recording) : (s.setHead h r).sup = s.sup := by cases h <;> rfl
@[simp] theorem State.setHead_link (s : State) (h : HeadId) (r : Option Recording) : (s.setHead h r).link = s.link := by cases h <;> rfl
@[simp] theorem State.setHead_freeCount (s : State) (h : HeadId) (r : Option Recording) : (s.setHead h r).freeCount = s.freeCount := by cases h <;> rfl
@[simp] theorem State.setHead_pending (s : State) (h : HeadId) (r : Option Recording) : (s.setHead h r).pending = s.pending := by cases h <;> rfl

/-! ### modHead -/

@[simp] theorem State.modHead_clock (s : State) (h : HeadId) (f : Recording → Recording) : (s.modHead h f).clock = s.clock := by cases h <;> rfl
@[simp] theorem State.modHead_bnd (s : State) (h : HeadId) (f : Recording → Recording) : (s.modHead h f).bnd = s.bnd := by cases h <;> rfl
@[simp] theorem State.modHead_cues (s : State) (h : HeadId) (f : Recording → Recording) : (s.modHead h f).cues = s.cues := by cases h <;> rfl
@[simp] theorem State.modHead_tracks (s : State) (h : HeadId) (f : Recording → Recording) : (s.modHead h f).tracks = s.tracks := by cases h <;> rfl
@[simp] theorem State.modHead_layers (s : State) (h : HeadId) (f : Recording → Recording) : (s.modHead h f).layers = s.layers := by cases h <;> rfl
@[simp] theorem State.modHead_pool (s : State) (h : HeadId) (f : Recording → Recording) : (s.modHead h f).pool = s.pool := by cases h <;> rfl
@[simp] theorem State.modHead_mem (s : State) (h : HeadId) (f : Recording → Recording) : (s.modHead h f).mem = s.mem := by cases h <;> rfl
@[simp] theorem State.modHead_bounce (s : State) (h : HeadId) (f : Recording → Recording) : (s.modHead h f).bounce = s.bounce := by cases h <;> rfl
@[simp] theorem State.modHead_mix (s : State) (h : HeadId) (f : Recording → Recording) : (s.modHead h f).mix = s.mix := by cases h <;> rfl
@[simp] theorem State.modHead_outputs (s : State) (h : HeadId) (f : Recording → Recording) : (s.modHead h f).outputs = s.outputs := by cases h <;> rfl
@[simp] theorem State.modHead_scenes (s : State) (h : HeadId) (f : Recording → Recording) : (s.modHead h f).scenes = s.scenes := by cases h <;> rfl
@[simp] theorem State.modHead_tones (s : State) (h : HeadId) (f : Recording → Recording) : (s.modHead h f).tones = s.tones := by cases h <;> rfl
@[simp] theorem State.modHead_sup (s : State) (h : HeadId) (f : Recording → Recording) : (s.modHead h f).sup = s.sup := by cases h <;> rfl
@[simp] theorem State.modHead_link (s : State) (h : HeadId) (f : Recording → Recording) : (s.modHead h f).link = s.link := by cases h <;> rfl
@[simp] theorem State.modHead_freeCount (s : State) (h : HeadId) (f : Recording → Recording) : (s.modHead h f).freeCount = s.freeCount := by cases h <;> rfl
@[simp] theorem State.modHead_pending (s : State) (h : HeadId) (f : Recording → Recording) : (s.modHead h f).pending = s.pending := by cases h <;> rfl

/-! ### send -/

@[simp] theorem State.send_clock (s : State) (f : Frame) : (s.send f).clock = s.clock := rfl
@[simp] theorem State.send_bnd (s : State) (f : Frame) : (s.send f).bnd = s.bnd := rfl
@[simp] theorem State.send_cues (s : State) (f : Frame) : (s.send f).cues = s.cues := rfl
@[simp] theorem State.send_tracks (s : State) (f : Frame) : (s.send f).tracks = s.tracks := rfl
@[simp] theorem State.send_layers (s : State) (f : Frame) : (s.send f).layers = s.layers := rfl
@[simp] theorem State.send_head0 (s : State) (f : Frame) : (s.send f).head0 = s.head0 := rfl
@[simp] theorem State.send_head1 (s : State) (f : Frame) : (s.send f).head1 = s.head1 := rfl
@[simp] theorem State.send_pool (s : State) (f : Frame) : (s.send f).pool = s.pool := rfl
@[simp] theorem State.send_mem (s : State) (f : Frame) : (s.send f).mem = s.mem := rfl
@[simp] theorem State.send_bounce (s : State) (f : Frame) : (s.send f).bounce = s.bounce := rfl
@[simp] theorem State.send_mix (s : State) (f : Frame) : (s.send f).mix = s.mix := rfl
@[simp] theorem State.send_outputs (s : State) (f : Frame) : (s.send f).outputs = s.outputs := rfl
@[simp] theorem State.send_scenes (s : State) (f : Frame) : (s.send f).scenes = s.scenes := rfl
@[simp] theorem State.send_tones (s : State) (f : Frame) : (s.send f).tones = s.tones := rfl
@[simp] theorem State.send_sup (s : State) (f : Frame) : (s.send f).sup = s.sup := rfl
@[simp] theorem State.send_freeCount (s : State) (f : Frame) : (s.send f).freeCount = s.freeCount := rfl
@[simp] theorem State.send_pending (s : State) (f : Frame) : (s.send f).pending = s.pending := rfl

/-! ### reply -/

@[simp] theorem State.reply_clock (s : State) (kind tag : Byte) (p : List Byte) : (s.reply kind tag p).clock = s.clock := rfl
@[simp] theorem State.reply_bnd (s : State) (kind tag : Byte) (p : List Byte) : (s.reply kind tag p).bnd = s.bnd := rfl
@[simp] theorem State.reply_cues (s : State) (kind tag : Byte) (p : List Byte) : (s.reply kind tag p).cues = s.cues := rfl
@[simp] theorem State.reply_tracks (s : State) (kind tag : Byte) (p : List Byte) : (s.reply kind tag p).tracks = s.tracks := rfl
@[simp] theorem State.reply_layers (s : State) (kind tag : Byte) (p : List Byte) : (s.reply kind tag p).layers = s.layers := rfl
@[simp] theorem State.reply_head0 (s : State) (kind tag : Byte) (p : List Byte) : (s.reply kind tag p).head0 = s.head0 := rfl
@[simp] theorem State.reply_head1 (s : State) (kind tag : Byte) (p : List Byte) : (s.reply kind tag p).head1 = s.head1 := rfl
@[simp] theorem State.reply_pool (s : State) (kind tag : Byte) (p : List Byte) : (s.reply kind tag p).pool = s.pool := rfl
@[simp] theorem State.reply_mem (s : State) (kind tag : Byte) (p : List Byte) : (s.reply kind tag p).mem = s.mem := rfl
@[simp] theorem State.reply_bounce (s : State) (kind tag : Byte) (p : List Byte) : (s.reply kind tag p).bounce = s.bounce := rfl
@[simp] theorem State.reply_mix (s : State) (kind tag : Byte) (p : List Byte) : (s.reply kind tag p).mix = s.mix := rfl
@[simp] theorem State.reply_outputs (s : State) (kind tag : Byte) (p : List Byte) : (s.reply kind tag p).outputs = s.outputs := rfl
@[simp] theorem State.reply_scenes (s : State) (kind tag : Byte) (p : List Byte) : (s.reply kind tag p).scenes = s.scenes := rfl
@[simp] theorem State.reply_tones (s : State) (kind tag : Byte) (p : List Byte) : (s.reply kind tag p).tones = s.tones := rfl
@[simp] theorem State.reply_sup (s : State) (kind tag : Byte) (p : List Byte) : (s.reply kind tag p).sup = s.sup := rfl
@[simp] theorem State.reply_freeCount (s : State) (kind tag : Byte) (p : List Byte) : (s.reply kind tag p).freeCount = s.freeCount := rfl
@[simp] theorem State.reply_pending (s : State) (kind tag : Byte) (p : List Byte) : (s.reply kind tag p).pending = s.pending := rfl

/-! ### reportWith -/

@[simp] theorem State.reportWith_clock (s : State) (hd : List Byte) (r : Report) (p : List Byte) : (s.reportWith hd r p).clock = s.clock := by unfold State.reportWith; split_ifs <;> rfl
@[simp] theorem State.reportWith_bnd (s : State) (hd : List Byte) (r : Report) (p : List Byte) : (s.reportWith hd r p).bnd = s.bnd := by unfold State.reportWith; split_ifs <;> rfl
@[simp] theorem State.reportWith_cues (s : State) (hd : List Byte) (r : Report) (p : List Byte) : (s.reportWith hd r p).cues = s.cues := by unfold State.reportWith; split_ifs <;> rfl
@[simp] theorem State.reportWith_tracks (s : State) (hd : List Byte) (r : Report) (p : List Byte) : (s.reportWith hd r p).tracks = s.tracks := by unfold State.reportWith; split_ifs <;> rfl
@[simp] theorem State.reportWith_layers (s : State) (hd : List Byte) (r : Report) (p : List Byte) : (s.reportWith hd r p).layers = s.layers := by unfold State.reportWith; split_ifs <;> rfl
@[simp] theorem State.reportWith_head0 (s : State) (hd : List Byte) (r : Report) (p : List Byte) : (s.reportWith hd r p).head0 = s.head0 := by unfold State.reportWith; split_ifs <;> rfl
@[simp] theorem State.reportWith_head1 (s : State) (hd : List Byte) (r : Report) (p : List Byte) : (s.reportWith hd r p).head1 = s.head1 := by unfold State.reportWith; split_ifs <;> rfl
@[simp] theorem State.reportWith_pool (s : State) (hd : List Byte) (r : Report) (p : List Byte) : (s.reportWith hd r p).pool = s.pool := by unfold State.reportWith; split_ifs <;> rfl
@[simp] theorem State.reportWith_mem (s : State) (hd : List Byte) (r : Report) (p : List Byte) : (s.reportWith hd r p).mem = s.mem := by unfold State.reportWith; split_ifs <;> rfl
@[simp] theorem State.reportWith_bounce (s : State) (hd : List Byte) (r : Report) (p : List Byte) : (s.reportWith hd r p).bounce = s.bounce := by unfold State.reportWith; split_ifs <;> rfl
@[simp] theorem State.reportWith_mix (s : State) (hd : List Byte) (r : Report) (p : List Byte) : (s.reportWith hd r p).mix = s.mix := by unfold State.reportWith; split_ifs <;> rfl
@[simp] theorem State.reportWith_outputs (s : State) (hd : List Byte) (r : Report) (p : List Byte) : (s.reportWith hd r p).outputs = s.outputs := by unfold State.reportWith; split_ifs <;> rfl
@[simp] theorem State.reportWith_scenes (s : State) (hd : List Byte) (r : Report) (p : List Byte) : (s.reportWith hd r p).scenes = s.scenes := by unfold State.reportWith; split_ifs <;> rfl
@[simp] theorem State.reportWith_tones (s : State) (hd : List Byte) (r : Report) (p : List Byte) : (s.reportWith hd r p).tones = s.tones := by unfold State.reportWith; split_ifs <;> rfl
@[simp] theorem State.reportWith_sup (s : State) (hd : List Byte) (r : Report) (p : List Byte) : (s.reportWith hd r p).sup = s.sup := by unfold State.reportWith; split_ifs <;> rfl
@[simp] theorem State.reportWith_freeCount (s : State) (hd : List Byte) (r : Report) (p : List Byte) : (s.reportWith hd r p).freeCount = s.freeCount := by unfold State.reportWith; split_ifs <;> rfl
@[simp] theorem State.reportWith_pending (s : State) (hd : List Byte) (r : Report) (p : List Byte) : (s.reportWith hd r p).pending = s.pending := by unfold State.reportWith; split_ifs <;> rfl

/-! ### report -/

@[simp] theorem State.report_clock (s : State) (r : Report) (p : List Byte) : (s.report r p).clock = s.clock :=
  State.reportWith_clock ..
@[simp] theorem State.report_bnd (s : State) (r : Report) (p : List Byte) : (s.report r p).bnd = s.bnd :=
  State.reportWith_bnd ..
@[simp] theorem State.report_cues (s : State) (r : Report) (p : List Byte) : (s.report r p).cues = s.cues :=
  State.reportWith_cues ..
@[simp] theorem State.report_tracks (s : State) (r : Report) (p : List Byte) : (s.report r p).tracks = s.tracks :=
  State.reportWith_tracks ..
@[simp] theorem State.report_layers (s : State) (r : Report) (p : List Byte) : (s.report r p).layers = s.layers :=
  State.reportWith_layers ..
@[simp] theorem State.report_head0 (s : State) (r : Report) (p : List Byte) : (s.report r p).head0 = s.head0 :=
  State.reportWith_head0 ..
@[simp] theorem State.report_head1 (s : State) (r : Report) (p : List Byte) : (s.report r p).head1 = s.head1 :=
  State.reportWith_head1 ..
@[simp] theorem State.report_pool (s : State) (r : Report) (p : List Byte) : (s.report r p).pool = s.pool :=
  State.reportWith_pool ..
@[simp] theorem State.report_mem (s : State) (r : Report) (p : List Byte) : (s.report r p).mem = s.mem :=
  State.reportWith_mem ..
@[simp] theorem State.report_bounce (s : State) (r : Report) (p : List Byte) : (s.report r p).bounce = s.bounce :=
  State.reportWith_bounce ..
@[simp] theorem State.report_mix (s : State) (r : Report) (p : List Byte) : (s.report r p).mix = s.mix :=
  State.reportWith_mix ..
@[simp] theorem State.report_outputs (s : State) (r : Report) (p : List Byte) : (s.report r p).outputs = s.outputs :=
  State.reportWith_outputs ..
@[simp] theorem State.report_scenes (s : State) (r : Report) (p : List Byte) : (s.report r p).scenes = s.scenes :=
  State.reportWith_scenes ..
@[simp] theorem State.report_tones (s : State) (r : Report) (p : List Byte) : (s.report r p).tones = s.tones :=
  State.reportWith_tones ..
@[simp] theorem State.report_sup (s : State) (r : Report) (p : List Byte) : (s.report r p).sup = s.sup :=
  State.reportWith_sup ..
@[simp] theorem State.report_freeCount (s : State) (r : Report) (p : List Byte) : (s.report r p).freeCount = s.freeCount :=
  State.reportWith_freeCount ..
@[simp] theorem State.report_pending (s : State) (r : Report) (p : List Byte) : (s.report r p).pending = s.pending :=
  State.reportWith_pending ..

/-! ### hear -/

@[simp] theorem State.hear_clock (s : State) (h : Heard) : (s.hear h).clock = s.clock := rfl
@[simp] theorem State.hear_bnd (s : State) (h : Heard) : (s.hear h).bnd = s.bnd := rfl
@[simp] theorem State.hear_cues (s : State) (h : Heard) : (s.hear h).cues = s.cues := rfl
@[simp] theorem State.hear_tracks (s : State) (h : Heard) : (s.hear h).tracks = s.tracks := rfl
@[simp] theorem State.hear_layers (s : State) (h : Heard) : (s.hear h).layers = s.layers := rfl
@[simp] theorem State.hear_head0 (s : State) (h : Heard) : (s.hear h).head0 = s.head0 := rfl
@[simp] theorem State.hear_head1 (s : State) (h : Heard) : (s.hear h).head1 = s.head1 := rfl
@[simp] theorem State.hear_pool (s : State) (h : Heard) : (s.hear h).pool = s.pool := rfl
@[simp] theorem State.hear_mem (s : State) (h : Heard) : (s.hear h).mem = s.mem := rfl
@[simp] theorem State.hear_bounce (s : State) (h : Heard) : (s.hear h).bounce = s.bounce := rfl
@[simp] theorem State.hear_outputs (s : State) (h : Heard) : (s.hear h).outputs = s.outputs := rfl
@[simp] theorem State.hear_scenes (s : State) (h : Heard) : (s.hear h).scenes = s.scenes := rfl
@[simp] theorem State.hear_tones (s : State) (h : Heard) : (s.hear h).tones = s.tones := rfl
@[simp] theorem State.hear_sup (s : State) (h : Heard) : (s.hear h).sup = s.sup := rfl
@[simp] theorem State.hear_link (s : State) (h : Heard) : (s.hear h).link = s.link := rfl
@[simp] theorem State.hear_freeCount (s : State) (h : Heard) : (s.hear h).freeCount = s.freeCount := rfl
@[simp] theorem State.hear_pending (s : State) (h : Heard) : (s.hear h).pending = s.pending := rfl
@[simp] theorem State.hear_mix (s : State) (h : Heard) : (s.hear h).mix = { s.mix with heard := h } := rfl

/-! ### releaseVoice -/

@[simp] theorem State.releaseVoice_clock (s : State) (x : LayerId) : (s.releaseVoice x).clock = s.clock := rfl
@[simp] theorem State.releaseVoice_bnd (s : State) (x : LayerId) : (s.releaseVoice x).bnd = s.bnd := rfl
@[simp] theorem State.releaseVoice_cues (s : State) (x : LayerId) : (s.releaseVoice x).cues = s.cues := rfl
@[simp] theorem State.releaseVoice_tracks (s : State) (x : LayerId) : (s.releaseVoice x).tracks = s.tracks := rfl
@[simp] theorem State.releaseVoice_layers (s : State) (x : LayerId) : (s.releaseVoice x).layers = s.layers := rfl
@[simp] theorem State.releaseVoice_head0 (s : State) (x : LayerId) : (s.releaseVoice x).head0 = s.head0 := rfl
@[simp] theorem State.releaseVoice_head1 (s : State) (x : LayerId) : (s.releaseVoice x).head1 = s.head1 := rfl
@[simp] theorem State.releaseVoice_pool (s : State) (x : LayerId) : (s.releaseVoice x).pool = s.pool := rfl
@[simp] theorem State.releaseVoice_mem (s : State) (x : LayerId) : (s.releaseVoice x).mem = s.mem := rfl
@[simp] theorem State.releaseVoice_bounce (s : State) (x : LayerId) : (s.releaseVoice x).bounce = s.bounce := rfl
@[simp] theorem State.releaseVoice_outputs (s : State) (x : LayerId) : (s.releaseVoice x).outputs = s.outputs := rfl
@[simp] theorem State.releaseVoice_scenes (s : State) (x : LayerId) : (s.releaseVoice x).scenes = s.scenes := rfl
@[simp] theorem State.releaseVoice_tones (s : State) (x : LayerId) : (s.releaseVoice x).tones = s.tones := rfl
@[simp] theorem State.releaseVoice_sup (s : State) (x : LayerId) : (s.releaseVoice x).sup = s.sup := rfl
@[simp] theorem State.releaseVoice_link (s : State) (x : LayerId) : (s.releaseVoice x).link = s.link := rfl
@[simp] theorem State.releaseVoice_freeCount (s : State) (x : LayerId) : (s.releaseVoice x).freeCount = s.freeCount := rfl
@[simp] theorem State.releaseVoice_pending (s : State) (x : LayerId) : (s.releaseVoice x).pending = s.pending := rfl

/-! ### joinWait -/

@[simp] theorem State.joinWait_clock (s : State) (x : LayerId) : (s.joinWait x).clock = s.clock := rfl
@[simp] theorem State.joinWait_bnd (s : State) (x : LayerId) : (s.joinWait x).bnd = s.bnd := rfl
@[simp] theorem State.joinWait_cues (s : State) (x : LayerId) : (s.joinWait x).cues = s.cues := rfl
@[simp] theorem State.joinWait_tracks (s : State) (x : LayerId) : (s.joinWait x).tracks = s.tracks := rfl
@[simp] theorem State.joinWait_layers (s : State) (x : LayerId) : (s.joinWait x).layers = s.layers := rfl
@[simp] theorem State.joinWait_head0 (s : State) (x : LayerId) : (s.joinWait x).head0 = s.head0 := rfl
@[simp] theorem State.joinWait_head1 (s : State) (x : LayerId) : (s.joinWait x).head1 = s.head1 := rfl
@[simp] theorem State.joinWait_pool (s : State) (x : LayerId) : (s.joinWait x).pool = s.pool := rfl
@[simp] theorem State.joinWait_mem (s : State) (x : LayerId) : (s.joinWait x).mem = s.mem := rfl
@[simp] theorem State.joinWait_bounce (s : State) (x : LayerId) : (s.joinWait x).bounce = s.bounce := rfl
@[simp] theorem State.joinWait_outputs (s : State) (x : LayerId) : (s.joinWait x).outputs = s.outputs := rfl
@[simp] theorem State.joinWait_scenes (s : State) (x : LayerId) : (s.joinWait x).scenes = s.scenes := rfl
@[simp] theorem State.joinWait_tones (s : State) (x : LayerId) : (s.joinWait x).tones = s.tones := rfl
@[simp] theorem State.joinWait_sup (s : State) (x : LayerId) : (s.joinWait x).sup = s.sup := rfl
@[simp] theorem State.joinWait_link (s : State) (x : LayerId) : (s.joinWait x).link = s.link := rfl
@[simp] theorem State.joinWait_freeCount (s : State) (x : LayerId) : (s.joinWait x).freeCount = s.freeCount := rfl
@[simp] theorem State.joinWait_pending (s : State) (x : LayerId) : (s.joinWait x).pending = s.pending := rfl

/-! ### freeBlocks -/

@[simp] theorem State.freeBlocks_clock (s : State) (bs : List BlockId) : (s.freeBlocks bs).clock = s.clock := rfl
@[simp] theorem State.freeBlocks_bnd (s : State) (bs : List BlockId) : (s.freeBlocks bs).bnd = s.bnd := rfl
@[simp] theorem State.freeBlocks_cues (s : State) (bs : List BlockId) : (s.freeBlocks bs).cues = s.cues := rfl
@[simp] theorem State.freeBlocks_tracks (s : State) (bs : List BlockId) : (s.freeBlocks bs).tracks = s.tracks := rfl
@[simp] theorem State.freeBlocks_layers (s : State) (bs : List BlockId) : (s.freeBlocks bs).layers = s.layers := rfl
@[simp] theorem State.freeBlocks_head0 (s : State) (bs : List BlockId) : (s.freeBlocks bs).head0 = s.head0 := rfl
@[simp] theorem State.freeBlocks_head1 (s : State) (bs : List BlockId) : (s.freeBlocks bs).head1 = s.head1 := rfl
@[simp] theorem State.freeBlocks_mem (s : State) (bs : List BlockId) : (s.freeBlocks bs).mem = s.mem := rfl
@[simp] theorem State.freeBlocks_bounce (s : State) (bs : List BlockId) : (s.freeBlocks bs).bounce = s.bounce := rfl
@[simp] theorem State.freeBlocks_mix (s : State) (bs : List BlockId) : (s.freeBlocks bs).mix = s.mix := rfl
@[simp] theorem State.freeBlocks_outputs (s : State) (bs : List BlockId) : (s.freeBlocks bs).outputs = s.outputs := rfl
@[simp] theorem State.freeBlocks_scenes (s : State) (bs : List BlockId) : (s.freeBlocks bs).scenes = s.scenes := rfl
@[simp] theorem State.freeBlocks_tones (s : State) (bs : List BlockId) : (s.freeBlocks bs).tones = s.tones := rfl
@[simp] theorem State.freeBlocks_sup (s : State) (bs : List BlockId) : (s.freeBlocks bs).sup = s.sup := rfl
@[simp] theorem State.freeBlocks_link (s : State) (bs : List BlockId) : (s.freeBlocks bs).link = s.link := rfl
@[simp] theorem State.freeBlocks_freeCount (s : State) (bs : List BlockId) : (s.freeBlocks bs).freeCount = s.freeCount := rfl
@[simp] theorem State.freeBlocks_pending (s : State) (bs : List BlockId) : (s.freeBlocks bs).pending = s.pending := rfl

/-! ### closeBlock -/

@[simp] theorem State.closeBlock_clock (s : State) (b : BlockId) : (s.closeBlock b).clock = s.clock := rfl
@[simp] theorem State.closeBlock_bnd (s : State) (b : BlockId) : (s.closeBlock b).bnd = s.bnd := rfl
@[simp] theorem State.closeBlock_cues (s : State) (b : BlockId) : (s.closeBlock b).cues = s.cues := rfl
@[simp] theorem State.closeBlock_tracks (s : State) (b : BlockId) : (s.closeBlock b).tracks = s.tracks := rfl
@[simp] theorem State.closeBlock_layers (s : State) (b : BlockId) : (s.closeBlock b).layers = s.layers := rfl
@[simp] theorem State.closeBlock_head0 (s : State) (b : BlockId) : (s.closeBlock b).head0 = s.head0 := rfl
@[simp] theorem State.closeBlock_head1 (s : State) (b : BlockId) : (s.closeBlock b).head1 = s.head1 := rfl
@[simp] theorem State.closeBlock_mem (s : State) (b : BlockId) : (s.closeBlock b).mem = s.mem := rfl
@[simp] theorem State.closeBlock_bounce (s : State) (b : BlockId) : (s.closeBlock b).bounce = s.bounce := rfl
@[simp] theorem State.closeBlock_mix (s : State) (b : BlockId) : (s.closeBlock b).mix = s.mix := rfl
@[simp] theorem State.closeBlock_outputs (s : State) (b : BlockId) : (s.closeBlock b).outputs = s.outputs := rfl
@[simp] theorem State.closeBlock_scenes (s : State) (b : BlockId) : (s.closeBlock b).scenes = s.scenes := rfl
@[simp] theorem State.closeBlock_tones (s : State) (b : BlockId) : (s.closeBlock b).tones = s.tones := rfl
@[simp] theorem State.closeBlock_sup (s : State) (b : BlockId) : (s.closeBlock b).sup = s.sup := rfl
@[simp] theorem State.closeBlock_link (s : State) (b : BlockId) : (s.closeBlock b).link = s.link := rfl
@[simp] theorem State.closeBlock_freeCount (s : State) (b : BlockId) : (s.closeBlock b).freeCount = s.freeCount := rfl
@[simp] theorem State.closeBlock_pending (s : State) (b : BlockId) : (s.closeBlock b).pending = s.pending := rfl

/-! ### setRun -/

@[simp] theorem State.setRun_clock (s : State) (r : Run) : (s.setRun r).clock = s.clock := rfl
@[simp] theorem State.setRun_bnd (s : State) (r : Run) : (s.setRun r).bnd = s.bnd := rfl
@[simp] theorem State.setRun_cues (s : State) (r : Run) : (s.setRun r).cues = s.cues := rfl
@[simp] theorem State.setRun_tracks (s : State) (r : Run) : (s.setRun r).tracks = s.tracks := rfl
@[simp] theorem State.setRun_layers (s : State) (r : Run) : (s.setRun r).layers = s.layers := rfl
@[simp] theorem State.setRun_head0 (s : State) (r : Run) : (s.setRun r).head0 = s.head0 := rfl
@[simp] theorem State.setRun_head1 (s : State) (r : Run) : (s.setRun r).head1 = s.head1 := rfl
@[simp] theorem State.setRun_pool (s : State) (r : Run) : (s.setRun r).pool = s.pool := rfl
@[simp] theorem State.setRun_mem (s : State) (r : Run) : (s.setRun r).mem = s.mem := rfl
@[simp] theorem State.setRun_mix (s : State) (r : Run) : (s.setRun r).mix = s.mix := rfl
@[simp] theorem State.setRun_outputs (s : State) (r : Run) : (s.setRun r).outputs = s.outputs := rfl
@[simp] theorem State.setRun_scenes (s : State) (r : Run) : (s.setRun r).scenes = s.scenes := rfl
@[simp] theorem State.setRun_tones (s : State) (r : Run) : (s.setRun r).tones = s.tones := rfl
@[simp] theorem State.setRun_sup (s : State) (r : Run) : (s.setRun r).sup = s.sup := rfl
@[simp] theorem State.setRun_link (s : State) (r : Run) : (s.setRun r).link = s.link := rfl
@[simp] theorem State.setRun_freeCount (s : State) (r : Run) : (s.setRun r).freeCount = s.freeCount := rfl
@[simp] theorem State.setRun_pending (s : State) (r : Run) : (s.setRun r).pending = s.pending := rfl

/-! ### removeBounce -/

@[simp] theorem State.removeBounce_clock (s : State) (i : Nat) : (s.removeBounce i).clock = s.clock := rfl
@[simp] theorem State.removeBounce_bnd (s : State) (i : Nat) : (s.removeBounce i).bnd = s.bnd := rfl
@[simp] theorem State.removeBounce_cues (s : State) (i : Nat) : (s.removeBounce i).cues = s.cues := rfl
@[simp] theorem State.removeBounce_tracks (s : State) (i : Nat) : (s.removeBounce i).tracks = s.tracks := rfl
@[simp] theorem State.removeBounce_layers (s : State) (i : Nat) : (s.removeBounce i).layers = s.layers := rfl
@[simp] theorem State.removeBounce_head0 (s : State) (i : Nat) : (s.removeBounce i).head0 = s.head0 := rfl
@[simp] theorem State.removeBounce_head1 (s : State) (i : Nat) : (s.removeBounce i).head1 = s.head1 := rfl
@[simp] theorem State.removeBounce_pool (s : State) (i : Nat) : (s.removeBounce i).pool = s.pool := rfl
@[simp] theorem State.removeBounce_mem (s : State) (i : Nat) : (s.removeBounce i).mem = s.mem := rfl
@[simp] theorem State.removeBounce_mix (s : State) (i : Nat) : (s.removeBounce i).mix = s.mix := rfl
@[simp] theorem State.removeBounce_outputs (s : State) (i : Nat) : (s.removeBounce i).outputs = s.outputs := rfl
@[simp] theorem State.removeBounce_scenes (s : State) (i : Nat) : (s.removeBounce i).scenes = s.scenes := rfl
@[simp] theorem State.removeBounce_tones (s : State) (i : Nat) : (s.removeBounce i).tones = s.tones := rfl
@[simp] theorem State.removeBounce_sup (s : State) (i : Nat) : (s.removeBounce i).sup = s.sup := rfl
@[simp] theorem State.removeBounce_link (s : State) (i : Nat) : (s.removeBounce i).link = s.link := rfl
@[simp] theorem State.removeBounce_freeCount (s : State) (i : Nat) : (s.removeBounce i).freeCount = s.freeCount := rfl
@[simp] theorem State.removeBounce_pending (s : State) (i : Nat) : (s.removeBounce i).pending = s.pending := rfl

/-! ### scenesIdle -/

@[simp] theorem State.scenesIdle_clock (s : State) : (s.scenesIdle).clock = s.clock := rfl
@[simp] theorem State.scenesIdle_bnd (s : State) : (s.scenesIdle).bnd = s.bnd := rfl
@[simp] theorem State.scenesIdle_cues (s : State) : (s.scenesIdle).cues = s.cues := rfl
@[simp] theorem State.scenesIdle_tracks (s : State) : (s.scenesIdle).tracks = s.tracks := rfl
@[simp] theorem State.scenesIdle_layers (s : State) : (s.scenesIdle).layers = s.layers := rfl
@[simp] theorem State.scenesIdle_head0 (s : State) : (s.scenesIdle).head0 = s.head0 := rfl
@[simp] theorem State.scenesIdle_head1 (s : State) : (s.scenesIdle).head1 = s.head1 := rfl
@[simp] theorem State.scenesIdle_pool (s : State) : (s.scenesIdle).pool = s.pool := rfl
@[simp] theorem State.scenesIdle_mem (s : State) : (s.scenesIdle).mem = s.mem := rfl
@[simp] theorem State.scenesIdle_bounce (s : State) : (s.scenesIdle).bounce = s.bounce := rfl
@[simp] theorem State.scenesIdle_mix (s : State) : (s.scenesIdle).mix = s.mix := rfl
@[simp] theorem State.scenesIdle_outputs (s : State) : (s.scenesIdle).outputs = s.outputs := rfl
@[simp] theorem State.scenesIdle_tones (s : State) : (s.scenesIdle).tones = s.tones := rfl
@[simp] theorem State.scenesIdle_sup (s : State) : (s.scenesIdle).sup = s.sup := rfl
@[simp] theorem State.scenesIdle_link (s : State) : (s.scenesIdle).link = s.link := rfl
@[simp] theorem State.scenesIdle_freeCount (s : State) : (s.scenesIdle).freeCount = s.freeCount := rfl
@[simp] theorem State.scenesIdle_pending (s : State) : (s.scenesIdle).pending = s.pending := rfl

/-! ### What the updates write -/

@[simp] theorem State.track_setTrack_same (s : State) (t : TrackId) (r : Track) : (s.setTrack t r).track t = r := by
  change (s.tracks.set t.val r t.isLt)[t.val] = r
  simp

theorem State.track_setTrack_other (s : State) (t u : TrackId) (r : Track) (h : u ≠ t) :
    (s.setTrack t r).track u = s.track u := by
  have h' : t.val ≠ u.val := fun e => h (Fin.ext e.symm)
  change (s.tracks.set t.val r t.isLt)[u.val] = s.tracks[u.val]
  simp [h']

@[simp] theorem State.track_modTrack_same (s : State) (t : TrackId) (f : Track → Track) :
    (s.modTrack t f).track t = f (s.track t) := State.track_setTrack_same ..

theorem State.track_modTrack_other (s : State) (t u : TrackId) (f : Track → Track) (h : u ≠ t) :
    (s.modTrack t f).track u = s.track u := State.track_setTrack_other _ _ _ _ h

@[simp] theorem State.layer_setLayer_same (s : State) (x : LayerId) (o : Option Layer) :
    (s.setLayer x o).layer x = o := by
  change (s.layers.set x.val o x.isLt)[x.val] = o
  simp

theorem State.layer_setLayer_other (s : State) (x y : LayerId) (o : Option Layer) (h : y ≠ x) :
    (s.setLayer x o).layer y = s.layer y := by
  have h' : x.val ≠ y.val := fun e => h (Fin.ext e.symm)
  change (s.layers.set x.val o x.isLt)[y.val] = s.layers[y.val]
  simp [h']

@[simp] theorem State.layer_modLayer_same (s : State) (x : LayerId) (f : Layer → Layer) :
    (s.modLayer x f).layer x = (s.layer x).map f := State.layer_setLayer_same ..

theorem State.layer_modLayer_other (s : State) (x y : LayerId) (f : Layer → Layer) (h : y ≠ x) :
    (s.modLayer x f).layer y = s.layer y := State.layer_setLayer_other _ _ _ _ h

@[simp] theorem State.head_setHead_same (s : State) (h : HeadId) (r : Option Recording) : (s.setHead h r).head h = r := by
  cases h <;> rfl

theorem State.head_setHead_other (s : State) (h g : HeadId) (r : Option Recording) (n : g ≠ h) :
    (s.setHead h r).head g = s.head g := by
  cases h <;> cases g <;> first | rfl | exact absurd rfl n

/-- A report changes nothing of the link port but its transmit queue and the reports-lost flag. -/
theorem State.reportWith_link (s : State) (hd : List Byte) (r : Report) (p : List Byte) :
    (s.reportWith hd r p).link
      = { s.link with tx := (s.reportWith hd r p).link.tx, lost := (s.reportWith hd r p).link.lost } := by
  unfold State.reportWith; split_ifs <;> rfl

/-- A report joins the transmit queue, or leaves it as it is. -/
theorem State.reportWith_tx (s : State) (hd : List Byte) (r : Report) (p : List Byte) :
    (s.reportWith hd r p).link.tx = s.link.tx
      ∨ (s.link.reportsQueued < 16
          ∧ (s.reportWith hd r p).link.tx = s.link.tx ++ [{ kind := r.kind, tag := 0, payload := hd ++ p }]) := by
  unfold State.reportWith; split_ifs with h1 h2 h3
  · exact Or.inl rfl
  · exact Or.inl rfl
  · exact Or.inr ⟨h3, rfl⟩
  · exact Or.inl rfl

/-- A report's KIND is below 0x80. -/
theorem Report.kind_lt (r : Report) : r.kind.toNat < 0x80 := by cases r <;> decide

end Sys2Proof.Machine
end

