-- ==== Sys2Proof/Laws/Memory.lean ====
section
/-! SUPPORT. The sample memory: every operation keeps its canonical form, and what reading gives after it. -/

namespace Sys2Proof.Machine

/-- A byte address of a block is inside the memory. -/
theorem sampleAddr_lt (b : BlockId) (f : Nat) : sampleAddr b f + 1 < memorySize := by
  have h1 := b.isLt
  have h2 : f % 4096 < 4096 := Nat.mod_lt _ (by decide)
  unfold sampleAddr memorySize
  omega

/-- Every address a write leaves listed was listed, or is the one written. -/
theorem Memory.mem_write {m : Memory} {a : Nat} {v : Byte} {c : Host.Cell} (h : c ∈ m.write a v) :
    c ∈ m ∨ (c = (a, v) ∧ v ≠ 0) := by
  induction m with
  | nil =>
    unfold Memory.write at h
    split_ifs at h with h0
    · exact absurd h (by simp)
    · exact Or.inr ⟨by simpa using h, h0⟩
  | cons d m ih =>
    unfold Memory.write at h
    split_ifs at h with h1 h2 h3 h4
    · exact Or.inl h
    · rcases List.mem_cons.1 h with e | h'
      · exact Or.inr ⟨e, h2⟩
      · exact Or.inl h'
    · exact Or.inl (List.mem_cons_of_mem _ h)
    · rcases List.mem_cons.1 h with e | h'
      · exact Or.inr ⟨e, h4⟩
      · exact Or.inl (List.mem_cons_of_mem _ h')
    · rcases List.mem_cons.1 h with e | h'
      · exact Or.inl (by simp [e])
      · rcases ih h' with h'' | h''
        · exact Or.inl (List.mem_cons_of_mem _ h'')
        · exact Or.inr h''

/-- Addresses stay strictly rising under a write. -/
theorem Memory.write_sorted {m : Memory} (a : Nat) (v : Byte) (h : m.Pairwise fun a b => a.1 < b.1) :
    (m.write a v).Pairwise fun a b => a.1 < b.1 := by
  induction m with
  | nil =>
    unfold Memory.write
    split_ifs <;> simp
  | cons c m ih =>
    obtain ⟨h1, h2⟩ := List.pairwise_cons.1 h
    unfold Memory.write
    split_ifs with k1 k2 k3 k4
    · exact h
    · refine List.pairwise_cons.2 ⟨fun d hd => ?_, h⟩
      rcases List.mem_cons.1 hd with e | hd
      · simpa [e] using k1
      · exact k1.trans (h1 d hd)
    · exact h2
    · exact List.pairwise_cons.2 ⟨fun d hd => by simpa [k3] using h1 d hd, h2⟩
    · refine List.pairwise_cons.2 ⟨fun d hd => ?_, ih h2⟩
      rcases Memory.mem_write hd with hd | ⟨e, -⟩
      · exact h1 d hd
      · simp only [e]; omega

/-- A write inside the memory keeps the canonical form. -/
theorem Memory.write_wf {m : Memory} {a : Nat} (v : Byte) (ha : a < memorySize) (h : m.wf) : (m.write a v).wf := by
  refine ⟨Memory.write_sorted a v h.1, fun c hc => ?_⟩
  rcases Memory.mem_write hc with hc | ⟨e, hv⟩
  · exact h.2 c hc
  · subst e; exact ⟨ha, hv⟩

/-- Setting a range to zero keeps the canonical form. -/
theorem Memory.clearRange_wf {m : Memory} (lo hi : Nat) (h : m.wf) : (m.clearRange lo hi).wf :=
  ⟨h.1.filter _, fun c hc => h.2 c (List.mem_filter.1 hc).1⟩

/-- Setting frames to zero keeps the canonical form. -/
theorem Memory.clearFrames_wf {m : Memory} (b : BlockId) (lo hi : Nat) (h : m.wf) : (m.clearFrames b lo hi).wf :=
  Memory.clearRange_wf _ _ h

/-- Writing a sample keeps the canonical form. -/
theorem Memory.writeSample_wf {m : Memory} (b : BlockId) (f : Nat) (x : Sample) (h : m.wf) : (m.writeSample b f x).wf :=
  have ha := sampleAddr_lt b f
  Memory.write_wf _ ha (Memory.write_wf _ (Nat.lt_of_succ_lt ha) h)

/-- An address below every listed one reads as an unlisted one. -/
theorem Memory.read_below {m : Memory} {a : Nat} (h : ∀ c ∈ m, a < c.1) : m.read a = 0 := by
  induction m with
  | nil => rfl
  | cons c m ih =>
    have := h c (by simp)
    unfold Memory.read
    rw [if_neg (by omega)]
    exact ih fun d hd => h d (List.mem_cons_of_mem _ hd)

/-- What reading gives after a write. -/
theorem Memory.read_write {m : Memory} (a : Nat) (v : Byte) (x : Nat) (h : m.Pairwise fun a b => a.1 < b.1) :
    (m.write a v).read x = if x = a then v else m.read x := by
  induction m with
  | nil =>
    unfold Memory.write
    by_cases hx : x = a
    · subst hx
      rw [if_pos rfl]
      split_ifs with h0
      · rw [h0]; rfl
      · rw [Memory.read, if_pos rfl]
    · have : ¬a = x := fun e => hx e.symm
      split_ifs with h0 <;> simp [Memory.read, this]
  | cons c m ih =>
    obtain ⟨h1, h2⟩ := List.pairwise_cons.1 h
    have below : a ≤ c.1 → Memory.read m a = 0 := fun k => Memory.read_below fun d hd => by
      have := h1 d hd; omega
    unfold Memory.write
    by_cases hx : x = a
    · subst hx
      rw [if_pos rfl]
      split_ifs with k1 k2 k3 k4
      · rw [Memory.read, if_neg (by omega), below (by omega), k2]; rfl
      · rw [Memory.read, if_pos rfl]
      · rw [below (by omega), k4]; rfl
      · rw [Memory.read, if_pos rfl]
      · rw [Memory.read, if_neg (by omega), ih h2, if_pos rfl]
    · rw [if_neg hx]
      split_ifs with k1 k2 k3 k4
      · rfl
      · rw [Memory.read, if_neg (by simpa using fun e => hx e.symm)]
      · rw [Memory.read, if_neg (by omega)]
      · rw [Memory.read, Memory.read, if_neg (by simpa using fun e => hx e.symm), if_neg (by omega)]
      · rw [Memory.read, Memory.read, ih h2, if_neg hx]

/-- What reading gives after a range is set to zero. -/
theorem Memory.read_clearRange (m : Memory) (lo hi x : Nat) :
    (m.clearRange lo hi).read x = if lo ≤ x ∧ x < hi then 0 else m.read x := by
  induction m with
  | nil => simp [Memory.clearRange, Memory.read, unlistedByte]
  | cons c m ih =>
    unfold Memory.clearRange at ih ⊢
    rw [List.filter_cons]
    by_cases hc : lo ≤ c.1 ∧ c.1 < hi
    · rw [if_neg (by simp [hc.1, hc.2]), ih, Memory.read]
      by_cases e : c.1 = x
      · rw [if_pos (by omega), if_pos (by omega)]
      · rw [if_neg e]
    · rw [if_pos (by simp; omega), Memory.read, Memory.read, ih]
      by_cases e : c.1 = x
      · rw [if_pos e, if_neg (by omega), if_pos e]
      · rw [if_neg e, if_neg e]

/-- A sample written changes its own two bytes alone. -/
theorem Memory.read_writeSample {m : Memory} (b : BlockId) (f : Nat) (v : Sample) (x : Nat) (h : m.wf)
    (hx : x ≠ sampleAddr b f ∧ x ≠ sampleAddr b f + 1) : (m.writeSample b f v).read x = m.read x := by
  unfold Memory.writeSample
  rw [Memory.read_write _ _ _ (Memory.write_sorted _ _ h.1), if_neg hx.2, Memory.read_write _ _ _ h.1, if_neg hx.1]

/-- A sample written reads back. -/
theorem Memory.sample_writeSample {m : Memory} (b : BlockId) (f : Nat) (v : Sample) (h : m.wf) :
    (m.writeSample b f v).sample b f = v := by
  have hs := Memory.write_sorted (sampleAddr b f) (v.extractLsb' 0 8) h.1
  unfold Memory.sample Memory.writeSample
  rw [Memory.read_write _ _ _ hs, Memory.read_write _ _ _ hs, if_pos rfl, if_neg (by omega), Memory.read_write _ _ _ h.1,
    if_pos rfl]
  ext i hi
  simp only [BitVec.getElem_append]
  split
  · simp only [BitVec.getElem_extractLsb', Nat.zero_add]
    exact BitVec.getLsbD_eq_getElem (show i < 16 by omega)
  · have e : 8 + (i - 8) = i := by omega
    simp only [BitVec.getElem_extractLsb', e]
    exact BitVec.getLsbD_eq_getElem (show i < 16 by omega)

end Sys2Proof.Machine
end

