-- ==== Sys2Proof/Laws/Keeps.lean ====
section
/-! SUPPORT. What every shared operation keeps: the queue of waiting commands, the request queue and the replies, the
limit on queued reports, and each of the legal forms of Safety. Each operation has one lemma, `<operation>_keeps`. -/

namespace Sys2Proof.Machine

/-- The replies in the transmit queue. -/
def Link.replies (l : Link) : List Frame := l.tx.filter fun f => !(f.kind.toNat < 0x80)

/-- From s to t nothing is lost of what the shared operations keep; of the link port only the transmit queue and the
reports-lost flag may change, and the replies stay. -/
structure Keeps (s t : State) : Prop where
  pending : t.pending = s.pending
  sup : t.sup = s.sup
  outputs : t.outputs = s.outputs
  link : t.link = { s.link with tx := t.link.tx, lost := t.link.lost }
  replies : t.link.replies = s.link.replies
  reports : s.link.reportsQueued ≤ 16 → t.link.reportsQueued ≤ 16
  memory : s.memoryLegal → t.memoryLegal
  clock : s.clockLegal → t.clockLegal
  pool : s.poolLegal → t.poolLegal
  queues : s.queuesLegal → t.queuesLegal

theorem Keeps.refl (s : State) : Keeps s s := ⟨rfl, rfl, rfl, rfl, rfl, id, id, id, id, id⟩

theorem Keeps.trans {s t u : State} (h : Keeps s t) (k : Keeps t u) : Keeps s u :=
  ⟨k.pending.trans h.pending, k.sup.trans h.sup, k.outputs.trans h.outputs, by rw [k.link, h.link], k.replies.trans h.replies, fun x => k.reports (h.reports x),
    fun x => k.memory (h.memory x), fun x => k.clock (h.clock x), fun x => k.pool (h.pool x),
    fun x => k.queues (h.queues x)⟩

theorem Keeps.ite {c : Prop} [Decidable c] {s t u : State} (h : Keeps s t) (k : Keeps s u) :
    Keeps s (if c then t else u) := by split <;> assumption

theorem Keeps.foldl {α : Type} {f : State → α → State} (h : ∀ s x, Keeps s (f s x)) (l : List α) (s : State) :
    Keeps s (l.foldl f s) := by
  induction l generalizing s with
  | nil => exact Keeps.refl s
  | cons x l ih => exact (h s x).trans (ih _)

/-- The bar clock is legal wherever it and the waiting tempo are the same. -/
theorem State.clockLegal_congr {s t : State} (hc : t.clock = s.clock) (ht : t.bnd.tempo = s.bnd.tempo)
    (h : s.clockLegal) : t.clockLegal := by
  obtain ⟨h1, h2, h3, h4, h5, h6, h7, h8, h9⟩ := h
  constructor <;> rw [hc]
  all_goals first | assumption | (rw [ht]; assumption)

/-- The pool is legal wherever the block table is the same and every map names what it named, or nothing. -/
theorem State.poolLegal_congr {s t : State} (hp : t.pool.free = s.pool.free)
    (he : ∀ b, (t.pool.entry b).map (·.owner) = (s.pool.entry b).map (·.owner))
    (hl : ∀ x l', t.layer x = some l' →
      namedBlocks l'.map = [] ∨ ∃ l, s.layer x = some l ∧ namedBlocks l'.map = namedBlocks l.map)
    (h : s.poolLegal) : t.poolLegal := by
  refine ⟨hp ▸ h.freeOnce, fun b => ?_, fun x l' hx b hb => ?_, fun x l' hx => ?_⟩
  · have e := he b
    rw [hp, h.freeIff b]
    cases h1 : t.pool.entry b <;> cases h2 : s.pool.entry b <;> simp_all
  · rw [he]
    rcases hl x l' hx with e | ⟨l, hs, e⟩
    · simp [e] at hb
    · exact h.named x l hs b (e ▸ hb)
  · rcases hl x l' hx with e | ⟨l, hs, e⟩
    · simp [e]
    · rw [e]; exact h.namedOnce x l hs

/-- A change of fields that no legal form reads. -/
theorem Keeps.of_same {s t : State} (h1 : t.pending = s.pending) (h2 : t.link = s.link) (h3 : t.mem = s.mem)
    (h4 : t.clock = s.clock) (h5 : t.bnd.tempo = s.bnd.tempo) (h6 : t.pool = s.pool) (h7 : t.layers = s.layers)
    (h8 : t.cues.list = s.cues.list) (h9 : t.bounce.queue.length = s.bounce.queue.length)
    (h10 : t.tones.queue = s.tones.queue)
    (h11 : t.sup = s.sup) (h12 : t.outputs = s.outputs) : Keeps s t := by
  refine ⟨h1, h11, h12, by rw [h2], by rw [h2], by rw [h2]; exact id, ?_, State.clockLegal_congr h4 h5, ?_, ?_⟩
  · unfold State.memoryLegal; rw [h3]; exact id
  · refine State.poolLegal_congr (by rw [h6]) (by rw [h6]; exact fun _ => rfl) fun x l' hx => Or.inr ⟨l', ?_, rfl⟩
    rw [← hx]; unfold State.layer; rw [h7]
  · unfold State.queuesLegal; rw [h8, h9, h10]; exact id

/-! ### Reports -/

theorem reportWith_keeps (s : State) (hd : List Byte) (r : Report) (p : List Byte) : Keeps s (s.reportWith hd r p) := by
  have hl := State.reportWith_link s hd r p
  have hk : (decide (r.kind.toNat < 0x80)) = true := decide_eq_true r.kind_lt
  refine ⟨by simp, by simp, by simp, by rw [hl], ?_, ?_, by unfold State.memoryLegal; simp,
    State.clockLegal_congr (by simp) (by simp), ?_, by unfold State.queuesLegal; simp⟩
  · unfold Link.replies
    rcases State.reportWith_tx s hd r p with h | ⟨-, h⟩ <;> rw [h]
    simp [hk]
  · unfold Link.reportsQueued
    rcases State.reportWith_tx s hd r p with h | ⟨h0, h⟩ <;> rw [h]
    · exact id
    · unfold Link.reportsQueued at h0
      intro _
      simp only [List.filter_append, List.length_append, List.filter_cons, hk, if_true, List.filter_nil,
        List.length_singleton]
      omega
  · exact State.poolLegal_congr (by simp) (by simp) fun x l' hx => Or.inr ⟨l', by simpa [State.layer] using hx, rfl⟩

theorem report_keeps (s : State) (r : Report) (p : List Byte) : Keeps s (s.report r p) := reportWith_keeps ..

/-! ### Layers whose maps stay -/

theorem setLayer_keeps (s : State) (x : LayerId) (o : Option Layer)
    (h : ∀ l', o = some l' →
      namedBlocks l'.map = [] ∨ ∃ l, s.layer x = some l ∧ namedBlocks l'.map = namedBlocks l.map) :
    Keeps s (s.setLayer x o) := by
  refine ⟨rfl, rfl, rfl, rfl, rfl, id, id, State.clockLegal_congr rfl rfl, ?_, id⟩
  refine State.poolLegal_congr rfl (fun _ => rfl) fun y l' hy => ?_
  by_cases e : y = x
  · subst e
    rw [State.layer_setLayer_same] at hy
    exact h l' hy
  · rw [State.layer_setLayer_other _ _ _ _ e] at hy
    exact Or.inr ⟨l', hy, rfl⟩

theorem modLayer_keeps (s : State) (x : LayerId) (f : Layer → Layer) (h : ∀ l, (f l).map = l.map) :
    Keeps s (s.modLayer x f) := by
  refine setLayer_keeps s x _ fun l' e => Or.inr ?_
  obtain ⟨l, hl, e⟩ := Option.map_eq_some_iff.1 e
  exact ⟨l, hl, by rw [← e, h]⟩

theorem setPin_keeps (s : State) (pin : Option Byte) (x : LayerId) : Keeps s (s.setPin pin x) :=
  modLayer_keeps _ _ _ fun _ => rfl

theorem setPins_keeps (s : State) (pin : Option Byte) (xs : List LayerId) : Keeps s (s.setPins pin xs) :=
  Keeps.foldl (fun s x => setPin_keeps s pin x) xs s

theorem sealLayer_keeps (s : State) (x : LayerId) : Keeps s (s.sealLayer x) := modLayer_keeps _ _ _ fun _ => rfl

theorem namedBlocks_replicate (n : Nat) : namedBlocks (List.replicate n none) = [] := by
  simp [namedBlocks]

theorem takeRecord_keeps (s : State) (x : LayerId) (t : TrackId) (origin : Origin) (n : Nat)
    (mask : Option (BitVec 4)) (parents : List LayerId) :
    Keeps s (s.takeRecord x t origin (List.replicate n none) mask parents) := by
  refine setLayer_keeps s x _ fun l' e => Or.inl ?_
  obtain rfl := (Option.some.inj e).symm
  exact namedBlocks_replicate n

/-! ### Tracks, heads, mutes, voices -/

theorem modTrack_keeps (s : State) (t : TrackId) (f : Track → Track) : Keeps s (s.modTrack t f) :=
  Keeps.of_same rfl rfl rfl rfl rfl rfl rfl rfl rfl rfl rfl rfl

theorem setHead_keeps (s : State) (h : HeadId) (r : Option Recording) : Keeps s (s.setHead h r) := by
  cases h <;> exact Keeps.of_same rfl rfl rfl rfl rfl rfl rfl rfl rfl rfl rfl rfl

theorem modHead_keeps (s : State) (h : HeadId) (f : Recording → Recording) : Keeps s (s.modHead h f) :=
  setHead_keeps _ _ _

theorem releaseVoice_keeps (s : State) (x : LayerId) : Keeps s (s.releaseVoice x) :=
  Keeps.of_same rfl rfl rfl rfl rfl rfl rfl rfl rfl rfl rfl rfl

theorem joinWait_keeps (s : State) (x : LayerId) : Keeps s (s.joinWait x) :=
  Keeps.of_same rfl rfl rfl rfl rfl rfl rfl rfl rfl rfl rfl rfl

theorem gainSpan_keeps (s : State) (t : TrackId) (span : Span) (pass : Nat) : Keeps s (s.gainSpan t span pass) :=
  modTrack_keeps ..

theorem trimSpan_keeps (s : State) (t : TrackId) : Keeps s (s.trimSpan t) := modTrack_keeps ..

theorem armOneShot_keeps (s : State) (t : TrackId) : Keeps s (s.armOneShot t) :=
  Keeps.ite (modTrack_keeps ..) (Keeps.refl _)

theorem reportWait_keeps (s : State) (t : TrackId) (x : LayerId) : Keeps s (s.reportWait t x) := report_keeps ..

theorem mix_keeps (s : State) (m : Mix) : Keeps s { s with mix := m } :=
  Keeps.of_same rfl rfl rfl rfl rfl rfl rfl rfl rfl rfl rfl rfl

theorem claimVoice_keeps (s : State) (t : TrackId) (x : LayerId) : Keeps s (s.claimVoice t x) := by
  unfold State.claimVoice
  refine Keeps.ite (Keeps.refl _) (Keeps.ite (joinWait_keeps ..) ?_)
  split
  · exact (mix_keeps s _).trans (armOneShot_keeps ..)
  · exact (joinWait_keeps ..).trans (reportWait_keeps ..)

theorem reportGrant_keeps (s : State) (w : Waiting) (v : VoiceId) : Keeps s (s.reportGrant w v) := by
  unfold State.reportGrant
  split
  · exact report_keeps ..
  · exact Keeps.refl _

theorem armGranted_keeps (s : State) (x : LayerId) : Keeps s (s.armGranted x) := by
  unfold State.armGranted
  split
  · exact armOneShot_keeps ..
  · exact Keeps.refl _

theorem grantOne_keeps (s : State) (start : Bool) (v : VoiceId) (w : Waiting) (ws : List Waiting) :
    Keeps s (s.grantOne start v w ws) := by
  have h : Keeps s { s with mix := { s.mix.give v w.layer with wait := ws } } :=
    Keeps.of_same rfl rfl rfl rfl rfl rfl rfl rfl rfl rfl rfl rfl
  exact (Keeps.ite h (h.trans (reportGrant_keeps ..))).trans (armGranted_keeps ..)

theorem grantLoop_keeps (start : Bool) (n : Nat) (s : State) : Keeps s (State.grantLoop start n s) := by
  induction n generalizing s with
  | zero => exact Keeps.refl s
  | succ n ih =>
    unfold State.grantLoop
    split
    · exact (grantOne_keeps ..).trans (ih _)
    · exact Keeps.refl s

theorem grantPass_keeps (s : State) : Keeps s s.grantPass := by
  have h : Keeps s { s with bnd := { s.bnd with grant := .none } } :=
    Keeps.of_same rfl rfl rfl rfl rfl rfl rfl rfl rfl rfl rfl rfl
  unfold State.grantPass
  split
  · exact Keeps.refl s
  · exact h.trans (grantLoop_keeps ..)
  · refine h.trans ((grantLoop_keeps ..).trans (Keeps.foldl (fun s w => ?_) _ _))
    split
    · exact reportWait_keeps ..
    · exact Keeps.refl s

theorem muteTrack_keeps (s : State) (t : TrackId) : Keeps s (s.muteTrack t) :=
  Keeps.ite (Keeps.refl s) ((modTrack_keeps ..).trans (Keeps.foldl releaseVoice_keeps _ _))

theorem unmuteTrack_keeps (s : State) (t : TrackId) : Keeps s (s.unmuteTrack t) := by
  unfold State.unmuteTrack
  refine Keeps.ite ?_ (Keeps.refl s)
  refine Keeps.trans ?_ (Keeps.ite (armOneShot_keeps ..) (Keeps.refl _))
  exact Keeps.trans (modTrack_keeps ..) (Keeps.foldl (fun s x => claimVoice_keeps s t x) _ _)

/-! ### The block pool -/

theorem Pool.entry_setCheck (p : Pool) (b c : BlockId) (k : Check) :
    ((p.setCheck b k).entry c).map (·.owner) = (p.entry c).map (·.owner) := by
  unfold Pool.entry Pool.setCheck
  simp only [List.find?_map, Option.map_map]
  have e : ((fun e : BlockId × Owned => e.1 == c) ∘ fun e => if e.1 = b then (e.1, { e.2 with check := k }) else e)
      = fun e => e.1 == c := by
    funext e; simp only [Function.comp]; split <;> rfl
  rw [e]
  congr 1
  funext e
  simp only [Function.comp]
  split <;> rfl

theorem setCheck_keeps (s : State) (b : BlockId) (k : Check) : Keeps s { s with pool := s.pool.setCheck b k } :=
  ⟨rfl, rfl, rfl, rfl, rfl, id, id, State.clockLegal_congr rfl rfl,
    State.poolLegal_congr rfl (fun c => s.pool.entry_setCheck b c k) fun _ l' hx => Or.inr ⟨l', hx, rfl⟩, id⟩

theorem closeBlock_keeps (s : State) (b : BlockId) : Keeps s (s.closeBlock b) := setCheck_keeps ..

theorem reopenBlock_keeps (s : State) (b : BlockId) : Keeps s (s.reopenBlock b) := setCheck_keeps ..

theorem find_putOwned (l : List (BlockId × Owned)) (b c : BlockId) (o : Owned) :
    ((putOwned l b o).find? fun e => e.1 == c) = if c = b then some (b, o) else l.find? fun e => e.1 == c := by
  induction l with
  | nil =>
    by_cases h : c = b
    · subst h; simp [putOwned]
    · have : ¬b = c := fun e => h e.symm
      simp [putOwned, h, this]
  | cons e l ih =>
    unfold putOwned
    by_cases h : c = b
    · subst h
      rw [if_pos rfl] at ih ⊢
      split_ifs with h1 h2
      · rw [List.find?_cons, beq_self_eq_true]
      · rw [List.find?_cons, beq_self_eq_true]
      · rw [List.find?_cons, ih, beq_eq_false_iff_ne.2 fun k => h2 k.symm]
    · have hb : (b == c) = false := beq_eq_false_iff_ne.2 fun e => h e.symm
      rw [if_neg h] at ih ⊢
      split_ifs with h1 h2
      · rw [List.find?_cons, hb]
      · rw [List.find?_cons, List.find?_cons, ← h2, hb]
      · rw [List.find?_cons, List.find?_cons, ih]

/-- A map with an entry named names that block and nothing else it did not name. -/
theorem namedBlocks_nameEntry {m : List (Option BlockId)} {k : Nat} {b c : BlockId}
    (h : c ∈ namedBlocks (nameEntry m k b)) : c = b ∨ c ∈ namedBlocks m := by
  simp only [namedBlocks, List.mem_filterMap, id, exists_eq_right] at h ⊢
  unfold nameEntry at h
  split_ifs at h
  · rcases List.mem_or_eq_of_mem_set h with h | h
    · exact Or.inr h
    · exact Or.inl (Option.some.inj h)
  · simp only [List.mem_append, List.mem_singleton] at h
    rcases h with h | h
    · exact Or.inr h
    · exact Or.inl (Option.some.inj h)

theorem namedBlocks_cons (o : Option BlockId) (m : List (Option BlockId)) :
    namedBlocks (o :: m) = o.toList ++ namedBlocks m := by cases o <;> rfl

theorem namedBlocks_append (m n : List (Option BlockId)) : namedBlocks (m ++ n) = namedBlocks m ++ namedBlocks n :=
  List.filterMap_append ..

theorem namedBlocks_set_nodup {m : List (Option BlockId)} (k : Nat) {b : BlockId} (h : (namedBlocks m).Nodup)
    (hb : b ∉ namedBlocks m) : (namedBlocks (m.set k (some b))).Nodup := by
  induction m generalizing k with
  | nil => simpa using h
  | cons o m ih =>
    rw [namedBlocks_cons] at h hb
    have hm := (List.nodup_append.1 h).2.1
    have hbm : b ∉ namedBlocks m := fun e => hb (List.mem_append_right _ e)
    cases k with
    | zero =>
      rw [List.set_cons_zero, namedBlocks_cons]
      exact List.nodup_cons.2 ⟨hbm, hm⟩
    | succ k =>
      rw [List.set_cons_succ, namedBlocks_cons]
      cases o with
      | none => simpa using ih k hm hbm
      | some c =>
        refine List.nodup_cons.2 ⟨fun e => ?_, ih k hm hbm⟩
        have e' : c ∈ namedBlocks (m.set k (some b)) := e
        have hc : c = b ∨ c ∈ namedBlocks m := by
          simp only [namedBlocks, List.mem_filterMap, id, exists_eq_right] at e' ⊢
          rcases List.mem_or_eq_of_mem_set e' with e' | e'
          · exact Or.inr e'
          · exact Or.inl (Option.some.inj e')
        rcases hc with hc | hc
        · exact hb (by simp [hc])
        · exact (List.nodup_cons.1 h).1 hc

theorem namedBlocks_nameEntry_nodup {m : List (Option BlockId)} (k : Nat) {b : BlockId} (h : (namedBlocks m).Nodup)
    (hb : b ∉ namedBlocks m) : (namedBlocks (nameEntry m k b)).Nodup := by
  unfold nameEntry
  split_ifs
  · exact namedBlocks_set_nodup k h hb
  · rw [namedBlocks_append]
    refine List.nodup_append.2 ⟨h, by simp [namedBlocks], fun c hc d hd e => hb ?_⟩
    have : d = b := by simpa [namedBlocks] using hd
    rw [← this, ← e]; exact hc

/-- A change of the pool that leaves the free list and the block table. -/
theorem pool_keeps {s : State} {p : Pool} (hf : p.free = s.pool.free) (ho : p.owned = s.pool.owned) :
    Keeps s { s with pool := p } :=
  ⟨rfl, rfl, rfl, rfl, rfl, id, id, State.clockLegal_congr rfl rfl,
    State.poolLegal_congr hf (fun b => by simp only [Pool.entry, ho]) fun _ l' hx => Or.inr ⟨l', hx, rfl⟩, id⟩

theorem lowTest_keeps (s : State) (c : Claimant) (x : LayerId) : Keeps s (s.lowTest c x) := by
  unfold State.lowTest
  refine Keeps.ite (Keeps.trans ?_ (report_keeps ..)) (Keeps.refl s)
  exact pool_keeps rfl rfl

theorem emptyTest_keeps (s : State) (h : HeadId) (t : TrackId) (x : LayerId) (k : Nat) (cut : Bool) :
    Keeps s (s.emptyTest h t x k cut) := by
  unfold State.emptyTest
  refine Keeps.ite (Keeps.trans ?_ (report_keeps ..)) (Keeps.refl s)
  exact pool_keeps rfl rfl

/-- The head of the free list goes to a layer, whose map then names it. -/
theorem allocate_legal {s t : State} {x : LayerId} {k : Nat} {b : BlockId} {rest : List BlockId}
    (hf : s.pool.free = b :: rest) (hp : t.pool.free = rest)
    (he : ∀ d, t.pool.entry d = if d = b then some { owner := x, index := k, check := .none } else s.pool.entry d)
    (hl : ∀ y l', t.layer y = some l' → (y ≠ x ∧ s.layer y = some l')
      ∨ (y = x ∧ ∃ l, s.layer x = some l ∧ l'.map = nameEntry l.map k b)) (h : s.poolLegal) : t.poolLegal := by
  have hbn : s.pool.entry b = none := (h.freeIff b).1 (by simp [hf])
  have hne : ∀ y l, s.layer y = some l → b ∉ namedBlocks l.map := fun y l hy hb => by
    have := h.named y l hy b hb
    simp [hbn] at this
  have hn := h.freeOnce
  rw [hf] at hn
  obtain ⟨hn1, hn2⟩ := List.nodup_cons.1 hn
  refine ⟨hp ▸ hn2, fun d => ?_, fun y l' hy d hd => ?_, fun y l' hy => ?_⟩
  · have := h.freeIff d
    rw [hf] at this
    rw [hp, he]
    by_cases e : d = b
    · subst e; simpa using hn1
    · rw [if_neg e, ← this]; simp [e]
  · rw [he]
    rcases hl y l' hy with ⟨-, hs⟩ | ⟨e, l, hs, em⟩
    · rw [if_neg (fun e : d = b => hne y l' hs (e ▸ hd))]
      exact h.named y l' hs d hd
    · rw [em] at hd
      rcases namedBlocks_nameEntry hd with hd | hd
      · simp [hd, e]
      · rw [if_neg (fun k : d = b => hne x l hs (k ▸ hd)), e]
        exact h.named x l hs d hd
  · rcases hl y l' hy with ⟨-, hs⟩ | ⟨-, l, hs, em⟩
    · exact h.namedOnce y l' hs
    · rw [em]
      exact namedBlocks_nameEntry_nodup k (h.namedOnce x l hs) (hne x l hs)

theorem allocate_keeps (s : State) (c : Claimant) (x : LayerId) (k : Nat) (b : BlockId) (rest : List BlockId)
    (hf : s.pool.free = b :: rest) : Keeps s (s.allocate c x k b rest) := by
  refine Keeps.trans ?_ (lowTest_keeps ..)
  refine ⟨rfl, rfl, rfl, rfl, rfl, id, id, State.clockLegal_congr rfl rfl, allocate_legal (x := x) (k := k) hf rfl ?_ ?_, id⟩
  · intro d
    simp only [State.modLayer_pool, Pool.entry, find_putOwned]
    split <;> rfl
  · intro y l' hy
    by_cases e : y = x
    · subst e
      rw [State.layer_modLayer_same] at hy
      obtain ⟨l, hl, e⟩ := Option.map_eq_some_iff.1 hy
      exact Or.inr ⟨rfl, l, hl, by rw [← e]⟩
    · rw [State.layer_modLayer_other _ _ _ _ e] at hy
      exact Or.inl ⟨e, hy⟩

theorem claim_keeps {s t : State} {c : Claimant} {x : LayerId} {k : Nat} {b : BlockId}
    (h : s.claim c x k = some (b, t)) : Keeps s t := by
  unfold State.claim at h
  split at h
  · exact absurd h (by simp)
  · rename_i b' rest hf
    split at h
    · exact absurd h (by simp)
    · obtain ⟨-, rfl⟩ := Prod.mk.inj (Option.some.inj h)
      exact allocate_keeps _ _ _ _ _ _ hf

theorem Pool.entry_release (p : Pool) (bs : List BlockId) (b : BlockId) :
    (p.release bs).entry b = if b ∈ bs then none else p.entry b := by
  unfold Pool.entry Pool.release
  simp only [List.find?_filter]
  by_cases h : b ∈ bs
  · rw [if_pos h, Option.map_eq_none_iff, List.find?_eq_none]
    intro e _
    by_cases k : e.1 = b
    · simp [k, h]
    · simp [k]
  · rw [if_neg h]
    congr 2
    funext e
    by_cases k : e.1 = b
    · simp [k, h]
    · simp [k]

/-- Blocks that one layer names are freed, and its map names them no longer. -/
theorem release_legal {s t : State} (bs : List BlockId) (x : LayerId) (hp : t.pool = s.pool.release bs)
    (hbs : s.poolLegal → bs.Nodup ∧ ∀ b ∈ bs, (s.pool.entry b).map (·.owner) = some x)
    (hy : ∀ y, y ≠ x → t.layer y = s.layer y)
    (hx : ∀ l', t.layer x = some l' → ∃ l, s.layer x = some l ∧ (namedBlocks l'.map).Sublist (namedBlocks l.map)
      ∧ (s.poolLegal → ∀ b ∈ namedBlocks l'.map, b ∉ bs)) (h : s.poolLegal) : t.poolLegal := by
  obtain ⟨hb1, hb2⟩ := hbs h
  have ho : ∀ b ∈ bs, s.pool.entry b ≠ none := fun b hb e => by
    have := hb2 b hb
    simp [e] at this
  refine ⟨?_, fun b => ?_, fun y l' hl b hb => ?_, fun y l' hl => ?_⟩
  · rw [hp]
    exact List.nodup_append.2 ⟨h.freeOnce, hb1, fun c hc d hd e => ho d hd ((h.freeIff d).1 (e ▸ hc))⟩
  · rw [hp, Pool.entry_release]
    change b ∈ s.pool.free ++ bs ↔ _
    rw [List.mem_append, h.freeIff]
    by_cases k : b ∈ bs <;> simp [k]
  · rw [hp, Pool.entry_release]
    by_cases e : y = x
    · subst e
      obtain ⟨l, hs, hsub, hd⟩ := hx l' hl
      rw [if_neg (hd h b hb)]
      exact h.named y l hs b (hsub.subset hb)
    · rw [hy y e] at hl
      rw [if_neg fun k => e (Option.some.inj ((h.named y l' hl b hb).symm.trans (hb2 b k)))]
      exact h.named y l' hl b hb
  · by_cases e : y = x
    · subst e
      obtain ⟨l, hs, hsub, -⟩ := hx l' hl
      exact (h.namedOnce y l hs).sublist hsub
    · rw [hy y e] at hl
      exact h.namedOnce y l' hl

end Sys2Proof.Machine
end

