-- ==== Sys2Proof/Laws/Stays.lean ====
section
/-! SUPPORT. What the operations over layers, blocks, voices, tracks, heads and bounces never touch: the cue queue, the
tones, the sequencer, the boundary in progress, and of the bar clock all but the loop. Each operation has one lemma,
`<operation>_stays`. -/

namespace Sys2Proof.Machine

/-- From s to t the cue queue, the tones, the sequencer and the boundary in progress are the same, and of the bar clock
at most the loop length, the bar in loop, the loop position and the mark of a loop length just set differ. -/
structure Stays (s t : State) : Prop where
  cues : t.cues = s.cues
  tones : t.tones = s.tones
  scenes : t.scenes = s.scenes
  bnd : t.bnd = s.bnd
  clock : t.clock = { s.clock with loop := t.clock.loop, bar := t.clock.bar, loopPos := t.clock.loopPos, loopSet := t.clock.loopSet }

theorem Stays.refl (s : State) : Stays s s := ⟨rfl, rfl, rfl, rfl, rfl⟩

theorem Stays.trans {s t u : State} (h : Stays s t) (k : Stays t u) : Stays s u :=
  ⟨k.cues.trans h.cues, k.tones.trans h.tones, k.scenes.trans h.scenes, k.bnd.trans h.bnd, by rw [k.clock, h.clock]⟩

theorem Stays.ite {c : Prop} [Decidable c] {s t u : State} (h : Stays s t) (k : Stays s u) :
    Stays s (if c then t else u) := by split <;> assumption

theorem Stays.foldl {α : Type} {f : State → α → State} (h : ∀ s x, Stays s (f s x)) (l : List α) (s : State) :
    Stays s (l.foldl f s) := by
  induction l generalizing s with
  | nil => exact Stays.refl s
  | cons x l ih => exact (h s x).trans (ih _)

theorem reportWith_stays (s : State) (hd : List Byte) (r : Report) (p : List Byte) : Stays s (s.reportWith hd r p) := by
  refine ⟨by simp, by simp, by simp, by simp, by simp⟩

theorem report_stays (s : State) (r : Report) (p : List Byte) : Stays s (s.report r p) := reportWith_stays ..

theorem modLayer_stays (s : State) (x : LayerId) (f : Layer → Layer) : Stays s (s.modLayer x f) :=
  ⟨rfl, rfl, rfl, rfl, rfl⟩

theorem setPin_stays (s : State) (pin : Option Byte) (x : LayerId) : Stays s (s.setPin pin x) := modLayer_stays ..

theorem setPins_stays (s : State) (pin : Option Byte) (xs : List LayerId) : Stays s (s.setPins pin xs) :=
  Stays.foldl (fun s x => setPin_stays s pin x) xs s

theorem sealLayer_stays (s : State) (x : LayerId) : Stays s (s.sealLayer x) := modLayer_stays ..

theorem takeRecord_stays (s : State) (x : LayerId) (t : TrackId) (origin : Origin) (map : List (Option BlockId))
    (mask : Option (BitVec 4)) (parents : List LayerId) : Stays s (s.takeRecord x t origin map mask parents) :=
  ⟨rfl, rfl, rfl, rfl, rfl⟩

theorem modTrack_stays (s : State) (t : TrackId) (f : Track → Track) : Stays s (s.modTrack t f) :=
  ⟨rfl, rfl, rfl, rfl, rfl⟩

theorem setHead_stays (s : State) (h : HeadId) (r : Option Recording) : Stays s (s.setHead h r) := by
  cases h <;> exact ⟨rfl, rfl, rfl, rfl, rfl⟩

theorem modHead_stays (s : State) (h : HeadId) (f : Recording → Recording) : Stays s (s.modHead h f) :=
  setHead_stays _ _ _

theorem releaseVoice_stays (s : State) (x : LayerId) : Stays s (s.releaseVoice x) :=
  ⟨rfl, rfl, rfl, rfl, rfl⟩

theorem joinWait_stays (s : State) (x : LayerId) : Stays s (s.joinWait x) :=
  ⟨rfl, rfl, rfl, rfl, rfl⟩

theorem gainSpan_stays (s : State) (t : TrackId) (span : Span) (pass : Nat) : Stays s (s.gainSpan t span pass) :=
  modTrack_stays ..

theorem trimSpan_stays (s : State) (t : TrackId) : Stays s (s.trimSpan t) := modTrack_stays ..

theorem armOneShot_stays (s : State) (t : TrackId) : Stays s (s.armOneShot t) :=
  Stays.ite (modTrack_stays ..) (Stays.refl _)

theorem reportWait_stays (s : State) (t : TrackId) (x : LayerId) : Stays s (s.reportWait t x) := report_stays ..

theorem mix_stays (s : State) (m : Mix) : Stays s { s with mix := m } :=
  ⟨rfl, rfl, rfl, rfl, rfl⟩

theorem claimVoice_stays (s : State) (t : TrackId) (x : LayerId) : Stays s (s.claimVoice t x) := by
  unfold State.claimVoice
  refine Stays.ite (Stays.refl _) (Stays.ite (joinWait_stays ..) ?_)
  split
  · exact (mix_stays s _).trans (armOneShot_stays ..)
  · exact (joinWait_stays ..).trans (reportWait_stays ..)

theorem muteTrack_stays (s : State) (t : TrackId) : Stays s (s.muteTrack t) :=
  Stays.ite (Stays.refl s) ((modTrack_stays ..).trans (Stays.foldl releaseVoice_stays _ _))

theorem unmuteTrack_stays (s : State) (t : TrackId) : Stays s (s.unmuteTrack t) := by
  unfold State.unmuteTrack
  refine Stays.ite ?_ (Stays.refl s)
  refine Stays.trans ?_ (Stays.ite (armOneShot_stays ..) (Stays.refl _))
  exact Stays.trans (modTrack_stays ..) (Stays.foldl (fun s x => claimVoice_stays s t x) _ _)

theorem setCheck_stays (s : State) (b : BlockId) (k : Check) : Stays s { s with pool := s.pool.setCheck b k } :=
  ⟨rfl, rfl, rfl, rfl, rfl⟩

theorem closeBlock_stays (s : State) (b : BlockId) : Stays s (s.closeBlock b) := setCheck_stays ..

theorem reopenBlock_stays (s : State) (b : BlockId) : Stays s (s.reopenBlock b) := setCheck_stays ..

theorem lowTest_stays (s : State) (c : Claimant) (x : LayerId) : Stays s (s.lowTest c x) := by
  unfold State.lowTest
  refine Stays.ite (Stays.trans ?_ (report_stays ..)) (Stays.refl s)
  exact ⟨rfl, rfl, rfl, rfl, rfl⟩

theorem emptyTest_stays (s : State) (h : HeadId) (t : TrackId) (x : LayerId) (k : Nat) (cut : Bool) :
    Stays s (s.emptyTest h t x k cut) := by
  unfold State.emptyTest
  refine Stays.ite (Stays.trans ?_ (report_stays ..)) (Stays.refl s)
  exact ⟨rfl, rfl, rfl, rfl, rfl⟩

theorem allocate_stays (s : State) (c : Claimant) (x : LayerId) (k : Nat) (b : BlockId) (rest : List BlockId) :
    Stays s (s.allocate c x k b rest) := by
  refine Stays.trans ?_ (lowTest_stays ..)
  exact ⟨rfl, rfl, rfl, rfl, rfl⟩

theorem claim_stays {s t : State} {c : Claimant} {x : LayerId} {k : Nat} {b : BlockId}
    (h : s.claim c x k = some (b, t)) : Stays s t := by
  unfold State.claim at h
  split at h
  · exact absurd h (by simp)
  · rename_i b' rest hf
    split at h
    · exact absurd h (by simp)
    · obtain ⟨-, rfl⟩ := Prod.mk.inj (Option.some.inj h)
      exact allocate_stays ..

theorem mem_stays (s : State) (m : Memory) : Stays s { s with mem := m } := ⟨rfl, rfl, rfl, rfl, rfl⟩

theorem reportLoop_stays (s : State) : Stays s s.reportLoop := report_stays ..

theorem clearLoop_stays (s : State) : Stays s s.clearLoop := by
  unfold State.clearLoop
  split
  · exact Stays.refl s
  · refine Stays.trans ?_ (reportLoop_stays _)
    exact ⟨rfl, rfl, rfl, rfl, rfl⟩

theorem pushLayer_stays (s : State) (t : TrackId) (x : LayerId) : Stays s (s.pushLayer t x) := modTrack_stays ..

theorem unlist_stays (s : State) (t : TrackId) (x : LayerId) : Stays s (s.unlist t x) := modTrack_stays ..

theorem freeLayer_stays (s : State) (x : LayerId) : Stays s (s.freeLayer x) := by
  unfold State.freeLayer
  split
  · exact Stays.refl s
  · rename_i l _
    have h1 : Stays s (((s.unlist l.track x).freeBlocks (namedBlocks l.map)).setLayer x none) :=
      ⟨rfl, rfl, rfl, rfl, rfl⟩
    have h2 := h1.trans ((releaseVoice_stays _ x).trans (trimSpan_stays _ l.track))
    exact Stays.ite (h2.trans (clearLoop_stays _)) h2

theorem discardLayer_stays (s : State) (t : TrackId) (x : LayerId) (reason : DiscardReason) :
    Stays s (s.discardLayer t x reason) := (freeLayer_stays s x).trans (report_stays ..)

theorem discardRedo_stays (s : State) (t : TrackId) : Stays s (s.discardRedo t) :=
  Stays.foldl (fun s x => discardLayer_stays s t x _) _ _

theorem enqueueBounce_stays (s : State) (fold auto : Bool) (sources : List LayerId) (dest : TrackId)
    (levels muteSources : Bool) : Stays s (s.enqueueBounce fold auto sources dest levels muteSources) := by
  have h1 := setPins_stays s (some s.bounce.nextId) sources
  unfold State.enqueueBounce
  dsimp only
  refine Stays.trans (Stays.ite (c := fold = true) h1 (h1.trans (modTrack_stays ..)))
    ⟨rfl, rfl, rfl, rfl, rfl⟩

theorem freeProduct_stays (s : State) (e : Bounce) : Stays s (s.freeProduct e) := by
  unfold State.freeProduct
  split
  · exact freeLayer_stays ..
  · exact Stays.refl s

theorem unreserve_stays (s : State) (e : Bounce) : Stays s (s.unreserve e) :=
  Stays.ite (Stays.refl s) ((modTrack_stays ..).trans (trimSpan_stays ..))

theorem removeBounce_stays (s : State) (i : Nat) : Stays s (s.removeBounce i) := ⟨rfl, rfl, rfl, rfl, rfl⟩

theorem unfreshHead_stays (s : State) : Stays s s.unfreshHead :=
  ⟨rfl, rfl, rfl, rfl, rfl⟩

theorem abortBounce_stays (s : State) (i : Nat) (cause : AbortCause) : Stays s (s.abortBounce i cause) := by
  unfold State.abortBounce
  split
  · exact Stays.refl s
  · exact (freeProduct_stays ..).trans ((setPins_stays ..).trans ((unreserve_stays ..).trans
      ((removeBounce_stays ..).trans (report_stays ..))))

theorem abortWhere_stays (f : State → Bounce → Option AbortCause) (n : Nat) (s : State) :
    Stays s (State.abortWhere f n s) := by
  induction n generalizing s with
  | zero => exact Stays.refl s
  | succ n ih =>
    unfold State.abortWhere
    split
    · exact Stays.refl s
    · split
      · exact Stays.refl s
      · exact (abortBounce_stays ..).trans (ih _)

theorem abortBounces_stays (s : State) (f : State → Bounce → Option AbortCause) : Stays s (s.abortBounces f) :=
  abortWhere_stays ..

theorem autoFold_stays (s : State) (t : TrackId) : Stays s (s.autoFold t) := by
  unfold State.autoFold
  refine Stays.ite (Stays.refl s) ?_
  split
  · exact Stays.ite (report_stays ..) (enqueueBounce_stays ..)
  · exact Stays.refl s

theorem setRun_stays (s : State) (r : Run) : Stays s (s.setRun r) := ⟨rfl, rfl, rfl, rfl, rfl⟩

theorem fillFrame_stays (s : State) (e : Bounce) (r : Run) : Stays s (s.fillFrame e r) := by
  unfold State.fillFrame
  split
  · exact Stays.refl s
  · exact mem_stays ..

theorem bounceFrame_stays (s : State) : Stays s s.bounceFrame := by
  unfold State.bounceFrame
  split
  · exact Stays.refl s
  · split
    · exact Stays.refl s
    · split
      · exact setRun_stays ..
      · exact Stays.refl s
      · exact Stays.ite ((fillFrame_stays ..).trans (setRun_stays ..)) (Stays.refl s)

theorem startBounce_stays (s : State) (e : Bounce) : Stays s (s.startBounce e) := by
  unfold State.startBounce
  split
  · exact abortBounce_stays ..
  · exact (takeRecord_stays ..).trans (setRun_stays ..)

theorem beginIndex_stays (s : State) (e : Bounce) (r : Run) : Stays s (s.beginIndex e r) := by
  unfold State.beginIndex
  refine Stays.ite (setRun_stays ..) ?_
  split
  · exact (abortBounce_stays ..).trans (unfreshHead_stays _)
  · rename_i h
    exact (claim_stays h).trans ((fillFrame_stays ..).trans (setRun_stays ..))

theorem claimsServed_stays (s : State) : Stays s s.claimsServed := ⟨rfl, rfl, rfl, rfl, rfl⟩

theorem beginHead_stays (s : State) : Stays s s.beginHead := by
  unfold State.beginHead
  split
  · exact Stays.refl s
  · split
    · exact Stays.refl s
    · exact Stays.ite ((beginIndex_stays ..).trans (claimsServed_stays _)) (Stays.refl s)

theorem claimAtEnd_stays (s : State) (t : TrackId) (p : LayerId) : Stays s (s.claimAtEnd t p) :=
  (claimVoice_stays s t p).trans (mix_stays ..)

theorem handVoice_stays (s : State) (x p : LayerId) : Stays s (s.handVoice x p) := by
  unfold State.handVoice
  split
  · exact mix_stays ..
  · exact releaseVoice_stays ..

theorem placeFold_stays (s : State) (t : TrackId) (x y p : LayerId) : Stays s (s.placeFold t x y p) :=
  (modTrack_stays ..).trans (sealLayer_stays ..)

theorem placeCopy_stays (s : State) (d : TrackId) (p : LayerId) : Stays s (s.placeCopy d p) :=
  (modTrack_stays ..).trans (sealLayer_stays ..)

theorem reportDone_stays (s : State) (e : Bounce) (r : Run) (n : Nat) (b : Bool) : Stays s (s.reportDone e r n b) :=
  report_stays ..

theorem completeFold_stays (s : State) (e : Bounce) (r : Run) : Stays s (s.completeFold e r) := by
  unfold State.completeFold
  split
  · exact Stays.refl s
  · exact (placeFold_stays ..).trans ((handVoice_stays ..).trans ((freeLayer_stays ..).trans ((freeLayer_stays ..).trans
      ((claimAtEnd_stays ..).trans ((armOneShot_stays ..).trans ((removeBounce_stays ..).trans
        ((reportDone_stays ..).trans (unfreshHead_stays _))))))))

theorem autoFoldAtEnd_stays (s : State) (t : TrackId) : Stays s (s.autoFoldAtEnd t) := by
  unfold State.autoFoldAtEnd
  exact (autoFold_stays s t).trans (⟨rfl, rfl, rfl, rfl, rfl⟩)

theorem muteSourceTracks_stays (s : State) (e : Bounce) : Stays s (s.muteSourceTracks e) :=
  Stays.ite (Stays.foldl muteTrack_stays _ _) (Stays.refl s)

theorem completeCopy_stays (s : State) (e : Bounce) (r : Run) : Stays s (s.completeCopy e r) :=
  (discardRedo_stays s e.dest).trans ((placeCopy_stays ..).trans ((setPins_stays ..).trans
    ((muteSourceTracks_stays ..).trans ((claimAtEnd_stays ..).trans ((armOneShot_stays ..).trans
      ((removeBounce_stays ..).trans ((reportDone_stays ..).trans ((unfreshHead_stays _).trans (autoFoldAtEnd_stays ..)))))))))

theorem finishIndex_stays (s : State) (e : Bounce) (r : Run) : Stays s (s.finishIndex e r) := by
  have h : Stays s (match s.mapEntry r.product r.progress with
      | some b => s.closeBlock b
      | none => s) := by
    split
    · exact closeBlock_stays ..
    · exact Stays.refl s
  have h2 := fun r1 => h.trans (setRun_stays _ r1)
  exact Stays.ite (h2 _) (Stays.ite ((h2 _).trans (completeFold_stays ..)) ((h2 _).trans (completeCopy_stays ..)))

theorem closeOpen_stays (s : State) (r : Recording) : Stays s (s.closeOpen r) := by
  unfold State.closeOpen
  refine Stays.ite (Stays.refl s) ?_
  split
  · exact Stays.refl s
  · exact Stays.trans (Stays.ite (Stays.refl s) (mem_stays ..)) (closeBlock_stays ..)

theorem reportSealed_stays (s : State) (h : HeadId) (r : Recording) (reason : SealReason) (bars : Nat) :
    Stays s (s.reportSealed h r reason bars) := by
  unfold State.reportSealed
  split
  · exact Stays.refl s
  · exact report_stays ..

theorem afterSeal_stays (s : State) (r : Recording) : Stays s (s.afterSeal r) :=
  (claimVoice_stays ..).trans ((armOneShot_stays ..).trans (autoFold_stays ..))

theorem sealRecording_stays (s : State) (h : HeadId) (r : Recording) (reason : SealReason) (bars : Nat) :
    Stays s (s.sealRecording h r reason bars) :=
  (sealLayer_stays ..).trans ((setHead_stays ..).trans ((reportSealed_stays ..).trans (afterSeal_stays ..)))

theorem discardRecording_stays (s : State) (h : HeadId) (r : Recording) (reason : DiscardReason) :
    Stays s (s.discardRecording h r reason) := (setHead_stays ..).trans (discardLayer_stays ..)

theorem shortenMap_stays (s : State) (x : LayerId) (k : Nat) : Stays s (s.shortenMap x k) := by
  unfold State.shortenMap
  split
  · exact Stays.refl s
  · exact ⟨rfl, rfl, rfl, rfl, rfl⟩

theorem zeroPasses_stays (s : State) : Stays s s.zeroPasses :=
  ⟨rfl, rfl, rfl, rfl, rfl⟩

theorem advancePasses_stays (s : State) : Stays s s.advancePasses :=
  ⟨rfl, rfl, rfl, rfl, rfl⟩

theorem establish_stays (s : State) (k pos : Nat) : Stays s (s.establish k pos) := by
  refine Stays.trans ?_ (reportLoop_stays _)
  refine Stays.trans ?_ (zeroPasses_stays _)
  exact ⟨rfl, rfl, rfl, rfl, rfl⟩

theorem sealDefining_stays (s : State) (h : HeadId) (r : Recording) (k pos : Nat) (reason : SealReason) :
    Stays s (s.sealDefining h r k pos reason) :=
  (shortenMap_stays ..).trans ((closeOpen_stays ..).trans ((establish_stays ..).trans (sealRecording_stays ..)))

theorem sealNow_stays (s : State) (h : HeadId) (r : Recording) (reason : SealReason) : Stays s (s.sealNow h r reason) :=
  Stays.ite (discardRecording_stays ..) ((closeOpen_stays ..).trans (sealRecording_stays ..))

theorem cutDefining_stays (s : State) (h : HeadId) (r : Recording) (pos : Nat) (reason : SealReason) :
    Stays s (s.cutDefining h r pos reason) := Stays.ite (discardRecording_stays ..) (sealDefining_stays ..)

theorem cutHead_stays (s : State) (reason : SealReason) (h : HeadId) : Stays s (s.cutHead reason h) := by
  unfold State.cutHead
  split
  · exact Stays.refl s
  · split
    · refine Stays.trans ?_ (cutDefining_stays ..)
      exact ⟨rfl, rfl, rfl, rfl, rfl⟩
    · exact sealNow_stays ..

theorem cutHeads_stays (s : State) (reason : SealReason) : Stays s (s.cutHeads reason) :=
  (cutHead_stays ..).trans (cutHead_stays ..)

theorem beginRecording_stays (s : State) (h : HeadId) (x : LayerId) (origin : Origin) (map : List (Option BlockId))
    (r : Recording) : Stays s (s.beginRecording h x origin map r) :=
  (takeRecord_stays ..).trans ((pushLayer_stays ..).trans (setHead_stays ..))

theorem startFixed_stays (s : State) (h : HeadId) (x : LayerId) (t : TrackId) (span : Span) :
    Stays s (s.startFixed h x t span) := (gainSpan_stays ..).trans (beginRecording_stays ..)

theorem startDub_stays (s : State) (t : TrackId) (chain : Bool) : Stays s (s.startDub t chain) := by
  unfold State.startDub
  dsimp only
  split
  · exact (discardRedo_stays ..).trans (beginRecording_stays ..)
  · exact Stays.refl s

theorem doDub_stays (s : State) (t : TrackId) (chain : Bool) : Stays s (s.doDub t chain).2 := by
  unfold State.doDub
  split
  · exact Stays.refl s
  · exact startDub_stays ..

theorem claimFails_stays (s : State) (h : HeadId) (r : Recording) (i : Nat) : Stays s (s.claimFails h r i) := by
  unfold State.claimFails
  split
  · exact (emptyTest_stays ..).trans (cutDefining_stays ..)
  · exact (modLayer_stays ..).trans ((setHead_stays ..).trans (emptyTest_stays ..))

theorem enterNew_stays (s : State) (h : HeadId) (r : Recording) (i f : Nat) : Stays s (s.enterNew h r i f) := by
  unfold State.enterNew
  split
  · exact claimFails_stays ..
  · rename_i hc
    exact (claim_stays hc).trans ((mem_stays ..).trans (setHead_stays ..))

theorem enterIndex_stays (s : State) (h : HeadId) (r : Recording) (i f : Nat) : Stays s (s.enterIndex h r i f) := by
  unfold State.enterIndex
  dsimp only
  split
  · exact (closeOpen_stays ..).trans ((reopenBlock_stays ..).trans (setHead_stays ..))
  · exact (closeOpen_stays ..).trans (enterNew_stays ..)

theorem writeHead_stays (s : State) (r : Recording) (i f : Nat) (x : Int) : Stays s (s.writeHead r i f x) := by
  unfold State.writeHead
  split
  · exact Stays.refl s
  · exact (mem_stays ..).trans (modLayer_stays ..)

theorem stepHead_stays (s : State) (h : HeadId) (i f : Nat) (ins : Vector Sample 4) :
    Stays s (s.stepHead h i f ins) := by
  unfold State.stepHead
  split
  · exact Stays.refl s
  · exact (Stays.ite (Stays.refl s) (writeHead_stays ..)).trans (modHead_stays ..)

theorem enterHead_stays (s : State) (h : HeadId) : Stays s (s.enterHead h) := by
  unfold State.enterHead
  split
  · exact Stays.refl s
  · exact Stays.ite (Stays.refl s) (enterIndex_stays ..)

theorem advanceHead_stays (s : State) (ins : Vector Sample 4) (h : HeadId) : Stays s (s.advanceHead ins h) := by
  unfold State.advanceHead
  split
  · exact Stays.refl s
  · exact (enterHead_stays ..).trans (stepHead_stays ..)

theorem recorderAtBar_stays (s : State) (h : HeadId) : Stays s (s.recorderAtBar h) := by
  unfold State.recorderAtBar
  split
  · exact Stays.refl s
  · refine Stays.ite (Stays.refl s) ?_
    split
    · exact sealDefining_stays ..
    · exact Stays.ite (Stays.refl s) (setHead_stays ..)

theorem sealPending_stays (s : State) (h : HeadId) (r : Recording) (reason : SealReason) :
    Stays s (s.sealPending h r reason) := by
  unfold State.sealPending
  split
  · exact sealDefining_stays ..
  · exact sealNow_stays ..

theorem sealAhead_stays (s : State) (h : HeadId) (r : Recording) : Stays s (s.sealAhead h r) := by
  have h1 := sealDefining_stays s.atNextBar h r (s.wholeBars r) 0 .endRec
  exact ⟨h1.cues, h1.tones, h1.scenes, h1.bnd, rfl⟩

theorem sealEndRec_stays (s : State) (h : HeadId) (r : Recording) : Stays s (s.sealEndRec h r) := by
  unfold State.sealEndRec
  refine Stays.ite ?_ (sealNow_stays ..)
  have h1 := sealNow_stays s.atNextBar h r .endRec
  exact ⟨h1.cues, h1.tones, h1.scenes, h1.bnd, by dsimp only; rw [h1.clock]; rfl⟩

theorem doEndRec_stays (s : State) (t : TrackId) : Stays s (s.doEndRec t).2 := by
  unfold State.doEndRec
  split
  · exact Stays.refl s
  · split
    · exact Stays.refl s
    · split
      · split
        · exact sealDefining_stays ..
        · split
          · exact sealAhead_stays ..
          · exact setHead_stays ..
      · exact sealEndRec_stays ..

theorem continueChain_stays (s : State) (h : HeadId) (r : Recording) : Stays s (s.continueChain h r) := by
  unfold State.continueChain
  split
  · exact Stays.refl s
  · exact beginRecording_stays ..

theorem endAtLength_stays (s : State) (h : HeadId) (r : Recording) : Stays s (s.endAtLength h r) :=
  Stays.ite (((closeOpen_stays ..).trans (sealRecording_stays ..)).trans (continueChain_stays ..))
    ((closeOpen_stays ..).trans (sealRecording_stays ..))

theorem windDown_stays (s : State) (h : HeadId) : Stays s (s.windDown h) := modHead_stays ..

theorem sceneAction_stays (s : State) (act : SceneAct) (t : TrackId) : Stays s (s.sceneAction act t) := by
  unfold State.sceneAction
  refine Stays.ite (Stays.refl s) ?_
  split
  · exact Stays.refl s
  · exact unmuteTrack_stays ..
  · exact muteTrack_stays ..

theorem abortRecording_stays (s : State) (t : TrackId) (reason : DiscardReason) :
    Stays s (s.abortRecording t reason) := by
  unfold State.abortRecording
  split
  · exact Stays.refl s
  · split
    · exact Stays.refl s
    · exact discardRecording_stays ..

theorem moveToRedo_stays (s : State) (t : TrackId) (x : LayerId) : Stays s (s.moveToRedo t x) :=
  (modTrack_stays ..).trans ((modLayer_stays ..).trans (releaseVoice_stays ..))

theorem undoTop_stays (s : State) (t : TrackId) (x : LayerId) : Stays s (s.undoTop t x) :=
  (abortBounces_stays ..).trans ((abortBounces_stays ..).trans (moveToRedo_stays ..))

theorem doUndo_stays (s : State) (t : TrackId) : Stays s (s.doUndo t).2 := by
  unfold State.doUndo
  split
  · exact Stays.refl s
  · exact abortRecording_stays ..
  · exact abortRecording_stays ..
  · split
    · exact Stays.refl s
    · exact undoTop_stays ..

theorem moveFromRedo_stays (s : State) (t : TrackId) (x : LayerId) (rest : List LayerId) :
    Stays s (s.moveFromRedo t x rest) := (modTrack_stays ..).trans (modLayer_stays ..)

theorem afterRedo_stays (s : State) (t : TrackId) (x : LayerId) : Stays s (s.afterRedo t x) :=
  (claimVoice_stays ..).trans ((Stays.ite (armOneShot_stays ..) (Stays.refl _)).trans (autoFold_stays ..))

theorem doRedo_stays (s : State) (t : TrackId) : Stays s (s.doRedo t).2 := by
  unfold State.doRedo
  split
  · exact Stays.refl s
  · split
    · exact Stays.refl s
    · split
      · exact Stays.refl s
      · exact (moveFromRedo_stays ..).trans (afterRedo_stays ..)

theorem clearTrack_stays (s : State) (t : TrackId) : Stays s (s.clearTrack t) :=
  (abortRecording_stays ..).trans ((abortBounces_stays ..).trans ((Stays.foldl freeLayer_stays _ _).trans
    ((Stays.foldl freeLayer_stays _ _).trans (modTrack_stays ..))))

end Sys2Proof.Machine
end

