-- ==== Sys2Proof/Laws/Heads.lean ====
section
/-! SUPPORT. What the operations over layers, blocks, voices, tracks and bounces leave of the heads: both records as they
are. Each operation has one lemma, `<operation>_heads`. -/

namespace Sys2Proof.Machine

/-- From s to t the record heads and the count of free values used are the same. -/
structure SameHeads (s t : State) : Prop where
  head0 : t.head0 = s.head0
  head1 : t.head1 = s.head1
  freeCount : t.freeCount = s.freeCount

theorem SameHeads.refl (s : State) : SameHeads s s := ⟨rfl, rfl, rfl⟩

theorem SameHeads.trans {s t u : State} (h : SameHeads s t) (k : SameHeads t u) : SameHeads s u :=
  ⟨k.head0.trans h.head0, k.head1.trans h.head1, k.freeCount.trans h.freeCount⟩

theorem SameHeads.ite {c : Prop} [Decidable c] {s t u : State} (h : SameHeads s t) (k : SameHeads s u) :
    SameHeads s (if c then t else u) := by split <;> assumption

theorem SameHeads.foldl {α : Type} {f : State → α → State} (h : ∀ s x, SameHeads s (f s x)) (l : List α) (s : State) :
    SameHeads s (l.foldl f s) := by
  induction l generalizing s with
  | nil => exact SameHeads.refl s
  | cons x l ih => exact (h s x).trans (ih _)

theorem report_heads (s : State) (r : Report) (p : List Byte) : SameHeads s (s.report r p) :=
  ⟨by simp, by simp, by simp⟩

theorem modLayer_heads (s : State) (x : LayerId) (f : Layer → Layer) : SameHeads s (s.modLayer x f) :=
  ⟨rfl, rfl, rfl⟩

theorem setPin_heads (s : State) (pin : Option Byte) (x : LayerId) : SameHeads s (s.setPin pin x) := modLayer_heads ..

theorem setPins_heads (s : State) (pin : Option Byte) (xs : List LayerId) : SameHeads s (s.setPins pin xs) :=
  SameHeads.foldl (fun s x => setPin_heads s pin x) xs s

theorem sealLayer_heads (s : State) (x : LayerId) : SameHeads s (s.sealLayer x) := modLayer_heads ..

theorem takeRecord_heads (s : State) (x : LayerId) (t : TrackId) (origin : Origin) (map : List (Option BlockId))
    (mask : Option (BitVec 4)) (parents : List LayerId) : SameHeads s (s.takeRecord x t origin map mask parents) :=
  ⟨rfl, rfl, rfl⟩

theorem modTrack_heads (s : State) (t : TrackId) (f : Track → Track) : SameHeads s (s.modTrack t f) :=
  ⟨rfl, rfl, rfl⟩

theorem releaseVoice_heads (s : State) (x : LayerId) : SameHeads s (s.releaseVoice x) :=
  ⟨rfl, rfl, rfl⟩

theorem joinWait_heads (s : State) (x : LayerId) : SameHeads s (s.joinWait x) :=
  ⟨rfl, rfl, rfl⟩

theorem gainSpan_heads (s : State) (t : TrackId) (span : Span) (pass : Nat) : SameHeads s (s.gainSpan t span pass) :=
  modTrack_heads ..

theorem trimSpan_heads (s : State) (t : TrackId) : SameHeads s (s.trimSpan t) := modTrack_heads ..

theorem armOneShot_heads (s : State) (t : TrackId) : SameHeads s (s.armOneShot t) :=
  SameHeads.ite (modTrack_heads ..) (SameHeads.refl _)

theorem reportWait_heads (s : State) (t : TrackId) (x : LayerId) : SameHeads s (s.reportWait t x) := report_heads ..

theorem mix_heads (s : State) (m : Mix) : SameHeads s { s with mix := m } :=
  ⟨rfl, rfl, rfl⟩

theorem claimVoice_heads (s : State) (t : TrackId) (x : LayerId) : SameHeads s (s.claimVoice t x) := by
  unfold State.claimVoice
  refine SameHeads.ite (SameHeads.refl _) (SameHeads.ite (joinWait_heads ..) ?_)
  split
  · exact (mix_heads s _).trans (armOneShot_heads ..)
  · exact (joinWait_heads ..).trans (reportWait_heads ..)

theorem muteTrack_heads (s : State) (t : TrackId) : SameHeads s (s.muteTrack t) :=
  SameHeads.ite (SameHeads.refl s) ((modTrack_heads ..).trans (SameHeads.foldl releaseVoice_heads _ _))

theorem unmuteTrack_heads (s : State) (t : TrackId) : SameHeads s (s.unmuteTrack t) := by
  unfold State.unmuteTrack
  refine SameHeads.ite ?_ (SameHeads.refl s)
  refine SameHeads.trans ?_ (SameHeads.ite (armOneShot_heads ..) (SameHeads.refl _))
  exact SameHeads.trans (modTrack_heads ..) (SameHeads.foldl (fun s x => claimVoice_heads s t x) _ _)

theorem setCheck_heads (s : State) (b : BlockId) (k : Check) : SameHeads s { s with pool := s.pool.setCheck b k } :=
  ⟨rfl, rfl, rfl⟩

theorem closeBlock_heads (s : State) (b : BlockId) : SameHeads s (s.closeBlock b) := setCheck_heads ..

theorem reopenBlock_heads (s : State) (b : BlockId) : SameHeads s (s.reopenBlock b) := setCheck_heads ..

theorem lowTest_heads (s : State) (c : Claimant) (x : LayerId) : SameHeads s (s.lowTest c x) := by
  unfold State.lowTest
  refine SameHeads.ite (SameHeads.trans ?_ (report_heads ..)) (SameHeads.refl s)
  exact ⟨rfl, rfl, rfl⟩

theorem emptyTest_heads (s : State) (h : HeadId) (t : TrackId) (x : LayerId) (k : Nat) (cut : Bool) :
    SameHeads s (s.emptyTest h t x k cut) := by
  unfold State.emptyTest
  refine SameHeads.ite (SameHeads.trans ?_ (report_heads ..)) (SameHeads.refl s)
  exact ⟨rfl, rfl, rfl⟩

theorem allocate_heads (s : State) (c : Claimant) (x : LayerId) (k : Nat) (b : BlockId) (rest : List BlockId) :
    SameHeads s (s.allocate c x k b rest) := by
  refine SameHeads.trans ?_ (lowTest_heads ..)
  exact ⟨rfl, rfl, rfl⟩

theorem claim_heads {s t : State} {c : Claimant} {x : LayerId} {k : Nat} {b : BlockId}
    (h : s.claim c x k = some (b, t)) : SameHeads s t := by
  unfold State.claim at h
  split at h
  · exact absurd h (by simp)
  · rename_i b' rest hf
    split at h
    · exact absurd h (by simp)
    · obtain ⟨-, rfl⟩ := Prod.mk.inj (Option.some.inj h)
      exact allocate_heads ..

theorem mem_heads (s : State) (m : Memory) : SameHeads s { s with mem := m } := ⟨rfl, rfl, rfl⟩

theorem reportLoop_heads (s : State) : SameHeads s s.reportLoop := report_heads ..

theorem clearLoop_heads (s : State) : SameHeads s s.clearLoop := by
  unfold State.clearLoop
  split
  · exact SameHeads.refl s
  · refine SameHeads.trans ?_ (reportLoop_heads _)
    exact ⟨rfl, rfl, rfl⟩

theorem pushLayer_heads (s : State) (t : TrackId) (x : LayerId) : SameHeads s (s.pushLayer t x) := modTrack_heads ..

theorem unlist_heads (s : State) (t : TrackId) (x : LayerId) : SameHeads s (s.unlist t x) := modTrack_heads ..

theorem freeLayer_heads (s : State) (x : LayerId) : SameHeads s (s.freeLayer x) := by
  unfold State.freeLayer
  split
  · exact SameHeads.refl s
  · rename_i l _
    have h1 : SameHeads s (((s.unlist l.track x).freeBlocks (namedBlocks l.map)).setLayer x none) :=
      ⟨rfl, rfl, rfl⟩
    have h2 := h1.trans ((releaseVoice_heads _ x).trans (trimSpan_heads _ l.track))
    exact SameHeads.ite (h2.trans (clearLoop_heads _)) h2

theorem discardLayer_heads (s : State) (t : TrackId) (x : LayerId) (reason : DiscardReason) :
    SameHeads s (s.discardLayer t x reason) := (freeLayer_heads s x).trans (report_heads ..)

theorem discardRedo_heads (s : State) (t : TrackId) : SameHeads s (s.discardRedo t) :=
  SameHeads.foldl (fun s x => discardLayer_heads s t x _) _ _

theorem enqueueBounce_heads (s : State) (fold auto : Bool) (sources : List LayerId) (dest : TrackId)
    (levels muteSources : Bool) : SameHeads s (s.enqueueBounce fold auto sources dest levels muteSources) := by
  have h1 := setPins_heads s (some s.bounce.nextId) sources
  unfold State.enqueueBounce
  dsimp only
  refine SameHeads.trans (SameHeads.ite (c := fold = true) h1 (h1.trans (modTrack_heads ..)))
    ⟨rfl, rfl, rfl⟩

theorem freeProduct_heads (s : State) (e : Bounce) : SameHeads s (s.freeProduct e) := by
  unfold State.freeProduct
  split
  · exact freeLayer_heads ..
  · exact SameHeads.refl s

theorem unreserve_heads (s : State) (e : Bounce) : SameHeads s (s.unreserve e) :=
  SameHeads.ite (SameHeads.refl s) ((modTrack_heads ..).trans (trimSpan_heads ..))

theorem removeBounce_heads (s : State) (i : Nat) : SameHeads s (s.removeBounce i) := ⟨rfl, rfl, rfl⟩

theorem unfreshHead_heads (s : State) : SameHeads s s.unfreshHead :=
  ⟨rfl, rfl, rfl⟩

theorem abortBounce_heads (s : State) (i : Nat) (cause : AbortCause) : SameHeads s (s.abortBounce i cause) := by
  unfold State.abortBounce
  split
  · exact SameHeads.refl s
  · exact (freeProduct_heads ..).trans ((setPins_heads ..).trans ((unreserve_heads ..).trans
      ((removeBounce_heads ..).trans (report_heads ..))))

theorem abortWhere_heads (f : State → Bounce → Option AbortCause) (n : Nat) (s : State) :
    SameHeads s (State.abortWhere f n s) := by
  induction n generalizing s with
  | zero => exact SameHeads.refl s
  | succ n ih =>
    unfold State.abortWhere
    split
    · exact SameHeads.refl s
    · split
      · exact SameHeads.refl s
      · exact (abortBounce_heads ..).trans (ih _)

theorem abortBounces_heads (s : State) (f : State → Bounce → Option AbortCause) : SameHeads s (s.abortBounces f) :=
  abortWhere_heads ..

theorem autoFold_heads (s : State) (t : TrackId) : SameHeads s (s.autoFold t) := by
  unfold State.autoFold
  refine SameHeads.ite (SameHeads.refl s) ?_
  split
  · exact SameHeads.ite (report_heads ..) (enqueueBounce_heads ..)
  · exact SameHeads.refl s

theorem setRun_heads (s : State) (r : Run) : SameHeads s (s.setRun r) := ⟨rfl, rfl, rfl⟩

theorem fillFrame_heads (s : State) (e : Bounce) (r : Run) : SameHeads s (s.fillFrame e r) := by
  unfold State.fillFrame
  split
  · exact SameHeads.refl s
  · exact mem_heads ..

theorem bounceFrame_heads (s : State) : SameHeads s s.bounceFrame := by
  unfold State.bounceFrame
  split
  · exact SameHeads.refl s
  · split
    · exact SameHeads.refl s
    · split
      · exact setRun_heads ..
      · exact SameHeads.refl s
      · exact SameHeads.ite ((fillFrame_heads ..).trans (setRun_heads ..)) (SameHeads.refl s)

theorem startBounce_heads (s : State) (e : Bounce) : SameHeads s (s.startBounce e) := by
  unfold State.startBounce
  split
  · exact abortBounce_heads ..
  · exact (takeRecord_heads ..).trans (setRun_heads ..)

theorem beginIndex_heads (s : State) (e : Bounce) (r : Run) : SameHeads s (s.beginIndex e r) := by
  unfold State.beginIndex
  refine SameHeads.ite (setRun_heads ..) ?_
  split
  · exact (abortBounce_heads ..).trans (unfreshHead_heads _)
  · rename_i h
    exact (claim_heads h).trans ((fillFrame_heads ..).trans (setRun_heads ..))

theorem beginHead_heads (s : State) : SameHeads s s.beginHead := by
  unfold State.beginHead
  split
  · exact SameHeads.refl s
  · split
    · exact SameHeads.refl s
    · exact SameHeads.ite ((beginIndex_heads ..).trans ⟨rfl, rfl, rfl⟩) (SameHeads.refl s)

theorem claimAtEnd_heads (s : State) (t : TrackId) (p : LayerId) : SameHeads s (s.claimAtEnd t p) :=
  (claimVoice_heads s t p).trans (mix_heads ..)

theorem handVoice_heads (s : State) (x p : LayerId) : SameHeads s (s.handVoice x p) := by
  unfold State.handVoice
  split
  · exact mix_heads ..
  · exact releaseVoice_heads ..

theorem placeFold_heads (s : State) (t : TrackId) (x y p : LayerId) : SameHeads s (s.placeFold t x y p) :=
  (modTrack_heads ..).trans (sealLayer_heads ..)

theorem placeCopy_heads (s : State) (d : TrackId) (p : LayerId) : SameHeads s (s.placeCopy d p) :=
  (modTrack_heads ..).trans (sealLayer_heads ..)

theorem reportDone_heads (s : State) (e : Bounce) (r : Run) (n : Nat) (b : Bool) : SameHeads s (s.reportDone e r n b) :=
  report_heads ..

theorem completeFold_heads (s : State) (e : Bounce) (r : Run) : SameHeads s (s.completeFold e r) := by
  unfold State.completeFold
  split
  · exact SameHeads.refl s
  · exact (placeFold_heads ..).trans ((handVoice_heads ..).trans ((freeLayer_heads ..).trans ((freeLayer_heads ..).trans
      ((claimAtEnd_heads ..).trans ((armOneShot_heads ..).trans ((removeBounce_heads ..).trans
        ((reportDone_heads ..).trans (unfreshHead_heads _))))))))

theorem autoFoldAtEnd_heads (s : State) (t : TrackId) : SameHeads s (s.autoFoldAtEnd t) := by
  unfold State.autoFoldAtEnd
  exact (autoFold_heads s t).trans (⟨rfl, rfl, rfl⟩)

theorem muteSourceTracks_heads (s : State) (e : Bounce) : SameHeads s (s.muteSourceTracks e) :=
  SameHeads.ite (SameHeads.foldl muteTrack_heads _ _) (SameHeads.refl s)

theorem completeCopy_heads (s : State) (e : Bounce) (r : Run) : SameHeads s (s.completeCopy e r) :=
  (discardRedo_heads s e.dest).trans ((placeCopy_heads ..).trans ((setPins_heads ..).trans
    ((muteSourceTracks_heads ..).trans ((claimAtEnd_heads ..).trans ((armOneShot_heads ..).trans
      ((removeBounce_heads ..).trans ((reportDone_heads ..).trans ((unfreshHead_heads _).trans (autoFoldAtEnd_heads ..)))))))))

theorem finishIndex_heads (s : State) (e : Bounce) (r : Run) : SameHeads s (s.finishIndex e r) := by
  have h : SameHeads s (match s.mapEntry r.product r.progress with
      | some b => s.closeBlock b
      | none => s) := by
    split
    · exact closeBlock_heads ..
    · exact SameHeads.refl s
  have h2 := fun r1 => h.trans (setRun_heads _ r1)
  exact SameHeads.ite (h2 _) (SameHeads.ite ((h2 _).trans (completeFold_heads ..)) ((h2 _).trans (completeCopy_heads ..)))

theorem closeOpen_heads (s : State) (r : Recording) : SameHeads s (s.closeOpen r) := by
  unfold State.closeOpen
  refine SameHeads.ite (SameHeads.refl s) ?_
  split
  · exact SameHeads.refl s
  · exact SameHeads.trans (SameHeads.ite (SameHeads.refl s) (mem_heads ..)) (closeBlock_heads ..)

theorem reportSealed_heads (s : State) (h : HeadId) (r : Recording) (reason : SealReason) (bars : Nat) :
    SameHeads s (s.reportSealed h r reason bars) := by
  unfold State.reportSealed
  split
  · exact SameHeads.refl s
  · exact report_heads ..

theorem afterSeal_heads (s : State) (r : Recording) : SameHeads s (s.afterSeal r) :=
  (claimVoice_heads ..).trans ((armOneShot_heads ..).trans (autoFold_heads ..))

theorem shortenMap_heads (s : State) (x : LayerId) (k : Nat) : SameHeads s (s.shortenMap x k) := by
  unfold State.shortenMap
  split
  · exact SameHeads.refl s
  · exact ⟨rfl, rfl, rfl⟩

theorem zeroPasses_heads (s : State) : SameHeads s s.zeroPasses :=
  ⟨rfl, rfl, rfl⟩

theorem advancePasses_heads (s : State) : SameHeads s s.advancePasses :=
  ⟨rfl, rfl, rfl⟩

theorem establish_heads (s : State) (k pos : Nat) : SameHeads s (s.establish k pos) := by
  refine SameHeads.trans ?_ (reportLoop_heads _)
  refine SameHeads.trans ?_ (zeroPasses_heads _)
  exact ⟨rfl, rfl, rfl⟩

theorem writeHead_heads (s : State) (r : Recording) (i f : Nat) (x : Int) : SameHeads s (s.writeHead r i f x) := by
  unfold State.writeHead
  split
  · exact SameHeads.refl s
  · exact (mem_heads ..).trans (modLayer_heads ..)

theorem sceneAction_heads (s : State) (act : SceneAct) (t : TrackId) : SameHeads s (s.sceneAction act t) := by
  unfold State.sceneAction
  refine SameHeads.ite (SameHeads.refl s) ?_
  split
  · exact SameHeads.refl s
  · exact unmuteTrack_heads ..
  · exact muteTrack_heads ..

theorem moveToRedo_heads (s : State) (t : TrackId) (x : LayerId) : SameHeads s (s.moveToRedo t x) :=
  (modTrack_heads ..).trans ((modLayer_heads ..).trans (releaseVoice_heads ..))

theorem undoTop_heads (s : State) (t : TrackId) (x : LayerId) : SameHeads s (s.undoTop t x) :=
  (abortBounces_heads ..).trans ((abortBounces_heads ..).trans (moveToRedo_heads ..))

theorem moveFromRedo_heads (s : State) (t : TrackId) (x : LayerId) (rest : List LayerId) :
    SameHeads s (s.moveFromRedo t x rest) := (modTrack_heads ..).trans (modLayer_heads ..)

theorem afterRedo_heads (s : State) (t : TrackId) (x : LayerId) : SameHeads s (s.afterRedo t x) :=
  (claimVoice_heads ..).trans ((SameHeads.ite (armOneShot_heads ..) (SameHeads.refl _)).trans (autoFold_heads ..))

/-! ### Where a recording ends, its head is idle -/

theorem setHead_heads {s t : State} (h : HeadId) (o : Option Recording) (k : SameHeads s t) :
    SameHeads (s.setHead h o) (t.setHead h o) := by
  cases h
  · exact ⟨rfl, k.head1, k.freeCount⟩
  · exact ⟨k.head0, rfl, k.freeCount⟩

theorem head_setHead (s : State) (h k : HeadId) (o : Option Recording) :
    (s.setHead h o).head k = if k = h then o else s.head k := by
  cases h <;> cases k <;> rfl

theorem SameHeads.head {s t : State} (h : SameHeads s t) (k : HeadId) : t.head k = s.head k := by
  cases k
  · exact h.head0
  · exact h.head1

theorem sealRecording_heads (s : State) (h : HeadId) (r : Recording) (reason : SealReason) (n : Nat) :
    SameHeads (s.setHead h none) (s.sealRecording h r reason n) := by
  have e : SameHeads (s.setHead h none) ((s.sealLayer r.layer).setHead h none) := setHead_heads h none (sealLayer_heads ..)
  exact e.trans ((reportSealed_heads ..).trans (afterSeal_heads ..))

theorem discardRecording_heads (s : State) (h : HeadId) (r : Recording) (reason : DiscardReason) :
    SameHeads (s.setHead h none) (s.discardRecording h r reason) := discardLayer_heads ..

theorem sealDefining_heads (s : State) (h : HeadId) (r : Recording) (k p : Nat) (reason : SealReason) :
    SameHeads (s.setHead h none) (s.sealDefining h r k p reason) :=
  (setHead_heads h none ((shortenMap_heads ..).trans ((closeOpen_heads ..).trans (establish_heads ..)))).trans
    (sealRecording_heads ..)

theorem sealNow_heads (s : State) (h : HeadId) (r : Recording) (reason : SealReason) :
    SameHeads (s.setHead h none) (s.sealNow h r reason) :=
  SameHeads.ite (discardRecording_heads ..)
    ((setHead_heads h none (closeOpen_heads ..)).trans (sealRecording_heads ..))

theorem cutDefining_heads (s : State) (h : HeadId) (r : Recording) (pos : Nat) (reason : SealReason) :
    SameHeads (s.setHead h none) (s.cutDefining h r pos reason) :=
  SameHeads.ite (discardRecording_heads ..) (sealDefining_heads ..)

/-- A cut leaves its head idle and the other head as it was. -/
theorem head_cutHead (s : State) (reason : SealReason) (h k : HeadId) :
    (s.cutHead reason h).head k = if k = h then none else s.head k := by
  unfold State.cutHead
  split
  · rename_i hn
    split
    · rename_i e; rw [e, hn]
    · rfl
  · rename_i r _
    split
    · exact ((cutDefining_heads { s with freeCount := s.freeCount + 1 } h r s.cutPosition reason).head k).trans
        ((head_setHead ..).trans (by cases k <;> rfl))
    · exact ((sealNow_heads ..).head k).trans (head_setHead ..)

/-- Both heads are idle after a cut of both. -/
theorem cutHeads_idle (s : State) (reason : SealReason) :
    (s.cutHeads reason).head0 = none ∧ (s.cutHeads reason).head1 = none := by
  have a := head_cutHead (s.cutHead reason .h0) reason .h1
  have b := head_cutHead s reason .h0 .h0
  exact ⟨(a .h0).trans b, a .h1⟩

end Sys2Proof.Machine
end

