-- ==== Sys2Proof/Laws/KeepsOps.lean ====
section
/-! SUPPORT. What the operations over layers, bounces, the recorder, the scenes, the transport, the tracks and the cues
keep (Laws/Keeps.lean). -/

namespace Sys2Proof.Machine

/-- The bar clock and the tempo mark changed, their legal form kept. -/
theorem clock_keeps {s t : State} (h1 : t.pending = s.pending) (h2 : t.link = s.link) (h3 : t.mem = s.mem)
    (h4 : s.clockLegal → t.clockLegal) (h6 : t.pool = s.pool) (h7 : t.layers = s.layers)
    (h8 : t.cues.list = s.cues.list) (h9 : t.bounce.queue.length = s.bounce.queue.length)
    (h10 : t.tones.queue = s.tones.queue) (h11 : t.sup = s.sup)
    (h12 : t.outputs = s.outputs) : Keeps s t := by
  refine ⟨h1, h11, h12, by rw [h2], by rw [h2], by rw [h2]; exact id, ?_, h4, ?_, ?_⟩
  · unfold State.memoryLegal; rw [h3]; exact id
  · refine State.poolLegal_congr (by rw [h6]) (by rw [h6]; exact fun _ => rfl) fun x l' hx => Or.inr ⟨l', ?_, rfl⟩
    rw [← hx]; unfold State.layer; rw [h7]
  · unfold State.queuesLegal; rw [h8, h9, h10]; exact id

/-- The queues changed, their limits kept. -/
theorem queues_keeps {s t : State} (h1 : t.pending = s.pending) (h2 : t.link = s.link) (h3 : t.mem = s.mem)
    (h4 : t.clock = s.clock) (h5 : t.bnd.tempo = s.bnd.tempo) (h6 : t.pool = s.pool) (h7 : t.layers = s.layers)
    (h9 : t.sup = s.sup) (h10 : t.outputs = s.outputs) (h8 : s.queuesLegal → t.queuesLegal) : Keeps s t := by
  refine ⟨h1, h9, h10, by rw [h2], by rw [h2], by rw [h2]; exact id, ?_, State.clockLegal_congr h4 h5, ?_, h8⟩
  · unfold State.memoryLegal; rw [h3]; exact id
  · refine State.poolLegal_congr (by rw [h6]) (by rw [h6]; exact fun _ => rfl) fun x l' hx => Or.inr ⟨l', ?_, rfl⟩
    rw [← hx]; unfold State.layer; rw [h7]

/-- The sample memory changed, its canonical form kept. -/
theorem mem_keeps (s : State) (m : Memory) (h : s.mem.wf → m.wf) : Keeps s { s with mem := m } :=
  ⟨rfl, rfl, rfl, rfl, rfl, id, h, State.clockLegal_congr rfl rfl,
    State.poolLegal_congr rfl (fun _ => rfl) fun _ l' hx => Or.inr ⟨l', hx, rfl⟩, id⟩

/-! ### Layers -/

theorem reportLoop_keeps (s : State) : Keeps s s.reportLoop := report_keeps ..

theorem clearLoop_keeps (s : State) : Keeps s s.clearLoop := by
  unfold State.clearLoop
  split
  · exact Keeps.refl s
  · refine Keeps.trans ?_ (reportLoop_keeps _)
    refine clock_keeps rfl rfl rfl (fun h => ?_) rfl rfl rfl rfl rfl rfl rfl
    exact { h with bar := ⟨fun _ => rfl, fun l e => absurd e (by simp)⟩ }

theorem pushLayer_keeps (s : State) (t : TrackId) (x : LayerId) : Keeps s (s.pushLayer t x) := modTrack_keeps ..

theorem unlist_keeps (s : State) (t : TrackId) (x : LayerId) : Keeps s (s.unlist t x) := modTrack_keeps ..

theorem freeLayer_keeps (s : State) (x : LayerId) : Keeps s (s.freeLayer x) := by
  unfold State.freeLayer
  split
  · exact Keeps.refl s
  · rename_i l hl
    have h1 : Keeps s (((s.unlist l.track x).freeBlocks (namedBlocks l.map)).setLayer x none) := by
      refine ⟨rfl, rfl, rfl, rfl, rfl, id, id, State.clockLegal_congr rfl rfl, ?_, id⟩
      refine release_legal (namedBlocks l.map) x rfl (fun h => ⟨h.namedOnce x l hl, h.named x l hl⟩) (fun y hy => ?_)
        fun l' e => ?_
      · exact State.layer_setLayer_other _ _ _ _ hy
      · rw [State.layer_setLayer_same] at e
        exact absurd e (by simp)
    have h2 := h1.trans ((releaseVoice_keeps _ x).trans (trimSpan_keeps _ l.track))
    exact Keeps.ite (h2.trans (clearLoop_keeps _)) h2

theorem discardLayer_keeps (s : State) (t : TrackId) (x : LayerId) (reason : DiscardReason) :
    Keeps s (s.discardLayer t x reason) := (freeLayer_keeps s x).trans (report_keeps ..)

theorem discardRedo_keeps (s : State) (t : TrackId) : Keeps s (s.discardRedo t) :=
  Keeps.foldl (fun s x => discardLayer_keeps s t x _) _ _

/-! ### Bounces -/

@[simp] theorem setPins_bounce (s : State) (p : Option Byte) (xs : List LayerId) :
    (s.setPins p xs).bounce = s.bounce := by
  unfold State.setPins
  induction xs generalizing s with
  | nil => rfl
  | cons x xs ih => exact (ih (s.setPin p x))

theorem enqueueBounce_keeps (s : State) (fold auto : Bool) (sources : List LayerId) (dest : TrackId)
    (levels muteSources : Bool) (h : s.bounce.queue.length ≠ 4) :
    Keeps s (s.enqueueBounce fold auto sources dest levels muteSources) := by
  have h1 := setPins_keeps s (some s.bounce.nextId) sources
  unfold State.enqueueBounce
  dsimp only
  refine Keeps.trans (Keeps.ite (c := fold = true) h1 (h1.trans (modTrack_keeps ..)))
    (queues_keeps rfl rfl rfl rfl rfl rfl rfl rfl rfl fun k => ⟨k.1, ?_, k.2.2⟩)
  have hk := k.2.1
  split at hk <;> simp_all <;> omega

theorem freeProduct_keeps (s : State) (e : Bounce) : Keeps s (s.freeProduct e) := by
  unfold State.freeProduct
  split
  · exact freeLayer_keeps ..
  · exact Keeps.refl s

theorem unreserve_keeps (s : State) (e : Bounce) : Keeps s (s.unreserve e) :=
  Keeps.ite (Keeps.refl s) ((modTrack_keeps ..).trans (trimSpan_keeps ..))

theorem removeBounce_keeps (s : State) (i : Nat) : Keeps s (s.removeBounce i) :=
  queues_keeps rfl rfl rfl rfl rfl rfl rfl rfl rfl fun h =>
    ⟨h.1, (List.length_eraseIdx_le ..).trans h.2.1, h.2.2⟩

theorem unfreshHead_keeps (s : State) : Keeps s s.unfreshHead :=
  Keeps.of_same rfl rfl rfl rfl rfl rfl rfl rfl rfl rfl rfl rfl

theorem abortBounce_keeps (s : State) (i : Nat) (cause : AbortCause) : Keeps s (s.abortBounce i cause) := by
  unfold State.abortBounce
  split
  · exact Keeps.refl s
  · exact (freeProduct_keeps ..).trans ((setPins_keeps ..).trans ((unreserve_keeps ..).trans
      ((removeBounce_keeps ..).trans (report_keeps ..))))

theorem abortWhere_keeps (f : State → Bounce → Option AbortCause) (n : Nat) (s : State) :
    Keeps s (State.abortWhere f n s) := by
  induction n generalizing s with
  | zero => exact Keeps.refl s
  | succ n ih =>
    unfold State.abortWhere
    split
    · exact Keeps.refl s
    · split
      · exact Keeps.refl s
      · exact (abortBounce_keeps ..).trans (ih _)

theorem abortBounces_keeps (s : State) (f : State → Bounce → Option AbortCause) : Keeps s (s.abortBounces f) :=
  abortWhere_keeps ..

theorem autoFold_keeps (s : State) (t : TrackId) : Keeps s (s.autoFold t) := by
  unfold State.autoFold
  refine Keeps.ite (Keeps.refl s) ?_
  split
  · split
    · exact report_keeps ..
    · exact enqueueBounce_keeps _ _ _ _ _ _ _ (by assumption)
  · exact Keeps.refl s

theorem setRun_keeps (s : State) (r : Run) : Keeps s (s.setRun r) := by
  refine Keeps.of_same rfl rfl rfl rfl rfl rfl rfl rfl ?_ rfl rfl rfl
  unfold State.setRun
  cases s.bounce.queue <;> rfl

theorem fillFrame_keeps (s : State) (e : Bounce) (r : Run) : Keeps s (s.fillFrame e r) := by
  unfold State.fillFrame
  split
  · exact Keeps.refl s
  · refine mem_keeps _ _ fun h => ?_
    simp only [List.foldl_cons, List.foldl_nil]
    exact Memory.writeSample_wf _ _ _ (Memory.writeSample_wf _ _ _ (Memory.writeSample_wf _ _ _
      (Memory.writeSample_wf _ _ _ h)))

theorem bounceFrame_keeps (s : State) : Keeps s s.bounceFrame := by
  unfold State.bounceFrame
  split
  · exact Keeps.refl s
  · split
    · exact Keeps.refl s
    · split
      · exact setRun_keeps ..
      · exact Keeps.refl s
      · exact Keeps.ite ((fillFrame_keeps ..).trans (setRun_keeps ..)) (Keeps.refl s)

theorem startBounce_keeps (s : State) (e : Bounce) : Keeps s (s.startBounce e) := by
  unfold State.startBounce
  split
  · exact abortBounce_keeps ..
  · exact (takeRecord_keeps ..).trans (setRun_keeps ..)

theorem beginIndex_keeps (s : State) (e : Bounce) (r : Run) : Keeps s (s.beginIndex e r) := by
  unfold State.beginIndex
  refine Keeps.ite (setRun_keeps ..) ?_
  split
  · exact (abortBounce_keeps ..).trans (unfreshHead_keeps _)
  · rename_i h
    exact (claim_keeps h).trans ((fillFrame_keeps ..).trans (setRun_keeps ..))

theorem claimsServed_keeps (s : State) : Keeps s s.claimsServed := pool_keeps rfl rfl

theorem beginHead_keeps (s : State) : Keeps s s.beginHead := by
  unfold State.beginHead
  split
  · exact Keeps.refl s
  · split
    · exact Keeps.refl s
    · exact Keeps.ite ((beginIndex_keeps ..).trans (claimsServed_keeps _)) (Keeps.refl s)

theorem claimAtEnd_keeps (s : State) (t : TrackId) (p : LayerId) : Keeps s (s.claimAtEnd t p) :=
  (claimVoice_keeps s t p).trans (mix_keeps ..)

theorem handVoice_keeps (s : State) (x p : LayerId) : Keeps s (s.handVoice x p) := by
  unfold State.handVoice
  split
  · exact mix_keeps ..
  · exact releaseVoice_keeps ..

theorem placeFold_keeps (s : State) (t : TrackId) (x y p : LayerId) : Keeps s (s.placeFold t x y p) :=
  (modTrack_keeps ..).trans (sealLayer_keeps ..)

theorem placeCopy_keeps (s : State) (d : TrackId) (p : LayerId) : Keeps s (s.placeCopy d p) :=
  (modTrack_keeps ..).trans (sealLayer_keeps ..)

theorem reportDone_keeps (s : State) (e : Bounce) (r : Run) (n : Nat) (b : Bool) : Keeps s (s.reportDone e r n b) :=
  report_keeps ..

theorem completeFold_keeps (s : State) (e : Bounce) (r : Run) : Keeps s (s.completeFold e r) := by
  unfold State.completeFold
  split
  · exact Keeps.refl s
  · exact (placeFold_keeps ..).trans ((handVoice_keeps ..).trans ((freeLayer_keeps ..).trans ((freeLayer_keeps ..).trans
      ((claimAtEnd_keeps ..).trans ((armOneShot_keeps ..).trans ((removeBounce_keeps ..).trans
        ((reportDone_keeps ..).trans (unfreshHead_keeps _))))))))

theorem autoFoldAtEnd_keeps (s : State) (t : TrackId) : Keeps s (s.autoFoldAtEnd t) := by
  unfold State.autoFoldAtEnd
  exact (autoFold_keeps s t).trans (Keeps.of_same rfl rfl rfl rfl rfl rfl rfl rfl rfl rfl rfl rfl)

theorem muteSourceTracks_keeps (s : State) (e : Bounce) : Keeps s (s.muteSourceTracks e) :=
  Keeps.ite (Keeps.foldl muteTrack_keeps _ _) (Keeps.refl s)

theorem completeCopy_keeps (s : State) (e : Bounce) (r : Run) : Keeps s (s.completeCopy e r) :=
  (discardRedo_keeps s e.dest).trans ((placeCopy_keeps ..).trans ((setPins_keeps ..).trans
    ((muteSourceTracks_keeps ..).trans ((claimAtEnd_keeps ..).trans ((armOneShot_keeps ..).trans
      ((removeBounce_keeps ..).trans ((reportDone_keeps ..).trans ((unfreshHead_keeps _).trans (autoFoldAtEnd_keeps ..)))))))))

theorem finishIndex_keeps (s : State) (e : Bounce) (r : Run) : Keeps s (s.finishIndex e r) := by
  have h : Keeps s (match s.mapEntry r.product r.progress with
      | some b => s.closeBlock b
      | none => s) := by
    split
    · exact closeBlock_keeps ..
    · exact Keeps.refl s
  have h2 := fun r1 => h.trans (setRun_keeps _ r1)
  exact Keeps.ite (h2 _) (Keeps.ite ((h2 _).trans (completeFold_keeps ..)) ((h2 _).trans (completeCopy_keeps ..)))

/-! ### The recorder -/

theorem closeOpen_keeps (s : State) (r : Recording) : Keeps s (s.closeOpen r) := by
  unfold State.closeOpen
  refine Keeps.ite (Keeps.refl s) ?_
  split
  · exact Keeps.refl s
  · refine Keeps.trans ?_ (closeBlock_keeps ..)
    exact Keeps.ite (Keeps.refl s) (mem_keeps _ _ fun h => Memory.clearFrames_wf _ _ _ h)

theorem reportSealed_keeps (s : State) (h : HeadId) (r : Recording) (reason : SealReason) (bars : Nat) :
    Keeps s (s.reportSealed h r reason bars) := by
  unfold State.reportSealed
  split
  · exact Keeps.refl s
  · exact report_keeps ..

theorem afterSeal_keeps (s : State) (r : Recording) : Keeps s (s.afterSeal r) :=
  (claimVoice_keeps ..).trans ((armOneShot_keeps ..).trans (autoFold_keeps ..))

theorem sealRecording_keeps (s : State) (h : HeadId) (r : Recording) (reason : SealReason) (bars : Nat) :
    Keeps s (s.sealRecording h r reason bars) :=
  (sealLayer_keeps ..).trans ((setHead_keeps ..).trans ((reportSealed_keeps ..).trans (afterSeal_keeps ..)))

theorem discardRecording_keeps (s : State) (h : HeadId) (r : Recording) (reason : DiscardReason) :
    Keeps s (s.discardRecording h r reason) := (setHead_keeps ..).trans (discardLayer_keeps ..)

theorem shortenMap_keeps (s : State) (x : LayerId) (k : Nat) : Keeps s (s.shortenMap x k) := by
  unfold State.shortenMap
  split
  · exact Keeps.refl s
  · rename_i l hl
    dsimp only
    generalize blocksFor (k * s.clock.barFrames) = n
    have hsplit : namedBlocks l.map = namedBlocks (l.map.take n) ++ namedBlocks (l.map.drop n) := by
      rw [← namedBlocks_append, List.take_append_drop]
    refine ⟨rfl, rfl, rfl, rfl, rfl, id, id, State.clockLegal_congr rfl rfl, ?_, id⟩
    refine release_legal (namedBlocks (l.map.drop n)) x rfl (fun h => ⟨?_, fun b hb => ?_⟩) (fun y hy => ?_)
      fun l' e => ?_
    · have := h.namedOnce x l hl
      rw [hsplit] at this
      exact (List.nodup_append.1 this).2.1
    · exact h.named x l hl b (hsplit ▸ List.mem_append_right _ hb)
    · exact State.layer_setLayer_other _ _ _ _ hy
    · have e : some { l with map := l.map.take n } = some l' := (State.layer_setLayer_same ..).symm.trans e
      obtain rfl := Option.some.inj e
      refine ⟨l, hl, ?_, fun h b hb hd => ?_⟩
      · rw [hsplit]; exact List.sublist_append_left ..
      · have := h.namedOnce x l hl
        rw [hsplit] at this
        exact (List.nodup_append.1 this).2.2 b hb b hd rfl

theorem zeroPasses_keeps (s : State) : Keeps s s.zeroPasses :=
  Keeps.of_same rfl rfl rfl rfl rfl rfl rfl rfl rfl rfl rfl rfl

theorem advancePasses_keeps (s : State) : Keeps s s.advancePasses :=
  Keeps.of_same rfl rfl rfl rfl rfl rfl rfl rfl rfl rfl rfl rfl

theorem establish_keeps (s : State) (k pos : Nat) (hk : k ≠ 0) : Keeps s (s.establish k pos) := by
  refine Keeps.trans ?_ (reportLoop_keeps _)
  refine Keeps.trans ?_ (zeroPasses_keeps _)
  refine clock_keeps rfl rfl rfl (fun h => ?_) rfl rfl rfl rfl rfl rfl rfl
  exact { h with bar := ⟨fun _ => rfl, fun l e => by
    obtain rfl := Option.some.inj e
    exact Nat.pos_of_ne_zero hk⟩ }

theorem sealDefining_keeps (s : State) (h : HeadId) (r : Recording) (k pos : Nat) (reason : SealReason) (hk : k ≠ 0) :
    Keeps s (s.sealDefining h r k pos reason) :=
  (shortenMap_keeps ..).trans ((closeOpen_keeps ..).trans ((establish_keeps _ _ _ hk).trans (sealRecording_keeps ..)))

theorem sealNow_keeps (s : State) (h : HeadId) (r : Recording) (reason : SealReason) : Keeps s (s.sealNow h r reason) :=
  Keeps.ite (discardRecording_keeps ..) ((closeOpen_keeps ..).trans (sealRecording_keeps ..))

theorem cutDefining_keeps (s : State) (h : HeadId) (r : Recording) (pos : Nat) (reason : SealReason) :
    Keeps s (s.cutDefining h r pos reason) := by
  unfold State.cutDefining
  split
  · exact discardRecording_keeps ..
  · exact sealDefining_keeps _ _ _ _ _ _ (by assumption)

theorem cutHead_keeps (s : State) (reason : SealReason) (h : HeadId) : Keeps s (s.cutHead reason h) := by
  unfold State.cutHead
  split
  · exact Keeps.refl s
  · split
    · refine Keeps.trans ?_ (cutDefining_keeps ..)
      exact Keeps.of_same rfl rfl rfl rfl rfl rfl rfl rfl rfl rfl rfl rfl
    · exact sealNow_keeps ..

theorem cutHeads_keeps (s : State) (reason : SealReason) : Keeps s (s.cutHeads reason) :=
  (cutHead_keeps ..).trans (cutHead_keeps ..)

theorem beginRecording_keeps (s : State) (h : HeadId) (x : LayerId) (origin : Origin) (n : Nat) (r : Recording) :
    Keeps s (s.beginRecording h x origin (List.replicate n none) r) :=
  (takeRecord_keeps ..).trans ((pushLayer_keeps ..).trans (setHead_keeps ..))

theorem dropTempo_keeps (s : State) : Keeps s s.dropTempo := by
  unfold State.dropTempo
  split
  · exact Keeps.refl s
  · refine Keeps.trans ?_ (report_keeps ..)
    refine clock_keeps rfl rfl rfl (fun h => ?_) rfl rfl rfl rfl rfl rfl rfl
    exact { h with
      pending := fun p b e => absurd e (by simp)
      atZero := fun e => h.atZero (e.imp_right fun x => absurd x (by simp)) }

theorem startDefining_keeps (s : State) (h : HeadId) (x : LayerId) (t : TrackId) (bars : Nat) :
    Keeps s (s.startDefining h x t bars) :=
  (gainSpan_keeps ..).trans ((dropTempo_keeps _).trans (beginRecording_keeps ..))

theorem startFixed_keeps (s : State) (h : HeadId) (x : LayerId) (t : TrackId) (span : Span) :
    Keeps s (s.startFixed h x t span) := (gainSpan_keeps ..).trans (beginRecording_keeps ..)

theorem startRec_keeps (s : State) (t : TrackId) (span : Span) (bars : Nat) : Keeps s (s.startRec t span bars) := by
  unfold State.startRec
  dsimp only
  split
  · exact (discardRedo_keeps ..).trans (Keeps.ite (startDefining_keeps ..) (startFixed_keeps ..))
  · exact Keeps.refl s

theorem doRec_keeps (s : State) (t : TrackId) (span : Span) (bars : Nat) : Keeps s (s.doRec t span bars).2 := by
  unfold State.doRec
  split
  · exact Keeps.refl s
  · exact startRec_keeps ..

theorem startDub_keeps (s : State) (t : TrackId) (chain : Bool) : Keeps s (s.startDub t chain) := by
  unfold State.startDub
  dsimp only
  split
  · exact (discardRedo_keeps ..).trans (beginRecording_keeps ..)
  · exact Keeps.refl s

theorem doDub_keeps (s : State) (t : TrackId) (chain : Bool) : Keeps s (s.doDub t chain).2 := by
  unfold State.doDub
  split
  · exact Keeps.refl s
  · exact startDub_keeps ..

theorem claimFails_keeps (s : State) (h : HeadId) (r : Recording) (i : Nat) : Keeps s (s.claimFails h r i) := by
  unfold State.claimFails
  split
  · exact (emptyTest_keeps ..).trans (cutDefining_keeps ..)
  · refine Keeps.trans ?_ (emptyTest_keeps ..)
    refine Keeps.trans ?_ (setHead_keeps ..)
    exact modLayer_keeps _ _ _ fun _ => rfl

theorem enterNew_keeps (s : State) (h : HeadId) (r : Recording) (i f : Nat) : Keeps s (s.enterNew h r i f) := by
  unfold State.enterNew
  split
  · exact claimFails_keeps ..
  · rename_i hc
    refine (claim_keeps hc).trans (Keeps.trans ?_ (setHead_keeps ..))
    exact mem_keeps _ _ fun h => Memory.clearFrames_wf _ _ _ h

theorem enterIndex_keeps (s : State) (h : HeadId) (r : Recording) (i f : Nat) : Keeps s (s.enterIndex h r i f) := by
  unfold State.enterIndex
  dsimp only
  split
  · exact (closeOpen_keeps ..).trans ((reopenBlock_keeps ..).trans (setHead_keeps ..))
  · exact (closeOpen_keeps ..).trans (enterNew_keeps ..)

theorem writeHead_keeps (s : State) (r : Recording) (i f : Nat) (x : Int) : Keeps s (s.writeHead r i f x) := by
  unfold State.writeHead
  split
  · exact Keeps.refl s
  · refine Keeps.trans ?_ (modLayer_keeps _ _ _ fun _ => rfl)
    exact mem_keeps _ _ fun h => Memory.writeSample_wf _ _ _ h

theorem stepHead_keeps (s : State) (h : HeadId) (i f : Nat) (ins : Vector Sample 4) :
    Keeps s (s.stepHead h i f ins) := by
  unfold State.stepHead
  split
  · exact Keeps.refl s
  · exact (Keeps.ite (Keeps.refl s) (writeHead_keeps ..)).trans (modHead_keeps ..)

theorem enterHead_keeps (s : State) (h : HeadId) : Keeps s (s.enterHead h) := by
  unfold State.enterHead
  split
  · exact Keeps.refl s
  · exact Keeps.ite (Keeps.refl s) (enterIndex_keeps ..)

theorem advanceHead_keeps (s : State) (ins : Vector Sample 4) (h : HeadId) : Keeps s (s.advanceHead ins h) := by
  unfold State.advanceHead
  split
  · exact Keeps.refl s
  · exact (enterHead_keeps ..).trans (stepHead_keeps ..)

theorem autoEnd_bars {s : State} {r : Recording} {reason : SealReason} (h : s.autoEnd r = some reason) :
    s.wholeBars r ≠ 0 := fun e => by
  unfold State.autoEnd at h
  dsimp only at h
  rw [if_pos e] at h
  exact absurd h (by simp)

theorem recorderAtBar_keeps (s : State) (h : HeadId) : Keeps s (s.recorderAtBar h) := by
  unfold State.recorderAtBar
  split
  · exact Keeps.refl s
  · refine Keeps.ite (Keeps.refl s) ?_
    split
    · rename_i hr
      split at hr
      · exact sealDefining_keeps _ _ _ _ _ _ (autoEnd_bars hr)
      · exact absurd hr (by simp)
    · exact Keeps.ite (Keeps.refl s) (setHead_keeps ..)

theorem sealPending_keeps (s : State) (h : HeadId) (r : Recording) (reason : SealReason)
    (hr : s.pendingReason r = some reason) : Keeps s (s.sealPending h r reason) := by
  unfold State.sealPending
  unfold State.pendingReason at hr
  split
  · rename_i hm
    rw [hm] at hr
    dsimp only at hr
    split at hr
    · exact absurd hr (by simp)
    · exact sealDefining_keeps _ _ _ _ _ _ fun e => by simp_all
  · exact sealNow_keeps ..

/-- A change of the bar clock behind an operation that keeps. -/
theorem Keeps.withClock {s v : State} (h : Keeps s v) (c : Clock)
    (hc : s.clockLegal → State.clockLegal { v with clock := c }) : Keeps s { v with clock := c } :=
  ⟨h.pending, h.sup, h.outputs, h.link, h.replies, h.reports, h.memory, hc, fun p => by
    have p' := h.pool p
    exact State.poolLegal_congr (s := v) rfl (fun _ => rfl) (fun x l' hx => Or.inr ⟨l', hx, rfl⟩) p', h.queues⟩

theorem atNextBar_keeps (s : State) : Keeps s s.atNextBar :=
  clock_keeps rfl rfl rfl (fun c =>
    { c with tick := Nat.zero_lt_succ _, beat := c.meter.1, atZero := fun _ => ⟨rfl, rfl⟩ }) rfl rfl rfl rfl rfl rfl rfl

theorem sealAhead_keeps (s : State) (h : HeadId) (r : Recording) (hk : s.wholeBars r ≠ 0) : Keeps s (s.sealAhead h r) := by
  have ht := (sealAhead_stays s h r).bnd
  refine ((atNextBar_keeps s).trans (sealDefining_keeps _ h r (s.wholeBars r) 0 .endRec hk)).withClock _ fun c => ?_
  unfold State.sealAhead at ht
  exact { c with
    bar := ⟨fun e => absurd e (by simp), fun l e => by
      obtain rfl : s.wholeBars r = l := Option.some.inj e
      exact Nat.pos_of_ne_zero hk⟩
    atZero := fun e => c.atZero (e.imp id fun e => (congrArg Boundary.tempo ht) ▸ e) }

theorem sealEndRec_keeps (s : State) (h : HeadId) (r : Recording) : Keeps s (s.sealEndRec h r) := by
  unfold State.sealEndRec
  refine Keeps.ite ?_ (sealNow_keeps ..)
  have k := (atNextBar_keeps s).trans (sealNow_keeps s.atNextBar h r .endRec)
  have st := sealNow_stays s.atNextBar h r .endRec
  refine k.withClock _ fun c => ?_
  have hb : (s.atNextBar.sealNow h r .endRec).clock.b = s.clock.b := by rw [st.clock]; rfl
  have hm : (s.atNextBar.sealNow h r .endRec).clock.startMark = s.clock.startMark := by rw [st.clock]; rfl
  have ht : (s.atNextBar.sealNow h r .endRec).bnd.tempo = s.bnd.tempo := by rw [st.bnd]; rfl
  exact { k.clock c with
    tick := c.tick
    beat := by dsimp only; rw [hb]; exact c.beat
    atZero := by dsimp only; rw [hm, ht]; exact c.atZero }

theorem doEndRec_keeps (s : State) (t : TrackId) : Keeps s (s.doEndRec t).2 := by
  unfold State.doEndRec
  split
  · exact Keeps.refl s
  · split
    · exact Keeps.refl s
    · split
      · split
        · rename_i hb
          exact sealDefining_keeps _ _ _ _ _ _ hb.2
        · split
          · rename_i hb
            exact sealAhead_keeps _ _ _ hb.2
          · exact setHead_keeps ..
      · exact sealEndRec_keeps ..

theorem continueChain_keeps (s : State) (h : HeadId) (r : Recording) : Keeps s (s.continueChain h r) := by
  unfold State.continueChain
  split
  · exact Keeps.refl s
  · exact beginRecording_keeps ..

theorem endAtLength_keeps (s : State) (h : HeadId) (r : Recording) : Keeps s (s.endAtLength h r) :=
  Keeps.ite (((closeOpen_keeps ..).trans (sealRecording_keeps ..)).trans (continueChain_keeps ..))
    ((closeOpen_keeps ..).trans (sealRecording_keeps ..))

theorem windDown_keeps (s : State) (h : HeadId) : Keeps s (s.windDown h) := modHead_keeps ..

end Sys2Proof.Machine
end

