-- ==== Sys2Proof/Laws/KeepsCues.lean ====
section
/-! SUPPORT. What the operations over scenes, the transport, the tracks, the cues and the tones keep
(Laws/Keeps.lean). -/

namespace Sys2Proof.Machine

/-! ### Scenes -/

theorem scenesIdle_keeps (s : State) : Keeps s s.scenesIdle :=
  Keeps.of_same rfl rfl rfl rfl rfl rfl rfl rfl rfl rfl rfl rfl

theorem sceneAction_keeps (s : State) (act : SceneAct) (t : TrackId) : Keeps s (s.sceneAction act t) := by
  unfold State.sceneAction
  refine Keeps.ite (Keeps.refl s) ?_
  split
  · exact Keeps.refl s
  · exact unmuteTrack_keeps ..
  · exact muteTrack_keeps ..

theorem scenes_keeps (s : State) (q : Sequencer) : Keeps s { s with scenes := q } :=
  Keeps.of_same rfl rfl rfl rfl rfl rfl rfl rfl rfl rfl rfl rfl

theorem applyScene_keeps (s : State) (n : SceneId) (cause : SceneCause) (fromSlot : Bool) :
    Keeps s (s.applyScene n cause fromSlot) := by
  unfold State.applyScene
  dsimp only
  generalize List.finRange 8 = ts
  refine Keeps.trans ?_ (report_keeps ..)
  refine Keeps.trans ?_ (scenes_keeps ..)
  exact Keeps.foldl (fun u t => sceneAction_keeps u ((s.scenes.table.get n).actions.get t) t) ts s

theorem endScenes_keeps (s : State) (target : Option SceneId) (fromSlot : Bool) :
    Keeps s (s.endScenes target fromSlot) := (scenesIdle_keeps s).trans (report_keeps ..)

theorem doScene_keeps (s : State) (n : SceneId) : Keeps s (s.doScene n).2 := by
  unfold State.doScene
  split <;> dsimp only
  · exact applyScene_keeps ..
  · exact Keeps.refl s

theorem reportBar_keeps (s : State) : Keeps s s.reportBar := report_keeps ..

theorem takeTarget_keeps (s : State) (target : Option SceneId) (fromSlot loopKind : Bool) :
    Keeps s (s.takeTarget target fromSlot loopKind) := by
  unfold State.takeTarget
  split
  · exact endScenes_keeps ..
  · refine Keeps.ite (endScenes_keeps ..) (Keeps.ite (applyScene_keeps ..) (Keeps.ite (applyScene_keeps ..) ?_))
    exact Keeps.of_same rfl rfl rfl rfl rfl rfl rfl rfl rfl rfl rfl rfl

theorem countdownEnd_keeps (s : State) : Keeps s s.countdownEnd := by
  refine Keeps.trans ?_ (takeTarget_keeps ..)
  exact Keeps.of_same rfl rfl rfl rfl rfl rfl rfl rfl rfl rfl rfl rfl

theorem dueApply_keeps (s : State) : Keeps s s.dueApply := by
  unfold State.dueApply
  split
  · exact Keeps.refl s
  · exact Keeps.ite (applyScene_keeps ..) (endScenes_keeps ..)

theorem clearSceneStep_keeps (s : State) : Keeps s s.clearSceneStep :=
  Keeps.of_same rfl rfl rfl rfl rfl rfl rfl rfl rfl rfl rfl rfl

/-! ### Tempo, stop and halt -/

/-- The ranges of a (P, B) pair (R36). -/
def PairLegal (p b : Nat) : Prop := (250 ≤ p ∧ p ≤ 1500) ∧ 1 ≤ b ∧ b ≤ 12

theorem reportTempo_keeps (s : State) (cause : TempoCause) : Keeps s (s.reportTempo cause) := report_keeps ..

theorem applyStopped_keeps (s : State) (p b : Nat) (cause : TempoCause) (hp : s.clockLegal → PairLegal p b) :
    Keeps s (s.applyStopped p b cause) := by
  refine Keeps.trans ?_ (reportTempo_keeps ..)
  refine clock_keeps rfl rfl rfl (fun h => ?_) rfl rfl rfl rfl rfl rfl rfl
  have hr := hp h
  exact { h with
    period := hr.1, meter := hr.2, tick := Nat.zero_lt_succ _, beat := hr.2.1
    pending := fun p b e => absurd e (by simp), atZero := fun _ => ⟨rfl, rfl⟩ }

theorem applyAtBar_keeps (s : State) (ht : s.bnd.tempo = true) : Keeps s s.applyAtBar := by
  unfold State.applyAtBar
  split
  · exact Keeps.refl s
  · rename_i p b hp
    refine Keeps.trans ?_ (reportTempo_keeps ..)
    refine clock_keeps rfl rfl rfl (fun h => ?_) rfl rfl rfl rfl rfl rfl rfl
    have hr := h.pending p b hp
    have h0 := h.atZero (Or.inr ht)
    exact { h with
      period := hr.1, meter := hr.2, beat := by change s.clock.beat < b; omega
      pending := fun p b e => absurd e (by simp), atZero := fun _ => h0 }

theorem stageTempo_keeps (s : State) (p b : Nat) (hp : s.clockLegal → PairLegal p b) : Keeps s (s.stageTempo p b).2 := by
  unfold State.stageTempo
  split
  · exact applyStopped_keeps _ _ _ _ hp
  · refine clock_keeps rfl rfl rfl (fun h => ?_) rfl rfl rfl rfl rfl rfl rfl
    refine { h with pending := fun p' b' e => ?_ }
    obtain ⟨rfl, rfl⟩ := Prod.mk.inj (Option.some.inj e)
    exact hp h

theorem reportTransport_keeps (s : State) (t : Transport) (cause : TransportCause) (c : Nat) :
    Keeps s (s.reportTransport t cause c) := report_keeps ..

theorem applyPendingStopped_keeps (s : State) : Keeps s s.applyPendingStopped := by
  unfold State.applyPendingStopped
  split
  · exact Keeps.refl s
  · rename_i p b hp
    exact applyStopped_keeps _ _ _ _ fun h => h.pending p b hp

theorem stopTransport_keeps (s : State) (cause : TransportCause) (reason : SealReason) :
    Keeps s (s.stopTransport cause reason) := by
  unfold State.stopTransport
  split
  · exact Keeps.refl s
  · refine Keeps.trans ?_ (scenesIdle_keeps _)
    refine Keeps.trans ?_ (reportTransport_keeps ..)
    refine Keeps.trans (t := (State.cutHeads { s with clock := s.clock.stopped } reason).applyPendingStopped) ?_
      (clock_keeps rfl rfl rfl (fun h => ?_) rfl rfl rfl rfl rfl rfl rfl)
    · refine Keeps.trans ?_ (applyPendingStopped_keeps _)
      refine Keeps.trans ?_ (cutHeads_keeps ..)
      refine clock_keeps rfl rfl rfl (fun h => ?_) rfl rfl rfl rfl rfl rfl rfl
      exact { h with countIn := Nat.zero_le _, atZero := fun k => h.atZero (Or.inr (k.resolve_left fun e => e rfl)) }
    · exact { h with atZero := fun k => h.atZero (Or.inl (k.resolve_right (by simp [Boundary.stopped]))) }

/-- A halt event taken with the latch clear, its latch set first. -/
theorem haltEvent_keeps (s : State) (source : HaltSource) (h : s.sup.latch = false) :
    Keeps { s with sup := { s.sup with latch := true } } (s.haltEvent source) := by
  unfold State.haltEvent
  rw [if_neg (by simp [h])]
  refine Keeps.trans ?_ (report_keeps ..)
  refine Keeps.trans ?_ (scenesIdle_keeps _)
  refine Keeps.trans ?_ (stopTransport_keeps ..)
  exact queues_keeps rfl rfl rfl rfl rfl rfl rfl rfl rfl fun h => ⟨Nat.zero_le _, h.2⟩

/-! ### Tracks -/

theorem abortRecording_keeps (s : State) (t : TrackId) (reason : DiscardReason) :
    Keeps s (s.abortRecording t reason) := by
  unfold State.abortRecording
  split
  · exact Keeps.refl s
  · split
    · exact Keeps.refl s
    · exact discardRecording_keeps ..

theorem moveToRedo_keeps (s : State) (t : TrackId) (x : LayerId) : Keeps s (s.moveToRedo t x) := by
  refine Keeps.trans ?_ (releaseVoice_keeps ..)
  refine Keeps.trans ?_ (modLayer_keeps _ _ _ fun _ => rfl)
  exact modTrack_keeps ..

theorem undoTop_keeps (s : State) (t : TrackId) (x : LayerId) : Keeps s (s.undoTop t x) :=
  (abortBounces_keeps ..).trans ((abortBounces_keeps ..).trans (moveToRedo_keeps ..))

theorem doUndo_keeps (s : State) (t : TrackId) : Keeps s (s.doUndo t).2 := by
  unfold State.doUndo
  split
  · exact Keeps.refl s
  · exact abortRecording_keeps ..
  · exact abortRecording_keeps ..
  · split
    · exact Keeps.refl s
    · exact undoTop_keeps ..

theorem moveFromRedo_keeps (s : State) (t : TrackId) (x : LayerId) (rest : List LayerId) :
    Keeps s (s.moveFromRedo t x rest) := by
  refine Keeps.trans ?_ (modLayer_keeps _ _ _ fun _ => rfl)
  exact modTrack_keeps ..

theorem afterRedo_keeps (s : State) (t : TrackId) (x : LayerId) : Keeps s (s.afterRedo t x) :=
  (claimVoice_keeps ..).trans ((Keeps.ite (armOneShot_keeps ..) (Keeps.refl _)).trans (autoFold_keeps ..))

theorem doRedo_keeps (s : State) (t : TrackId) : Keeps s (s.doRedo t).2 := by
  unfold State.doRedo
  split
  · exact Keeps.refl s
  · split
    · exact Keeps.refl s
    · split
      · exact Keeps.refl s
      · exact (moveFromRedo_keeps ..).trans (afterRedo_keeps ..)

theorem clearTrack_keeps (s : State) (t : TrackId) : Keeps s (s.clearTrack t) :=
  (abortRecording_keeps ..).trans ((abortBounces_keeps ..).trans ((Keeps.foldl freeLayer_keeps _ _).trans
    ((Keeps.foldl freeLayer_keeps _ _).trans (modTrack_keeps ..))))

theorem doClear_keeps (s : State) (target : Target) : Keeps s (s.doClear target) := by
  unfold State.doClear
  split
  · exact clearTrack_keeps ..
  · exact (Keeps.foldl clearTrack_keeps _ _).trans (scenesIdle_keeps _)

/-! ### Cues -/

theorem doAction_keeps (s : State) (a : Action) : Keeps s (s.doAction a).2 := by
  cases a with
  | record t span bars =>
    unfold State.doAction; dsimp only
    split
    · exact doRec_keeps ..
    · exact Keeps.refl s
  | dub t chain =>
    unfold State.doAction; dsimp only
    split
    · exact doDub_keeps ..
    · exact Keeps.refl s
  | endRec t => exact doEndRec_keeps ..
  | undo t => exact doUndo_keeps ..
  | redo t => exact doRedo_keeps ..
  | mute g => exact Keeps.foldl muteTrack_keeps _ _
  | unmute g => exact Keeps.foldl unmuteTrack_keeps _ _
  | clear g => exact doClear_keeps ..
  | scene n => exact doScene_keeps ..
  | stop => exact stopTransport_keeps ..

theorem executeCue_keeps (s : State) (id : Byte) (a : Action) : Keeps s (s.executeCue id a).2 :=
  (doAction_keeps s a).trans (Keeps.ite (reportWith_keeps ..) (reportWith_keeps ..))

/-- The walk over a list loses no cue. -/
theorem length_scanCues (sat : Cue → Bool) (l : List Cue) :
    (scanCues sat l).1.length + (match (scanCues sat l).2 with
      | none => 0
      | some d => d.2.length + 1) = l.length := by
  induction l with
  | nil => rfl
  | cons c l ih =>
    unfold scanCues
    split
    · simp
    · simp only [List.length_cons]; omega

theorem length_scanFrom (s : State) (i : Nat) :
    (s.scanFrom i).1.length + (match (s.scanFrom i).2 with
      | none => 0
      | some d => d.2.length + 1) = s.cues.list.length - i := by
  unfold State.scanFrom
  split
  · simp
  · rw [length_scanCues, List.length_drop]

/-- A list put together from the start of the cue list and what a walk from there leaves is no longer than the list. -/
theorem length_take_append {s : State} {i : Nat} {l : List Cue} (h : l.length ≤ s.cues.list.length - i) :
    (s.cues.list.take i ++ l).length ≤ s.cues.list.length := by
  rw [List.length_append, List.length_take]; omega

theorem walkFrom_keeps (s : State) (i : Nat) : Keeps s (s.walkFrom i) := by
  have hl := length_scanFrom s i
  unfold State.walkFrom
  split
  · rename_i l e
    rw [e] at hl
    exact queues_keeps rfl rfl rfl rfl rfl rfl rfl rfl rfl fun h =>
      ⟨(length_take_append (Nat.le_of_eq hl)).trans h.1, h.2⟩
  · exact Keeps.of_same rfl rfl rfl rfl rfl rfl rfl rfl rfl rfl rfl rfl

theorem startWalk_keeps (s : State) : Keeps s s.startWalk :=
  Keeps.ite (Keeps.of_same rfl rfl rfl rfl rfl rfl rfl rfl rfl rfl rfl rfl) (walkFrom_keeps ..)

theorem resumeWalk_keeps (s : State) : Keeps s s.resumeWalk := by
  unfold State.resumeWalk
  split
  · exact Keeps.refl s
  · exact walkFrom_keeps ..

theorem takeSceneStep_keeps (s : State) : Keeps s s.takeSceneStep := by
  unfold State.takeSceneStep
  split
  · exact Keeps.refl s
  · exact (clearSceneStep_keeps s).trans
      ((countdownEnd_keeps _).trans ((reportBar_keeps _).trans (resumeWalk_keeps _)))
  · exact (clearSceneStep_keeps s).trans ((dueApply_keeps _).trans ((reportBar_keeps _).trans (resumeWalk_keeps _)))

theorem cueStep_keeps (s : State) : Keeps s s.cueStep := by
  unfold State.cueStep
  split
  · exact Keeps.refl s
  · rename_i i _
    have hl := length_scanFrom s i
    split
    · rename_i l e
      rw [e] at hl
      exact queues_keeps rfl rfl rfl rfl rfl rfl rfl rfl rfl fun h =>
        ⟨(length_take_append (Nat.le_of_eq hl)).trans h.1, h.2⟩
    · rename_i l c rest e
      rw [e] at hl
      refine Keeps.trans ?_ (Keeps.ite (walkFrom_keeps ..) (Keeps.refl _))
      refine Keeps.trans ?_ (executeCue_keeps ..)
      refine queues_keeps rfl rfl rfl rfl rfl rfl rfl rfl rfl fun h => ⟨(length_take_append ?_).trans h.1, h.2⟩
      have hl' : l.length + (rest.length + 1) = s.cues.list.length - i := hl
      rw [List.length_append]; omega

theorem cueSteps_keeps (n : Nat) (s : State) : Keeps s (State.cueSteps n s) := by
  induction n generalizing s with
  | zero => exact Keeps.refl s
  | succ n ih =>
    unfold State.cueSteps
    exact Keeps.ite ((cueStep_keeps s).trans (ih _)) (Keeps.refl s)

theorem walkOut_keeps (s : State) : Keeps s s.walkOut := (takeSceneStep_keeps s).trans (cueSteps_keeps ..)

theorem endBegunWalk_keeps (s : State) : Keeps s s.endBegunWalk := Keeps.ite (walkOut_keeps s) (Keeps.refl s)

theorem finishWalk_keeps (s : State) : Keeps s s.finishWalk := (beginHead_keeps s).trans (walkOut_keeps _)

theorem settleWalk_keeps (s : State) : Keeps s s.settleWalk := (beginHead_keeps s).trans (endBegunWalk_keeps _)

/-! ### Tones -/

theorem flushTones_keeps (s : State) (cause : TonesEnd) : Keeps s (s.flushTones cause) := by
  have h : Keeps s { s with tones := s.tones.flushed } :=
    queues_keeps rfl rfl rfl rfl rfl rfl rfl rfl rfl fun h => ⟨h.1, h.2.1, Nat.zero_le _⟩
  exact Keeps.ite (h.trans (report_keeps ..)) h

theorem endEntry_keeps (s : State) (sl : Slot) : Keeps s (s.endEntry sl) := by
  unfold State.endEntry
  dsimp only
  split
  · rename_i e rest hq
    refine queues_keeps rfl rfl rfl rfl rfl rfl rfl rfl rfl fun h => ⟨h.1, h.2.1, ?_⟩
    have := h.2.2
    rw [hq] at this
    exact Nat.le_of_succ_le this
  · refine Keeps.trans ?_ (report_keeps ..)
    exact Keeps.of_same rfl rfl rfl rfl rfl rfl rfl rfl rfl rfl rfl rfl

theorem clickTest_keeps (s : State) : Keeps s s.clickTest := by
  unfold State.clickTest
  split
  · exact Keeps.refl s
  · refine Keeps.ite ?_ ?_ <;> exact Keeps.of_same rfl rfl rfl rfl rfl rfl rfl rfl rfl rfl rfl rfl

end Sys2Proof.Machine
end

