-- ==== Sys2Proof/Laws/Requests.lean ====
section
/-! SUPPORT. The taking of a request (R184, R185): when it happens, what it changes, and what `serve` answers. -/

namespace Sys2Proof.Machine

/-- With no claim of the bounce engine due, there is none to make. -/
theorem beginHead_idle {s : State} (h : s.beginIsDue = false) : s.beginHead = s := by
  unfold State.beginHead
  split
  · rfl
  · rename_i e he
    split
    · rfl
    · rename_i r hr
      refine if_neg fun ⟨h1, h2⟩ => ?_
      have hrun : s.running = some r := by unfold State.running; rw [he]; exact hr
      unfold State.beginIsDue at h
      rw [h1, hrun, Option.map_some, h2] at h
      exact absurd h (by decide)

/-- With no claim of the bounce engine and no step of a boundary outstanding, there is nothing to finish. -/
theorem finishWalk_idle {s : State} (h : s.beginIsDue = false) (h1 : s.bnd.walk = none) (h2 : s.bnd.sceneStep = none) :
    s.finishWalk = s := by
  unfold State.finishWalk
  rw [beginHead_idle h]
  unfold State.walkOut State.takeSceneStep
  rw [h2]
  simp [State.cueSteps, h1]

/-- With no claim of the bounce engine due and no walk begun, an event row finds nothing to finish (logs 6, 9). -/
theorem settleWalk_unbegun {s : State} (h : s.beginIsDue = false) (h1 : s.bnd.begun = false) : s.settleWalk = s := by
  unfold State.settleWalk
  rw [beginHead_idle h]
  exact if_neg (by simp [h1])

/-- Arming the reports on a condition that does not hold changes nothing. -/
theorem Pool.arm_false (p : Pool) : p.arm false = p := by simp [Pool.arm]

/-- With the claims of the frame behind every free, no free waits for them. -/
theorem Pool.takeBehind_none {p : Pool} (h : p.behind = none) : p.takeBehind = p := by
  unfold Pool.takeBehind; rw [h]; exact Pool.arm_false p

theorem Pool.served_none {p : Pool} (h : p.behind = none) : p.served = p := by
  unfold Pool.served; rw [Pool.takeBehind_none h, ← h]

theorem Pool.seen_none {p : Pool} (h : p.behind = none) : p.seen = p := by
  unfold Pool.seen; rw [Pool.takeBehind_none h, h, Option.map_none, ← h]

theorem arriveNow_fields (s : State) :
    s.arriveNow = { s with
      link := { s.link with
        assembling := if s.link.requests = [] then false else s.link.assembling
        timer := if s.link.requests = [] then decide (s.link.timeout ≠ 0) else s.link.timer } } := by
  unfold State.arriveNow
  split <;> rfl

/-- The taking of a request changes nothing of the supervisor. -/
@[simp] theorem takeRequest_sup (s : State) : s.takeRequest.sup = s.sup := by
  refine (finishWalk_keeps s.arriveNow).sup.trans ?_
  rw [arriveNow_fields]

/-- The taking of a request leaves the commands that wait. -/
@[simp] theorem takeRequest_pending (s : State) : s.takeRequest.pending = s.pending := by
  refine (finishWalk_keeps s.arriveNow).pending.trans ?_
  rw [arriveNow_fields]

@[simp] theorem takeRequest_outputs (s : State) : s.takeRequest.outputs = s.outputs := by
  refine (finishWalk_keeps s.arriveNow).outputs.trans ?_
  rw [arriveNow_fields]

/-- What the taking of a request does to the link port: the request leaves the queue, the autopilot condition ends, and
only reports join the transmit queue. -/
theorem takeRequest_link (s : State) :
    s.takeRequest.link = { s.link with
      assembling := if s.link.requests = [] then false else s.link.assembling
      timer := if s.link.requests = [] then decide (s.link.timeout ≠ 0) else s.link.timer
      requests := s.link.requests.tail
      autopilot := false
      requestTaken := true
      tx := s.takeRequest.link.tx
      lost := s.takeRequest.link.lost } := by
  have h := (finishWalk_keeps s.arriveNow).link
  rw [arriveNow_fields] at h
  unfold State.takeRequest
  dsimp only
  rw [arriveNow_fields, h]

@[simp] theorem takeRequest_isReady (s : State) : s.takeRequest.isReady = s.isReady := by
  unfold State.isReady; rw [takeRequest_sup]

@[simp] theorem takeRequest_takesRequests (s : State) : s.takeRequest.takesRequests = s.takesRequests := by
  unfold State.takesRequests; rw [takeRequest_sup]

/-- A request with the catalogue's length is carried out by its owner, and answered with its kind + 0x80 and its tag. -/
theorem serve_taken {kind : Byte} {others : List Byte} {tag : Byte} {payload : List Byte} {owner : Owner} {s : State}
    (h1 : s.canTake { kind := kind, tag := tag, payload := payload } = true) (h2 : spellsOther others payload = false)
    (h3 : catalogueLength kind = some payload.length) :
    serve kind others tag payload owner s
      = (owner s.takeRequest payload).1.reply kind tag (owner s.takeRequest payload).2 := by
  unfold serve
  rw [if_neg (by simp [h1, h2]), if_pos h3]

/-- A request with another length is answered BAD_LENGTH, its owner untouched. -/
theorem serve_badLength {kind : Byte} {others : List Byte} {tag : Byte} {payload : List Byte} {owner : Owner} {s : State}
    (h1 : s.canTake { kind := kind, tag := tag, payload := payload } = true) (h2 : spellsOther others payload = false)
    (h3 : catalogueLength kind ≠ some payload.length) :
    serve kind others tag payload owner s = s.takeRequest.reply kind tag [1] := by
  unfold serve
  rw [if_neg (by simp [h1, h2]), if_neg h3]
  rfl

/-- A request that cannot be taken, or that spells another row, has no effect (log 1). -/
theorem serve_idle {kind : Byte} {others : List Byte} {tag : Byte} {payload : List Byte} {owner : Owner} {s : State}
    (h : s.canTake { kind := kind, tag := tag, payload := payload } = false ∨ spellsOther others payload = true) :
    serve kind others tag payload owner s = s := by
  unfold serve
  rw [if_pos h]

end Sys2Proof.Machine
end

