-- ==== Sys2Proof/Laws/Reset.lean ====
section
/-! SUPPORT. The values after reset that are too long to unfold: the free list with its 4,096 blocks. -/

namespace Sys2Proof.Machine

/-- The free list after a cold reset holds every block. -/
theorem mem_allBlocks (b : BlockId) : b ∈ allBlocks := by
  unfold allBlocks
  exact List.mem_map.2 ⟨b.val, List.mem_range.2 b.isLt, Fin.ext (Nat.mod_eq_of_lt b.isLt)⟩

/-- The free list after a cold reset holds no block twice. -/
theorem allBlocks_nodup : allBlocks.Nodup := by
  unfold allBlocks
  refine List.Nodup.map_on (fun x hx y hy e => ?_) List.nodup_range
  have e : x % 4096 = y % 4096 := congrArg Fin.val e
  have hx := List.mem_range.1 hx
  have hy := List.mem_range.1 hy
  omega

/-- The free list after a cold reset holds 4,096 blocks. -/
theorem length_allBlocks : allBlocks.length = 4096 := by
  unfold allBlocks
  rw [List.length_map, List.length_range]

theorem reset_free : State.reset.pool.free = allBlocks := by
  simp only [State.reset, Pool.cold]

theorem reset_entry (b : BlockId) : State.reset.pool.entry b = none := by
  simp [State.reset, Pool.cold, Pool.entry]

theorem reset_layer (x : LayerId) : State.reset.layer x = none := by
  change (Vector.replicate 56 (none : Option Layer))[x.val] = none
  simp

end Sys2Proof.Machine
end

