-- ==== Sys2Proof/Tests/Slice0.lean ====
section
/-! SUPPORT. Tests: each check of WellFormed refuses an ill-formed command, the check word and HELLO on known values, and
for every statement with hypotheses concrete states and operands that meet them, clause by clause at the ends of the
ranges. -/

namespace Sys2Proof.Machine

set_option maxRecDepth 20000

/-! ### Well-formedness -/

/-- A payload of n bytes. -/
def payload (n : Nat) : List Byte := List.replicate n 0

theorem test_wf_payload_fits : Instr.wellFormed (.cue 0 (payload 56)) = true := by decide
theorem test_wf_payload_too_long : Instr.wellFormed (.cue 0 (payload 57)) = false := by decide
theorem test_wf_first_byte_of_the_row : Instr.wellFormed (.cancelCueByTrack 0 [1, 7]) = true := by decide
theorem test_wf_first_byte_of_another_row : Instr.wellFormed (.cancelCueByTrack 0 [2, 7]) = false := by decide
theorem test_wf_host_kind : Instr.wellFormed (.wellFormedFrame 0x7F 0 []) = true := by decide
theorem test_wf_kind_not_a_host_kind : Instr.wellFormed (.wellFormedFrame 0x80 0 []) = false := by decide
theorem test_wf_unknown_kind : Instr.wellFormed (.unknownRequest 0x7F 0 []) = true := by decide
theorem test_wf_unknown_kind_in_the_catalogue : Instr.wellFormed (.unknownRequest 0x13 0 []) = false := by decide
theorem test_wf_upset_inside_the_memory : Instr.wellFormed (.verifyVisitEnd [(33554431, 1)]) = true := by decide
theorem test_wf_upset_outside_the_memory : Instr.wellFormed (.verifyVisitEnd [(33554432, 1)]) = false := by decide

/-! ### Known values -/

theorem test_crc_of_one_byte : crcBytes [0x61] = 0x3E2FBCCF := by decide +kernel
theorem test_hello_is_queued_at_reset : State.reset.link.tx = [powerUpHello] := by rfl
theorem test_hello_has_its_length : powerUpHello.payload.length = 17 := by rfl
theorem test_no_word_spells_a_command : decodeTableWord 8 0 = none := by rfl
theorem test_frame_check : frameWire ⟨0x01, 9, []⟩ = [0xB7, 0, 1, 9, 0xF6] ∧ frameOf [0xB7, 0, 1, 9, 0xF6] = some ⟨0x01, 9, []⟩
    ∧ frameOf [0xB7, 0, 1, 9, 0xF7] = none := by decide
theorem test_pan_middle : (leftShare 1270 64, rightShare 1270 64) = (630, 640) := by decide
theorem test_level_truncates_toward_zero : applyLevel 64 (-3) = -1 := by decide
theorem test_level_saturates : applyLevel 255 32767 = 32767 ∧ applyLevel 255 (-32768) = -32768 := by decide

/-! ### States for the witnesses -/

/-- The state after reset with a link port that has nothing to send. -/
def quiet : State := { State.reset with link := { State.reset.link with tx := [] } }

/-- The state a command leaves. -/
def after (i : Instr) (s : State) : State :=
  match exec i s with
  | .next t => t
  | _ => s

/-- A request can be taken. -/
def takes (s : State) (kind : Byte) (p : List Byte) : Bool := s.canTake { kind := kind, tag := 9, payload := p }

/-- The song runs, a TICK boundary due. -/
def atTick : State := { quiet with clock := { Clock.cold with transport := .running, divider := 0, dividerSet := false } }

/-- The song runs, no boundary due. -/
def inBar : State := { quiet with clock := { Clock.cold with transport := .running } }

/-- A layer record of a track. -/
def someLayer (state : LayerState) (t : TrackId) (map : List (Option BlockId)) : Layer :=
  { state := state, track := t, origin := .base, map := map, level := 128, startStamp := 0, sealStamp := none
    mask := some 1, parents := [], clip := 0, gapped := false, damaged := false, pin := none }

/-- A recording on track 0 in layer 0, in its first block. -/
def someHead (mode : HeadMode) (offset : Nat) : Recording :=
  { stalled := false, track := 0, layer := 0, mode := mode, mask := 1, endCond := .openEnd, chain := false
    endPending := .none, writeOffset := offset, startPos := 0, index := some 0, written := offset, reopened := false
    atBar := false }

/-- The state with layer 0 FILLING and H0 writing it. -/
def recording (s : State) (r : Recording) (map : List (Option BlockId)) : State :=
  { (s.setLayer 0 (some (someLayer .filling 0 map))).modTrack 0 (fun t => { t with stack := [0], span := some .one }) with
    head0 := some r }

/-- The state with two SEALED layers of one map entry on track 0. -/
def twoLayers (s : State) : State :=
  ((s.setLayer 0 (some (someLayer .sealed 0 [none]))).setLayer 1 (some (someLayer .sealed 0 [none]))).modTrack 0
    fun t => { t with stack := [0, 1], span := some .one }

/-- A FOLD of layers 0 and 1. -/
def someFold : Bounce :=
  { id := 0, fold := true, auto := false, sources := [0, 1], dest := 0, levels := false, muteSources := false, mapLen := 1
    run := none, joined := false }

/-- A run whose product is layer 2. -/
def someRun (phase : IndexPhase) (frames : Nat) : Run :=
  { snapshot := [128, 128], product := 2, progress := 0, frames := frames, blocks := 0, phase := phase }

/-- Two layers and a bounce at the head of the queue, its product layer 2. -/
def bouncing (e : Bounce) : State :=
  { (twoLayers quiet).setLayer 2 (some { someLayer .filling 0 [none] with origin := .bounce }) with
    bounce := { BounceEngine.cold with queue := [e] } }

/-- The pool with block 0 OWNED by layer 0. -/
def onePool : Pool := { Pool.cold with free := allBlocks.filter (· ≠ 0), owned := [(0, ⟨0, 0, .none⟩)] }

theorem onePool_free : onePool.free = allBlocks.filter (· ≠ 0) := by simp only [onePool]

theorem onePool_entry (b : BlockId) : onePool.entry b = if b = 0 then some ⟨0, 0, .none⟩ else none := by
  unfold Pool.entry
  rw [show onePool.owned = [(0, ⟨0, 0, .none⟩)] by simp only [onePool]]
  by_cases h : b = 0
  · subst h; rfl
  · rw [if_neg h, List.find?_cons_of_neg (by simpa using Ne.symm h)]; rfl

/-- Layer 0 has block 0 and nothing else, in the pool that says so. -/
def owning (s : State) : State := { s with pool := onePool }

/-- The blocks a layer record names, none where it is FREE. -/
def blocksOf (s : State) (x : LayerId) : List BlockId := ((s.layer x).map fun l => namedBlocks l.map).getD []

theorem blocksOf_eq {s : State} {x : LayerId} {l : Layer} (h : s.layer x = some l) : namedBlocks l.map = blocksOf s x := by
  unfold blocksOf; rw [h]; rfl

/-- The free list is whole where no layer names a block. -/
theorem poolLegal_silent {s : State} (hp : s.pool = Pool.cold) (hb : ∀ x, blocksOf s x = []) : s.poolLegal where
  freeOnce := by rw [hp]; exact allBlocks_nodup
  freeIff := fun b => by rw [hp]; exact iff_of_true (mem_allBlocks b) (reset_entry b)
  named := fun x l h b hm => by rw [blocksOf_eq h, hb x] at hm; nomatch hm
  namedOnce := fun x l h => by rw [blocksOf_eq h, hb x]; exact List.nodup_nil

/-- The pool is legal where layer 0 names block 0 and no other layer a block. -/
theorem poolLegal_one {s : State} (hp : s.pool = onePool) (h0 : blocksOf s 0 = [0]) (hb : ∀ x, x ≠ 0 → blocksOf s x = []) :
    s.poolLegal where
  freeOnce := by rw [hp, onePool_free]; exact allBlocks_nodup.filter _
  freeIff := fun b => by
    rw [hp, onePool_free, onePool_entry, List.mem_filter]
    by_cases h : b = 0
    · rw [if_pos h]; exact iff_of_false (fun e => by simp [h] at e) (fun e => nomatch e)
    · rw [if_neg h]; exact iff_of_true ⟨mem_allBlocks b, by simpa using h⟩ rfl
  named := fun x l h b hm => by
    rw [blocksOf_eq h] at hm
    by_cases hx : x = 0
    · subst hx; rw [h0] at hm
      rw [List.mem_singleton.1 hm, hp]; rfl
    · rw [hb x hx] at hm; nomatch hm
  namedOnce := fun x l h => by
    rw [blocksOf_eq h]
    by_cases hx : x = 0
    · subst hx; rw [h0]; exact List.nodup_singleton 0
    · rw [hb x hx]; exact List.nodup_nil

/-- A BAR cue that mutes track 0. -/
def someCue (delay : Nat) : Cue := { id := 0, action := .mute (.track 0), grid := .bar, delay := delay }

/-- A prompt entry. -/
def someEntry : ToneEntry := { pitch := 40, code := 6, rest := false, tie := true }

/-! ### Witnesses: the block as a whole and requests -/

/-- A command is waiting. -/
def waiting : State := { State.reset with pending := [.byteGap] }

theorem test_witness_StepRunsTheFrontCommand : waiting.pending = [.byteGap] := by rfl
theorem test_witness_EmptyQueueLeavesTheState : State.reset.pending = [] := by rfl
theorem test_witness_MemoryFormIsKeptByEveryStep : waiting.memoryLegal ∧ ∃ t, step waiting = .next t :=
  ⟨⟨List.Pairwise.nil, fun _ h => absurd h List.not_mem_nil⟩, _, rfl⟩
theorem test_witness_LinkLimitsAreKeptByEveryStep : waiting.linkLegal ∧ ∃ t, step waiting = .next t :=
  ⟨by unfold State.linkLegal; decide, _, rfl⟩
theorem test_witness_ClockRangesAreKeptByEveryStep : waiting.clockLegal ∧ ∃ t, step waiting = .next t :=
  ⟨{ period := by decide, meter := by decide, pending := fun p b h => (nomatch h), tick := by decide, beat := by decide
     bar := ⟨fun _ => rfl, fun l h => (nomatch h)⟩, countIn := by decide, taps := by decide
     atZero := fun _ => ⟨rfl, rfl⟩ }, _, rfl⟩
theorem test_witness_BlockPartitionIsKeptByEveryStep : waiting.poolLegal ∧ ∃ t, step waiting = .next t :=
  ⟨{ freeOnce := allBlocks_nodup, freeIff := fun b => iff_of_true (mem_allBlocks b) (reset_entry b)
     named := fun x l h => by rw [show waiting.layer x = none from reset_layer x] at h; nomatch h
     namedOnce := fun x l h => by rw [show waiting.layer x = none from reset_layer x] at h; nomatch h }, _, rfl⟩
theorem test_witness_QueueLimitsAreKeptByEveryStep : waiting.queuesLegal ∧ ∃ t, step waiting = .next t :=
  ⟨by unfold State.queuesLegal; decide, _, rfl⟩

theorem test_witness_RequestTakenChangesOnlyTheLink : quiet.bnd.walk = none ∧ quiet.bnd.sceneStep = none
      ∧ quiet.beginIsDue = false ∧ quiet.pool.behind = none := by decide
/-- A request and a second one behind it wait. -/
def standbyWaits : State :=
  { quiet with link := { quiet.link with requests := [⟨0x04, 9, []⟩, ⟨0x13, 9, []⟩] } }

theorem test_witness_StandbyIsEntered_request_waiting :
    takes standbyWaits 0x04 [] = true ∧ standbyWaits.sup.state = .ready ∧ standbyWaits.takeRequest.standbyBusy = false
      ∧ standbyWaits.link.requests.tail ≠ [] := by decide
theorem test_witness_WrongLengths :
    requestFrame (.stop 9 [1]) = some ⟨0x13, 9, [1]⟩ ∧ (Instr.stop 9 [1]).wellFormed = true
      ∧ takes quiet 0x13 [1] = true ∧ catalogueLength 0x13 ≠ some 1 := by decide
theorem test_witness_UnknownKinds :
    (0x7F : Byte).toNat < 0x80 ∧ takes quiet 0x7F [] = true ∧ catalogueLength 0x7F ≠ some 0
      ∧ takes quiet 0x13 [0] = true ∧ catalogueLength 0x13 ≠ some 1 := by decide
theorem test_witness_RepliesHaveTheCatalogueLength :
    requestFrame (.resetCauseRead 9 [2]) = some ⟨0x02, 9, [2]⟩ ∧ (Instr.resetCauseRead 9 [2]).wellFormed = true
      ∧ takes quiet 0x02 [2] = true ∧ catalogueLength 0x02 = some 1 := by decide

/-- The scan runs. -/
def scanning : State := { quiet with sup := { quiet.sup with state := .verifying } }

theorem test_witness_RequestsAreRefusedNotReady :
    requestFrame (.monitorConfigWrite 9 [1, 0, 0, 0, 0, 0, 0, 0]) = some ⟨0x3B, 9, [1, 0, 0, 0, 0, 0, 0, 0]⟩
      ∧ refusedUnlessReady (.monitorConfigWrite 9 [1, 0, 0, 0, 0, 0, 0, 0]) = true
      ∧ (Instr.monitorConfigWrite 9 [1, 0, 0, 0, 0, 0, 0, 0]).wellFormed = true
      ∧ takes scanning 0x3B [1, 0, 0, 0, 0, 0, 0, 0] = true ∧ catalogueLength 0x3B = some 8
      ∧ scanning.sup.state ≠ .ready := by decide
theorem test_witness_StatusPositionAndPoolAreAnswered :
    takes quiet 0x01 [] = true ∧ takes quiet 0x02 [0] = true ∧ takes quiet 0x02 [1] = true ∧ takes quiet 0x14 [] = true
      ∧ takes quiet 0x25 [] = true := by decide
theorem test_witness_RestartAndCauses_taken :
    takes quiet 0x03 [flagByte false] = true ∧ takes quiet 0x03 [flagByte true] = true := by decide

/-- A Restart's reply has left. -/
def restarting (cold : Bool) : State :=
  { quiet with sup := { quiet.sup with restart := some { cold := cold, ahead := 0 } } }

/-- A reset is in force. -/
def resetting (causes : CauseSet) : State := { quiet with sup := { quiet.sup with state := .reset, inForce := causes } }

theorem test_witness_RestartAndCauses_start :
    (restarting false).sup.state ≠ .reset ∧ (restarting false).bnd.walk = none ∧ (restarting false).bnd.sceneStep = none
      ∧ (restarting false).beginIsDue = false
      ∧ (restarting false).sup.restart = some { cold := false, ahead := 0 }
      ∧ (restarting true).sup.restart = some { cold := true, ahead := 0 }
      ∧ (resetting CauseSet.powerUp).sup.state = .reset := by decide
theorem test_witness_RestartAndCauses_idle :
    (∀ n, quiet.sup.restart = some n → n.cold = true ∨ n.ahead ≠ 0)
      ∧ ∀ n, quiet.sup.restart = some n → n.cold = false ∨ n.ahead ≠ 0 :=
  ⟨fun _ h => (nomatch h), fun _ h => (nomatch h)⟩
theorem test_witness_StandbyIsEnteredOrRefusedBusy :
    takes quiet 0x04 [] = true ∧ quiet.sup.state = .ready ∧ quiet.takeRequest.standbyBusy = false
      ∧ quiet.link.requests.tail = [] ∧ takes inBar 0x04 [] = true ∧ inBar.sup.state = .ready
      ∧ inBar.takeRequest.clock.transport ≠ .stopped := by decide
theorem test_witness_LinkAndSupplyConfigReadAndWrite :
    takes quiet 0x05 [0, 50, 0, 0, 0, 0] = true ∧ takes quiet 0x05 [1, 51, 0, 0, 0, 0] = true
      ∧ takes quiet 0x06 [0, 0, 0, 0] = true ∧ takes quiet 0x06 [1, 3, 3, 1] = true ∧ takes quiet 0x06 [1, 4, 0, 0] = true
      ∧ quiet.sup.state = .ready ∧ (3 : Byte).toNat < 4 ∧ (1 : Byte).toNat ≤ 1 ∧ 4 ≤ (4 : Byte).toNat := by decide
theorem test_witness_HaltConfigAndHaltClear :
    takes quiet 0x07 [0, 2, 2, 2] = true ∧ takes quiet 0x07 [1, flagByte true, flagByte true, flagByte false] = true
      ∧ quiet.sup.state = .ready ∧ (true && quiet.sup.edgeMemory && !false) = false ∧ takes quiet 0x08 [] = true := by decide

/-! ### Witnesses: tempo, transport and cues -/

theorem test_witness_SetTempo : takes quiet 0x10 [0xDC, 0x05, 12] = true ∧ quiet.sup.state = .ready := by decide

/-- Three taps stand, the newest 96,000 frames old. -/
def tapped : State := { quiet with clock := { Clock.cold with taps := [0, 48000, 96000], frameCount := 192000 } }

theorem test_witness_Tap_three_taps :
    takes tapped 0x11 [] = true ∧ tapped.sup.state = .ready ∧ tapped.takeRequest.clock.taps = [0, 48000, 96000]
      ∧ (tapped.takeRequest.clock.frameCount - 96000).toNat ≤ 96000
      ∧ ¬(tapped.takeRequest.clock.loop.isSome = true ∨ tapped.takeRequest.definingRuns = true) := by decide
theorem test_witness_Tap_first_tap :
    takes quiet 0x11 [] = true ∧ quiet.takeRequest.clock.taps.getLast? = none := by decide

/-- L is established with one bar. -/
def looped : State := { atTick with clock := { atTick.clock with loop := some 1 } }

theorem test_witness_Tap_locked :
    takes looped 0x11 [] = true ∧ looped.takeRequest.clock.loop.isSome = true := by decide

/-- A BAR boundary has found the slot full. -/
def tempoDue : State :=
  { inBar with clock := { inBar.clock with pendingTempo := some (250, 1) }, bnd := { inBar.bnd with tempo := true } }

theorem test_witness_PendingTempo :
    tempoDue.settleWalk.bnd.tempo = true ∧ tempoDue.settleWalk.clock.pendingTempo = some (250, 1)
      ∧ inBar.settleWalk.bnd.tempo = false := by decide
theorem test_witness_StartZeroesTheSong :
    takes quiet 0x12 [0] = true ∧ takes quiet 0x12 [4] = true ∧ takes quiet 0x12 [5] = true ∧ quiet.sup.state = .ready := by
  decide
theorem test_witness_StopStopsTheTransport :
    takes inBar 0x13 [] = true ∧ inBar.sup.state = .ready ∧ inBar.takeRequest.clock.transport ≠ .stopped
      ∧ inBar.takeRequest.head0 = none ∧ inBar.takeRequest.head1 = none
      ∧ inBar.takeRequest.clock.pendingTempo = none ∧ inBar.clock.transport ≠ .stopped ∧ inBar.head0 = none ∧ inBar.head1 = none
      ∧ inBar.clock.pendingTempo = none ∧ quiet.takeRequest.clock.transport = .stopped := by decide
theorem test_witness_StopStopsTheTransport_cut :
    ∀ mode offset, (recording inBar (someHead mode offset) [none]).head .h0 = some (someHead mode offset)
      ∧ (∀ j, j ≠ HeadId.h0 → (recording inBar (someHead mode offset) [none]).head j = none)
      ∧ (recording inBar (someHead mode offset) [none]).takeRequest.clock.transport ≠ .stopped
      ∧ (recording inBar (someHead mode offset) [none]).takeRequest.head .h0 = some (someHead mode offset) :=
  fun _ _ => ⟨rfl, fun j h => by cases j <;> simp_all [recording, State.head, State.modTrack, State.setLayer, inBar]
    <;> rfl, (nomatch ·), rfl⟩
theorem test_witness_CutLeaves (mode : HeadMode) (offset : Nat) :
    (owning (recording inBar (someHead mode offset) [some 0])).poolLegal
      ∧ (recording inBar (someHead mode offset) [none]).poolLegal
      ∧ 95999 / (4 * 48 * 500) = 0 ∧ 96000 / (4 * 48 * 500) ≠ 0 :=
  ⟨poolLegal_one rfl (by change blocksOf (recording inBar (someHead .fixed 3) [some 0]) 0 = [0]; decide)
      (by change ∀ x, x ≠ 0 → blocksOf (recording inBar (someHead .fixed 3) [some 0]) x = []; decide),
    poolLegal_silent rfl (by change ∀ x, blocksOf (recording inBar (someHead .fixed 3) [none]) x = []; decide),
    by decide, by decide⟩
theorem test_witness_CueIsRefused :
    takes quiet 0x18 [10, 0, 0, 0, 0, 0, 0] = true ∧ quiet.sup.state = .ready ∧ ¬cueInRange 10 0 0 0 0 0 0
      ∧ cueInRange 0 7 5 15 4 64 1 := by unfold cueInRange; decide
theorem test_witness_CueJoinsTheList :
    takes quiet 0x18 [0, 7, 5, 15, 4, 64, 1] = true ∧ quiet.sup.latch = false
      ∧ cueFields 0 7 5 15 4 64 1 = some (.record 7 .four 64, .track, 15, true) ∧ Grid.track ≠ .now := by decide
theorem test_witness_NowCueIsExecutedAtOnce :
    takes quiet 0x18 [8, 0, 0, 0, 15, 0, 0] = true ∧ quiet.sup.latch = false
      ∧ cueFields 8 0 0 0 15 0 0 = some (.scene 15, .now, 0, false) := by decide
theorem test_witness_ActionsThatChangeNothing :
    quiet.clock.transport ≠ .running ∧ quiet.headOn 7 = none ∧ (quiet.track 7).stack = [] ∧ (quiet.track 7).redo = []
      ∧ quiet.trackState 7 = .empty ∧ (quiet.scenes.table.get 15).valid = false ∧ (quiet.track 7).mute = false
      ∧ (recording inBar (someHead .defining 1) [none]).trackState 0 = .recording
      ∧ ((quiet.modTrack 7 fun t => { t with mute := true }).track 7).mute = true := by decide

/-- The first check that fails, of REC on a track that is not EMPTY, with a defining head, on a LOW supply, with two busy heads,
with no record and with a span too long; and of DUB. -/
theorem test_each_check_of_REC_and_DUB :
    let low := fun s : State => { s with sup := { s.sup with low := true, guard := true } }
    let busy := fun s : State => { s with head0 := some (someHead .dub 0), head1 := some (someHead .dub 0) }
    let full := fun s : State => { s with layers := Vector.replicate 56 (some (someLayer .sealed 0 [none])) }
    let long := fun s : State => { s with clock := { s.clock with p := 1500, b := 12, loop := some 64 } }
    let two := twoLayers inBar
    let rec0 := fun (s : State) (t : TrackId) => (s.doAction (.record t .four 0)).1
    let dub := fun (s : State) (t : TrackId) => (s.doAction (.dub t true)).1
    rec0 (low two) 0 = .notEmpty ∧ rec0 (low (recording inBar (someHead .defining 1) [none])) 7 = .loopUnset
      ∧ rec0 (busy (low inBar)) 7 = .lowSupply ∧ rec0 (full (busy inBar)) 7 = .noHead ∧ rec0 (long (full inBar)) 7 = .noLayer
      ∧ rec0 (long two) 7 = .tooLong ∧ rec0 inBar 7 = .ok
      ∧ dub (low two) 7 = .wrongState ∧ dub (low (two.modTrack 0 fun r => { r with reservations := 4 })) 0 = .stackFull
      ∧ dub (busy (low two)) 0 = .lowSupply ∧ dub (full (busy two)) 0 = .noHead ∧ dub (full two) 0 = .noLayer
      ∧ dub two 0 = .ok := by decide +kernel

/-- Track 7's self-mute is due. -/
def selfMuting : State := quiet.modTrack 7 fun t => { t with selfMuteDue := true }

theorem test_witness_MuteFlagAndOneShotSelfMute :
    selfMuting.settleWalk.sup.state = .ready ∧ (selfMuting.settleWalk.track 7).selfMuteDue = true
      ∧ (selfMuting.settleWalk.track 7).mute = false ∧ (selfMuting.settleWalk.track 0).selfMuteDue = false
      ∧ ((quiet.modTrack 7 fun t => { t with mute := true }).track 7).mute = true := by decide

/-- Two layers sound on track 0, with these voices, this wait list and this grant to come. -/
def claiming (voices : Vector (Option LayerId) 24) (wait : List Waiting) (grant : GrantDue) : State :=
  { twoLayers inBar with mix := { Mix.cold with voices := voices, wait := wait }, bnd := { inBar.bnd with grant := grant } }

/-- No voice is held. -/
def allFree : Vector (Option LayerId) 24 := Vector.replicate 24 none

theorem test_witness_claim_voice :
    (claiming allFree [] .none).audible 0 1 = true ∧ (claiming allFree [] .none).bnd.grant ≠ .start
      ∧ (claiming allFree [] .none).mix.wait = [] ∧ (claiming allFree [] .none).mix.voices.get 0 = none
      ∧ (∀ v, (claiming (Vector.replicate 24 (some 9)) [] .none).mix.voices.get v ≠ none)
      ∧ (∀ v, (claiming (Vector.replicate 24 (some 9)) [] .none).mix.voices.get v ≠ some 1)
      ∧ (claiming allFree [⟨0, 0⟩] .none).mix.wait ≠ [] ∧ (claiming allFree [] .start).bnd.grant = .start
      ∧ (claiming (allFree.set 23 (some 1)) [] .none).mix.voices.get 23 = some 1
      ∧ (∃ w ∈ (claiming allFree [⟨1, 0⟩] .none).mix.wait, w.layer = 1) ∧ quiet.audible 0 1 = false := by decide
theorem test_witness_Rec_heads_and_records :
    inBar.head .h0 = none ∧ (recording inBar (someHead .fixed 3) [none]).head .h1 = none
      ∧ (recording inBar (someHead .fixed 3) [none]).head0 ≠ none ∧ (∀ y : LayerId, y < 0 → inBar.layer y ≠ none)
      ∧ (∀ y : LayerId, y < 1 → (recording inBar (someHead .fixed 3) [none]).layer y ≠ none)
      ∧ (recording inBar (someHead .fixed 3) [none]).definingRuns = false := by decide
theorem test_witness_Rec :
    inBar.clock.transport = .running ∧ inBar.clock.loop = none ∧ (inBar.track 7).stack = [] ∧ (inBar.track 7).redo = []
      ∧ (inBar.track 7).reservations = 0 ∧ inBar.head0 = none ∧ inBar.head1 = none
      ∧ (inBar.sup.low && inBar.sup.guard) = false ∧ inBar.layer 0 = none ∧ inBar.clock.pendingTempo = none := by decide
theorem test_witness_Undo :
    (twoLayers quiet).layer 1 = some (someLayer .sealed 0 [none]) ∧ (twoLayers quiet).trackState 0 = .play
      ∧ ((twoLayers quiet).track 0).stack = [0] ++ [1] ∧ (someLayer .sealed 0 [none]).pin = none
      ∧ ∀ e ∈ (twoLayers quiet).bounce.queue, e.dest = 0 → e.fold = true := by decide

/-- Layer 1 is on track 0's redo list, n layers' places taken. -/
def undone (n : Nat) : State :=
  (quiet.setLayer 1 (some (someLayer .undone 0 [none]))).modTrack 0 fun t =>
    { t with redo := [1], reservations := n, span := some .one }

theorem test_witness_Redo :
    (undone 5).trackState 0 = .empty ∧ ((undone 5).track 0).redo = [1]
      ∧ ((undone 5).track 0).stack.length + ((undone 5).track 0).reservations ≠ 6 ∧ (undone 5).bounce.threshold = 0
      ∧ ((undone 6).track 0).stack.length + ((undone 6).track 0).reservations = 6 := by decide
/-- The song runs with one bar of 12,000 frames, two layers of three entries on track 0. -/
def looping : State :=
  { (((quiet.setLayer 0 (some (someLayer .sealed 0 [none, none, none]))).setLayer 1
      (some (someLayer .sealed 0 [none, none, none]))).modTrack 0 fun t => { t with stack := [0, 1], span := some .one }) with
    clock := { inBar.clock with p := 250, b := 1, loop := some 1 } }

theorem test_witness_Rec_fixed_and_dub :
    looping.clock.transport = .running ∧ looping.clock.loop = some 1 ∧ looping.layer 0 ≠ none ∧ looping.layer 2 = none
      ∧ (∀ y : LayerId, y < 2 → looping.layer y ≠ none) ∧ (looping.track 7).stack = [] ∧ (looping.track 7).redo = []
      ∧ (looping.track 7).reservations = 0 ∧ (looping.sup.low && looping.sup.guard) = false
      ∧ (Span.loops .four * (1 * (1 * 48 * 250)) + 4095) / 4096 ≤ 1024 ∧ looping.trackState 0 = .play
      ∧ (looping.track 0).redo = [] ∧ (looping.track 0).stack.length + (looping.track 0).reservations ≠ 6 := by decide
theorem test_witness_Undo_of_a_recording :
    (recording inBar (someHead .fixed 3) [some 0]).headOn 0 = some .h0
      ∧ (recording inBar (someHead .fixed 3) [some 0]).head .h0 = some (someHead .fixed 3)
      ∧ (recording inBar (someHead .fixed 3) [some 0]).layer 0 = some (someLayer .filling 0 [some 0])
      ∧ (recording inBar (someHead .fixed 3) [some 0]).trackState 0 = .recording := by decide
theorem test_witness_CancelCueRemovesTheCuesOfItsMode :
    quiet.sup.state = .ready ∧ takes quiet 0x19 [0, 255] = true ∧ takes quiet 0x19 [1, 7] = true
      ∧ takes quiet 0x19 [1, 8] = true ∧ takes quiet 0x19 [2, 0] = true ∧ (7 : Byte).toNat < 8 ∧ 7 < (8 : Byte).toNat := by
  decide

/-- The halt latch is set. -/
def halted : State := { quiet with sup := { quiet.sup with latch := true } }

theorem test_witness_ClearAllFreesEveryLayer :
    takes (twoLayers quiet) 0x26 [] = true ∧ (twoLayers quiet).sup.state = .ready ∧ (twoLayers quiet).sup.latch = false
      ∧ takes halted 0x26 [] = true ∧ halted.sup.latch = true := by decide
theorem test_witness_Clear_of_one_track :
    (twoLayers quiet).headOn 0 = none ∧ (twoLayers quiet).bounce.queue = []
      ∧ (∀ x ∈ ((twoLayers quiet).track 0).stack ++ ((twoLayers quiet).track 0).redo,
        ((twoLayers quiet).layer x).map (·.track) = some 0)
      ∧ (((twoLayers quiet).track 0).stack ++ ((twoLayers quiet).track 0).redo).Nodup
      ∧ (recording inBar (someHead .fixed 3) [none]).headOn 0 = some .h0 := by decide

/-! ### Witnesses: tracks, bounces, scenes and tones -/

theorem test_witness_TrackConfig :
    takes quiet 0x20 [7, 15, 255, 127, 2, 2] = true ∧ takes quiet 0x20 [0, 1, 0, 0, 0, 0] = true
      ∧ takes quiet 0x20 [8, 1, 0, 0, 0, 0] = true ∧ quiet.sup.state = .ready
      ∧ ¬(7 < (7 : Byte).toNat ∨ (15 : Byte) = 0 ∨ 15 < (15 : Byte).toNat ∨ 127 < (127 : Byte).toNat
        ∨ 2 < (2 : Byte).toNat ∨ 2 < (2 : Byte).toNat) := by decide
theorem test_witness_SetLevel :
    takes quiet 0x24 [55, 255] = true ∧ takes quiet 0x24 [56, 0] = true ∧ quiet.takeRequest.layer 55 = none
      ∧ (twoLayers quiet).takeRequest.layer 1 = some (someLayer .sealed 0 [none]) ∧ takes (twoLayers quiet) 0x24 [1, 0] = true
      ∧ (55 : Byte).toNat < 56 ∧ 55 < (56 : Byte).toNat := by decide
theorem test_witness_TrackAndLayersAreAnswered :
    takes quiet 0x21 [7] = true ∧ takes quiet 0x21 [8] = true ∧ takes quiet 0x22 [55] = true ∧ takes quiet 0x22 [56] = true
      ∧ takes (twoLayers quiet) 0x23 [1, 0, 0] = true ∧ takes (twoLayers quiet) 0x23 [1, 1, 0] = true
      ∧ takes quiet 0x23 [56, 0, 0] = true ∧ (twoLayers quiet).takeRequest.layer 1 = some (someLayer .sealed 0 [none])
      ∧ (0 : Byte).toNat + 256 * (0 : Byte).toNat < (someLayer .sealed 0 [none]).map.length
      ∧ (someLayer .sealed 0 [none]).map.length ≤ (1 : Byte).toNat + 256 * (0 : Byte).toNat := by decide
theorem test_witness_QueuesAndScenesAreAnswered :
    takes quiet 0x1A [15] = true ∧ takes quiet 0x1A [16] = true ∧ takes quiet 0x2A [3] = true ∧ takes quiet 0x2A [4] = true
      ∧ takes quiet 0x31 [15] = true ∧ takes quiet 0x31 [16] = true ∧ (15 : Byte).toNat ≤ 15 ∧ 15 < (16 : Byte).toNat
      ∧ (3 : Byte).toNat ≤ 3 ∧ 3 < (4 : Byte).toNat ∧ (15 : Byte).toNat < 16 := by decide

/-- Four bounces wait. -/
def fullQueue : State := { twoLayers quiet with bounce := { BounceEngine.cold with queue := List.replicate 4 someFold } }

theorem test_witness_BounceIsRefused_form :
    takes (twoLayers quiet) 0x28 [2, 0, 0, 1, 0, 0, 0, 0] = true ∧ (twoLayers quiet).sup.state = .ready
      ∧ 1 < (2 : Byte).toNat ∧ takes (twoLayers quiet) 0x28 [0, 7, 3, 4, 0, 1, 55, 56] = true
      ∧ ([0, 1, 55, 56] : List Byte).take 4 = [0, 1, 55] ++ 56 :: []
      ∧ (∀ y ∈ ([0, 1, 55] : List Byte), y.toNat ≤ 55) ∧ 55 < (56 : Byte).toNat
      ∧ ([0, 0, 0, 0] : List Byte).take 2 = ([0, 0] : List LayerId).map (fun x => byte x.val)
      ∧ ¬([0, 0] : List LayerId).Nodup := by decide
theorem test_witness_BounceIsRefused_full :
    takes fullQueue 0x28 [1, 0, 0, 2, 0, 1, 0, 0] = true ∧ fullQueue.takeRequest.bounce.queue.length = 4
      ∧ ([0, 1, 0, 0] : List Byte).take 2 = ([0, 1] : List LayerId).map (fun x => byte x.val)
      ∧ ([0, 1] : List LayerId).Nodup := by decide
theorem test_witness_BounceIsRefused_source :
    takes (twoLayers quiet) 0x28 [0, 7, 0, 2, 1, 55, 0, 0] = true ∧ (twoLayers quiet).takeRequest.bounce.queue.length ≠ 4
      ∧ ([1, 55, 0, 0] : List Byte).take 2 = ([1, 55] : List LayerId).map (fun x => byte x.val)
      ∧ ([1, 55] : List LayerId) = [1] ++ 55 :: []
      ∧ (∀ y ∈ ([1] : List LayerId), sourceCode ((twoLayers quiet).takeRequest.layer y) = none)
      ∧ sourceCode ((twoLayers quiet).takeRequest.layer 55) = some 6 := by decide

/-- Layers 0 and 1 on track 0, layer 1 one entry longer. -/
def unequal : State := (twoLayers quiet).setLayer 1 (some (someLayer .sealed 0 [none, none]))

/-- Layers 0 and 1 on track 0, track 7 with n places taken. -/
def crowded (n : Nat) : State := (twoLayers quiet).modTrack 7 fun t => { t with reservations := n, span := some .one }

/-- Layers 0 and 1 on track 0, track 7 recording its base in layer 2. -/
def recordingSeven : State :=
  ((twoLayers quiet).setLayer 2 (some (someLayer .filling 7 [none]))).modTrack 7 fun t =>
    { t with stack := [2], span := some .one }

theorem test_witness_BounceIsRefused_lengths :
    takes unequal 0x28 [1, 0, 0, 2, 0, 1, 0, 0] = true
      ∧ (∀ y ∈ ([0, 1] : List LayerId), sourceCode (unequal.takeRequest.layer y) = none)
      ∧ (∃ y ∈ ([0, 1] : List LayerId), ∃ z ∈ ([0, 1] : List LayerId),
        ((unequal.takeRequest.layer y).map fun l => l.map.length).getD 0
          ≠ ((unequal.takeRequest.layer z).map fun l => l.map.length).getD 0) := by decide
theorem test_witness_BounceIsRefused_destination :
    takes (crowded 6) 0x28 [1, 7, 0, 2, 0, 1, 0, 0] = true ∧ takes (crowded 6) 0x28 [0, 7, 0, 1, 0, 0, 0, 0] = true
      ∧ (∀ y ∈ ([0, 1] : List LayerId), sourceCode ((crowded 6).takeRequest.layer y) = none)
      ∧ (0 : LayerId) ∉ ((crowded 6).takeRequest.track 7).stack
      ∧ ((crowded 6).takeRequest.track 7).stack.length + ((crowded 6).takeRequest.track 7).reservations = 6
      ∧ (crowded 6).takeRequest.trackState 7 ≠ .recording ∧ recordingSeven.takeRequest.trackState 7 = .recording
      ∧ takes recordingSeven 0x28 [0, 7, 0, 1, 0, 0, 0, 0] = true := by decide
theorem test_witness_BounceIsRefused_span :
    takes (crowded 5) 0x28 [0, 7, 0, 1, 0, 0, 0, 0] = true ∧ ((crowded 5).takeRequest.track 7).span = some .one
      ∧ ((crowded 5).takeRequest.track 7).stack.length + ((crowded 5).takeRequest.track 7).reservations ≠ 6
      ∧ (crowded 5).takeRequest.trackState 7 ≠ .recording
      ∧ (crowded 5).takeRequest.clock.mapLength .one ≠ (((crowded 5).takeRequest.layer 0).map fun l => l.map.length).getD 0
      ∧ takes looping 0x28 [0, 7, 0, 1, 0, 0, 0, 0] = true ∧ (looping.takeRequest.track 7).span = none
      ∧ (∀ y ∈ ([0] : List LayerId), sourceCode ((looping.setLayer 0 (some (someLayer .sealed 0 [none]))).takeRequest.layer y) = none)
      ∧ (∀ span, (looping.setLayer 0 (some (someLayer .sealed 0 [none]))).takeRequest.clock.mapLength span
        ≠ (((looping.setLayer 0 (some (someLayer .sealed 0 [none]))).takeRequest.layer 0).map fun l => l.map.length).getD 0) :=
  ⟨by decide, by decide, by decide, by decide, by decide, by decide, by decide, by decide, fun span => by cases span <;> decide⟩

/-- Layers 0 and 1 on track 0, L established with one bar of 8,192 frames or fewer. -/
def copyable : State :=
  { twoLayers quiet with clock := { Clock.cold with p := 85, b := 1, loop := some 1 } }

theorem test_witness_BounceJoinsTheQueue_fold :
    takes (twoLayers quiet) 0x28 [flagByte true, byte 0, 3, byte 2, 0, 1, 0, 0] = true ∧ (3 : Byte).toNat ≤ 3
      ∧ (∀ x ∈ ([0, 1] : List LayerId), sourceCode ((twoLayers quiet).takeRequest.layer x) = none)
      ∧ (∀ x ∈ ([0, 1] : List LayerId), ((twoLayers quiet).takeRequest.layer x).map (fun l => l.map.length) = some 1)
      ∧ (∀ x ∈ ([0, 1] : List LayerId), x ∈ ((twoLayers quiet).takeRequest.track 0).stack) := by decide
theorem test_witness_BounceJoinsTheQueue_copy :
    takes copyable 0x28 [flagByte false, byte 7, 3, byte 1, 1, 0, 0, 0] = true
      ∧ (copyable.takeRequest.layer 1).map (fun l => l.map.length) = some 1
      ∧ copyable.takeRequest.trackState 7 ≠ .recording
      ∧ (copyable.takeRequest.track 7).stack.length + (copyable.takeRequest.track 7).reservations ≠ 6
      ∧ (copyable.takeRequest.track 7).span = none ∧ copyable.takeRequest.clock.mapLength .one = 1 := by decide
/-- Auto-fold at three layers, n bounces waiting that copy to track 7. -/
def folding (n : Nat) : State :=
  { (twoLayers quiet).setLayer 2 (some (someLayer .sealed 0 [none])) |>.modTrack 0 (fun t => { t with stack := [0, 1, 2] }) with
    bounce := { BounceEngine.cold with
      threshold := 3, queue := List.replicate n { someFold with fold := false, dest := 7 } } }

theorem test_witness_auto_fold :
    (folding 4).bounce.threshold ≠ 0 ∧ (folding 4).bounce.threshold ≤ ((folding 4).track 0).stack.length
      ∧ (∀ e ∈ (folding 4).bounce.queue, e.dest = 0 → e.fold = false) ∧ (folding 4).bounce.queue.length = 4
      ∧ (folding 3).bounce.queue.length ≠ 4 ∧ ((folding 4).track 0).stack = [] ++ 0 :: ([] ++ 1 :: [2])
      ∧ (folding 4).layer 0 = some (someLayer .sealed 0 [none]) ∧ (someLayer .sealed 0 [none]).pin = none
      ∧ (someLayer .sealed 0 [none]).damaged = false ∧ fullQueue.bounce.threshold = 0
      ∧ (∃ e ∈ fullQueue.bounce.queue, e.fold = true ∧ e.dest = 0) := by decide
theorem test_witness_auto_fold_one_layer :
    ((folding 0).track 0).stack = [0, 1] ++ 2 :: [] ∧ ∀ y ∈ ([] : List LayerId), y ≠ y := by decide
theorem test_witness_CancelBounceAbortsTheEntriesOfItsMode :
    takes fullQueue 0x29 [0, 0] = true ∧ fullQueue.sup.state = .ready
      ∧ fullQueue.takeRequest.bounce.queue.filter (fun e => e.id = 0) ≠ []
      ∧ takes fullQueue 0x29 [0, 255] = true ∧ fullQueue.takeRequest.bounce.queue.filter (fun e => e.id = 255) = []
      ∧ takes fullQueue 0x29 [1, 255] = true := by decide
theorem test_witness_FoldConfigSetsTheThreshold :
    takes quiet 0x2B [6] = true ∧ takes quiet 0x2B [7] = true ∧ takes quiet 0x2B [0] = true := by decide
theorem test_witness_BounceStartsItsHead :
    (bouncing someFold).settleWalk.sup.state = .ready ∧ (bouncing someFold).settleWalk.bounce.queue = someFold :: []
      ∧ someFold.run = none ∧ (bouncing someFold).settleWalk.bounce.headFresh = false ∧ (bouncing someFold).layer 3 = none
      ∧ (∀ y : LayerId, y < 3 → (bouncing someFold).layer y ≠ none) := by decide

/-- Every layer record in use, a bounce at the head. -/
def noRecord : State :=
  { bouncing someFold with layers := Vector.replicate 56 (some (someLayer .sealed 0 [none])) }

theorem test_witness_BounceStartsItsHead_no_record :
    (∀ x, noRecord.layer x ≠ none) ∧ noRecord.bounce.headFresh = false := by decide

/-- The bounce at the head, running. -/
def runs (phase : IndexPhase) (frames : Nat) (e : Bounce) : State := bouncing { e with run := some (someRun phase frames) }

/-- The sources name blocks, and n blocks are free. -/
def loud (s : State) (n : Nat) : State :=
  { s.setLayer 0 (some (someLayer .sealed 0 [some 9])) with
    pool := { Pool.cold with free := (List.range n).map (Fin.ofNat 4096), owned := [(9, ⟨0, 0, .valid 0⟩)] } }

theorem test_witness_BounceIndexBegin_silent :
    (runs .beginDue 0 someFold).sup.state = .ready ∧ (runs .beginDue 0 someFold).running = some (someRun .beginDue 0)
      ∧ ∀ x ∈ someFold.sources, (runs .beginDue 0 someFold).mapEntry x 0 = none := by decide
theorem test_witness_BounceIndexBegin_claim :
    (loud (runs .beginDue 0 someFold) 33).pool.free.length = 33
      ∧ (loud (runs .beginDue 0 someFold) 33).pool.free.head? = some 0
      ∧ ¬(∀ x ∈ someFold.sources, (loud (runs .beginDue 0 someFold) 33).mapEntry x 0 = none)
      ∧ ((loud (runs .beginDue 0 someFold) 33).layer 2).map (fun l => l.map.length) = some 1
      ∧ (2 : LayerId) ∉ someFold.sources ∧ (someRun .beginDue 0).frames = 0
      ∧ (loud (runs .beginDue 0 someFold) 32).pool.free.length < 33 ∧ (loud (runs .beginDue 0 someFold) 33).pool.behind = none
      ∧ quiet.beginIsDue = false := by decide
theorem test_witness_AudioFrame_running_bounce :
    (runs .toBegin 0 someFold).frameOwes = false
      ∧ (runs .filling 1023 someFold).frameOwes = false ∧ (runs .filling 1023 someFold).sup.state = .ready
      ∧ (runs .filling 1023 someFold).head0 = none ∧ (runs .filling 1023 someFold).head1 = none := by decide
theorem test_witness_AudioFrame_running_bounce_memory : (runs .filling 1023 someFold).memoryLegal :=
  ⟨List.Pairwise.nil, fun _ h => absurd h List.not_mem_nil⟩

/-- Layers 0 and 1 copied to track 7. -/
def someCopy : Bounce := { someFold with fold := false, dest := 7 }

/-- Layer 3 is on track 7's redo list. -/
def redoing (s : State) : State :=
  (s.setLayer 3 (some (someLayer .undone 7 [none]))).modTrack 7 fun t => { t with redo := [3], span := some .one }

/-- The song runs with L established, and layer 3 on track 7's redo list is the one record in use. -/
def lastRedone : State := redoing { quiet with clock := looping.clock }

/-- Two layers on track 0 and a third on its redo list, in a song that runs. -/
def redoBelow : State :=
  (looping.setLayer 3 (some (someLayer .undone 0 [none]))).modTrack 0 fun t => { t with redo := [3] }

theorem test_witness_Rec_with_a_redo_list :
    (redoing looping).clock.loop = some 1 ∧ (redoing looping).layer 0 ≠ none ∧ (0 : LayerId) ∉ ((redoing looping).track 7).redo
      ∧ ((redoing looping).track 7).redo = [3] ∧ ((redoing looping).track 7).stack = []
      ∧ ((redoing looping).track 7).reservations = 0 ∧ ((redoing looping).layer 3).map (·.track) = some 7
      ∧ ((redoing looping).discardRedo 7).layer 2 = none
      ∧ (∀ y : LayerId, y < 2 → ((redoing looping).discardRedo 7).layer y ≠ none) := by decide +kernel
theorem test_witness_Rec_that_frees_the_last_record :
    lastRedone.clock.loop ≠ none ∧ (∀ y, lastRedone.layer y ≠ none → y ∈ (lastRedone.track 7).redo)
      ∧ (lastRedone.track 7).redo = [] ++ [3] ∧ (lastRedone.track 7).stack = [] ∧ (lastRedone.track 7).reservations = 0
      ∧ (lastRedone.discardRedo 7).layer 0 = none ∧ (lastRedone.discardRedo 7).clock.loop = none := by decide +kernel
theorem test_witness_Dub_with_a_redo_list :
    redoBelow.trackState 0 = .play ∧ (redoBelow.track 0).redo = [3] ∧ (3 : LayerId) ∉ (redoBelow.track 0).stack
      ∧ (redoBelow.track 0).stack.length + (redoBelow.track 0).reservations ≠ 6
      ∧ (redoBelow.discardRedo 0).layer 2 = none
      ∧ (∀ y : LayerId, y < 2 → (redoBelow.discardRedo 0).layer y ≠ none) := by decide +kernel

/-- Layer 1's pin names the FOLD that runs; a COPY to track 0 waits behind it. -/
def undoing : State :=
  let s := runs .filling 5 someFold
  { s.modLayer 1 (fun l => { l with pin := some 0 }) with
    bounce := { s.bounce with queue := s.bounce.queue ++ [{ someCopy with id := 1, dest := 0, sources := [4] }] } }

theorem test_witness_Undo_that_aborts_bounces :
    undoing.trackState 0 = .play ∧ (undoing.track 0).stack = [0] ++ [1] ∧ (∀ e ∈ undoing.bounce.queue, RunsApart undoing e)
      ∧ (∀ e ∈ undoing.bounce.queue.tail, e.run = none) ∧ (undoing.layer 1).map (·.pin) = some (some 0)
      ∧ (undoing.bounce.queue.map fun e => (e.id, e.sources.contains 1, e.fold, e.dest)) = [(0, true, true, 0), (1, false, false, 0)] := by
  refine ⟨by decide, by decide, fun e he r hr => ?_, by decide, by decide, by decide⟩
  have key : ∀ e ∈ undoing.bounce.queue, (e.run.all fun r =>
      decide ((undoing.layer r.product).map (·.track) = some e.dest)
      && decide (∀ k, r.product ∉ (undoing.track k).stack ∧ r.product ∉ (undoing.track k).redo)
      && decide (∀ f ∈ undoing.bounce.queue, r.product ∉ f.sources)) = true := by decide +kernel
  simpa [hr, and_assoc] using key e he
theorem test_witness_Clear_that_aborts_bounces :
    undoing.headOn 0 = none ∧ (∀ x ∈ (undoing.track 0).stack ++ (undoing.track 0).redo, (undoing.layer x).map (·.track) = some 0)
      ∧ ((undoing.track 0).stack ++ (undoing.track 0).redo).Nodup
      ∧ ((undoing.doAction (.clear (.track 0))).2.bounce.queue = []) := by decide +kernel
theorem test_undo_aborts_the_pinned_bounce_first :
    let t := (undoing.doAction (.undo 0)).2
    t.bounce.queue = [] ∧ t.layer 2 = none ∧ (t.layer 1).map (fun l => (l.state, l.pin)) = some (.undone, none)
      ∧ (t.link.tx.map fun f => f.payload.getD 6 0) = [1, 2] := by decide +kernel

theorem test_witness_BounceIndexFinishes :
    (runs .filling 1024 someFold).running = some (someRun .filling 1024)
      ∧ ((runs .filling 1024 someFold).layer 2).map (·.pin) = some none
      ∧ (someRun .filling 1024).progress + 1 < { someFold with mapLen := 2 }.mapLen
      ∧ someFold.mapLen ≤ (someRun .filling 1024).progress + 1 ∧ someFold.sources = [0, 1]
      ∧ (runs .filling 1024 someFold).stackPos 0 0 < (runs .filling 1024 someFold).stackPos 0 1
      ∧ ((redoing (runs .filling 1024 someCopy)).track someCopy.dest).redo = [3]
      ∧ (2 : LayerId) ∉ ([3] : List LayerId)
      ∧ (∀ z ∈ ([3] : List LayerId), ((redoing (runs .filling 1024 someCopy)).layer z).map (·.track) = some someCopy.dest
        ∧ z ∉ ((redoing (runs .filling 1024 someCopy)).track someCopy.dest).stack)
      ∧ (runs .filling 1024 someFold).layer 0 ≠ none ∧ (runs .filling 1024 someFold).layer 1 ≠ none := by decide
theorem test_witness_BounceIndexFinishes_pool :
    (runs .filling 1024 someFold).poolLegal ∧ (redoing (runs .filling 1024 someCopy)).poolLegal :=
  ⟨poolLegal_silent rfl (by decide), poolLegal_silent rfl (by decide)⟩
theorem test_witness_SceneWriteAndSceneNext :
    takes quiet 0x30 [15, 1, 2, 2, 2, 2, 2, 2, 2, 2, 255, 15, 1] = true ∧ quiet.sup.state = .ready
      ∧ takes quiet 0x30 [16, 0, 0, 0, 0, 0, 0, 0, 0, 0, 0, 0, 0] = true ∧ takes quiet 0x32 [0, 15] = true
      ∧ takes quiet 0x32 [0, 16] = true ∧ takes quiet 0x32 [1, 255] = true ∧ (15 : Byte).toNat < 16
      ∧ 15 < (16 : Byte).toNat := by decide
theorem test_witness_SceneStopSetsTheSequencerIdle : takes quiet 0x33 [] = true ∧ takes scanning 0x33 [] = true := by decide

/-- Scene 15 valid, tied or not. -/
def oneScene (tie : Bool) : Vector Scene 16 := (Vector.replicate 16 Scene.cold).set 15 { Scene.cold with valid := true, tie := tie }

/-- A countdown has ended with scene n in the slot. -/
def countedDown (tie : Bool) (n : SceneId) : State :=
  { inBar with
    scenes := { Sequencer.cold with table := oneScene tie, current := some 0, slot := some n }
    bnd := { inBar.bnd with taken := some { beat := true, bar := true, loop := false }, sceneStep := some .countdownEnd } }

/-- The countdown's end stands ahead of the walk over two BAR cues. -/
def steppingWalk (delay : Fin 16) : State :=
  { countedDown true 15 with
    cues := { list := [someCue 1, someCue delay], nextId := 0 }
    bnd := { (countedDown true 15).bnd with walk := some 0 } }

/-- Scene n is due. -/
def dueAt (n : SceneId) : State :=
  { countedDown false n with
    scenes := { (countedDown false n).scenes with slot := none, due := some { scene := n, fromSlot := true } }
    bnd := { (countedDown false n).bnd with sceneStep := some .dueApply } }

theorem test_witness_ScenesAdvanceAtTheBar_countdown :
    (countedDown true 15).bnd.sceneStep = some .countdownEnd ∧ (countedDown true 15).scenes.slot = some 15
      ∧ ((countedDown true 15).scenes.table.get 15).tie = true ∧ ((countedDown false 15).scenes.table.get 15).tie = false
      ∧ ((countedDown false 15).scenes.table.get 15).valid = true
      ∧ ((countedDown false 14).scenes.table.get 14).valid = false
      ∧ (countedDown false 15).bnd.taken.map (·.loop) ≠ some true ∧ (countedDown true 15).bnd.walk = none
      ∧ quiet.bnd.sceneStep ≠ some .countdownEnd := by decide
theorem test_witness_ScenesAdvanceAtTheBar_cue : ((countedDown true 15).scenes.table.get 15).valid = true := by decide
theorem test_witness_ScenesAdvanceAtTheBar_walk :
    (steppingWalk 0).bnd.walk = some 0 ∧ (steppingWalk 0).bnd.taken = some { beat := true, bar := true, loop := false }
      ∧ (after .sceneCountdownEnd (steppingWalk 0)).bnd.walk = some 0
      ∧ (after .sceneCountdownEnd (steppingWalk 0)).cues.list = [someCue 1, someCue 0]
      ∧ (after .sceneCountdownEnd (steppingWalk 2)).bnd.walk = none
      ∧ (after .sceneCountdownEnd (steppingWalk 2)).cues.list = [someCue 0, someCue 1] := by decide +kernel
theorem test_witness_ScenesAdvanceAtTheBar_due :
    (dueAt 15).bnd.sceneStep = some .dueApply ∧ (dueAt 15).scenes.due = some { scene := 15, fromSlot := true }
      ∧ ((dueAt 15).scenes.table.get 15).valid = true ∧ ((dueAt 14).scenes.table.get 14).valid = false
      ∧ quiet.bnd.sceneStep ≠ some .dueApply := by decide
theorem test_witness_ClickAndMonitorConfigReadAndWrite :
    takes quiet 0x38 [0, 0, 0, 0, 0] = true ∧ takes quiet 0x38 [1, 3, 1, 1, 12] = true
      ∧ takes quiet 0x38 [1, 4, 1, 1, 13] = true ∧ takes quiet 0x38 [2, 0, 0, 0, 0] = true
      ∧ takes quiet 0x3B [255, 0, 0, 0, 0, 0, 0, 0] = true ∧ 1 < (2 : Byte).toNat ∧ takes quiet 0x3B [0, 0, 0, 0, 0, 0, 0, 0] = true
      ∧ takes quiet 0x3B [1, 255, 255, 255, 255, 255, 255, 255] = true := by decide

/-- A prompt sounds, with n entries behind it. -/
def sounding (ticks n : Nat) (last : Bool) : State :=
  { inBar with
    tones := { Tones.cold with
      queue := List.replicate n someEntry
      slot := some { entry := someEntry, ticks := ticks, lastSilent := last, wave := { Wave.fresh with flipDue := true } }
      click := some { pitch := 23, ticks := ticks, wave := { Wave.fresh with flipDue := true } } } }

theorem test_witness_TonesJoin :
    takes quiet 0x39 [4, 1, 6, 3, 0, 6, 1, 1, 0, 0, 1, 0, 0] = true ∧ quiet.sup.state = .ready
      ∧ quiet.takeRequest.tones.queue.length + (4 : Byte).toNat ≤ 4
      ∧ 4 < (sounding 1 1 false).takeRequest.tones.queue.length + (4 : Byte).toNat
      ∧ takes (sounding 1 1 false) 0x39 [4, 1, 6, 3, 0, 6, 1, 1, 0, 0, 1, 0, 0] = true
      ∧ takes quiet 0x39 [5, 1, 6, 3, 0, 6, 1, 1, 0, 0, 1, 0, 0] = true
      ∧ takes quiet 0x39 [1, 0, 0, 2, 0, 0, 0, 0, 0, 0, 0, 0, 0] = true
      ∧ (∀ i, i < 4 → ¬(6 < (([1, 6, 3, 0, 6, 1, 1, 0, 0, 1, 0, 0] : List Byte).getD (3 * i + 1) 0).toNat
        ∨ 3 < (([1, 6, 3, 0, 6, 1, 1, 0, 0, 1, 0, 0] : List Byte).getD (3 * i + 2) 0).toNat
        ∨ (([1, 6, 3, 0, 6, 1, 1, 0, 0, 1, 0, 0] : List Byte).getD (3 * i) 0 = 0
          ∧ (([1, 6, 3, 0, 6, 1, 1, 0, 0, 1, 0, 0] : List Byte).getD (3 * i + 2) 0).getLsbD 0 = false))) := by decide
theorem test_witness_ToneFlush :
    takes (sounding 1 4 false) 0x3A [] = true ∧ (sounding 1 4 false).sup.state = .ready
      ∧ (sounding 1 4 false).takeRequest.tones.slot.isSome = true := by decide
theorem test_witness_TonesAndClicksGoOn :
    (sounding 0 1 false).sup.state = .ready ∧ (sounding 0 1 false).tones.click.map (·.ticks) = some 0
      ∧ (sounding 0 1 false).tones.slot.map (·.ticks) = some 0 ∧ (sounding 0 1 false).tones.queue = someEntry :: []
      ∧ (sounding 0 0 true).tones.queue = [] ∧ (sounding 1 0 true).tones.click.map (·.wave.flipDue) = some true
      ∧ (sounding 1 0 true).tones.slot.map (·.wave.flipDue) = some true := by decide

/-- A load is due. -/
def loading : State :=
  { inBar with
    tones := { Tones.cold with queue := [someEntry], loadPending := true }, bnd := { inBar.bnd with toneLoad := true } }

theorem test_witness_ToneLoad :
    loading.bnd.toneLoad = true ∧ loading.tones.loadPending = true ∧ loading.tones.queue = someEntry :: [] := by decide

/-! ### Witnesses: the link, frames and boundaries -/

theorem test_witness_WellFormedFrames :
    (0x7F : Byte).toNat < 0x80 ∧ (payload 56).length ≤ 56 ∧ quiet.sup.state ≠ .reset
      ∧ (resetting CauseSet.powerUp).sup.state = .reset := by decide
theorem test_witness_ReceiverAndSenderGoOn :
    quiet.sup.state ≠ .reset ∧ quiet.link.tx = [] ∧ State.reset.link.tx = powerUpHello :: []
      ∧ ∀ r, State.reset.sup.restart = some r → r.ahead ≠ 0 :=
  ⟨by decide, rfl, rfl, fun _ h => (nomatch h)⟩
theorem test_witness_FrameSent_restart :
    (restarting false).settleWalk.sup.restart = some { cold := false, ahead := 0 } := by decide

/-- The silence timer runs. -/
def timed : State := { inBar with link := { inBar.link with timer := true, timeout := 1 } }

theorem test_witness_SilenceExpirySetsTheAutopilot :
    timed.link.timer = true ∧ timed.sup.state = .ready ∧ quiet.link.timer = false := by decide
theorem test_witness_FrameCounts_request :
    standbyWaits.frameOwes = false
      ∧ { standbyWaits with link := { standbyWaits.link with requestDue := true } }.frameOwes = true := by decide
theorem test_witness_FrameCounts_ready :
    inBar.sup.state = .ready ∧ inBar.frameOwes = false ∧ inBar.head0 = none ∧ inBar.head1 = none
      ∧ inBar.bounce.queue = [] ∧ atTick.frameOwes = true := by decide

/-- The scan stands at block 9, with n frames of its visit counted. -/
def visiting (n : Nat) : State :=
  { (twoLayers scanning).setLayer 0 (some (someLayer .sealed 0 [some 9])) with
    pool := { Pool.cold with
      owned := [(9, ⟨0, 0, .valid 0⟩), (4095, ⟨0, 1, .bad 1⟩)], scan := some { next := 9, frames := n, checked := 0, freed := 0 } } }

theorem test_witness_FrameCounts_verifying :
    (visiting 31).sup.state = .verifying ∧ (visiting 31).sup.restart = none ∧ (visiting 31).pool.scan.map (·.frames) = some 31
      ∧ (resetting CauseSet.powerUp).sup.state ≠ .ready ∧ (resetting CauseSet.powerUp).sup.state ≠ .verifying := by decide

/-- H0 writes frame 4,095 of its first block, or is about to enter it. -/
def writing (index : Option Nat) (stalled : Bool) (map : List (Option BlockId)) : State :=
  recording inBar { someHead .defining 4095 with index := index, stalled := stalled } map

theorem test_witness_WritingHeadStoresItsSample :
    (writing (some 0) false [some 9]).frameOwes = false ∧ (writing (some 0) true [none]).frameOwes = false
      ∧ (writing none false []).frameOwes = false ∧ (writing none false []).sup.state = .ready
      ∧ (writing none false []).clock.transport = .running ∧ (writing none false []).clock.startMark = .none
      ∧ (writing none false []).head0 = some { someHead .defining 4095 with index := none }
      ∧ (writing none false []).head1 = none ∧ (writing none false []).bounce.queue = []
      ∧ (writing none false []).layer 0 = some (someLayer .filling 0 []) := by decide
theorem test_witness_WritingHeadStoresItsSample_memory :
    (writing none false []).memoryLegal ∧ ∃ b rest, (writing none false []).pool.free = b :: rest :=
  ⟨⟨List.Pairwise.nil, fun _ h => absurd h List.not_mem_nil⟩, _, _, rfl⟩
theorem test_witness_enterHead :
    (owning (writing (some 0) false [some 0])).poolLegal ∧ (writing none false []).poolLegal
      ∧ (owning (writing (some 9) false [some 0])).poolLegal
      ∧ (writing (some 9) false [some 0]).head .h0 = some { someHead .defining 4095 with index := some 9 }
      ∧ 4095 / 4096 = 0 ∧ ([] : List (Option BlockId)).length = 0 :=
  ⟨poolLegal_one rfl (by decide) (by decide), poolLegal_silent rfl (by decide), poolLegal_one rfl (by decide) (by decide),
    by decide, by decide, rfl⟩

/-- Every block is OWNED by layer 55, which none of the heads records. -/
def noBlocks (s : State) : State :=
  { s with pool := { Pool.cold with free := [], owned := allBlocks.map fun b => (b, ⟨55, b.val, .none⟩) } }

theorem noBlocks_entry (s : State) (b : BlockId) : (noBlocks s).pool.entry b ≠ none := by
  unfold Pool.entry
  have h : ((noBlocks s).pool.owned.find? fun e => e.1 == b).isSome = true := by
    rw [List.find?_isSome]
    exact ⟨(b, ⟨55, b.val, .none⟩), List.mem_map.2 ⟨b, mem_allBlocks b, rfl⟩, beq_self_eq_true b⟩
  obtain ⟨e, he⟩ := Option.isSome_iff_exists.1 h
  rw [he]; simp

theorem test_witness_enterHead_no_block (mode : HeadMode) :
    (noBlocks (recording inBar { someHead mode 4095 with index := none } [none])).poolLegal
      ∧ (noBlocks (recording inBar { someHead mode 4095 with index := none } [none])).pool.free = [] where
  left :=
    { freeOnce := List.nodup_nil
      freeIff := fun b => iff_of_false List.not_mem_nil (noBlocks_entry _ b)
      named := fun x l h b hm => by
        have hb : ∀ x, blocksOf (recording inBar { someHead .dub 4095 with index := none } [none]) x = [] := by decide
        rw [blocksOf_eq (s := recording inBar { someHead .dub 4095 with index := none } [none]) h, hb x] at hm; nomatch hm
      namedOnce := fun x l h => by
        have hb : ∀ x, blocksOf (recording inBar { someHead .dub 4095 with index := none } [none]) x = [] := by decide
        rw [blocksOf_eq (s := recording inBar { someHead .dub 4095 with index := none } [none]) h, hb x]; exact List.nodup_nil }
  right := rfl

/-- H0 records the base of track 0 in layer 0 and H1 that of track 7 in layer 2, both about to enter their first index. -/
def bothHeads (s : State) : State :=
  { recordingSeven with
    head0 := some { someHead .fixed 0 with index := none }
    head1 := some { someHead .fixed 0 with index := none, track := 7, layer := 2 }
    clock := s.clock }

theorem test_witness_both_heads :
    (bothHeads looping).sup.state = .ready ∧ (bothHeads looping).frameOwes = false
      ∧ (bothHeads looping).clock.transport = .running ∧ (bothHeads looping).clock.startMark = .none
      ∧ (bothHeads looping).bounce.queue = [] ∧ (0 : LayerId) ≠ 2
      ∧ (bothHeads looping).layer 0 = some (someLayer .sealed 0 [none])
      ∧ (bothHeads looping).layer 2 = some (someLayer .filling 7 [none]) := by decide
theorem test_witness_both_heads_pool :
    (bothHeads looping).poolLegal ∧ (bothHeads looping).memoryLegal ∧ ∃ b0 b1 rest, (bothHeads looping).pool.free = b0 :: b1 :: rest :=
  ⟨poolLegal_silent rfl (by decide), ⟨List.Pairwise.nil, fun _ h => absurd h List.not_mem_nil⟩, _, _, _, rfl⟩
/-- The last n free blocks were freed behind the claims of the frame. -/
def freedBehind (s : State) (free : List BlockId) (n : Nat) : State :=
  { s with pool := { s.pool with free := free, behind := some n } }

theorem test_witness_claims_first :
    (writing none false []).sup.state = .ready ∧ (writing none false []).tickDue = false
      ∧ (writing none false []).beginIsDue = false ∧ (writing none false []).bnd.begun = false
      ∧ (freedBehind (writing none false []) [5] 1).pool.free.length ≤ 1
      ∧ (freedBehind (writing none false []) [5, 6] 1).pool.behind.getD 0 = [6].length := by decide
theorem test_witness_BoundariesCountTheSong :
    atTick.sup.state = .ready ∧ atTick.clock.divider = 0 ∧ atTick.clock.dividerSet = false
      ∧ atTick.clock.startMark = .none ∧ atTick.head0 = none ∧ atTick.head1 = none ∧ atTick.clock.transport = .running := by
  decide

/-- A boundary is due in another transport state. -/
def atTickIn (transport : Transport) (mark : StartMark) (tick beat countIn : Nat) : State :=
  { atTick with
    clock := { atTick.clock with transport := transport, startMark := mark, tick := tick, beat := beat, countIn := countIn } }

theorem test_witness_BoundariesCountTheSong_count_in :
    (atTickIn .countIn .none 47 3 2).clock.transport = .countIn ∧ ¬(atTickIn .countIn .none 47 3 2).clock.countIn ≤ 1
      ∧ (atTickIn .stopped .none 0 0 0).clock.transport = .stopped := by decide
/-- A click test or a grant pass of this frame's boundary is still to come. -/
def leftForLater (click : Option ClickTest) (grant : GrantDue) : State :=
  { inBar with bnd := { inBar.bnd with mark := .running, click := click, grant := grant } }

theorem test_witness_BoundariesCountTheSong_later :
    (leftForLater (some ⟨.always, 47, 2⟩) .none).sup.state = .ready ∧ (leftForLater (some ⟨.always, 47, 2⟩) .none).tickDue = false
      ∧ (leftForLater (some ⟨.always, 47, 2⟩) .none).bnd.begun = false
      ∧ (leftForLater (some ⟨.always, 47, 2⟩) .none).bnd.click = some ⟨.always, 47, 2⟩
      ∧ (leftForLater none .normal).bnd.grant = .normal ∧ (leftForLater none .normal).tickDue = false := by decide
theorem test_witness_CountInAndStartInstant :
    (atTickIn .countIn .countIn 0 0 4).clock.startMark = .countIn ∧ (atTickIn .running .start 0 0 0).clock.startMark = .start
      ∧ (atTickIn .countIn .none 47 3 1).clock.tick = 47
      ∧ (atTickIn .countIn .none 47 3 1).clock.beat + 1 = (atTickIn .countIn .none 47 3 1).clock.b
      ∧ (atTickIn .countIn .none 47 3 1).clock.countIn ≤ 1 ∧ (atTickIn .countIn .none 47 3 1).sup.state = .ready
      ∧ (atTickIn .countIn .none 47 3 1).clock.divider = 0 := by decide

/-- The walk stands at the last of two cues. -/
def walking : State :=
  { inBar with
    cues := { list := [someCue 1, someCue 0], nextId := 1 }
    bnd := { inBar.bnd with taken := some { beat := true, bar := true, loop := false }, walk := some 1 } }

/-- The walk stands at the list's start with no cue due any more. -/
def walkOver : State :=
  { walking with cues := { list := [someCue 1, someCue 3], nextId := 1 }, bnd := { walking.bnd with walk := some 0 } }

theorem test_witness_DueCueLeavesTheListAndIsExecuted :
    walking.bnd.sceneStep = none ∧ walking.bnd.walk = some 1
      ∧ walking.bnd.taken = some { beat := true, bar := true, loop := false }
      ∧ walking.cues.list.drop 1 = [] ++ someCue 0 :: []
      ∧ cueMet { beat := true, bar := true, loop := false } (fun n => (walking.track n).span) walking.leavingPass (someCue 0) = true
      ∧ (someCue 0).delay = 0 ∧ (after .cueExecute walking).clock.transport = .running
      ∧ (someCue 1).delay ≠ 0 ∧ quiet.bnd.walk = none := by decide +kernel
theorem test_witness_DueCue_none_left :
    walkOver.bnd.sceneStep = none ∧ walkOver.bnd.walk = some 0
      ∧ walkOver.bnd.taken = some { beat := true, bar := true, loop := false }
      ∧ (∀ q ∈ walkOver.cues.list.drop 0, q.delay ≠ 0)
      ∧ (after .cueExecute walkOver).cues.list = [someCue 0, someCue 2] ∧ (after .cueExecute walkOver).bnd.walk = none := by
  decide +kernel

/-! ### Witnesses: the recorder's ends, resets, supply and halt -/

/-- One bar is 12,000 frames; H0 has a recording that owes a BAR boundary's work. -/
def ending (r : Recording) : State :=
  { owning (recording looped r [some 0]) with clock := { looped.clock with p := 250, b := 1, divider := 1, loop := some 1 } }

theorem test_witness_RecordingsEnd_pool (r : Recording) : (ending r).poolLegal :=
  poolLegal_one rfl (by change blocksOf (ending (someHead .dub 0)) 0 = [0]; decide)
    (by change ∀ x, x ≠ 0 → blocksOf (ending (someHead .dub 0)) x = []; decide)
theorem test_witness_RecordingsEnd_defining_state :
    (ending { someHead .defining 12000 with atBar := true, endPending := .endRec }).settleWalk.head .h0
        = some { someHead .defining 12000 with atBar := true, endPending := .endRec }
      ∧ (ending { someHead .defining 12000 with atBar := true, endPending := .endRec }).settleWalk.sup.state = .ready
      ∧ ¬(1 = 64 ∨ 4194304 < (1 + 1) * (1 * 48 * 250) ∨ EndCond.openEnd = .bars 1) ∧ 64 * 12000 / (1 * 48 * 250) = 64 := by decide
/-- The frame of a BAR boundary not taken yet, a FIXED recording of one frame under way. -/
def fixedAhead : State :=
  { ending (someHead .fixed 1) with clock := { (ending (someHead .fixed 1)).clock with tick := 47, divider := 0 } }

theorem test_witness_END_REC_ahead :
    fixedAhead.headOn 0 = some .h0 ∧ fixedAhead.head .h0 = some (someHead .fixed 1) ∧ fixedAhead.barAhead = true
      ∧ fixedAhead.layer 0 = some (someLayer .filling 0 [some 0]) ∧ (someHead .fixed 1).writeOffset ≠ 0 := by decide
theorem test_witness_END_REC_ahead_pool : fixedAhead.poolLegal :=
  poolLegal_one rfl (by change blocksOf (ending (someHead .dub 0)) 0 = [0]; decide)
    (by change ∀ x, x ≠ 0 → blocksOf (ending (someHead .dub 0)) x = []; decide)
theorem test_witness_END_REC :
    (ending (someHead .dub 0)).headOn 0 = some .h0 ∧ (ending (someHead .dub 0)).bnd.taken = none
      ∧ (ending (someHead .dub 0)).barAhead = false
      ∧ ({ ending (someHead .defining 12000) with
          clock := { (ending (someHead .defining 12000)).clock with tick := 47, divider := 0 } } : State).barAhead = true
      ∧ ({ ending (someHead .defining 12000) with
          bnd := { inBar.bnd with mark := .running, taken := some { beat := true, bar := true, loop := true } } } : State).bnd.taken.map
            (·.bar) = some true := by decide
theorem test_witness_RecordingsEnd_pending :
    (ending { someHead .dub 11999 with atBar := true, endPending := .endRec }).head .h0
        = some { someHead .dub 11999 with atBar := true, endPending := .endRec }
      ∧ (ending { someHead .dub 11999 with atBar := true, endPending := .endRec }).sup.state = .ready
      ∧ (ending (someHead .dub 0)).layer 0 = some (someLayer .filling 0 [some 0])
      ∧ (11999 : Nat) ≠ 1 * (1 * (1 * 48 * 250)) := by decide
theorem test_witness_RecordingsEnd_defining :
    (1 * 48 * 250) / ((ending (someHead .defining 12000)).clock.b * 48 * (ending (someHead .defining 12000)).clock.p) = 1
      ∧ (1 + 1) * (1 * 48 * 250) ≤ 4194304 ∧ (someHead .defining 12000).endCond ≠ .bars 1 := by decide
theorem test_witness_RecordingsEnd_bars :
    { ending { someHead .defining 12000 with atBar := true, endCond := .bars 1 } with
        bnd := { atTick.bnd with taken := some { beat := true, bar := true, loop := false } } }.tickDue = false
      ∧ (ending { someHead .defining 12000 with atBar := true, endCond := .bars 1 }).head1 = none := by decide
theorem test_witness_RecordingsEnd_length :
    (ending (someHead .dub 12000)).tickDue = false ∧ (someHead .dub 12000).chain = false
      ∧ { someHead .dub 12000 with chain := true }.chain = true ∧ { someHead .dub 12000 with chain := true }.writeOffset = 12000
      ∧ (12000 : Nat) = (((ending (someHead .dub 12000)).track 0).span.map Span.loops).getD 0
        * (((ending (someHead .dub 12000)).clock.loop.getD 0)
          * ((ending (someHead .dub 12000)).clock.b * 48 * (ending (someHead .dub 12000)).clock.p))
      ∧ ((ending (someHead .dub 12000)).track 0).stack.length + ((ending (someHead .dub 12000)).track 0).reservations < 6
      ∧ (ending (someHead .dub 12000)).layer 1 = none
      ∧ (∀ y : LayerId, y < 1 → (ending (someHead .dub 12000)).layer y ≠ none)
      ∧ ((ending (someHead .dub 12000)).sup.low && (ending (someHead .dub 12000)).sup.guard) = false := by decide
theorem test_witness_ColdResetEndsAtTheColdValues :
    (resetting CauseSet.onlyPower).sup.state = .reset ∧ (resetting CauseSet.onlyPower).sup.inForce.power = true
      ∧ (resetting CauseSet.onlyCold).sup.inForce.requestCold = true
      ∧ (resetting CauseSet.onlyCold).sup.inForce.brown = false ∧ quiet.sup.state ≠ .reset := by decide
theorem test_witness_WarmResetKeepsTheSealedLayers :
    (resetting CauseSet.onlyPin).sup.state = .reset ∧ (resetting CauseSet.onlyPin).sup.inForce.power = false
      ∧ (resetting CauseSet.onlyPin).sup.inForce.requestCold = false ∧ quiet.sup.state ≠ .reset := by decide
/-- A warm reset is in force with two SEALED layers on track 0 and a FILLING one of track 7. -/
def resettingLayers : State :=
  { recordingSeven with sup := { quiet.sup with state := .reset, inForce := CauseSet.onlyPin } }

theorem test_witness_WarmReset_layers :
    resettingLayers.sup.state = .reset ∧ resettingLayers.layer 0 = some (someLayer .sealed 0 [none])
      ∧ resettingLayers.layer 2 = some (someLayer .filling 7 [none]) ∧ resettingLayers.inUse = [0, 1, 2]
      ∧ (after .warmResetEnd resettingLayers).inUse = [0, 1] ∧ (after .warmResetEnd resettingLayers).pool.owned = []
      ∧ (after .warmResetEnd { visiting 0 with sup := resettingLayers.sup }).sup.state = .verifying
      ∧ (resetting CauseSet.onlyPin).inUse = [] := by decide +kernel
theorem test_witness_VerifyVisitSetsTheCheckState :
    (visiting 32).sup.state = .verifying
      ∧ (visiting 32).pool.scan = some { next := 9, frames := 32, checked := 0, freed := 0 }
      ∧ (visiting 32).pool.entry 9 = some ⟨0, 0, .valid 0⟩ ∧ (Check.valid 0).word = some 0
      ∧ (visiting 31).pool.scan = some { next := 9, frames := 31, checked := 0, freed := 0 } := by decide

/-- The supply is LOW, or the part in STANDBY or WAKING. -/
def inState (state : SupState) (low : Bool) (wake : Option Wake) : State :=
  { quiet with sup := { quiet.sup with state := state, low := low, wake := wake } }

theorem test_witness_SupplyCrossingsAndWakes :
    quiet.sup.low = false ∧ (349 : Half).toNat < 340 + 10 * quiet.sup.warnCode.val
      ∧ 340 + 10 * quiet.sup.warnCode.val ≤ (350 : Half).toNat ∧ (inState .standby false none).sup.state = .standby
      ∧ (inState .ready true none).sup.low = true ∧ 340 + 10 * quiet.sup.warnCode.val + 5 ≤ (355 : Half).toNat
      ∧ (354 : Half).toNat < 340 + 10 * quiet.sup.warnCode.val + 5
      ∧ (inState .waking false (some { cause := .link, haltHeld := true })).sup.wake = some { cause := .link, haltHeld := true }
      ∧ (inState .waking false (some { cause := .link, haltHeld := true })).sup.latch = false := by decide

/-- Detection enabled or not, the line at a level. -/
def lineAt (s : State) (high detection memory : Bool) : State :=
  { s with sup := { s.sup with lineHigh := high, detection := detection, edgeMemory := memory } }

theorem test_witness_HaltLineTakesItsEffect :
    decide ((lineAt quiet true true false).sup.lineHigh = (lineAt quiet true true false).sup.activeHigh) = false
      ∧ decide ((lineAt quiet false true false).sup.lineHigh = (lineAt quiet false true false).sup.activeHigh) = true
      ∧ (lineAt quiet true true false).sup.state = .ready ∧ (lineAt quiet true true false).sup.detection = true
      ∧ (lineAt quiet true true false).bnd.walk = none ∧ (lineAt quiet true true false).bnd.sceneStep = none
      ∧ (lineAt quiet true true false).beginIsDue = false
      ∧ (lineAt quiet true true false).sup.latch = false ∧ (lineAt quiet true true false).clock.transport = .stopped
      ∧ (lineAt inBar true true false).clock.transport ≠ .stopped ∧ (lineAt quiet true false false).sup.detection = false := by
  decide
theorem test_witness_HaltLine_cut :
    (lineAt (recording inBar (someHead .fixed 3) [none]) true true false).poolLegal
      ∧ (lineAt (recording inBar (someHead .fixed 3) [none]) true true false).head .h0 = some (someHead .fixed 3)
      ∧ (lineAt (recording inBar (someHead .fixed 3) [none]) true true false).head1 = none :=
  ⟨poolLegal_silent rfl (by decide), rfl, rfl⟩
theorem test_witness_HaltLine_whole :
    (lineAt inBar true true false).head0 = none ∧ (lineAt inBar true true false).head1 = none
      ∧ (lineAt inBar true true false).clock.pendingTempo = none
      ∧ (lineAt inBar true false true).takeRequest.clock.transport ≠ .stopped
      ∧ takes (lineAt inBar true false true) 0x07 [1, 1, flagByte false, 0] = true
      ∧ (lineAt halted true false true).takeRequest.sup.latch = true
      ∧ takes (lineAt halted true false true) 0x07 [1, 1, flagByte false, 0] = true := by decide
theorem test_witness_EnablingDetection :
    takes (lineAt quiet true false true) 0x07 [1, 1, flagByte true, 0] = true
      ∧ (lineAt quiet true false true).sup.edgeMemory = true ∧ (lineAt quiet true false true).sup.latch = false := by decide

theorem test_witness_CheckWordShiftsAndFolds :
    (visiting 31).pool.entry 9 = some ⟨0, 0, .valid 0⟩ ∧ (Check.valid 0).word = some 0 := by decide

/-! ### One command on a small state -/

theorem test_end_rec_ahead_of_the_bar_seals_at_it :
    ((fixedAhead.doEndRec 0).2.layer 0).map (·.sealStamp) = some (some (fixedAhead.clock.songBar + 1))
      ∧ (fixedAhead.doEndRec 0).2.clock.songBar = fixedAhead.clock.songBar := by decide +kernel
theorem test_no_frame_leaves_behind_the_reply_of_a_restart :
    let s := { restarting false with link := { (restarting false).link with tx := [powerUpHello] } }
    (after .frameSent s).link.tx = [powerUpHello] := rfl
theorem test_an_entry_of_this_frame_waits_for_the_next :
    let ends := fun joined : Bool =>
      { runs .filling 1024 someFold with
        bounce := { (runs .filling 1024 someFold).bounce with
          queue := (runs .filling 1024 someFold).bounce.queue ++ [{ someCopy with joined := joined }] } }
    (after .bounceIndexFinish (ends true)).bounceStartDue = false
      ∧ (after .bounceIndexFinish (ends false)).bounceStartDue = true := by decide +kernel
theorem test_a_dropped_pair_is_due_no_more :
    let s := { inBar with
      clock := { inBar.clock with pendingTempo := some (500, 3) }, bnd := { inBar.bnd with tempo := true } }
    s.dropTempo.clock.pendingTempo = none ∧ s.dropTempo.bnd.tempo = false := by decide
theorem test_first_frame_is_recorded :
    (after (.audioFrame 3 0 0 0) (writing none false [])).mem = [(8190, 3)]
      ∧ ((after (.audioFrame 3 0 0 0) (writing none false [])).layer 0).map (·.map) = some [some 0] := by decide +kernel
theorem test_frame_counts :
    (after (.audioFrame 3 0 0 0) (writing (some 0) false [some 9])).clock.frameCount = 1
      ∧ (after (.audioFrame 3 0 0 0) (writing (some 0) false [some 9])).clock.loopPos = 1 := by decide +kernel

/-- A Start is taken, and layer 0 has the sample 16,384 in its first two frames. -/
def songReady : State :=
  { (atTickIn .running .start 0 0 0).setLayer 0 (some (someLayer .sealed 0 [some 9])) with
    tracks := coldTracks.set 0 { Track.cold 1 with stack := [0], span := some .one }
    mem := [(sampleAddr 9 0 + 1, 0x40), (sampleAddr 9 1 + 1, 0x40)] }

/-- A frame without input. -/
def nextFrame (s : State) : State := after (.audioFrame 0 0 0 0) s

theorem test_voices_sound_from_the_frame_after_the_start_instant :
    (after (.startInstant .all) songReady).mix.voices.get 0 = some 0
      ∧ (nextFrame (after (.startInstant .all) songReady)).outputs = Outputs.zero
      ∧ (nextFrame (nextFrame (after (.startInstant .all) songReady))).outputs.mainL = 8127 := by decide +kernel
theorem test_a_level_acts_from_the_next_frame :
    let s := { inBar with mix := { Mix.cold with voices := allFree.set 0 (some 0) } }
    let t := after (.setLevel 9 [0, 0]) { songReady with clock := s.clock, mix := s.mix }
    (nextFrame t).outputs.mainL = 8127 ∧ (nextFrame (nextFrame t)).outputs.mainL = 0 := by decide +kernel
theorem test_a_flushed_tone_ends_with_the_frame :
    let s := sounding 3 0 false
    let t := after (.toneFlush 9 []) { s with tones := { s.tones with click := none } }
    t.tones.slot = none ∧ (nextFrame t).outputs.monL = -8192 ∧ (nextFrame (nextFrame t)).outputs.monL = 0 := by decide +kernel

/-- The last tick of a bar, three BAR cues waiting. -/
def atBarEnd : State :=
  { atTick with
    clock := { atTick.clock with tick := 47, beat := 3 }
    cues := { list := [someCue 1, someCue 0, someCue 3], nextId := 0 } }

theorem test_walk_waits_whole_for_its_first_cue :
    (after (.tickBoundary .all) atBarEnd).clock.songBar = 1 ∧ (after (.tickBoundary .all) atBarEnd).bnd.walk = some 0
      ∧ (after (.tickBoundary .all) atBarEnd).cues.list = [someCue 1, someCue 0, someCue 3]
      ∧ (after .cueExecute (after (.tickBoundary .all) atBarEnd)).cues.list = [someCue 0, someCue 2]
      ∧ (after .cueExecute (after (.tickBoundary .all) atBarEnd)).bnd.walk = none := by decide +kernel
theorem test_walk_with_none_due_is_taken_at_the_boundary :
    (after (.tickBoundary .all) { atBarEnd with cues := { list := [someCue 1, someCue 3], nextId := 0 } }).cues.list
        = [someCue 0, someCue 2]
      ∧ (after (.tickBoundary .all) { atBarEnd with cues := { list := [someCue 1, someCue 3], nextId := 0 } }).bnd.walk = none := by
  decide +kernel
theorem test_reset_empties_the_cue_list : (after .pin atBarEnd).cues.list = [] ∧ (after .pin atBarEnd).sup.state = .reset := by
  decide +kernel
theorem test_begun_walk_is_finished_first :
    ({ walking with bnd := { walking.bnd with begun := true } } : State).settleWalk.cues.list = [someCue 1]
      ∧ walking.settleWalk = walking := ⟨by decide, settleWalk_unbegun rfl rfl⟩
theorem test_cue_mutes_its_track :
    ((after .cueExecute walking).track 0).mute = true ∧ (after .cueExecute walking).cues.list = [someCue 1]
      ∧ (after .cueExecute walking).link.tx.map (·.kind) = [0x42] := by decide +kernel
theorem test_fold_takes_the_lower_place :
    (after .bounceIndexFinish (runs .filling 1024 someFold)).bounce.queue = []
      ∧ ((after .bounceIndexFinish (runs .filling 1024 someFold)).track 0).stack = [2]
      ∧ (after .bounceIndexFinish (runs .filling 1024 someFold)).layer 0 = none := by decide +kernel
theorem test_bounce_leaves_its_reserve :
    (after .bounceIndexBegin (loud (runs .beginDue 0 someFold) 33)).pool.free.length = 32
      ∧ (after .bounceIndexBegin (loud (runs .beginDue 0 someFold) 32)).bounce.queue = [] := by decide +kernel
theorem test_claims_first_do_not_see_later_frees :
    (after (.audioFrame 0 0 0 0) (freedBehind (bothHeads looping) [5] 1)).head0.map (·.stalled) = some true
      ∧ (after (.audioFrame 0 0 0 0) (freedBehind (bothHeads looping) [5] 1)).pool.free = [5]
      ∧ (after (.audioFrame 0 0 0 0) (freedBehind (bothHeads looping) [5] 1)).pool.behind = none := by decide +kernel
theorem test_claims_first_is_named_by_the_command :
    (after (.tickBoundary ⟨false, false, false, true⟩) (writing none false [])).pool.behind = some 0
      ∧ (after .bounceIndexBegin
          (freedBehind (loud (runs .beginDue 0 someFold) 33) ((List.range 33).map (Fin.ofNat 4096)) 1)).bounce.queue = [] := by
  decide +kernel
theorem test_next_frame_finds_the_index_begun :
    (after (.getStatus 9 []) (runs .beginDue 0 someFold)).running.map (·.phase) = some .filling
      ∧ (after (.tickBoundary .all) { runs .beginDue 0 someFold with clock := atTick.clock }).running.map (·.phase)
        = some .filling := by decide +kernel
theorem test_reset_silences_the_tones :
    (after .pin (sounding 3 2 false)).tones.slot = none ∧ (after .pin (sounding 3 2 false)).tones.queue = []
      ∧ (after .pin (sounding 3 2 false)).tones.click = none := by decide +kernel
theorem test_start_drops_a_boundary_due :
    (after (.start 9 [0]) { atTick with clock := { atTick.clock with transport := .stopped } }).tickDue = false := by decide
theorem test_status_shows_the_autopilot_flag :
    (after (.getStatus 9 []) { quiet with link := { quiet.link with autopilot := true } }).link.autopilot = false
      ∧ ((after (.getStatus 9 []) { quiet with link := { quiet.link with autopilot := true } }).link.tx.map fun f => f.payload[16]?)
        = [some 4] := by decide +kernel
theorem test_clear_all_frees_and_reports :
    (after (.clearAll 9 []) (twoLayers quiet)).inUse = []
      ∧ (after (.clearAll 9 []) (twoLayers quiet)).link.tx.map (·.kind) = [0x42, 0xA6] := by decide +kernel

end Sys2Proof.Machine
end

