-- ==== Sys2Proof/Proofs/Tables.lean ====
section
/-! The entries of the tables, the choice of the lowest free record, head or voice, and the request rows. -/

namespace Sys2Proof.Machine

/-- The last track's and the last record's numbers are numbers of a table; the next ones are not.

The kernel evaluates this example only after the declarations above are checked: the proofs below start then, and do not
add their threads to the tests'. -/
example : trackOf 7 = some 7 ∧ trackOf 8 = none ∧ layerOf 55 = some 55 ∧ layerOf 56 = none := by decide +kernel

/-! ### Entries of the tables -/

theorem State.track_congr {s u : State} (h : u.tracks = s.tracks) (k : TrackId) : u.track k = s.track k :=
  congrArg (fun v : Vector Track 8 => v.get k) h

theorem State.layer_congr {s u : State} (h : u.layers = s.layers) (x : LayerId) : u.layer x = s.layer x :=
  congrArg (fun v : Vector (Option Layer) 56 => v.get x) h

theorem State.layers_ext {s u : State} (h : ∀ x, u.layer x = s.layer x) : u.layers = s.layers :=
  Vector.ext fun i hi => h ⟨i, hi⟩

theorem State.tracks_ext {s u : State} (h : ∀ k, u.track k = s.track k) : u.tracks = s.tracks :=
  Vector.ext fun i hi => h ⟨i, hi⟩

theorem State.track_setTrack (s : State) (t k : TrackId) (r : Track) :
    (s.setTrack t r).track k = if k = t then r else s.track k := by
  split
  · next h => rw [h, State.track_setTrack_same]
  · next h => exact State.track_setTrack_other _ _ _ _ h

theorem State.track_modTrack (s : State) (t k : TrackId) (f : Track → Track) :
    (s.modTrack t f).track k = if k = t then f (s.track t) else s.track k := State.track_setTrack ..

theorem State.layer_setLayer (s : State) (x y : LayerId) (o : Option Layer) :
    (s.setLayer x o).layer y = if y = x then o else s.layer y := by
  split
  · next h => rw [h, State.layer_setLayer_same]
  · next h => exact State.layer_setLayer_other _ _ _ _ h

theorem State.layer_modLayer (s : State) (x y : LayerId) (f : Layer → Layer) :
    (s.modLayer x f).layer y = if y = x then (s.layer x).map f else s.layer y := State.layer_setLayer ..

/-! ### The lowest free one -/

theorem find?_finRange_eq_some {n : Nat} {p : Fin n → Bool} {i : Fin n} :
    (List.finRange n).find? p = some i ↔ p i = true ∧ ∀ j, j < i → p j = false := by
  rw [← Fin.find?_eq_find?_finRange, Fin.find?_eq_some_iff]

theorem find?_finRange_eq_none {n : Nat} {p : Fin n → Bool} :
    (List.finRange n).find? p = none ↔ ∀ i, p i = false := by
  simp

theorem State.freeRecord_eq_some {s : State} {x : LayerId} : s.freeRecord = some x ↔ TakesRecord s x := by
  unfold State.freeRecord TakesRecord
  rw [find?_finRange_eq_some]
  simp [Option.isNone_eq_false_iff, Option.isSome_iff_ne_none]

theorem State.freeRecord_eq_none {s : State} : s.freeRecord = none ↔ ∀ x, s.layer x ≠ none := by
  unfold State.freeRecord
  rw [find?_finRange_eq_none]
  simp [Option.isNone_eq_false_iff, Option.isSome_iff_ne_none]

theorem State.idleHead_eq_some {s : State} {h : HeadId} (k : TakesHead s h) : s.idleHead = some h := by
  obtain ⟨h1, h2⟩ := k
  unfold State.idleHead
  cases h with
  | h0 => exact if_pos h1
  | h1 => rw [if_neg (h2 rfl)]; exact if_pos h1

theorem State.idleHead_eq_none {s : State} : s.idleHead = none ↔ s.head0 ≠ none ∧ s.head1 ≠ none := by
  unfold State.idleHead
  split_ifs <;> simp_all

theorem State.mem_inUse {s : State} {x : LayerId} : x ∈ s.inUse ↔ s.layer x ≠ none := by
  simp [State.inUse, Option.isSome_iff_ne_none]

theorem State.inUse_eq_nil {s : State} : s.inUse = [] ↔ ∀ x, s.layer x = none := by
  simp [State.inUse]

/-! ### The state of a track (R2) -/

theorem State.trackState_empty {s : State} {t : TrackId} : s.trackState t = .empty ↔ (s.track t).stack = [] := by
  unfold State.trackState
  cases h : (s.track t).stack.getLast? with
  | none => simpa using h
  | some x =>
    have : (s.track t).stack ≠ [] := fun e => by simp [e] at h
    dsimp only
    split_ifs <;> simp [this]

/-! ### Request rows -/

theorem trackOf_of_lt {b : Byte} (h : b.toNat < 8) : trackOf b = some ⟨b.toNat, h⟩ := dif_pos h

theorem trackOf_of_gt {b : Byte} (h : 7 < b.toNat) : trackOf b = none := dif_neg (by omega)

theorem layerOf_of_lt {b : Byte} (h : b.toNat < 56) : layerOf b = some ⟨b.toNat, h⟩ := dif_pos h

theorem layerOf_of_gt {b : Byte} (h : 55 < b.toNat) : layerOf b = none := dif_neg (by omega)

@[simp] theorem byte_toNat (b : Byte) : byte b.toNat = b := by simp [byte]

/-- The state in which a request taken in READY is carried out is READY. -/
theorem isReady_of_ready {s : State} (h : s.sup.state = .ready) : s.takeRequest.isReady = true := by
  rw [takeRequest_isReady]; unfold State.isReady; simp [h]

end Sys2Proof.Machine
end

