-- ==== Sys2Proof/Proofs/Answers.lean ====
section
/-! TRACK_INFO, LAYER_INFO and LAYER_MAP (R24, R25, R26). -/

namespace Sys2Proof.Machine

theorem exec_trackInfo {s : State} {tag n : Byte} (h : s.canTake { kind := 0x21, tag := tag, payload := [n] } = true) :
    exec (.trackInfo tag [n]) s = .next ((ownTrackInfo s.takeRequest [n]).1.reply 0x21 tag (ownTrackInfo s.takeRequest [n]).2) :=
  congrArg Host.Outcome.next (serve_taken h rfl rfl)

theorem exec_layerInfo {s : State} {tag n : Byte} (h : s.canTake { kind := 0x22, tag := tag, payload := [n] } = true) :
    exec (.layerInfo tag [n]) s = .next ((ownLayerInfo s.takeRequest [n]).1.reply 0x22 tag (ownLayerInfo s.takeRequest [n]).2) :=
  congrArg Host.Outcome.next (serve_taken h rfl rfl)

theorem exec_layerMap {s : State} {tag n o0 o1 : Byte}
    (h : s.canTake { kind := 0x23, tag := tag, payload := [n, o0, o1] } = true) :
    exec (.layerMap tag [n, o0, o1]) s
      = .next ((ownLayerMap s.takeRequest [n, o0, o1]).1.reply 0x23 tag (ownLayerMap s.takeRequest [n, o0, o1]).2) :=
  congrArg Host.Outcome.next (serve_taken h rfl rfl)

/-! ### What the owners answer -/

theorem ownTrackInfo_of_gt {n : Byte} (u : State) (h : 7 < n.toNat) :
    ownTrackInfo u [n] = (u, 3 :: zeros 28) := by
  simp only [ownTrackInfo, trackOf_of_gt h]; rfl

theorem ownTrackInfo_of_lt {n : Byte} (u : State) (h : n.toNat < 8) :
    ownTrackInfo u [n] = (u, 0 :: u.trackBytes ⟨n.toNat, h⟩) := by
  simp only [ownTrackInfo, trackOf_of_lt h]; rfl

theorem ownLayerInfo_of_gt {n : Byte} (u : State) (h : 55 < n.toNat) :
    ownLayerInfo u [n] = (u, 3 :: zeros 21) := by
  simp only [ownLayerInfo, layerOf_of_gt h]; rfl

theorem ownLayerInfo_of_lt {n : Byte} (u : State) (h : n.toNat < 56) :
    ownLayerInfo u [n] = (u, 0 :: n :: ((u.layer ⟨n.toNat, h⟩).map Layer.bytes).getD freeLayerBytes) := by
  simp only [ownLayerInfo, layerOf_of_lt h, answer, numByte, byte_toNat]; rfl

theorem ownLayerMap_of_gt {n : Byte} (o0 o1 : Byte) (u : State) (h : 55 < n.toNat) :
    ownLayerMap u [n, o0, o1] = (u, 3 :: zeros 52) := by
  simp only [ownLayerMap, layerOf_of_gt h]; rfl

theorem ownLayerMap_free {n : Byte} (o0 o1 : Byte) {u : State} (h : n.toNat < 56) (hl : u.layer ⟨n.toNat, h⟩ = none) :
    ownLayerMap u [n, o0, o1] = (u, 10 :: zeros 52) := by
  simp only [ownLayerMap, layerOf_of_lt h, hl]; rfl

theorem ownLayerMap_past {n o0 o1 : Byte} {u : State} {l : Layer} (h : n.toNat < 56)
    (hl : u.layer ⟨n.toNat, h⟩ = some l) (ho : l.map.length ≤ fromLe2 o0 o1) :
    ownLayerMap u [n, o0, o1] = (u, 3 :: zeros 52) := by
  simp only [ownLayerMap, layerOf_of_lt h, hl, if_pos ho]; rfl

theorem ownLayerMap_shown {n o0 o1 : Byte} {u : State} {l : Layer} (h : n.toNat < 56)
    (hl : u.layer ⟨n.toNat, h⟩ = some l) (ho : fromLe2 o0 o1 < l.map.length) :
    ownLayerMap u [n, o0, o1] = (u, 0 :: ([n, o0, o1, byte ((l.map.drop (fromLe2 o0 o1)).take 24).length]
      ++ padTo 48 0xFF (((l.map.drop (fromLe2 o0 o1)).take 24).flatMap mapEntryBytes))) := by
  simp only [ownLayerMap, layerOf_of_lt h, hl, if_neg (Nat.not_le.2 ho), answer, numByte, byte_toNat]; rfl

theorem mapEntryBytes_eq (e : Option BlockId) : mapEntryBytes e = (e.map fun b => le2 b.val).getD [0xFF, 0xFF] := by
  cases e <;> rfl

theorem trackBytes_eq {n : Byte} (u : State) (h : n.toNat < 8) :
    u.trackBytes ⟨n.toNat, h⟩ = n :: (u.trackBytes ⟨n.toNat, h⟩).tail := by
  simp [State.trackBytes, numByte]

/-- Settles O30: each row is its owner's answer, which reads the record and returns the state as it is. -/
theorem trackAndLayersAreAnswered : Obligations.TrackAndLayersAreAnswered := by
  intro s tag n o0 o1 u fill
  refine ⟨fun h => ⟨fun k => ?_, fun k => ?_⟩, fun h => ⟨fun k => ?_, fun k => ⟨fun hl => ?_, fun l hl => ?_⟩⟩,
    fun h => ⟨fun k => ?_, fun k => ⟨fun hl => ?_, fun l hl => ⟨fun ho => ?_, fun ho => ?_⟩⟩⟩⟩
  · rw [exec_trackInfo h, ownTrackInfo_of_gt _ k]; exact ⟨_, rfl⟩
  · rw [exec_trackInfo h, ownTrackInfo_of_lt _ k, trackBytes_eq]; rfl
  · rw [exec_layerInfo h, ownLayerInfo_of_gt _ k]; exact ⟨_, rfl⟩
  · rw [exec_layerInfo h, ownLayerInfo_of_lt _ k, hl]; rfl
  · rw [exec_layerInfo h, ownLayerInfo_of_lt _ k, hl]; rfl
  · rw [exec_layerMap h, ownLayerMap_of_gt _ _ _ k]; exact ⟨_, rfl⟩
  · rw [exec_layerMap h, ownLayerMap_free _ _ k hl]; exact ⟨_, rfl⟩
  · rw [exec_layerMap h, ownLayerMap_past k hl ho]; exact ⟨_, rfl⟩
  · rw [exec_layerMap h, ownLayerMap_shown k hl ho, funext mapEntryBytes_eq]; rfl

end Sys2Proof.Machine
end

