-- ==== Sys2Proof/Proofs/Refusals.lean ====
section
/-! The actions that change nothing, with the checks of REC and DUB in their order (R53, R69, R73). -/

namespace Sys2Proof.Machine

/-! ### The checks of REC and DUB -/

theorem State.guardRefuses_iff {s : State} : s.guardRefuses = true ↔ s.sup.low = true ∧ s.sup.guard = true := by
  simp [State.guardRefuses]

/-- A REC is no defining one where L is established and a record beside the track's redo list is in use (R69, step 5). -/
theorem State.recDefines_false {s : State} {t : TrackId} :
    s.recDefines t = false ↔ s.clock.loop ≠ none ∧ ∃ x, s.layer x ≠ none ∧ x ∉ (s.track t).redo := by
  simp [State.recDefines, State.allOnRedo, State.mem_inUse, Option.isSome_iff_ne_none]

/-- The checks of R69 that a REC fails, in their order. -/
theorem State.recRefusal_eq (s : State) (t : TrackId) (span : Span) :
    s.recRefusal t span =
      if (s.track t).stack ≠ [] ∨ (s.track t).reservations ≠ 0 then some .notEmpty
      else if s.clock.loop = none ∧ s.definingRuns = true then some .loopUnset
      else if s.sup.low = true ∧ s.sup.guard = true then some .lowSupply
      else if s.head0 ≠ none ∧ s.head1 ≠ none then some .noHead
      else if (∀ x, s.layer x ≠ none) ∧ (s.track t).redo = [] then some .noLayer
      else if (s.clock.loop ≠ none ∧ ∃ x, s.layer x ≠ none ∧ x ∉ (s.track t).redo) 
          ∧ 1024 < (span.loops * ((s.clock.loop.getD 0) * (s.clock.b * 48 * s.clock.p)) + 4095) / 4096 then
        some .tooLong
      else none := by
  unfold State.recRefusal
  simp only [State.guardRefuses_iff, State.idleHead_eq_none, State.freeRecord_eq_none, State.recDefines_false]
  rfl

/-- The checks of R73 that a DUB fails, in their order. -/
theorem State.dubRefusal_eq (s : State) (t : TrackId) :
    s.dubRefusal t =
      if s.trackState t ≠ .play then some .wrongState
      else if (s.track t).stack.length + (s.track t).reservations = 6 then some .stackFull
      else if s.sup.low = true ∧ s.sup.guard = true then some .lowSupply
      else if s.head0 ≠ none ∧ s.head1 ≠ none then some .noHead
      else if (∀ x, s.layer x ≠ none) ∧ (s.track t).redo = [] then some .noLayer
      else none := by
  unfold State.dubRefusal
  simp only [State.guardRefuses_iff, State.idleHead_eq_none, State.freeRecord_eq_none]
  rfl

theorem State.doRec_refused {s : State} {t : TrackId} {span : Span} {c : Code} (bars : Nat)
    (h : s.recRefusal t span = some c) : s.doRec t span bars = (c, s) := by
  unfold State.doRec; rw [h]

theorem State.doRec_starts {s : State} {t : TrackId} {span : Span} (bars : Nat) (h : s.recRefusal t span = none) :
    s.doRec t span bars = (.ok, s.startRec t span bars) := by
  unfold State.doRec; rw [h]

theorem State.doDub_refused {s : State} {t : TrackId} {c : Code} (chain : Bool) (h : s.dubRefusal t = some c) :
    s.doDub t chain = (c, s) := by
  unfold State.doDub; rw [h]

theorem State.doDub_starts {s : State} {t : TrackId} (chain : Bool) (h : s.dubRefusal t = none) :
    s.doDub t chain = (.ok, s.startDub t chain) := by
  unfold State.doDub; rw [h]

theorem State.doAction_record {s : State} (t : TrackId) (span : Span) (bars : Nat) (h : s.clock.transport = .running) :
    s.doAction (.record t span bars) = s.doRec t span bars := if_pos h

theorem State.doAction_dub {s : State} (t : TrackId) (chain : Bool) (h : s.clock.transport = .running) :
    s.doAction (.dub t chain) = s.doDub t chain := if_pos h

/-! ### The outcomes of the other actions -/

theorem State.doEndRec_idle {s : State} {t : TrackId} (h : s.headOn t = none) : s.doEndRec t = (.notRecording, s) := by
  unfold State.doEndRec; rw [h]

theorem State.doUndo_empty {s : State} {t : TrackId} (h : s.trackState t = .empty) : s.doUndo t = (.nothing, s) := by
  unfold State.doUndo; rw [h]

theorem State.doRedo_recording {s : State} {t : TrackId} (h : s.trackState t = .recording ∨ s.trackState t = .dub) :
    s.doRedo t = (.wrongState, s) := if_pos h

theorem State.doRedo_nothing {s : State} {t : TrackId} (h : s.trackState t ≠ .recording) (k : s.trackState t ≠ .dub)
    (e : (s.track t).redo = []) : s.doRedo t = (.nothing, s) := by
  unfold State.doRedo
  rw [if_neg (by simp [h, k]), e]

/-- REDO on a track that is not recording, with a layer on its redo list (R16). -/
theorem State.doRedo_front {s : State} {t : TrackId} {x : LayerId} {rest : List LayerId} (h : s.trackState t ≠ .recording)
    (k : s.trackState t ≠ .dub) (e : (s.track t).redo = x :: rest) :
    s.doRedo t = if (s.track t).places = 6 then (.stackFull, s) else (.ok, (s.moveFromRedo t x rest).afterRedo t x) := by
  unfold State.doRedo
  rw [if_neg (by simp [h, k]), e]

theorem State.muteTrack_muted {s : State} {t : TrackId} (h : (s.track t).mute = true) : s.muteTrack t = s := if_pos h

theorem State.unmuteTrack_unmuted {s : State} {t : TrackId} (h : (s.track t).mute = false) : s.unmuteTrack t = s :=
  if_neg (by simp [h])

theorem State.stopTransport_stopped {s : State} (cause : TransportCause) (reason : SealReason)
    (h : s.clock.transport = .stopped) : s.stopTransport cause reason = s := by
  unfold State.stopTransport; rw [h]

theorem State.doScene_invalid {s : State} {n : SceneId} (h : (s.scenes.table.get n).valid = false) :
    s.doScene n = (.noSuch, s) := if_neg (by simp [h])

/-- Settles O24: the checks of REC and DUB as a chain over `recRefusal_eq` and `dubRefusal_eq`, and an equation for each
other outcome. -/
theorem actionsThatChangeNothing : Obligations.ActionsThatChangeNothing := by
  intro s t span bars chain n
  refine ⟨fun h => ⟨if_neg h, if_neg h⟩, fun h => ?_, State.doEndRec_idle, fun h => State.doUndo_empty (State.trackState_empty.2 h),
    State.doRedo_recording, fun h k => ?_, fun h k p => ?_, State.doScene_invalid, fun h => ?_, fun h => ?_, fun h => ?_⟩
  · intro places noRecord fixed mapLength started
    have hrec := s.recRefusal_eq t span
    have hdub := s.dubRefusal_eq t
    simp only [State.doAction_record _ _ _ h, State.doAction_dub _ _ h, places, noRecord, fixed, mapLength, started]
    refine ⟨?_, ?_⟩
    · split_ifs at hrec ⊢
      case neg => exact congrArg Prod.fst (State.doRec_starts _ hrec)
      all_goals exact State.doRec_refused _ hrec
    · split_ifs at hdub ⊢
      case neg => exact congrArg Prod.fst (State.doDub_starts _ hdub)
      all_goals exact State.doDub_refused _ hdub
  · exact State.doRedo_nothing (by rcases h with h | h <;> simp [h]) (by rcases h with h | h <;> simp [h]) k
  · obtain ⟨x, rest, e⟩ := List.exists_cons_of_ne_nil k
    exact (State.doRedo_front (by rcases h with h | h <;> simp [h]) (by rcases h with h | h <;> simp [h]) e).trans (if_pos p)
  · exact congrArg (Prod.mk Code.ok) (State.muteTrack_muted h)
  · exact congrArg (Prod.mk Code.ok) (State.unmuteTrack_unmuted h)
  · exact congrArg (Prod.mk Code.ok) (State.stopTransport_stopped _ _ h)

end Sys2Proof.Machine
end

