-- ==== Sys2Proof/Proofs/Voices.lean ====
section
/-! Voices, the wait list and the mute flag: what each operation says of a layer's voice, and what it leaves (R17, R20,
R131, R132, R134). -/

namespace Sys2Proof.Machine

/-! ### The voices of the mix -/

theorem Mix.voiceOf_eq_none {m : Mix} {x : LayerId} : m.voiceOf x = none ↔ ∀ v, m.voices.get v ≠ some x := by
  unfold Mix.voiceOf
  rw [find?_finRange_eq_none]
  simp

theorem Mix.voiceOf_isSome {m : Mix} {x : LayerId} : (m.voiceOf x).isSome = true ↔ ∃ v, m.voices.get v = some x := by
  rw [Option.isSome_iff_ne_none, ne_eq, Mix.voiceOf_eq_none]
  simp

theorem Mix.waits_iff {m : Mix} {x : LayerId} : m.waits x = true ↔ ∃ w ∈ m.wait, w.layer = x := by
  simp [Mix.waits]

theorem Mix.waits_eq_false {m : Mix} {x : LayerId} : m.waits x = false ↔ ∀ w ∈ m.wait, w.layer ≠ x := by
  simp [Mix.waits]

theorem Mix.freeVoice_eq_some {m : Mix} {v : VoiceId} :
    m.freeVoice = some v ↔ m.voices.get v = none ∧ ∀ y, y < v → m.voices.get y ≠ none := by
  unfold Mix.freeVoice
  rw [find?_finRange_eq_some]
  simp [Option.isNone_eq_false_iff, Option.isSome_iff_ne_none]

theorem Mix.freeVoice_eq_none {m : Mix} : m.freeVoice = none ↔ ∀ v, m.voices.get v ≠ none := by
  unfold Mix.freeVoice
  rw [find?_finRange_eq_none]
  simp [Option.isNone_eq_false_iff, Option.isSome_iff_ne_none]

/-! ### A voice dropped -/

theorem Mix.voices_drop (m : Mix) (x : LayerId) (v : VoiceId) :
    (m.drop x).voices.get v = if m.voices.get v = some x then none else m.voices.get v :=
  Vector.getElem_map ..

theorem Mix.voiceOf_drop_same (m : Mix) (x : LayerId) : (m.drop x).voiceOf x = none := by
  rw [Mix.voiceOf_eq_none]
  intro v
  rw [Mix.voices_drop]
  split <;> simp_all

theorem Mix.voiceOf_drop_other {m : Mix} {x y : LayerId} (h : y ≠ x) : (m.drop x).voiceOf y = m.voiceOf y := by
  unfold Mix.voiceOf
  congr 1
  funext v
  rw [Mix.voices_drop]
  split
  · next e => rw [e]; simp [h.symm]
  · rfl

theorem Mix.waits_drop (m : Mix) (x y : LayerId) : (m.drop x).waits y = (m.waits y && decide (y ≠ x)) := by
  rw [Bool.eq_iff_iff, Bool.and_eq_true, Mix.waits_iff, Mix.waits_iff]
  simp only [Mix.drop, List.mem_filter, decide_eq_true_eq]
  constructor
  · rintro ⟨w, ⟨h1, h2⟩, rfl⟩; exact ⟨⟨w, h1, rfl⟩, h2⟩
  · rintro ⟨⟨w, h1, rfl⟩, h2⟩; exact ⟨w, ⟨h1, h2⟩, rfl⟩

/-- A layer neither holds a voice nor waits for one. -/
def Mix.Silent (m : Mix) (x : LayerId) : Prop := m.voiceOf x = none ∧ m.waits x = false

theorem Mix.silent_drop_same (m : Mix) (x : LayerId) : (m.drop x).Silent x :=
  ⟨m.voiceOf_drop_same x, by rw [Mix.waits_drop]; simp⟩

theorem Mix.Silent.drop {m : Mix} {x : LayerId} (h : m.Silent x) (y : LayerId) : (m.drop y).Silent x := by
  by_cases e : x = y
  · rw [e]; exact m.silent_drop_same y
  · exact ⟨(Mix.voiceOf_drop_other e).trans h.1, by rw [Mix.waits_drop, h.2, Bool.false_and]⟩

theorem Mix.Silent.foldl_drop {m : Mix} {x : LayerId} (l : List LayerId) (h : m.Silent x) :
    (l.foldl Mix.drop m).Silent x := by
  induction l generalizing m with
  | nil => exact h
  | cons y l ih => exact ih (h.drop y)

/-- Every layer of a list that is dropped is silent. -/
theorem Mix.silent_foldl_drop {l : List LayerId} {x : LayerId} (m : Mix) (h : x ∈ l) :
    (l.foldl Mix.drop m).Silent x := by
  induction l generalizing m with
  | nil => simp at h
  | cons y l ih =>
    rcases List.mem_cons.1 h with rfl | h
    · exact (m.silent_drop_same x).foldl_drop l
    · exact ih _ h

theorem State.foldl_releaseVoice (l : List LayerId) (s : State) :
    l.foldl State.releaseVoice s = { s with mix := l.foldl Mix.drop s.mix } := by
  induction l generalizing s with
  | nil => rfl
  | cons x l ih => exact ih _

theorem Mix.foldl_drop_heard (l : List LayerId) (m : Mix) :
    l.foldl Mix.drop m = { m with voices := (l.foldl Mix.drop m).voices, wait := (l.foldl Mix.drop m).wait } := by
  induction l generalizing m with
  | nil => rfl
  | cons x l ih => exact ih _

/-- The muting effect on a track that is not muted (R17). -/
theorem State.muteTrack_eq {s : State} {t : TrackId} (h : (s.track t).mute = false) :
    s.muteTrack t = { s.modTrack t (fun r => { r with mute := true }) with mix := (s.track t).stack.foldl Mix.drop s.mix } := by
  unfold State.muteTrack
  rw [if_neg (by simp [h]), State.foldl_releaseVoice]
  rfl

/-! ### What the voices, the mute flag and the one-shot of a track leave as it was -/

/-- From s to u nothing changes but the voices, the wait list, the reports, and the mute flag, the one-shot flag and the
one-shot count of tracks. -/
structure VoicesOnly (s u : State) : Prop where
  same : u = { s with tracks := u.tracks, mix := u.mix, link := u.link }
  mix : u.mix = { s.mix with voices := u.mix.voices, wait := u.mix.wait, fresh := u.mix.fresh }
  track : ∀ k, u.track k = { s.track k with
    mute := (u.track k).mute, oneShot := (u.track k).oneShot, remaining := (u.track k).remaining
    selfMuteDue := (u.track k).selfMuteDue }

theorem VoicesOnly.refl (s : State) : VoicesOnly s s := ⟨rfl, rfl, fun _ => rfl⟩

theorem VoicesOnly.trans {s t u : State} (h : VoicesOnly s t) (k : VoicesOnly t u) : VoicesOnly s u :=
  ⟨k.same.trans (by rw [h.same]), k.mix.trans (by rw [h.mix]), fun j => (k.track j).trans (by rw [h.track j])⟩

theorem VoicesOnly.ite {c : Prop} [Decidable c] {s t u : State} (h : VoicesOnly s t) (k : VoicesOnly s u) :
    VoicesOnly s (if c then t else u) := by split <;> assumption

theorem VoicesOnly.foldl {α : Type} {f : State → α → State} (h : ∀ s x, VoicesOnly s (f s x)) (l : List α) (s : State) :
    VoicesOnly s (l.foldl f s) := by
  induction l generalizing s with
  | nil => exact VoicesOnly.refl s
  | cons x l ih => exact (h s x).trans (ih _)

section
variable {s u : State} (h : VoicesOnly s u)
include h

theorem VoicesOnly.layers : u.layers = s.layers := (congrArg State.layers h.same :)
theorem VoicesOnly.layer (x : LayerId) : u.layer x = s.layer x := State.layer_congr h.layers x
theorem VoicesOnly.mem : u.mem = s.mem := (congrArg State.mem h.same :)
theorem VoicesOnly.pool : u.pool = s.pool := (congrArg State.pool h.same :)
theorem VoicesOnly.clock : u.clock = s.clock := (congrArg State.clock h.same :)
theorem VoicesOnly.bnd : u.bnd = s.bnd := (congrArg State.bnd h.same :)
theorem VoicesOnly.cues : u.cues = s.cues := (congrArg State.cues h.same :)
theorem VoicesOnly.head0 : u.head0 = s.head0 := (congrArg State.head0 h.same :)
theorem VoicesOnly.head1 : u.head1 = s.head1 := (congrArg State.head1 h.same :)
theorem VoicesOnly.bounce : u.bounce = s.bounce := (congrArg State.bounce h.same :)
theorem VoicesOnly.scenes : u.scenes = s.scenes := (congrArg State.scenes h.same :)
theorem VoicesOnly.tones : u.tones = s.tones := (congrArg State.tones h.same :)
theorem VoicesOnly.sup : u.sup = s.sup := (congrArg State.sup h.same :)
theorem VoicesOnly.heard : u.mix.heard = s.mix.heard := (congrArg Mix.heard h.mix :)
theorem VoicesOnly.stack (k : TrackId) : (u.track k).stack = (s.track k).stack := (congrArg Track.stack (h.track k) :)
theorem VoicesOnly.redo (k : TrackId) : (u.track k).redo = (s.track k).redo := (congrArg Track.redo (h.track k) :)
theorem VoicesOnly.span (k : TrackId) : (u.track k).span = (s.track k).span := (congrArg Track.span (h.track k) :)
theorem VoicesOnly.pass (k : TrackId) : (u.track k).pass = (s.track k).pass := (congrArg Track.pass (h.track k) :)
theorem VoicesOnly.gain (k : TrackId) : (u.track k).gain = (s.track k).gain := (congrArg Track.gain (h.track k) :)
theorem VoicesOnly.pan (k : TrackId) : (u.track k).pan = (s.track k).pan := (congrArg Track.pan (h.track k) :)
theorem VoicesOnly.mask (k : TrackId) : (u.track k).mask = (s.track k).mask := (congrArg Track.mask (h.track k) :)

theorem VoicesOnly.trackFrames (k : TrackId) : u.trackFrames k = s.trackFrames k := by
  unfold State.trackFrames; rw [h.span, h.clock]

theorem VoicesOnly.soundLayer (x : LayerId) : u.soundLayer x = s.soundLayer x := by
  unfold State.soundLayer; rw [h.layer]

theorem VoicesOnly.playing : u.playing = s.playing := by
  unfold State.playing State.moving; rw [h.clock, h.sup]

theorem VoicesOnly.audible {k : TrackId} (x : LayerId) (e : (u.track k).mute = (s.track k).mute) :
    u.audible k x = s.audible k x := by
  unfold State.audible; rw [h.soundLayer, h.stack, e, h.playing]

theorem VoicesOnly.trackAudible {k : TrackId} (e : (u.track k).mute = (s.track k).mute) :
    u.trackAudible k = s.trackAudible k := by
  unfold State.trackAudible State.soundLayers; rw [funext h.soundLayer, h.stack, e, h.playing]

end

theorem report_voicesOnly (s : State) (r : Report) (p : List Byte) : VoicesOnly s (s.report r p) := by
  refine ⟨?_, by rw [State.report_mix], fun k => by rw [State.track_congr (State.report_tracks ..)]⟩
  unfold State.report State.reportWith
  split_ifs <;> rfl

theorem mix_voicesOnly (s : State) (m : Mix)
    (h : m = { s.mix with voices := m.voices, wait := m.wait, fresh := m.fresh }) : VoicesOnly s { s with mix := m } :=
  ⟨rfl, h, fun _ => rfl⟩

theorem modTrack_voicesOnly (s : State) (t : TrackId) (f : Track → Track)
    (h : ∀ r, f r = { r with
      mute := (f r).mute, oneShot := (f r).oneShot, remaining := (f r).remaining, selfMuteDue := (f r).selfMuteDue }) :
    VoicesOnly s (s.modTrack t f) := by
  refine ⟨rfl, rfl, fun k => ?_⟩
  rw [State.track_modTrack]
  split
  · next e => rw [e]; exact h _
  · rfl

theorem joinWait_voicesOnly (s : State) (x : LayerId) : VoicesOnly s (s.joinWait x) := mix_voicesOnly s _ rfl

theorem armOneShot_voicesOnly (s : State) (t : TrackId) : VoicesOnly s (s.armOneShot t) :=
  VoicesOnly.ite (modTrack_voicesOnly _ _ _ fun _ => rfl) (VoicesOnly.refl s)

theorem claimVoice_voicesOnly (s : State) (t : TrackId) (x : LayerId) : VoicesOnly s (s.claimVoice t x) := by
  unfold State.claimVoice
  refine VoicesOnly.ite (VoicesOnly.refl _) (VoicesOnly.ite (joinWait_voicesOnly ..) ?_)
  split
  · exact (mix_voicesOnly s _ rfl).trans (armOneShot_voicesOnly ..)
  · exact (joinWait_voicesOnly ..).trans (report_voicesOnly ..)

theorem muteTrack_voicesOnly (s : State) (t : TrackId) : VoicesOnly s (s.muteTrack t) := by
  unfold State.muteTrack
  refine VoicesOnly.ite (VoicesOnly.refl s) ?_
  refine (modTrack_voicesOnly _ _ _ fun _ => rfl).trans (VoicesOnly.foldl (fun s x => ?_) _ _)
  exact mix_voicesOnly s _ rfl

theorem unmuteTrack_voicesOnly (s : State) (t : TrackId) : VoicesOnly s (s.unmuteTrack t) := by
  unfold State.unmuteTrack
  refine VoicesOnly.ite ?_ (VoicesOnly.refl s)
  refine VoicesOnly.trans ?_ (VoicesOnly.ite (armOneShot_voicesOnly ..) (VoicesOnly.refl _))
  exact (modTrack_voicesOnly _ _ _ fun _ => rfl).trans (VoicesOnly.foldl (fun s x => claimVoice_voicesOnly s t x) _ _)

/-! ### The tracks of a claim and of the mute flag -/

theorem State.track_armOneShot_other {s : State} {t k : TrackId} (h : k ≠ t) : (s.armOneShot t).track k = s.track k := by
  unfold State.armOneShot
  split
  · exact State.track_modTrack_other _ _ _ _ h
  · rfl

theorem State.track_armOneShot_same (s : State) (t : TrackId) :
    (s.armOneShot t).track t = if (s.track t).oneShot then
      { s.track t with remaining := s.trackFrames t, selfMuteDue := false } else s.track t := by
  unfold State.armOneShot
  split
  · exact State.track_modTrack_same ..
  · rfl

theorem State.armOneShot_mute (s : State) (t k : TrackId) : ((s.armOneShot t).track k).mute = (s.track k).mute := by
  by_cases h : k = t
  · rw [h, State.track_armOneShot_same]; split <;> rfl
  · rw [State.track_armOneShot_other h]

theorem State.armOneShot_oneShot (s : State) (t k : TrackId) :
    ((s.armOneShot t).track k).oneShot = (s.track k).oneShot := by
  by_cases h : k = t
  · rw [h, State.track_armOneShot_same]; split <;> rfl
  · rw [State.track_armOneShot_other h]

/-- What a claim makes of the tracks: those of the state, or with the claiming track armed. -/
theorem State.tracks_claimVoice (s : State) (t : TrackId) (x : LayerId) :
    (s.claimVoice t x).tracks = s.tracks ∨ (s.claimVoice t x).tracks = (s.armOneShot t).tracks := by
  unfold State.claimVoice
  split_ifs
  · exact Or.inl rfl
  · exact Or.inl rfl
  · split
    · right
      unfold State.armOneShot State.modTrack
      split_ifs with h1 h2 h2
      · rfl
      · exact absurd h1 h2
      · exact absurd h2 h1
      · rfl
    · exact Or.inl (State.report_tracks ..)

theorem State.track_claimVoice_other {s : State} {t k : TrackId} (x : LayerId) (h : k ≠ t) :
    (s.claimVoice t x).track k = s.track k := by
  rcases s.tracks_claimVoice t x with e | e
  · exact State.track_congr e k
  · exact (State.track_congr e k).trans (State.track_armOneShot_other h)

theorem State.claimVoice_mute (s : State) (t k : TrackId) (x : LayerId) :
    ((s.claimVoice t x).track k).mute = (s.track k).mute := by
  rcases s.tracks_claimVoice t x with e | e
  · rw [State.track_congr e]
  · rw [State.track_congr e, State.armOneShot_mute]

theorem State.claimVoice_oneShot (s : State) (t k : TrackId) (x : LayerId) :
    ((s.claimVoice t x).track k).oneShot = (s.track k).oneShot := by
  rcases s.tracks_claimVoice t x with e | e
  · rw [State.track_congr e]
  · rw [State.track_congr e, State.armOneShot_oneShot]

/-- The claims of a list of layers of a track. -/
def State.claimVoices (s : State) (t : TrackId) (l : List LayerId) : State := l.foldl (fun w x => w.claimVoice t x) s

theorem claimVoices_voicesOnly (s : State) (t : TrackId) (l : List LayerId) : VoicesOnly s (s.claimVoices t l) :=
  VoicesOnly.foldl (fun s x => claimVoice_voicesOnly s t x) l s

theorem State.track_claimVoices_other {s : State} {t k : TrackId} (l : List LayerId) (h : k ≠ t) :
    (s.claimVoices t l).track k = s.track k := by
  induction l generalizing s with
  | nil => rfl
  | cons x l ih => exact (ih (s := s.claimVoice t x)).trans (State.track_claimVoice_other x h)

theorem State.claimVoices_flags (s : State) (t k : TrackId) (l : List LayerId) :
    ((s.claimVoices t l).track k).mute = (s.track k).mute ∧ ((s.claimVoices t l).track k).oneShot = (s.track k).oneShot := by
  induction l generalizing s with
  | nil => exact ⟨rfl, rfl⟩
  | cons x l ih =>
    obtain ⟨h1, h2⟩ := ih (s.claimVoice t x)
    exact ⟨h1.trans (s.claimVoice_mute ..), h2.trans (s.claimVoice_oneShot ..)⟩

/-- The unmuting effect on a muted track (R17). -/
theorem State.unmuteTrack_eq {s : State} {t : TrackId} (h : (s.track t).mute = true) :
    let c := (s.modTrack t fun r => { r with mute := false }).claimVoices t (s.track t).stack
    s.unmuteTrack t = if c.trackAudible t then c.armOneShot t else c := if_pos h

theorem State.track_muteTrack {s : State} {t : TrackId} (k : TrackId) (h : (s.track t).mute = false) :
    (s.muteTrack t).track k = if k = t then { s.track t with mute := true } else s.track k := by
  rw [State.muteTrack_eq h]
  exact State.track_modTrack s t k fun r => { r with mute := true }

theorem State.muteTrack_mute (s : State) (t : TrackId) : ((s.muteTrack t).track t).mute = true := by
  by_cases h : (s.track t).mute = true
  · rw [State.muteTrack_muted h, h]
  · rw [State.track_muteTrack _ (by simpa using h), if_pos rfl]

theorem State.track_muteTrack_other {s : State} {t k : TrackId} (h : k ≠ t) : (s.muteTrack t).track k = s.track k := by
  by_cases e : (s.track t).mute = true
  · rw [State.muteTrack_muted e]
  · rw [State.track_muteTrack _ (by simpa using e), if_neg h]

/-- A mute leaves the one-shot count, also on a track it does not name. -/
theorem State.muteTrack_remaining (s : State) (t k : TrackId) :
    ((s.muteTrack t).track k).remaining = (s.track k).remaining := by
  by_cases h : k = t
  · subst h
    by_cases e : (s.track k).mute = true
    · rw [State.muteTrack_muted e]
    · rw [State.track_muteTrack _ (by simpa using e), if_pos rfl]
  · rw [State.track_muteTrack_other h]

theorem State.muteTrack_link (s : State) (t : TrackId) : (s.muteTrack t).link = s.link := by
  by_cases e : (s.track t).mute = true
  · rw [State.muteTrack_muted e]
  · rw [State.muteTrack_eq (by simpa using e)]; rfl

theorem State.muteTrack_silent {s : State} {t : TrackId} {x : LayerId} (h : (s.track t).mute = false)
    (hx : x ∈ (s.track t).stack) : (s.muteTrack t).mix.Silent x := by
  rw [State.muteTrack_eq h]; exact Mix.silent_foldl_drop _ hx

theorem State.muteTrack_keeps_silent {s : State} {x : LayerId} (t : TrackId) (h : s.mix.Silent x) :
    (s.muteTrack t).mix.Silent x := by
  by_cases e : (s.track t).mute = true
  · rw [State.muteTrack_muted e]; exact h
  · rw [State.muteTrack_eq (by simpa using e)]; exact h.foldl_drop _

theorem State.unmuteTrack_mute (s : State) (t : TrackId) : ((s.unmuteTrack t).track t).mute = false := by
  by_cases h : (s.track t).mute = true
  · have hc := (State.claimVoices_flags (s.modTrack t fun r => { r with mute := false }) t t (s.track t).stack).1
    rw [State.track_modTrack_same] at hc
    rw [State.unmuteTrack_eq h]
    split
    · rw [State.armOneShot_mute, hc]
    · exact hc
  · rw [State.unmuteTrack_unmuted (by simpa using h)]; simpa using h

theorem State.track_unmuteTrack_other {s : State} {t k : TrackId} (h : k ≠ t) : (s.unmuteTrack t).track k = s.track k := by
  by_cases e : (s.track t).mute = true
  · have hc := State.track_claimVoices_other (s := s.modTrack t fun r => { r with mute := false }) (s.track t).stack h
    rw [State.track_modTrack_other _ _ _ _ h] at hc
    rw [State.unmuteTrack_eq e]
    split
    · rw [State.track_armOneShot_other h, hc]
    · exact hc
  · rw [State.unmuteTrack_unmuted (by simpa using e)]

/-! ### The wait list -/

/-- An entry is put behind the entries with keys not above its own that stand ahead of the first with higher ones. -/
theorem insertWaiting_split (key : LayerId → Nat) (e : Waiting) (l : List Waiting) :
    ∃ before after, l = before ++ after ∧ insertWaiting key e l = before ++ e :: after
      ∧ (∀ w ∈ before, key w.layer ≤ key e.layer) ∧ ∀ w, after.head? = some w → key e.layer < key w.layer := by
  induction l with
  | nil => exact ⟨[], [], rfl, rfl, by simp, by simp⟩
  | cons w l ih =>
    by_cases h : key e.layer < key w.layer
    · exact ⟨[], w :: l, rfl, if_pos h, by simp, by simpa using h⟩
    · obtain ⟨before, after, h1, h2, h3, h4⟩ := ih
      refine ⟨w :: before, after, by rw [h1]; rfl, (if_neg h).trans (by rw [h2]; rfl), fun v hv => ?_, h4⟩
      rcases List.mem_cons.1 hv with rfl | hv
      · exact Nat.le_of_not_lt h
      · exact h3 v hv

theorem State.joinWait_joins (s : State) (x : LayerId) : JoinsTheWaitList s x (s.joinWait x).mix.wait :=
  insertWaiting_split ..

theorem State.mem_joinWait {s : State} {x : LayerId} {w : Waiting} :
    w ∈ (s.joinWait x).mix.wait ↔ w ∈ s.mix.wait ∨ w = { layer := x, stamp := s.songBarNow } := by
  obtain ⟨before, after, h1, h2, -⟩ := s.joinWait_joins x
  rw [h2, h1]
  simp only [List.mem_append, List.mem_cons]
  tauto

end Sys2Proof.Machine
end

