-- ==== Sys2Proof/Proofs/Mutes.lean ====
section
/-! MUTE, UNMUTE, the claim of a voice and the one-shot's self-mute (R17, R21, R53, R131, R132). -/

namespace Sys2Proof.Machine

/-! ### A target of all tracks -/

/-- Each track of a list without repetitions gets what the operation on that track alone makes of it. -/
theorem foldl_track {f : State → TrackId → State} {P : Track → Prop} {k : TrackId} {l : List TrackId} (hk : k ∈ l)
    (hsame : ∀ s, P ((f s k).track k)) (hother : ∀ s j, j ≠ k → (f s j).track k = s.track k) (s : State) :
    P ((l.foldl f s).track k) := by
  have hkeep : ∀ (l : List TrackId) (s : State), P (s.track k) → P ((l.foldl f s).track k) := by
    intro l
    induction l with
    | nil => exact fun s h => h
    | cons j l ih =>
      intro s h
      refine ih (f s j) ?_
      by_cases e : j = k
      · rw [e]; exact hsame s
      · rw [hother s j e]; exact h
  induction l generalizing s with
  | nil => simp at hk
  | cons j l ih =>
    by_cases e : j = k
    · rw [List.foldl_cons, e]; exact hkeep l _ (hsame s)
    · exact ih ((List.mem_cons.1 hk).resolve_left fun h => e h.symm) _

theorem foldl_muteTrack_remaining (l : List TrackId) (s : State) (k : TrackId) :
    ((l.foldl State.muteTrack s).track k).remaining = (s.track k).remaining := by
  induction l generalizing s with
  | nil => rfl
  | cons j l ih => exact (ih _).trans (s.muteTrack_remaining j k)

theorem foldl_muteTrack_keeps_silent {x : LayerId} (l : List TrackId) {s : State} (h : s.mix.Silent x) :
    (l.foldl State.muteTrack s).mix.Silent x := by
  induction l generalizing s with
  | nil => exact h
  | cons j l ih => exact ih (State.muteTrack_keeps_silent j h)

/-- The layers of a track that was not muted are silent once the tracks of a list with it are muted. -/
theorem foldl_muteTrack_silent {l : List TrackId} {s : State} {k : TrackId} {x : LayerId} (hk : k ∈ l)
    (h : (s.track k).mute = false) (hx : x ∈ (s.track k).stack) : (l.foldl State.muteTrack s).mix.Silent x := by
  induction l generalizing s with
  | nil => simp at hk
  | cons j l ih =>
    by_cases e : j = k
    · subst e; exact foldl_muteTrack_keeps_silent l (State.muteTrack_silent h hx)
    · have ht : (s.muteTrack j).track k = s.track k := State.track_muteTrack_other fun e' => e e'.symm
      exact ih ((List.mem_cons.1 hk).resolve_left fun h => e h.symm) (by rw [ht]; exact h) (by rw [ht]; exact hx)

/-! ### The claim of a voice -/

/-- A layer that is not audible, or that has a voice or waits, claims nothing (R131). -/
theorem State.claimVoice_idle {s : State} {t : TrackId} {x : LayerId}
    (h : s.audible t x = false ∨ (s.mix.voiceOf x).isSome = true ∨ s.mix.waits x = true) : s.claimVoice t x = s := if_pos h

/-- With the wait list empty and a voice FREE the layer gets the lowest one, and the one-shot is armed (R132). -/
theorem State.claimVoice_gives {s : State} {t : TrackId} {x : LayerId} {v : VoiceId}
    (h : ¬(s.audible t x = false ∨ (s.mix.voiceOf x).isSome = true ∨ s.mix.waits x = true)) (hg : s.bnd.grant ≠ .start)
    (hw : s.mix.wait = []) (hv : s.mix.freeVoice = some v) :
    s.claimVoice t x = State.armOneShot { s with mix := s.mix.give v x } t := by
  unfold State.claimVoice
  rw [if_neg h, if_neg hg, hv, hw]

/-- Else the layer joins the wait list, with VOICE_WAIT but ahead of the start instant's pass (R132, R137). -/
theorem State.claimVoice_waits {s : State} {t : TrackId} {x : LayerId}
    (h : ¬(s.audible t x = false ∨ (s.mix.voiceOf x).isSome = true ∨ s.mix.waits x = true))
    (hw : s.bnd.grant = .start ∨ s.mix.wait ≠ [] ∨ s.mix.freeVoice = none) :
    s.claimVoice t x = if s.bnd.grant = .start then s.joinWait x else (s.joinWait x).reportWait t x := by
  unfold State.claimVoice
  rw [if_neg h]
  by_cases hg : s.bnd.grant = .start
  · rw [if_pos hg, if_pos hg]
  · rw [if_neg hg, if_neg hg]
    rcases hw with hw | hw | hw
    · exact absurd hw hg
    · obtain ⟨w, ws, e⟩ := List.exists_cons_of_ne_nil hw
      rw [e]
      cases s.mix.freeVoice <;> rfl
    · rw [hw]

theorem State.armOneShot_mix (s : State) (t : TrackId) : (s.armOneShot t).mix = s.mix := by
  unfold State.armOneShot; split <;> rfl

theorem State.armOneShot_link (s : State) (t : TrackId) : (s.armOneShot t).link = s.link := by
  unfold State.armOneShot; split <;> rfl

/-! ### The one-shot's self-mute -/

theorem State.selfMute_idle {s : State} {k : TrackId} (h : (s.track k).selfMuteDue = false) : s.selfMute k = s :=
  if_neg (by simp [h])

theorem State.selfMute_due {s : State} {k : TrackId} (hs : s.sup.state = .ready) (h : (s.track k).selfMuteDue = true) :
    s.selfMute k = State.muteTrack (s.modTrack k fun r => { r with selfMuteDue := false }) k :=
  if_pos ⟨by simp [State.isReady, hs], h⟩

theorem State.muteTrack_selfMuteDue (s : State) (t : TrackId) :
    ((s.muteTrack t).track t).selfMuteDue = (s.track t).selfMuteDue := by
  by_cases e : (s.track t).mute = true
  · rw [State.muteTrack_muted e]
  · rw [State.track_muteTrack _ (by simpa using e), if_pos rfl]

/-! ### The statement's parts -/

theorem mute_and_unmute_of_a_track (s : State) (t : TrackId) :
    let m := s.muteTrack t
    let v := s.unmuteTrack t
    (m.track t).mute = true ∧ (v.track t).mute = false
      ∧ ((s.track t).mute = false → ∀ x ∈ (s.track t).stack, m.mix.voiceOf x = none ∧ m.mix.waits x = false)
      ∧ (∀ k, k ≠ t → m.track k = s.track k ∧ v.track k = s.track k)
      ∧ (m.track t).stack = (s.track t).stack ∧ (v.track t).stack = (s.track t).stack
      ∧ (m.track t).remaining = (s.track t).remaining
      ∧ m.layers = s.layers ∧ v.layers = s.layers ∧ m.mem = s.mem ∧ v.mem = s.mem ∧ m.clock = s.clock
      ∧ v.clock = s.clock ∧ m.head0 = s.head0 ∧ v.head0 = s.head0 ∧ m.head1 = s.head1 ∧ v.head1 = s.head1 := by
  have hm := muteTrack_voicesOnly s t
  have hv := unmuteTrack_voicesOnly s t
  exact ⟨s.muteTrack_mute t, s.unmuteTrack_mute t, fun h x hx => State.muteTrack_silent h hx,
    fun k hk => ⟨State.track_muteTrack_other hk, State.track_unmuteTrack_other hk⟩, hm.stack t, hv.stack t,
    s.muteTrack_remaining t t, hm.layers, hv.layers, hm.mem, hv.mem, hm.clock, hv.clock, hm.head0, hv.head0, hm.head1, hv.head1⟩

theorem unmute_claims_and_arms {s : State} {t : TrackId} (h : (s.track t).mute = true) :
    let c := (s.track t).stack.foldl (fun w x => w.claimVoice t x) (s.modTrack t fun r => { r with mute := false })
    s.unmuteTrack t = if c.trackAudible t = true ∧ (s.track t).oneShot = true then
        c.modTrack t fun r => { r with remaining := s.trackFrames t, selfMuteDue := false }
      else c := by
  intro c
  have hmod : VoicesOnly s (s.modTrack t fun r => { r with mute := false }) := modTrack_voicesOnly _ _ _ fun _ => rfl
  have hc : VoicesOnly s c := hmod.trans (claimVoices_voicesOnly _ t (s.track t).stack)
  have hone : (c.track t).oneShot = (s.track t).oneShot := by
    refine (State.claimVoices_flags _ t t (s.track t).stack).2.trans ?_
    rw [State.track_modTrack_same]
  rw [State.unmuteTrack_eq h]
  change (if c.trackAudible t = true then c.armOneShot t else c) = _
  unfold State.armOneShot
  rw [hone, hc.trackFrames, ite_and]

theorem mute_and_unmute_of_all (s : State) :
    let m := (List.finRange 8).foldl State.muteTrack s
    let v := (List.finRange 8).foldl State.unmuteTrack s
    (∀ k, (m.track k).mute = true ∧ (v.track k).mute = false ∧ (m.track k).stack = (s.track k).stack
        ∧ (v.track k).stack = (s.track k).stack ∧ (m.track k).remaining = (s.track k).remaining)
      ∧ (∀ k, (s.track k).mute = false → ∀ x ∈ (s.track k).stack, m.mix.voiceOf x = none ∧ m.mix.waits x = false)
      ∧ m.layers = s.layers ∧ v.layers = s.layers ∧ m.mem = s.mem ∧ v.mem = s.mem ∧ m.clock = s.clock
      ∧ v.clock = s.clock ∧ m.head0 = s.head0 ∧ v.head0 = s.head0 ∧ m.head1 = s.head1 ∧ v.head1 = s.head1 := by
  intro m v
  have hm : VoicesOnly s m := VoicesOnly.foldl muteTrack_voicesOnly _ s
  have hv : VoicesOnly s v := VoicesOnly.foldl unmuteTrack_voicesOnly _ s
  have muted : ∀ k, (m.track k).mute = true := fun k =>
    foldl_track (P := fun r => r.mute = true) (List.mem_finRange k) (fun s => s.muteTrack_mute k)
      (fun s j e => State.track_muteTrack_other fun e' => e e'.symm) s
  have unmuted : ∀ k, (v.track k).mute = false := fun k =>
    foldl_track (P := fun r => r.mute = false) (List.mem_finRange k) (fun s => s.unmuteTrack_mute k)
      (fun s j e => State.track_unmuteTrack_other fun e' => e e'.symm) s
  exact ⟨fun k => ⟨muted k, unmuted k, hm.stack k, hv.stack k, foldl_muteTrack_remaining _ s k⟩,
    fun k h x hx => foldl_muteTrack_silent (List.mem_finRange k) h hx, hm.layers, hv.layers, hm.mem, hv.mem, hm.clock,
    hv.clock, hm.head0, hv.head0, hm.head1, hv.head1⟩

/-- Settles O25: a mute drops the stack's voices (`muteTrack_eq`), an unmute is the claims of the stack
(`unmute_claims_and_arms`), and a claim has the three outcomes of `claimVoice_idle`, `claimVoice_gives` and
`claimVoice_waits`. -/
theorem muteFlagAndOneShotSelfMute : Obligations.MuteFlagAndOneShotSelfMute := by
  refine ⟨fun s t => ?_, fun s => ?_, fun s k x => ?_, fun w k => ?_⟩
  · obtain ⟨h1, h2, h3, h4, h5, h6, h7, h8, h9, h10, h11, h12, h13, h14, h15, h16, h17⟩ := mute_and_unmute_of_a_track s t
    exact ⟨rfl, rfl, h1, h2, h3, h4, h5, h6, h7, h8, h9, h10, h11, h12, h13, h14, h15, h16, h17, unmute_claims_and_arms⟩
  · exact ⟨rfl, rfl, mute_and_unmute_of_all s⟩
  · intro c holds waits
    have hholds : (s.mix.voiceOf x).isSome = true ↔ holds := Mix.voiceOf_isSome
    have hwaits : s.mix.waits x = true ↔ waits := Mix.waits_iff
    refine ⟨fun h => State.claimVoice_idle (by rw [hholds, hwaits]; exact h), fun ha hh hw => ?_⟩
    have hclaims : ¬(s.audible k x = false ∨ (s.mix.voiceOf x).isSome = true ∨ s.mix.waits x = true) := by
      rw [hholds, hwaits, ha]; simp [hh, hw]
    refine ⟨fun v hg hempty hv hlow => ?_, fun hjoin => ?_⟩
    · have hc : c = State.armOneShot { s with mix := s.mix.give v x } k :=
        State.claimVoice_gives hclaims hg hempty (Mix.freeVoice_eq_some.2 ⟨hv, hlow⟩)
      rw [hc]
      exact ⟨State.armOneShot_mix .., State.armOneShot_link .., State.track_armOneShot_same ..,
        fun j hj => State.track_armOneShot_other hj⟩
    · rw [← Mix.freeVoice_eq_none] at hjoin
      have hc : c = if s.bnd.grant = .start then s.joinWait x else (s.joinWait x).reportWait k x :=
        State.claimVoice_waits hclaims hjoin
      refine ⟨_, s.joinWait_joins x, ?_, ?_, hc⟩
      · rw [hc]; split
        · rfl
        · exact State.report_mix ..
      · rw [hc]; split
        · rfl
        · exact State.report_tracks ..
  · intro s
    refine ⟨fun hr hd => ?_, fun hd => congrArg Host.Outcome.next (State.selfMute_idle hd)⟩
    have hu : s.selfMute k = State.muteTrack (s.modTrack k fun r => { r with selfMuteDue := false }) k := State.selfMute_due hr hd
    have hv : VoicesOnly s (s.selfMute k) :=
      hu ▸ (modTrack_voicesOnly _ _ _ fun _ => rfl).trans (muteTrack_voicesOnly ..)
    refine ⟨s.selfMute k, rfl, ?_, ?_, ?_, hv.stack k, fun hm x hx => ?_, fun j hj => ?_, hv.layers, hv.mem, hv.clock, ?_,
      hv.cues, hv.sup⟩ <;> rw [hu]
    · exact State.muteTrack_mute ..
    · rw [State.muteTrack_selfMuteDue, State.track_modTrack_same]
    · rw [State.muteTrack_remaining, State.track_modTrack_same]
    · exact State.muteTrack_silent (by rw [State.track_modTrack_same]; exact hm) (by rw [State.track_modTrack_same]; exact hx)
    · rw [State.track_muteTrack_other hj, State.track_modTrack_other _ _ _ _ hj]
    · rw [State.muteTrack_link]; rfl

end Sys2Proof.Machine
end

