-- ==== Sys2Proof/Proofs/TrackConfig.lean ====
section
/-! TRACK_CONFIG and SET_LEVEL (R20, R22, R23). -/

namespace Sys2Proof.Machine

theorem exec_trackConfig {s : State} {tag track mask gain pan mute oneShot : Byte}
    (h : s.canTake { kind := 0x20, tag := tag, payload := [track, mask, gain, pan, mute, oneShot] } = true) :
    exec (.trackConfig tag [track, mask, gain, pan, mute, oneShot]) s
      = .next ((ownTrackConfig s.takeRequest [track, mask, gain, pan, mute, oneShot]).1.reply 0x20 tag
          (ownTrackConfig s.takeRequest [track, mask, gain, pan, mute, oneShot]).2) :=
  congrArg Host.Outcome.next (serve_taken h rfl rfl)

theorem exec_setLevel {s : State} {tag n level : Byte}
    (h : s.canTake { kind := 0x24, tag := tag, payload := [n, level] } = true) :
    exec (.setLevel tag [n, level]) s
      = .next ((ownSetLevel s.takeRequest [n, level]).1.reply 0x24 tag (ownSetLevel s.takeRequest [n, level]).2) :=
  congrArg Host.Outcome.next (serve_taken h rfl rfl)

/-! ### The mute action and the one-shot action -/

theorem muteAction_voicesOnly (s : State) (t : TrackId) (act : Byte) : VoicesOnly s (s.muteAction t act) :=
  VoicesOnly.ite (muteTrack_voicesOnly ..) (VoicesOnly.ite (unmuteTrack_voicesOnly ..) (VoicesOnly.refl s))

theorem State.track_muteAction_other {s : State} {t k : TrackId} (act : Byte) (h : k ≠ t) :
    (s.muteAction t act).track k = s.track k := by
  unfold State.muteAction
  split_ifs
  · exact State.track_muteTrack_other h
  · exact State.track_unmuteTrack_other h
  · rfl

theorem State.muteAction_mute (s : State) (t : TrackId) (act : Byte) :
    ((s.muteAction t act).track t).mute = if act = 1 then true else if act = 2 then false else (s.track t).mute := by
  unfold State.muteAction
  split_ifs
  · exact s.muteTrack_mute t
  · exact s.unmuteTrack_mute t
  · rfl

theorem State.muteTrack_oneShot (s : State) (t : TrackId) : ((s.muteTrack t).track t).oneShot = (s.track t).oneShot := by
  by_cases e : (s.track t).mute = true
  · rw [State.muteTrack_muted e]
  · rw [State.track_muteTrack _ (by simpa using e), if_pos rfl]

theorem State.unmuteTrack_oneShot (s : State) (t : TrackId) :
    ((s.unmuteTrack t).track t).oneShot = (s.track t).oneShot := by
  by_cases e : (s.track t).mute = true
  · have hc := (State.claimVoices_flags (s.modTrack t fun r => { r with mute := false }) t t (s.track t).stack).2
    rw [State.track_modTrack_same] at hc
    rw [State.unmuteTrack_eq e]
    split
    · rw [State.armOneShot_oneShot, hc]
    · exact hc
  · rw [State.unmuteTrack_unmuted (by simpa using e)]

theorem State.muteAction_oneShot (s : State) (t : TrackId) (act : Byte) :
    ((s.muteAction t act).track t).oneShot = (s.track t).oneShot := by
  unfold State.muteAction
  split_ifs
  · exact s.muteTrack_oneShot t
  · exact s.unmuteTrack_oneShot t
  · rfl

theorem setOneShot_voicesOnly (s : State) (t : TrackId) : VoicesOnly s (s.setOneShot t) := by
  have h : VoicesOnly s (s.modTrack t fun r => { r with oneShot := true, remaining := 0 }) :=
    modTrack_voicesOnly _ _ _ fun _ => rfl
  exact VoicesOnly.ite (VoicesOnly.refl s) (VoicesOnly.ite (h.trans (armOneShot_voicesOnly ..)) h)

theorem oneShotAction_voicesOnly (s : State) (t : TrackId) (act : Byte) : VoicesOnly s (s.oneShotAction t act) :=
  VoicesOnly.ite (setOneShot_voicesOnly ..)
    (VoicesOnly.ite (modTrack_voicesOnly _ _ _ fun _ => rfl) (VoicesOnly.refl s))

/-- The one-shot flag's track once it goes on: armed if the track is audible, else with a remaining count of 0 (R20). -/
theorem State.track_setOneShot {s : State} {t : TrackId} (h : (s.track t).oneShot = false) :
    (s.setOneShot t).track t = if s.trackAudible t then
        { s.track t with oneShot := true, remaining := s.trackFrames t, selfMuteDue := false }
      else { s.track t with oneShot := true, remaining := 0 } := by
  unfold State.setOneShot
  rw [if_neg (by simp [h])]
  dsimp only
  split
  · rw [State.track_armOneShot_same, State.track_modTrack_same, if_pos rfl,
      (modTrack_voicesOnly s t (fun r => { r with oneShot := true, remaining := 0 }) fun _ => rfl).trackFrames]
  · exact State.track_modTrack_same ..

theorem State.setOneShot_flags (s : State) (t : TrackId) :
    ((s.setOneShot t).track t).oneShot = true ∧ ((s.setOneShot t).track t).mute = (s.track t).mute := by
  by_cases h : (s.track t).oneShot = true
  · have e : s.setOneShot t = s := if_pos h
    rw [e]; exact ⟨h, rfl⟩
  · rw [State.track_setOneShot (by simpa using h)]
    split <;> exact ⟨rfl, rfl⟩

theorem State.track_setOneShot_other {s : State} {t k : TrackId} (h : k ≠ t) : (s.setOneShot t).track k = s.track k := by
  unfold State.setOneShot
  dsimp only
  split_ifs
  · rfl
  · rw [State.track_armOneShot_other h, State.track_modTrack_other _ _ _ _ h]
  · exact State.track_modTrack_other _ _ _ _ h

theorem State.track_oneShotAction_other {s : State} {t k : TrackId} (act : Byte) (h : k ≠ t) :
    (s.oneShotAction t act).track k = s.track k := by
  unfold State.oneShotAction
  split_ifs
  · exact State.track_setOneShot_other h
  · exact State.track_modTrack_other _ _ _ _ h
  · rfl

theorem State.oneShotAction_flags (s : State) (t : TrackId) (act : Byte) :
    ((s.oneShotAction t act).track t).oneShot = (if act = 1 then true else if act = 2 then false else (s.track t).oneShot)
      ∧ ((s.oneShotAction t act).track t).mute = (s.track t).mute := by
  unfold State.oneShotAction
  split_ifs
  · exact s.setOneShot_flags t
  · unfold State.clearOneShot; rw [State.track_modTrack_same]; exact ⟨rfl, rfl⟩
  · exact ⟨rfl, rfl⟩

theorem State.oneShotAction_mix (s : State) (t : TrackId) (act : Byte) : (s.oneShotAction t act).mix = s.mix := by
  unfold State.oneShotAction State.setOneShot
  dsimp only
  split_ifs
  · rfl
  · rw [State.armOneShot_mix]; rfl
  · rfl
  · rfl
  · rfl

/-! ### The owners -/

/-- The state in which a TRACK_CONFIG's actions are taken: mask, gain and pan are stored, and the mix of this frame still has
the gain and pan before (R22; log 44). -/
def State.storeConfig (u : State) (k : TrackId) (mask gain pan : Byte) : State :=
  (u.hear (.track k (u.track k).gain (u.track k).pan)).modTrack k fun r =>
    { r with mask := mask.setWidth 4, gain := gain, pan := pan }

theorem State.track_storeConfig (u : State) (k j : TrackId) (mask gain pan : Byte) :
    (u.storeConfig k mask gain pan).track j
      = if j = k then { u.track k with mask := mask.setWidth 4, gain := gain, pan := pan } else u.track j :=
  State.track_modTrack ..

theorem trackConfigOk_iff {mask pan mute oneShot : Byte} :
    trackConfigOk mask pan mute oneShot = true
      ↔ ¬(mask = 0 ∨ 15 < mask.toNat ∨ 127 < pan.toNat ∨ 2 < mute.toNat ∨ 2 < oneShot.toNat) := by
  have h : mask = 0 ↔ mask.toNat = 0 := BitVec.toNat_inj.symm
  unfold trackConfigOk
  simp only [Bool.and_eq_true, decide_eq_true_eq, h]
  omega

theorem ownTrackConfig_bad {u : State} {track mask gain pan mute oneShot : Byte} (hr : u.isReady = true)
    (h : 7 < track.toNat ∨ trackConfigOk mask pan mute oneShot = false) :
    ownTrackConfig u [track, mask, gain, pan, mute, oneShot] = (u, [3]) := by
  unfold ownTrackConfig
  dsimp only
  rw [if_neg (by simp [hr])]
  by_cases ht : track.toNat < 8
  · rw [trackOf_of_lt ht]
    exact if_pos (by simp [h.resolve_left (by omega)])
  · rw [trackOf_of_gt (by omega)]; rfl

theorem ownTrackConfig_taken {u : State} {track mask gain pan mute oneShot : Byte} (hr : u.isReady = true)
    (ht : track.toNat < 8) (h : trackConfigOk mask pan mute oneShot = true) :
    ownTrackConfig u [track, mask, gain, pan, mute, oneShot]
      = (((u.storeConfig ⟨track.toNat, ht⟩ mask gain pan).muteAction ⟨track.toNat, ht⟩ mute).oneShotAction
          ⟨track.toNat, ht⟩ oneShot, [0]) := by
  unfold ownTrackConfig
  dsimp only
  rw [if_neg (by simp [hr]), trackOf_of_lt ht]
  exact if_neg (by simp [h])

theorem ownSetLevel_bad {u : State} {n level : Byte} (hr : u.isReady = true) (h : 55 < n.toNat) :
    ownSetLevel u [n, level] = (u, [3]) := by
  unfold ownSetLevel
  dsimp only
  rw [if_neg (by simp [hr]), layerOf_of_gt h]; rfl

theorem ownSetLevel_free {u : State} {n level : Byte} (hr : u.isReady = true) (h : n.toNat < 56)
    (hl : u.layer ⟨n.toNat, h⟩ = none) : ownSetLevel u [n, level] = (u, [10]) := by
  unfold ownSetLevel
  dsimp only
  rw [if_neg (by simp [hr]), layerOf_of_lt h]
  dsimp only
  rw [hl]; rfl

theorem ownSetLevel_taken {u : State} {n level : Byte} {l : Layer} (hr : u.isReady = true) (h : n.toNat < 56)
    (hl : u.layer ⟨n.toNat, h⟩ = some l) :
    ownSetLevel u [n, level]
      = ((u.hear (.layer ⟨n.toNat, h⟩ l.level)).setLayer ⟨n.toNat, h⟩ (some { l with level := level }), [0]) := by
  unfold ownSetLevel
  dsimp only
  rw [if_neg (by simp [hr]), layerOf_of_lt h]
  dsimp only
  rw [hl]; rfl

/-- Settles O29: behind the stored fields (`track_storeConfig`) the two actions change voices, flags and the count alone. -/
theorem trackConfigAndSetLevelSetTheirRecord : Obligations.TrackConfigAndSetLevelSetTheirRecord := by
  refine ⟨fun s tag track mask gain pan mute oneShot hc hs => ?_, fun s tag n level hc hs => ?_⟩
  · intro u bad
    have hr : u.isReady = true := isReady_of_ready hs
    have he : exec (.trackConfig tag [track, mask, gain, pan, mute, oneShot]) s
        = .next ((ownTrackConfig u [track, mask, gain, pan, mute, oneShot]).1.reply 0x20 tag
          (ownTrackConfig u [track, mask, gain, pan, mute, oneShot]).2) := exec_trackConfig hc
    clear_value u
    rw [he]
    refine ⟨fun hb => ?_, fun h hb => ?_⟩
    · have hbad : 7 < track.toNat ∨ trackConfigOk mask pan mute oneShot = false := by
        rw [← Bool.not_eq_true, trackConfigOk_iff, not_not]; exact hb
      rw [ownTrackConfig_bad hr hbad]
    · intro k
      have hok : trackConfigOk mask pan mute oneShot = true := trackConfigOk_iff.2 fun e => hb (Or.inr e)
      rw [ownTrackConfig_taken hr h hok]
      refine ⟨?_, fun hm ho => by rw [hm, ho]; rfl⟩
      have hk := u.track_storeConfig k k mask gain pan
      rw [if_pos rfl] at hk
      have hmute := (u.storeConfig k mask gain pan).muteAction_mute k mute
      have hone := (u.storeConfig k mask gain pan).muteAction_oneShot k mute
      have hvm := muteAction_voicesOnly (u.storeConfig k mask gain pan) k mute
      obtain ⟨w, hw⟩ : ∃ w, (u.storeConfig k mask gain pan).muteAction k mute = w := ⟨_, rfl⟩
      rw [hw, hk] at hmute hone
      rw [hw] at hvm
      have hvo := oneShotAction_voicesOnly w k oneShot
      have hv := hvm.trans hvo
      have hflags := w.oneShotAction_flags k oneShot
      rw [hw]
      refine ⟨w.oneShotAction k oneShot, rfl, ?_⟩
      generalize ht : w.oneShotAction k oneShot = t at *
      refine ⟨(hv.mask k).trans (by rw [hk]), (hv.gain k).trans (by rw [hk]), (hv.pan k).trans (by rw [hk]),
        hflags.2.trans hmute, hflags.1.trans (by rw [hone]), fun h1 h2 => ?_, fun h2 => ?_, fun h1 h2 x hx => ?_,
        (hv.stack k).trans (by rw [hk]), (hv.redo k).trans (by rw [hk]), (hv.span k).trans (by rw [hk]),
        (hv.pass k).trans (by rw [hk]), fun j hj => ?_, hv.layers, hv.mem, hv.pool, hv.clock, hv.cues, hv.head0, hv.head1,
        hv.bounce, hv.scenes, hv.tones, hv.sup, hv.heard⟩
      · rw [hvo.trackAudible hflags.2, hvo.trackFrames]
        have e : w.oneShotAction k oneShot = w.setOneShot k := if_pos h1
        rw [← ht, e, State.track_setOneShot (by rw [hone]; exact h2)]
        split <;> rfl
      · have e : w.oneShotAction k oneShot = w.clearOneShot k := by rw [h2]; rfl
        rw [← ht, e]
        exact congrArg Track.remaining (State.track_modTrack_same ..)
      · rw [← ht, State.oneShotAction_mix, ← hw]
        have e : (u.storeConfig k mask gain pan).muteAction k mute = (u.storeConfig k mask gain pan).muteTrack k := if_pos h1
        rw [e]
        exact State.muteTrack_silent (by rw [hk]; exact h2) (by rw [hk]; exact hx)
      · rw [← ht, State.track_oneShotAction_other _ hj, ← hw, State.track_muteAction_other _ hj, State.track_storeConfig, if_neg hj]
  · intro u
    have hr : u.isReady = true := isReady_of_ready hs
    rw [exec_setLevel hc]
    refine ⟨fun h => by rw [ownSetLevel_bad hr h], fun h => ⟨fun hl => by rw [ownSetLevel_free hr h hl], fun l hl => ?_⟩⟩
    rw [ownSetLevel_taken hr h hl]
    rfl

end Sys2Proof.Machine
end

