-- ==== Sys2Proof/Proofs/ColdReset.lean ====
section
/-! COLD_RESET_END and the values after a power-up (R170). -/

namespace Sys2Proof.Machine

/-- A POWER cause, or REQUEST_COLD with no warm cause beside it, makes the reset in force a cold one (R168). -/
theorem Sup.coldInForce_of {u : Sup}
    (h : u.inForce.power = true ∨ (u.inForce.requestCold = true ∧ u.inForce.brown = false ∧ u.inForce.pin = false
      ∧ u.inForce.requestWarm = false)) : u.coldInForce = true := by
  unfold Sup.coldInForce CauseSet.anyWarm
  rcases h with h | ⟨h1, h2, h3, h4⟩
  · rw [h]; rfl
  · rw [h1, h2, h3, h4]; simp

/-- HELLO is always formed outside RESET, and joins the queue while a report place is left (R172, R186, R187). -/
theorem State.report_hello {s : State} (p : List Byte) (h : s.sup.state ≠ .reset) (hq : s.link.reportsQueued < 16) :
    s.report .hello p = s.send { kind := 0x40, tag := 0, payload := s.header ++ p } := by
  unfold State.report State.reportWith
  rw [if_neg h, if_neg (by simp [State.reportEnabled]), if_pos hq]
  rfl

theorem State.inUse_coldValues (s : State) (line : Bool) : (s.coldValues line).resetEndCheck.inUse = [] :=
  State.inUse_eq_nil.2 fun x => reset_layer x

/-- HELLO at the end of a cold reset (R172). -/
theorem State.hello_coldValues (s : State) (line : Bool) :
    let v := (s.coldValues line).resetEndCheck
    v.hello = v.send { kind := 0x40, tag := 0, payload :=
      [0, 0, 0, 0x48, 0x0B, Config.revision, s.sup.causes.byte, 2, 0, 0, 0xF4, 0x01, 4, 0, 0, 0,
        flagByte v.sup.edgeMemory] } := by
  intro v
  have hv : v.inUse.length = 0 := by rw [State.inUse_coldValues]; rfl
  have hr : v.sup.state ≠ .reset := fun e => SupState.noConfusion (e : SupState.ready = .reset)
  unfold State.hello
  have hhead : v.header = [0, 0, 0] := (by decide : le2 0 ++ [byte 0] = [0, 0, 0])
  have hp : le2 v.clock.p = [0xF4, 0x01] := (by decide : le2 500 = [0xF4, 0x01])
  rw [hv, State.report_hello _ hr (Nat.zero_lt_succ _), hhead, hp]
  rfl

theorem reset_track (k : TrackId) :
    State.reset.track k =
      { stack := [], reservations := 0, redo := [], span := none, pass := 0, mute := false, oneShot := false, remaining := 0
        gain := 128, pan := 64, mask := 1 <<< (k.val % 4), selfMuteDue := false, passSet := false } := by
  change coldTracks.get k = _
  fin_cases k <;> rfl

theorem reset_scene (n : SceneId) : State.reset.scenes.table.get n = Scene.cold := by
  change (Vector.replicate 16 Scene.cold)[n.val] = _
  simp

theorem scene_cold_act (k : TrackId) : Scene.cold.actions.get k = .leave := by
  change (Vector.replicate 8 SceneAct.leave)[k.val] = _
  simp

theorem reset_voice (v : VoiceId) : State.reset.mix.voices.get v = none := by
  change (Vector.replicate 24 (none : Option LayerId))[v.val] = _
  simp

theorem reset_inputLevel (i : InputId) : State.reset.mix.inputLevels.get i = 128 := by
  change (Vector.replicate 4 (128 : Byte))[i.val] = _
  simp

theorem reset_reportEnabled (r : Report) : State.reset.reportEnabled r = (r != .bar) := by
  cases r <;> rfl

/-- Settles O56: the cold values answer HELLO (`hello_coldValues`), and State.reset has them field by field. -/
theorem coldResetEndsAtTheColdValues : Obligations.ColdResetEndsAtTheColdValues := by
  intro s pinHigh
  refine ⟨fun h => congrArg Host.Outcome.next (if_neg fun e => h e.1), fun h hc => ?_, ?_⟩
  · have he : exec (.coldResetEnd pinHigh) s = .next (s.coldValues pinHigh).resetEndCheck.hello :=
      congrArg Host.Outcome.next (if_pos ⟨h, Sup.coldInForce_of hc⟩)
    intro line
    have hline : (line == false) = !line := beq_false line
    have hcheck : (s.coldValues pinHigh).resetEndCheck
        = { s.coldValues pinHigh with sup := { (s.coldValues pinHigh).sup with edgeMemory := !line } } :=
      congrArg (fun e => { s.coldValues pinHigh with sup := { (s.coldValues pinHigh).sup with edgeMemory := e } }) hline
    rw [he, State.hello_coldValues, hcheck]
    rfl
  · have hn : ∀ n : SceneId, (State.reset.scenes.table.get n).valid = false ∧ (State.reset.scenes.table.get n).length = 0
        ∧ (State.reset.scenes.table.get n).next = none ∧ (State.reset.scenes.table.get n).tie = false
        ∧ ∀ k, (State.reset.scenes.table.get n).actions.get k = .leave := fun n => by
      rw [reset_scene]; exact ⟨rfl, rfl, rfl, rfl, scene_cold_act⟩
    exact ⟨reset_track, reset_layer, rfl, rfl, rfl, rfl, rfl, rfl, rfl, rfl, rfl, rfl, rfl, rfl, rfl, rfl, rfl, rfl, rfl, rfl,
      reset_free, rfl, rfl, rfl, rfl, rfl, rfl, rfl, reset_voice, rfl, reset_inputLevel, rfl, rfl, rfl, hn, rfl, rfl, rfl, rfl,
      rfl, rfl, rfl, rfl, rfl, rfl, rfl, rfl, rfl, rfl, rfl, rfl, rfl, rfl, rfl, rfl, rfl, reset_reportEnabled, rfl, rfl,
      rfl, rfl, rfl, rfl⟩

end Sys2Proof.Machine
end

