-- ==== Sys2Proof/Proofs/AudioFrame.lean ====
section
/-! AUDIO_FRAME with idle heads and no bounce (R21, R30, R32, R97, R104, R140..R142, R157, R185). -/

namespace Sys2Proof.Machine

/-! ### A fold that writes each track once -/

/-- The two states differ in their tracks alone. -/
def TracksOnly (s u : State) : Prop := u = { s with tracks := u.tracks }

theorem State.setTrack_self (s : State) (k : TrackId) : s.setTrack k (s.track k) = s := by
  unfold State.setTrack State.track
  rw [show s.tracks.get k = s.tracks[k.val] from rfl, Vector.set_getElem_self]

theorem TracksOnly.refl (s : State) : TracksOnly s s := rfl

theorem TracksOnly.setTrack {s u : State} (h : TracksOnly s u) (k : TrackId) (r : Track) :
    TracksOnly s (u.setTrack k r) := by
  unfold TracksOnly State.setTrack at *
  rw [h]

/-- Where an entry's new value depends on nothing of the other tracks, a fold over a list without repetitions gives each of
its tracks that value. -/
theorem foldl_setTrack {s : State} {g : State → TrackId → Track}
    (hg : ∀ u k, TracksOnly s u → u.track k = s.track k → g u k = g s k) (l : List TrackId) (hl : l.Nodup) (u : State)
    (hu : TracksOnly s u) (hk : ∀ k ∈ l, u.track k = s.track k) :
    TracksOnly s (l.foldl (fun v k => v.setTrack k (g v k)) u)
      ∧ ∀ k, (l.foldl (fun v k => v.setTrack k (g v k)) u).track k = if k ∈ l then g s k else u.track k := by
  induction l generalizing u with
  | nil => exact ⟨hu, fun k => rfl⟩
  | cons j l ih =>
    obtain ⟨hj, hl⟩ := List.nodup_cons.1 hl
    have hval : g u j = g s j := hg u j hu (hk j List.mem_cons_self)
    have hstep : ∀ k, (u.setTrack j (g u j)).track k = if k = j then g s j else u.track k := fun k => by
      rw [State.track_setTrack, hval]
    obtain ⟨h1, h2⟩ := ih hl (u.setTrack j (g u j)) (hu.setTrack j _) fun k hkl => by
      rw [hstep, if_neg fun e : k = j => hj (e ▸ hkl), hk k (List.mem_cons_of_mem _ hkl)]
    refine ⟨h1, fun k => ?_⟩
    rw [List.foldl_cons, h2, hstep]
    by_cases e : k = j
    · rw [if_neg (e ▸ hj), if_pos e, if_pos (e ▸ List.mem_cons_self), e]
    · rw [if_neg e]
      exact if_congr (by simp [e]) rfl rfl

/-! ### The one-shot counts of a frame (R21) -/

/-- A track's record once its one-shot count of the frame is made. -/
def State.countedTrack (s : State) (t : TrackId) : Track :=
  if (s.track t).oneShot = true ∧ s.trackAudible t = true ∧ 0 < (s.track t).remaining then
    { s.track t with
      remaining := (s.track t).remaining - 1
      selfMuteDue := (s.track t).selfMuteDue || (s.track t).remaining = 1 }
  else s.track t

theorem State.countOneShot_eq (s : State) (t : TrackId) : s.countOneShot t = s.setTrack t (s.countedTrack t) := by
  unfold State.countOneShot State.countedTrack
  split_ifs
  · rfl
  · exact (s.setTrack_self t).symm

theorem countedTrack_of_tracksOnly {s u : State} (k : TrackId) (h : TracksOnly s u) (e : u.track k = s.track k) :
    u.countedTrack k = s.countedTrack k := by
  have ha : u.trackAudible k = s.trackAudible k := by
    rw [TracksOnly] at h
    unfold State.trackAudible State.soundLayers
    rw [e, h]
    rfl
  unfold State.countedTrack
  rw [e, ha]

theorem foldl_countOneShot (s : State) :
    TracksOnly s ((List.finRange 8).foldl State.countOneShot s)
      ∧ ∀ k, ((List.finRange 8).foldl State.countOneShot s).track k = s.countedTrack k := by
  have he : State.countOneShot = fun u k => u.setTrack k (u.countedTrack k) :=
    funext fun u => funext fun k => u.countOneShot_eq k
  obtain ⟨h1, h2⟩ := foldl_setTrack (s := s) (g := State.countedTrack) (fun u k h e => countedTrack_of_tracksOnly k h e)
    (List.finRange 8) (List.nodup_finRange 8) s (TracksOnly.refl s) fun _ _ => rfl
  rw [he]
  exact ⟨h1, fun k => by rw [h2 k, if_pos (List.mem_finRange k)]⟩

/-! ### The frame -/

theorem headBounce_of_nil {s : State} (h : s.bounce.queue = []) : s.headBounce = none := by
  unfold State.headBounce; rw [h]; rfl

theorem bounceFrame_of_nil {s : State} (h : s.bounce.queue = []) : s.bounceFrame = s := by
  unfold State.bounceFrame; rw [headBounce_of_nil h]

theorem beginIsDue_of_nil {s : State} (h : s.bounce.queue = []) : s.beginIsDue = false := by
  unfold State.beginIsDue State.running; rw [headBounce_of_nil h]; simp

theorem advanceHead_of_none {s : State} {h : HeadId} (ins : Vector Sample 4) (e : s.head h = none) :
    s.advanceHead ins h = s := by
  unfold State.advanceHead; rw [e]

/-- With idle heads and no bounce a READY frame forms the mix, counts the one-shots, the waveforms and the clock, and closes. -/
theorem readyFrame_quiet {s : State} (ins : Vector Sample 4) (h0 : s.head0 = none) (h1 : s.head1 = none)
    (hq : s.bounce.queue = []) :
    ∃ T : Vector Track 8, (∀ k, T.get k = { s.countedTrack k with passSet := false }) ∧
      s.readyFrame ins =
        { s with
          outputs := s.mixFrame ins, tracks := T, tones := s.tones.frame, clock := s.clock.frame s.moving, bnd := {}
          pool := s.pool.served, link := s.link.nextFrame, bounce := s.bounce.nextFrame, mix := s.mix.nextFrame } := by
  have hs : (if s.moving then (s.advanceHead ins .h0).advanceHead ins .h1 else s) = s := by
    rw [advanceHead_of_none (h := .h0) ins h0, advanceHead_of_none (h := .h1) ins h1, ite_self]
  obtain ⟨honly, htrack⟩ := foldl_countOneShot { s with outputs := s.mixFrame ins }
  unfold State.readyFrame
  dsimp only
  rw [hs]
  generalize (List.finRange 8).foldl State.countOneShot _ = u at honly htrack
  refine ⟨u.tracks.map fun r => { r with passSet := false }, fun k => ?_, ?_⟩
  · have hk : u.tracks.get k = s.countedTrack k := htrack k
    rw [← hk]
    exact Vector.getElem_map ..
  · have hu : u.bounce.queue = [] := by rw [honly]; exact hq
    rw [bounceFrame_of_nil (s := { u with tones := u.tones.frame }) hu]
    unfold State.closeFrame
    dsimp only
    rw [beginIsDue_of_nil (s := { u with tones := u.tones.frame, clock := u.clock.frame _ }) hu, honly]
    rfl

theorem served_eq_freesTaken (p : Pool) : p.served = freesTaken p none := by
  unfold Pool.served Pool.takeBehind Pool.arm freesTaken
  simp

theorem frameOwes_false {s : State} (h : s.frameOwes = false) (k : TrackId) : (s.track k).selfMuteDue = false := by
  unfold State.frameOwes at h
  simp only [Bool.or_eq_false_iff, List.any_eq_false] at h
  simpa using h.2 k (List.mem_finRange k)

theorem countedTrack_of_not_due {s : State} {k : TrackId} (h : (s.track k).selfMuteDue = false) :
    { s.countedTrack k with passSet := false } =
      if (s.track k).oneShot = true ∧ s.trackAudible k = true ∧ 0 < (s.track k).remaining then
        { s.track k with
          remaining := (s.track k).remaining - 1, selfMuteDue := decide ((s.track k).remaining = 1)
          passSet := false }
      else { s.track k with passSet := false } := by
  unfold State.countedTrack
  split_ifs
  · rw [h, Bool.false_or]
  · rfl

theorem verifyFrame_of_scan {s : State} {v : Scan} (h : s.pool.scan = some v) :
    s.verifyFrame = { s with
      pool := { s.pool with scan := some { v with frames := v.frames + 1 } }
      link := { s.link with requestTaken := false, requestDue := decide (s.link.requests ≠ []) } } := by
  unfold State.verifyFrame Link.nextFrame
  rw [h]
  rfl

theorem verifyOwes_false {s : State} {v : Scan} (hr : s.sup.restart = none)
    (hl : s.link.requestDue = false ∨ s.link.requestTaken = true ∨ s.link.requests = []) (hs : s.pool.scan = some v)
    (hv : v.frames < 32) : s.verifyOwes = false := by
  unfold State.verifyOwes State.requestOwed Sup.restartDue
  rw [hr, hs]
  rcases hl with h | h | h <;> simp [h, hv]

/-- Settles O50: `readyFrame_quiet` says what a READY frame does, and the mix of the model is the one stated. -/
theorem frameCountsTheClockAndFormsTheMix : Obligations.FrameCountsTheClockAndFormsTheMix := by
  intro s in0 in1 in2 in3 ins
  refine ⟨fun h1 h2 => ?_, fun h hr hl v hs hv => ?_, fun h ho => ?_, fun h ho h0 h1 hq => ?_⟩
  · show execAudioFrame in0 in1 in2 in3 s = _
    unfold execAudioFrame
    split
    · next e => exact absurd e h1
    · next e => exact absurd e h2
    · rfl
  · show execAudioFrame in0 in1 in2 in3 s = _
    unfold execAudioFrame
    rw [h]
    dsimp only
    rw [verifyOwes_false hr hl hs hv, verifyFrame_of_scan hs]
    rfl
  · show execAudioFrame in0 in1 in2 in3 s = _
    unfold execAudioFrame
    rw [h]
    dsimp only
    rw [ho]
    rfl
  · intro moving length sounds layerSample gainPan trackSum left right levels prompt terms advance
    obtain ⟨T, hT, he⟩ := readyFrame_quiet #v[in0, in1, in2, in3] h0 h1 hq
    refine ⟨s.readyFrame #v[in0, in1, in2, in3], ?_, ?_⟩
    · show execAudioFrame in0 in1 in2 in3 s = _
      unfold execAudioFrame
      rw [h]
      dsimp only
      rw [ho]
      rfl
    · rw [he]
      refine ⟨?_, ?_, fun k => (hT k).trans (countedTrack_of_not_due (frameOwes_false ho k)), ?_, rfl, rfl, rfl,
        served_eq_freesTaken _, rfl, rfl, rfl, rfl, rfl, h0, h1, ?_⟩
      · have hm : (s.moving = true) = moving := by simp [State.moving, moving]
        unfold Clock.frame
        rw [if_congr hm.to_iff rfl rfl]
        rfl
      · have hgainPan : gainPan = s.gainPan := rfl
        have hsample : layerSample = s.layerSample := by
          funext x
          dsimp only [layerSample]
          unfold State.layerSample
          cases s.layer x with
          | none => rfl
          | some l => exact congrArg (applyLevel _) (by cases s.mapEntry x (s.trackPos l.track / 4096) <;> rfl)
        have hsum : trackSum = s.trackSum := by
          dsimp only [trackSum]
          rw [hgainPan, hsample]
          rfl
        have hmain : s.mainBus = (left, right) := by
          dsimp only [left, right]
          rw [hsum, hgainPan]
          unfold State.mainBus
          split <;> rfl
        have hlevels : levels = (s.mix.monitored.inputLevels, s.mix.monitored.mainLevel, s.mix.monitored.clickLevel,
            s.mix.monitored.promptLevel) := by
          unfold Mix.monitored
          dsimp only [levels]
          generalize s.mix.heard = heard
          cases heard <;> rfl
        have hins : ins = fun i => (#v[in0, in1, in2, in3].get i).toInt := by
          funext i
          fin_cases i <;> rfl
        have hterms : terms = s.monitorTerms #v[in0, in1, in2, in3] := by
          dsimp only [terms]
          rw [hlevels, hins]
          rfl
        rw [hterms, hlevels]
        dsimp only [State.mixFrame]
        rw [hmain]
      · have hslot : ∀ sl : Slot, (sl.sounds = true) = (sl.entry.rest = false ∧ sl.lastSilent = false) := fun sl => by
          simp [Slot.sounds]
        unfold Tones.frame
        dsimp only
        simp only [hslot]
        rfl
      · show s.bounce.queue.map _ = []
        rw [hq]
        rfl

end Sys2Proof.Machine
end

