-- ==== Sys2Proof/Proofs/Grants.lean ====
section
/-! The grant pass: which voices it gives to which waiting layers, and what it arms (R136, R137). -/

namespace Sys2Proof.Machine

/-- The FREE voices in ascending order. -/
def Mix.freeList (m : Mix) : List VoiceId := (List.finRange 24).filter fun v => (m.voices.get v).isNone

theorem Mix.mem_freeList {m : Mix} {v : VoiceId} : v ∈ m.freeList ↔ m.voices.get v = none := by
  simp [Mix.freeList]

theorem Mix.nodup_freeList (m : Mix) : m.freeList.Nodup := (List.nodup_finRange 24).filter _

theorem Mix.freeVoice_eq_head? (m : Mix) : m.freeVoice = m.freeList.head? := (List.head?_filter ..).symm

theorem Mix.length_freeList (m : Mix) : m.freeList.length ≤ 24 :=
  (List.length_filter_le ..).trans (by simp)

theorem Mix.voices_give (m : Mix) (v u : VoiceId) (x : LayerId) :
    (m.give v x).voices.get u = if u = v then some x else m.voices.get u := by
  unfold Mix.give
  simp only [Vector.get_eq_getElem, Vector.getElem_set, Fin.ext_iff]
  exact if_congr eq_comm rfl rfl

/-- Once a voice is given, the FREE ones are the others. -/
theorem Mix.freeList_give {m : Mix} {v : VoiceId} {F : List VoiceId} (x : LayerId) (h : m.freeList = v :: F) :
    (m.give v x).freeList = F := by
  have hnodup : (v :: F).Nodup := h ▸ m.nodup_freeList
  have he : (m.give v x).freeList = m.freeList.filter fun u => u ≠ v := by
    unfold Mix.freeList
    rw [List.filter_filter]
    refine List.filter_congr fun u _ => ?_
    rw [Mix.voices_give]
    by_cases e : u = v <;> simp [e]
  rw [he, h, List.filter_cons_of_neg (by simp), List.filter_eq_self]
  intro u hu
  have : u ≠ v := fun e => (List.nodup_cons.1 hnodup).1 (e ▸ hu)
  simpa using this

/-! ### One grant -/

theorem reportGrant_voicesOnly (s : State) (w : Waiting) (v : VoiceId) : VoicesOnly s (s.reportGrant w v) := by
  unfold State.reportGrant
  split
  · exact report_voicesOnly ..
  · exact VoicesOnly.refl s

theorem armGranted_voicesOnly (s : State) (x : LayerId) : VoicesOnly s (s.armGranted x) := by
  unfold State.armGranted
  split
  · exact armOneShot_voicesOnly ..
  · exact VoicesOnly.refl s

theorem State.armGranted_mix (s : State) (x : LayerId) : (s.armGranted x).mix = s.mix := by
  unfold State.armGranted
  split
  · exact State.armOneShot_mix ..
  · rfl

theorem State.armGranted_none {s : State} {x : LayerId} (h : s.layer x = none) : s.armGranted x = s := by
  unfold State.armGranted; rw [h]

theorem State.armGranted_some {s : State} {x : LayerId} {l : Layer} (h : s.layer x = some l) :
    s.armGranted x = s.armOneShot l.track := by
  unfold State.armGranted; rw [h]

theorem State.armGranted_flags (s : State) (x : LayerId) (k : TrackId) :
    ((s.armGranted x).track k).mute = (s.track k).mute ∧ ((s.armGranted x).track k).oneShot = (s.track k).oneShot := by
  cases h : s.layer x with
  | none => rw [State.armGranted_none h]; exact ⟨rfl, rfl⟩
  | some l => rw [State.armGranted_some h]; exact ⟨State.armOneShot_mute .., State.armOneShot_oneShot ..⟩

theorem State.reportGrant_mix (s : State) (w : Waiting) (v : VoiceId) : (s.reportGrant w v).mix = s.mix := by
  unfold State.reportGrant
  split
  · exact State.report_mix ..
  · rfl

theorem State.reportGrant_tracks (s : State) (w : Waiting) (v : VoiceId) : (s.reportGrant w v).tracks = s.tracks := by
  unfold State.reportGrant
  split
  · exact State.report_tracks ..
  · rfl

/-- The state in which a grant arms the track of the layer: the voice given, the entry gone, the report formed. -/
def State.granted (s : State) (start : Bool) (v : VoiceId) (w : Waiting) (ws : List Waiting) : State :=
  let s1 := { s with mix := { s.mix.give v w.layer with wait := ws } }
  if start then s1 else s1.reportGrant w v

theorem State.grantOne_eq (s : State) (start : Bool) (v : VoiceId) (w : Waiting) (ws : List Waiting) :
    s.grantOne start v w ws = (s.granted start v w ws).armGranted w.layer := rfl

theorem granted_voicesOnly (s : State) (start : Bool) (v : VoiceId) (w : Waiting) (ws : List Waiting) :
    VoicesOnly s (s.granted start v w ws) :=
  have h : VoicesOnly s { s with mix := { s.mix.give v w.layer with wait := ws } } := mix_voicesOnly s _ rfl
  VoicesOnly.ite h (h.trans (reportGrant_voicesOnly ..))

theorem State.granted_mix (s : State) (start : Bool) (v : VoiceId) (w : Waiting) (ws : List Waiting) :
    (s.granted start v w ws).mix = { s.mix.give v w.layer with wait := ws } := by
  unfold State.granted
  dsimp only
  split
  · rfl
  · exact State.reportGrant_mix ..

theorem State.granted_tracks (s : State) (start : Bool) (v : VoiceId) (w : Waiting) (ws : List Waiting) :
    (s.granted start v w ws).tracks = s.tracks := by
  unfold State.granted
  dsimp only
  split
  · rfl
  · exact State.reportGrant_tracks ..

theorem grantOne_voicesOnly (s : State) (start : Bool) (v : VoiceId) (w : Waiting) (ws : List Waiting) :
    VoicesOnly s (s.grantOne start v w ws) := by
  rw [State.grantOne_eq]
  exact (granted_voicesOnly ..).trans (armGranted_voicesOnly ..)

theorem State.grantOne_mix (s : State) (start : Bool) (v : VoiceId) (w : Waiting) (ws : List Waiting) :
    (s.grantOne start v w ws).mix = { s.mix.give v w.layer with wait := ws } := by
  rw [State.grantOne_eq, State.armGranted_mix, State.granted_mix]

theorem State.grantOne_flags (s : State) (start : Bool) (v : VoiceId) (w : Waiting) (ws : List Waiting) (k : TrackId) :
    ((s.grantOne start v w ws).track k).mute = (s.track k).mute
      ∧ ((s.grantOne start v w ws).track k).oneShot = (s.track k).oneShot := by
  obtain ⟨h1, h2⟩ := State.armGranted_flags (s.granted start v w ws) w.layer k
  rw [State.track_congr (s.granted_tracks start v w ws)] at h1 h2
  exact ⟨h1, h2⟩

/-- A track's one-shot count is the one armed with the track's length. -/
def State.Armed (s : State) (k : TrackId) : Prop := (s.track k).remaining = s.trackFrames k

/-- A grant arms a one-shot track, or leaves its count. -/
theorem State.grantOne_remaining (s : State) (start : Bool) (v : VoiceId) (w : Waiting) (ws : List Waiting) (k : TrackId) :
    (s.grantOne start v w ws).Armed k
      ∨ ((s.grantOne start v w ws).track k).remaining = (s.track k).remaining := by
  have hg := s.granted_tracks start v w ws
  rw [State.grantOne_eq]
  generalize s.granted start v w ws = g at hg
  rw [← State.track_congr hg k]
  cases h : g.layer w.layer with
  | none => rw [State.armGranted_none h]; exact Or.inr rfl
  | some l =>
    rw [State.armGranted_some h]
    by_cases e : k = l.track
    · unfold State.Armed
      rw [(armOneShot_voicesOnly ..).trackFrames, e, State.track_armOneShot_same]
      split
      · exact Or.inl rfl
      · exact Or.inr rfl
    · exact Or.inr (by rw [State.track_armOneShot_other e])

theorem State.grantOne_armed {s : State} (start : Bool) (v : VoiceId) {w : Waiting} (ws : List Waiting) {l : Layer}
    (h : s.layer w.layer = some l) (ho : (s.track l.track).oneShot = true) :
    (s.grantOne start v w ws).Armed l.track := by
  have hg := s.granted_tracks start v w ws
  have hl := (granted_voicesOnly s start v w ws).layer w.layer
  rw [State.grantOne_eq]
  generalize s.granted start v w ws = g at hg hl
  rw [State.armGranted_some (hl.trans h)]
  unfold State.Armed
  rw [(armOneShot_voicesOnly ..).trackFrames, State.track_armOneShot_same, State.track_congr hg, if_pos ho]

/-! ### The grants of a pass -/

theorem State.grantLoop_succ {s : State} (start : Bool) (n : Nat) {v : VoiceId} {F : List VoiceId} {w : Waiting}
    {ws : List Waiting} (hF : s.mix.freeList = v :: F) (hw : s.mix.wait = w :: ws) :
    State.grantLoop start (n + 1) s = State.grantLoop start n (s.grantOne start v w ws) := by
  have hv : s.mix.freeVoice = some v := by rw [Mix.freeVoice_eq_head?, hF]; rfl
  rw [State.grantLoop, hv, hw]

theorem State.grantLoop_over {s : State} (start : Bool) (n : Nat) (h : s.mix.freeList = [] ∨ s.mix.wait = []) :
    State.grantLoop start n s = s := by
  cases n with
  | zero => rfl
  | succ n =>
    rw [State.grantLoop]
    rcases h with h | h
    · rw [Mix.freeVoice_eq_head?, h]; rfl
    · rw [h]
      cases s.mix.freeVoice <;> rfl

/-- The front n entries of the wait list get the first n of the FREE voices; the rest stays. -/
structure GrantsFirst (s t : State) (n : Nat) : Prop where
  only : VoicesOnly s t
  mute : ∀ k, (t.track k).mute = (s.track k).mute
  oneShot : ∀ k, (t.track k).oneShot = (s.track k).oneShot
  armed : ∀ k, t.Armed k ∨ (t.track k).remaining = (s.track k).remaining
  wait : t.mix.wait = s.mix.wait.drop n
  given : ∀ i w, i < n → s.mix.wait[i]? = some w → ∃ v, s.mix.freeList[i]? = some v ∧ t.mix.voices.get v = some w.layer
    ∧ ∀ l, s.layer w.layer = some l → (s.track l.track).oneShot = true → t.Armed l.track
  kept : ∀ v, v ∉ s.mix.freeList.take n → t.mix.voices.get v = s.mix.voices.get v
  fresh : ∀ x, x ∈ t.mix.fresh ↔ x ∈ s.mix.fresh ∨ ∃ w ∈ s.mix.wait.take n, w.layer = x

theorem GrantsFirst.zero (s : State) : GrantsFirst s s 0 where
  only := VoicesOnly.refl s
  mute _ := rfl
  oneShot _ := rfl
  armed _ := Or.inr rfl
  wait := rfl
  given _ _ h := absurd h (Nat.not_lt_zero _)
  kept _ _ := rfl
  fresh _ := by simp

theorem GrantsFirst.congr {s t u : State} {n : Nat} (g : GrantsFirst s t n) (h : VoicesOnly t u) (hm : u.mix = t.mix)
    (ht : u.tracks = t.tracks) : GrantsFirst s u n := by
  have hk : ∀ k, u.track k = t.track k := State.track_congr ht
  have ha : ∀ k, u.Armed k = t.Armed k := fun k => by unfold State.Armed; rw [h.trackFrames, hk]
  refine ⟨g.only.trans h, fun k => ?_, fun k => ?_, fun k => ?_, hm ▸ g.wait, fun i w hi hw => ?_, hm ▸ g.kept, hm ▸ g.fresh⟩
  · rw [hk, g.mute]
  · rw [hk, g.oneShot]
  · rw [ha, hk]; exact g.armed k
  · obtain ⟨v, h1, h2, h3⟩ := g.given i w hi hw
    exact ⟨v, h1, by rw [hm]; exact h2, fun l hl ho => by rw [ha]; exact h3 l hl ho⟩

theorem GrantsFirst.armed_of {s t : State} {n : Nat} (g : GrantsFirst s t n) {k : TrackId} (h : s.Armed k) : t.Armed k := by
  rcases g.armed k with e | e
  · exact e
  · unfold State.Armed at *
    rw [e, g.only.trackFrames, h]

theorem GrantsFirst.cons {s t : State} {start : Bool} {n : Nat} {v : VoiceId} {F : List VoiceId} {w : Waiting}
    {ws : List Waiting} (hF : s.mix.freeList = v :: F) (hw : s.mix.wait = w :: ws)
    (g : GrantsFirst (s.grantOne start v w ws) t n) : GrantsFirst s t (n + 1) := by
  have hmix := s.grantOne_mix start v w ws
  have honly := grantOne_voicesOnly s start v w ws
  have hflags := s.grantOne_flags start v w ws
  have hwait : (s.grantOne start v w ws).mix.wait = ws := by rw [hmix]
  have hfree : (s.grantOne start v w ws).mix.freeList = F := by
    rw [hmix]; exact Mix.freeList_give w.layer hF
  have hv : ∀ u, (s.grantOne start v w ws).mix.voices.get u = if u = v then some w.layer else s.mix.voices.get u := by
    rw [hmix]; exact fun u => Mix.voices_give ..
  have hnotin : v ∉ F := (List.nodup_cons.1 (hF ▸ s.mix.nodup_freeList)).1
  refine ⟨honly.trans g.only, fun k => (g.mute k).trans (hflags k).1, fun k => (g.oneShot k).trans (hflags k).2,
    fun k => ?_, ?_, fun i e hi he => ?_, fun u hu => ?_, fun x => ?_⟩
  · rcases s.grantOne_remaining start v w ws k with h | h
    · exact Or.inl (g.armed_of h)
    · exact (g.armed k).imp_right fun h' => h'.trans h
  · rw [g.wait, hwait, hw]; rfl
  · rw [hw] at he
    rw [hF]
    cases i with
    | zero =>
      have hwe : w = e := by simpa using he
      subst hwe
      refine ⟨v, rfl, ?_, fun l hl ho => g.armed_of (State.grantOne_armed start v ws hl ho)⟩
      rw [g.kept v fun h => hnotin (hfree ▸ List.mem_of_mem_take h), hv, if_pos rfl]
    | succ i =>
      obtain ⟨u, h1, h2, h3⟩ := g.given i e (Nat.lt_of_succ_lt_succ hi) (by rw [hwait]; exact he)
      rw [hfree] at h1
      exact ⟨u, h1, h2, fun l hl ho => h3 l ((honly.layer _).trans hl) ((hflags _).2.trans ho)⟩
  · rw [hF, List.take_succ_cons, List.mem_cons, not_or] at hu
    rw [g.kept u (by rw [hfree]; exact hu.2), hv, if_neg hu.1]
  · have hfresh : (s.grantOne start v w ws).mix.fresh = w.layer :: s.mix.fresh := by rw [hmix]; rfl
    rw [g.fresh, hwait, hfresh, hw, List.take_succ_cons]
    simp only [List.mem_cons, exists_eq_or_imp, eq_comm (a := x)]
    tauto

/-- A grant loop gives as many voices as its bound, the FREE voices and the wait list allow. -/
theorem grantLoop_grantsFirst (start : Bool) (n : Nat) (s : State) :
    GrantsFirst s (State.grantLoop start n s) (min n (min s.mix.freeList.length s.mix.wait.length)) := by
  induction n generalizing s with
  | zero => rw [Nat.zero_min]; exact GrantsFirst.zero s
  | succ n ih =>
    cases hF : s.mix.freeList with
    | nil =>
      rw [State.grantLoop_over start _ (Or.inl hF)]
      simpa using GrantsFirst.zero s
    | cons v F =>
      cases hw : s.mix.wait with
      | nil =>
        rw [State.grantLoop_over start _ (Or.inr hw)]
        simpa using GrantsFirst.zero s
      | cons w ws =>
        rw [State.grantLoop_succ start n hF hw]
        have h := ih (s.grantOne start v w ws)
        have hwait : (s.grantOne start v w ws).mix.wait = ws := by rw [State.grantOne_mix]
        have hfree : (s.grantOne start v w ws).mix.freeList = F := by
          rw [State.grantOne_mix]; exact Mix.freeList_give w.layer hF
        rw [hwait, hfree] at h
        have hlen : min (n + 1) (min (v :: F).length (w :: ws).length) = min n (min F.length ws.length) + 1 := by
          simp only [List.length_cons]; omega
        rw [hlen]
        exact h.cons hF hw

/-- A pass of 24 grants is bounded by the FREE voices and the wait list alone. -/
theorem grantPass_grantsFirst (start : Bool) (s : State) :
    GrantsFirst s (State.grantLoop start 24 s) (min s.mix.freeList.length s.mix.wait.length) := by
  have h := grantLoop_grantsFirst start 24 s
  rwa [Nat.min_eq_right ((Nat.min_le_left ..).trans s.mix.length_freeList)] at h

theorem GrantsFirst.voicesGranted {s t : State} (g : GrantsFirst s t (min s.mix.freeList.length s.mix.wait.length)) :
    VoicesGranted s t := by
  refine ⟨g.wait, fun i w hi hw => ?_, fun v hv => g.kept v fun h => ?_, g.fresh⟩
  · obtain ⟨v, h1, h2, h3⟩ := g.given i w hi hw
    refine ⟨v, h1, h2, fun l hl ho => ?_⟩
    rw [h3 l hl ho, g.only.trackFrames]
  · rcases hv with hv | hv
    · exact hv (List.mem_of_mem_take h)
    · exact List.disjoint_take_drop s.mix.nodup_freeList le_rfl h hv

/-! ### What a grant pass says of one layer -/

/-- A layer that waits before a grant pass waits or holds a voice behind it, and one that holds a voice keeps it. -/
theorem GrantsFirst.waits_or_voiced {s t : State} {n : Nat} (g : GrantsFirst s t n) {x : LayerId}
    (h : s.mix.waits x = true ∨ (s.mix.voiceOf x).isSome = true) :
    t.mix.waits x = true ∨ (t.mix.voiceOf x).isSome = true := by
  rcases h with h | h
  · obtain ⟨w, hw, rfl⟩ := Mix.waits_iff.1 h
    rw [← List.take_append_drop n s.mix.wait, List.mem_append] at hw
    rcases hw with hw | hw
    · obtain ⟨i, hi⟩ := List.getElem?_of_mem hw
      have hin : i < n := by
        by_contra hle
        rw [List.getElem?_take, if_neg hle] at hi
        exact absurd hi (by simp)
      rw [List.getElem?_take, if_pos hin] at hi
      obtain ⟨v, -, hv, -⟩ := g.given i w hin hi
      exact Or.inr (Mix.voiceOf_isSome.2 ⟨v, hv⟩)
    · exact Or.inl (Mix.waits_iff.2 ⟨w, g.wait ▸ hw, rfl⟩)
  · obtain ⟨v, hv⟩ := Mix.voiceOf_isSome.1 h
    refine Or.inr (Mix.voiceOf_isSome.2 ⟨v, ?_⟩)
    rw [g.kept v fun hm => ?_, hv]
    rw [Mix.mem_freeList.1 (List.mem_of_mem_take hm)] at hv
    exact absurd hv (by simp)

/-- A layer that holds a voice behind a grant pass held it ahead of it, or is heard from the next frame. -/
theorem GrantsFirst.held_or_fresh {s t : State} {n : Nat} (g : GrantsFirst s t n)
    (hn : n ≤ min s.mix.freeList.length s.mix.wait.length) {x : LayerId} {v : VoiceId}
    (h : t.mix.voices.get v = some x) : s.mix.voices.get v = some x ∨ x ∈ t.mix.fresh := by
  by_cases hm : v ∈ s.mix.freeList.take n
  · right
    obtain ⟨i, hi⟩ := List.getElem?_of_mem hm
    have hin : i < n := by
      by_contra hle
      rw [List.getElem?_take, if_neg hle] at hi
      exact absurd hi (by simp)
    rw [List.getElem?_take, if_pos hin] at hi
    have hw := List.getElem?_eq_getElem (l := s.mix.wait) ((hin.trans_le hn).trans_le (Nat.min_le_right ..))
    obtain ⟨u, h1, h2, -⟩ := g.given i _ hin hw
    have huv : u = v := Option.some.inj (h1.symm.trans hi)
    rw [huv, h] at h2
    rw [Option.some.inj h2]
    refine (g.fresh _).2 (Or.inr ⟨_, List.mem_of_getElem? (i := i) ?_, rfl⟩)
    rw [List.getElem?_take, if_pos hin, hw]
  · exact Or.inl ((g.kept v hm).symm.trans h)

end Sys2Proof.Machine
end

