-- ==== Sys2Proof/Proofs/Receivers.lean ====
section
/-! The receivers of a boundary: the click test, the grant pass, and the walk over the cues (R33, R57, R58, R136, R158). -/

namespace Sys2Proof.Machine

/-! ### The walk (R57, R58) -/

theorem scanCues_due {sat : Cue → Bool} {l : List Cue} (h : ∃ q ∈ l, sat q = true ∧ q.delay = 0) :
    (scanCues sat l).2 ≠ none := by
  induction l with
  | nil => simp at h
  | cons c l ih =>
    by_cases hc : sat c = true ∧ c.delay = 0
    · rw [scanCues, if_pos hc]; simp
    · rw [scanCues, if_neg hc]
      obtain ⟨q, hq, hs⟩ := h
      rcases List.mem_cons.1 hq with rfl | hq
      · exact absurd hs hc
      · exact ih ⟨q, hq, hs⟩

theorem scanCues_over {sat : Cue → Bool} {l : List Cue} (h : ∀ q ∈ l, sat q = true → q.delay ≠ 0) :
    scanCues sat l = (visitedCues sat l, none) := by
  induction l with
  | nil => rfl
  | cons c l ih =>
    have hl := ih fun q hq => h q (List.mem_cons_of_mem _ hq)
    unfold scanCues
    rw [if_neg fun hc => h c List.mem_cons_self hc.1 hc.2, hl]
    rfl

/-- The state with another cue list and place of the walk. -/
def State.walked (s : State) (l : List Cue) (walk : Option Nat) : State :=
  { s with cues := { s.cues with list := l }, bnd := { s.bnd with walk := walk } }

theorem walkFrom_eq_walked {s : State} {k : Kinds} {met : Cue → Bool} (i : Nat) (hk : s.bnd.taken = some k)
    (hmet : s.satisfies k = met) :
    ∃ l walk, s.walkFrom i = s.walked l walk ∧ WalkStands met s.cues.list l i walk := by
  have hscan : s.scanFrom i = scanCues met (s.cues.list.drop i) := by
    unfold State.scanFrom; rw [hk, ← hmet]
  by_cases h : ∃ q ∈ s.cues.list.drop i, met q = true ∧ q.delay = 0
  · refine ⟨s.cues.list, some i, ?_, fun _ => ⟨rfl, rfl⟩, fun h' => ?_⟩
    · have hne := scanCues_due h
      unfold State.walkFrom
      rw [hscan]
      cases he : scanCues met (s.cues.list.drop i) with
      | mk l o =>
        cases o with
        | none => rw [he] at hne; exact absurd rfl hne
        | some r => rfl
    · obtain ⟨q, hq, hm, hd⟩ := h
      exact absurd hd (h' q hq hm)
  · have h' : ∀ q ∈ s.cues.list.drop i, met q = true → q.delay ≠ 0 := fun q hq hm hd => h ⟨q, hq, hm, hd⟩
    refine ⟨s.cues.list.take i ++ visitedCues met (s.cues.list.drop i), none, ?_, fun e => absurd e h, fun _ => ⟨rfl, rfl⟩⟩
    unfold State.walkFrom
    rw [hscan, scanCues_over h']
    rfl

theorem cueMet_congr {k : Kinds} {span : TrackId → Option Span} {f g : TrackId → Nat}
    (h : ∀ n, span n ≠ none → f n = g n) : cueMet k span f = cueMet k span g := by
  funext q
  unfold cueMet
  cases q.grid with
  | track =>
    dsimp only
    congr 1
    split
    · next n _ =>
      cases hn : span n with
      | none => rfl
      | some sp => rw [h n (by simp [hn])]
    · rfl
  | _ => rfl

/-- The cues that a boundary satisfies, with the pass index with which a track leaves the instant (R57). -/
theorem satisfies_eq_cueMet (s : State) (k : Kinds) :
    s.satisfies k = cueMet k (fun n => (s.track n).span) s.leavingPass := by
  funext q
  unfold State.satisfies cueMet State.trackBoundary
  cases q.grid with
  | track =>
    rfl
  | _ => rfl

/-- Once a boundary is taken, a track leaves its instant with the pass index it has. -/
theorem leavingPass_of_taken {s : State} {n : TrackId} (h : s.clock.dividerSet = true) (hm : s.clock.startMark = .none)
    (hs : (s.track n).span ≠ none) : s.leavingPass n = (s.track n).pass := by
  have ha : s.loopAhead = false := by simp [State.loopAhead, State.barAhead, State.tickDue, h]
  unfold State.leavingPass
  rw [hm, if_neg (by simp), ha]
  cases hsp : (s.track n).span with
  | none => exact absurd hsp hs
  | some sp => rfl

theorem satisfies_of_taken {s : State} (k : Kinds) (h : s.clock.dividerSet = true) (hm : s.clock.startMark = .none) :
    s.satisfies k = cueMet k (fun n => (s.track n).span) fun n => (s.track n).pass :=
  (satisfies_eq_cueMet s k).trans (cueMet_congr fun _ hn => leavingPass_of_taken h hm hn)

/-- The start of a walk: it waits for the scene step, or it stands or is over (R58). -/
theorem startWalk_eq_walked {s : State} {k : Kinds} {met : Cue → Bool} (hk : s.bnd.taken = some k)
    (hmet : s.satisfies k = met) :
    ∃ l walk, s.startWalk = s.walked l walk
      ∧ (s.bnd.sceneStep ≠ none → walk = some 0 ∧ l = s.cues.list)
      ∧ (s.bnd.sceneStep = none → WalkStands met s.cues.list l 0 walk) := by
  unfold State.startWalk
  cases h : s.bnd.sceneStep with
  | some c => exact ⟨s.cues.list, some 0, rfl, fun _ => ⟨rfl, rfl⟩, fun e => absurd e (by simp)⟩
  | none =>
    obtain ⟨l, walk, h1, h2⟩ := walkFrom_eq_walked 0 hk hmet
    exact ⟨l, walk, h1, fun e => absurd rfl e, fun _ => h2⟩

/-! ### The click test (R158) -/

theorem headsBusy_ne_zero {s : State} : s.headsBusy ≠ 0 ↔ s.head0 ≠ none ∨ s.head1 ≠ none := by
  unfold State.headsBusy
  cases s.head0 <;> cases s.head1 <;> simp

theorem ClickMode.allows_iff {mode : ClickMode} {mark : Transport} {busy : Bool} :
    mode.allows mark busy = true ↔
      (mark = .countIn ∧ mode ≠ .off) ∨ (mark = .running ∧ (mode = .always ∨ (mode = .recording ∧ busy = true))) := by
  cases mode <;> cases mark <;> simp [ClickMode.allows]

/-- A click test that is due (R158). -/
theorem clickTest_some {s : State} {c : ClickTest} (h : s.bnd.click = some c) :
    s.clickTest = { s with bnd := { s.bnd with click := none }, tones := clickTested s s.bnd.mark c s.tones } := by
  have ha : (c.mode.allows s.bnd.mark (s.headsBusy ≠ 0) = true) =
      ((s.bnd.mark = .countIn ∧ c.mode ≠ .off)
        ∨ (s.bnd.mark = .running ∧ (c.mode = .always ∨ (c.mode = .recording ∧ (s.head0 ≠ none ∨ s.head1 ≠ none))))) := by
    rw [← headsBusy_ne_zero, eq_iff_iff, ClickMode.allows_iff, decide_eq_true_iff]
  unfold State.clickTest
  rw [h]
  dsimp only
  unfold clickTested
  rw [if_congr ha.to_iff rfl rfl]
  split <;> rfl

theorem clickTest_none {s : State} (h : s.bnd.click = none) : s.clickTest = s := by
  unfold State.clickTest; rw [h]

/-- The click of a boundary asked for, and tested at once or left for later. -/
def State.clickMade (s : State) (beat click : Bool) : State :=
  { s with
    tones := if beat = true ∧ click = true then clickTested s s.bnd.mark (clickAsked s s.clock.beat) s.tones else s.tones
    bnd := { s.bnd with click := if beat = true ∧ click = false then some (clickAsked s s.clock.beat) else none } }

theorem clickTest_setClickTest (s : State) (beat click : Bool) :
    (if click = true then (s.setClickTest beat).clickTest else s.setClickTest beat) = s.clickMade beat click := by
  cases beat with
  | false =>
    rw [clickTest_none (s := s.setClickTest false) rfl, ite_self]
    unfold State.clickMade
    simp [State.setClickTest]
  | true =>
    cases click with
    | false => rfl
    | true => rw [if_pos rfl, clickTest_some (c := clickAsked s s.clock.beat) rfl]; rfl

theorem clickTested_congr {r s : State} (h0 : r.head0 = none ↔ s.head0 = none) (h1 : r.head1 = none ↔ s.head1 = none) :
    clickTested r = clickTested s := by
  funext mark c tones
  unfold clickTested
  simp only [ne_eq, h0, h1]

/-- The click of a boundary that has counted the tones, in terms of the state ahead of it. -/
theorem clickMade_eq {r s : State} {mark : Transport} {b : Nat} (beat click : Bool) (hm : r.bnd.mark = mark)
    (hb : r.clock.beat = b) (ht : r.tones = tonesTicked s.tones) (h0 : r.head0 = none ↔ s.head0 = none)
    (h1 : r.head1 = none ↔ s.head1 = none) :
    r.clickMade beat click =
      { r with
        tones := if beat = true ∧ click = true then clickTested s mark (clickAsked s b) (tonesTicked s.tones)
          else tonesTicked s.tones
        bnd := { r.bnd with click := if beat = true ∧ click = false then some (clickAsked s b) else none } } := by
  have ha : clickAsked r r.clock.beat = clickAsked s b := by
    unfold clickAsked; rw [ht, hb]; rfl
  unfold State.clickMade
  rw [ha, hm, ht, clickTested_congr h0 h1]

/-! ### The receivers of a boundary (R33) -/

theorem recorderAtBar_idle {s : State} {h : HeadId} (e : s.head h = none) : s.recorderAtBar h = s := by
  unfold State.recorderAtBar; rw [e]

/-- The receivers, with the recorder's own ends left for later or no head busy, and the claims not named. -/
theorem receive_eq {s : State} {now : Receivers} (hr : now.recorder = true → s.head0 = none ∧ s.head1 = none)
    (hc : now.claims = false) :
    s.receive now = if now.grant = true then (if now.click = true then s.clickTest else s).grantPass
      else if now.click = true then s.clickTest else s := by
  have hp : s.placeClaims now = s := by unfold State.placeClaims; rw [hc]; rfl
  have hb : (if now.recorder = true then (s.recorderAtBar .h0).recorderAtBar .h1 else s) = s := by
    split
    · next h =>
      obtain ⟨h0, h1⟩ := hr h
      rw [recorderAtBar_idle (h := .h0) h0, recorderAtBar_idle (h := .h1) h1]
    · rfl
  unfold State.receive
  dsimp only
  rw [hp, hb]

theorem receive_setClickTest {s : State} {now : Receivers} (beat : Bool)
    (hr : now.recorder = true → s.head0 = none ∧ s.head1 = none) (hc : now.claims = false) :
    (s.setClickTest beat).receive now =
      if now.grant = true then (s.clickMade beat now.click).grantPass else s.clickMade beat now.click := by
  rw [receive_eq (s := s.setClickTest beat) hr hc, clickTest_setClickTest]

/-! ### The grant pass (R136, R137) -/

/-- No grant pass is due, or the one that was is made. -/
def State.grantTaken (s : State) : State := { s with bnd := { s.bnd with grant := .none } }

theorem grantPass_none {s : State} (h : s.bnd.grant = .none) : s.grantPass = s := by
  unfold State.grantPass; rw [h]

theorem grantPass_normal {s : State} (h : s.bnd.grant = .normal) :
    s.grantPass = State.grantLoop false 24 s.grantTaken := by
  unfold State.grantPass; rw [h]; rfl

theorem grantPass_start {s : State} (h : s.bnd.grant = .start) :
    s.grantPass = (State.grantLoop true 24 s.grantTaken).reportStillWaiting := by
  unfold State.grantPass; rw [h]; rfl

theorem reportStillWaiting_voicesOnly (s : State) : VoicesOnly s s.reportStillWaiting := by
  unfold State.reportStillWaiting
  refine VoicesOnly.foldl (fun s w => ?_) _ s
  split
  · exact report_voicesOnly ..
  · exact VoicesOnly.refl s

/-- A fold of steps that each leave a part of the state leaves it. -/
theorem foldl_leaves {α β : Type} (part : State → β) {f : State → α → State} (h : ∀ s x, part (f s x) = part s) (l : List α)
    (s : State) : part (l.foldl f s) = part s := by
  induction l generalizing s with
  | nil => rfl
  | cons x l ih => exact (ih _).trans (h s x)

theorem reportStillWaiting_mix (s : State) : s.reportStillWaiting.mix = s.mix := by
  refine foldl_leaves State.mix (fun s w => ?_) _ s
  split
  · exact State.report_mix ..
  · rfl

theorem reportStillWaiting_tracks (s : State) : s.reportStillWaiting.tracks = s.tracks := by
  refine foldl_leaves State.tracks (fun s w => ?_) _ s
  split
  · exact State.report_tracks ..
  · rfl

/-- A grant pass that is due gives voices to the front of the wait list, and is then no longer due. -/
theorem grantPass_grants {s : State} (h : s.bnd.grant ≠ .none) :
    GrantsFirst s.grantTaken s.grantPass (min s.mix.freeList.length s.mix.wait.length) := by
  cases hg : s.bnd.grant with
  | none => exact absurd hg h
  | normal => rw [grantPass_normal hg]; exact grantPass_grantsFirst false s.grantTaken
  | start =>
    rw [grantPass_start hg]
    have g := grantPass_grantsFirst true s.grantTaken
    exact g.congr (reportStillWaiting_voicesOnly _) (reportStillWaiting_mix _) (reportStillWaiting_tracks _)

theorem grantTaken_eq {s : State} (h : s.bnd.grant = .none) : s.grantTaken = s := by
  unfold State.grantTaken; rw [← h]

theorem grantPass_voicesOnly (s : State) : VoicesOnly s.grantTaken s.grantPass := by
  by_cases h : s.bnd.grant = .none
  · rw [grantPass_none h, grantTaken_eq h]; exact VoicesOnly.refl s
  · exact (grantPass_grants h).only

end Sys2Proof.Machine
end

