-- ==== Sys2Proof/Proofs/Boundaries.lean ====
section
/-! TICK_BOUNDARY (R10, R30, R31, R33, R45, R136, R147, R158). -/

namespace Sys2Proof.Machine

/-! ### The counters (R31) -/

/-- The TICK boundary carries a BEAT. -/
def Clock.beatDue (c : Clock) : Bool := decide (47 ≤ c.tick)

/-- The TICK boundary carries a BAR. -/
def Clock.barDue (c : Clock) : Bool := c.beatDue && decide (c.b ≤ c.beat + 1)

/-- A BAR boundary here carries a LOOP: no L, its last bar, or L established at this instant (R34). -/
def Clock.loopWraps (c : Clock) : Bool :=
  match c.loop with
  | none => true
  | some l => decide (l ≤ c.bar + 1) || c.loopSet

theorem Clock.loopWraps_none {c : Clock} (h : c.loop = none) : c.loopWraps = true := by
  unfold Clock.loopWraps; rw [h]

theorem Clock.loopWraps_some {c : Clock} {l : Nat} (h : c.loop = some l) :
    c.loopWraps = (decide (l ≤ c.bar + 1) || c.loopSet) := by
  unfold Clock.loopWraps; rw [h]

/-- The TICK boundary carries a LOOP. -/
def Clock.loopDue (c : Clock) : Bool := c.barDue && c.loopWraps

/-- The beat behind the boundary. -/
def Clock.nextBeat (c : Clock) : Nat := if c.barDue then 0 else if c.beatDue then c.beat + 1 else c.beat

/-- The counters behind a boundary while RUNNING. -/
def Clock.counted (c : Clock) : Clock :=
  { c with
    tick := if c.beatDue then 0 else c.tick + 1
    beat := c.nextBeat
    songBar := if c.barDue then c.songBar + 1 else c.songBar
    bar := if c.loopDue then 0 else if c.barDue then c.bar + 1 else c.bar
    loopPos := if c.loopDue then 0 else c.loopPos }

theorem Clock.tickRunning_eq (c : Clock) :
    c.tickRunning = (c.counted, { beat := c.beatDue, bar := c.barDue, loop := c.loopDue }) := by
  unfold Clock.tickRunning Clock.counted Clock.nextBeat Clock.loopDue
  by_cases h1 : c.tick < 47
  · have hbeat : c.beatDue = false := by simp [Clock.beatDue, h1]
    have hbar : c.barDue = false := by simp [Clock.barDue, hbeat]
    rw [if_pos h1, hbeat, hbar]
    rfl
  · have hbeat : c.beatDue = true := by simpa [Clock.beatDue] using h1
    rw [if_neg h1, hbeat]
    by_cases h2 : c.beat + 1 < c.b
    · have hbar : c.barDue = false := by simp [Clock.barDue, h2]
      rw [if_pos h2, hbar]
      rfl
    · have hbar : c.barDue = true := by simpa [Clock.barDue, hbeat] using h2
      rw [if_neg h2, hbar, Bool.true_and]
      cases hl : c.loop with
      | none => rw [Clock.loopWraps_none hl]; rfl
      | some l =>
        dsimp only
        by_cases h3 : c.bar + 1 < l ∧ c.loopSet = false
        · have hw : c.loopWraps = false := by simpa [Clock.loopWraps_some hl] using h3
          rw [if_pos h3, hw]
          rfl
        · have hw : c.loopWraps = true := by
            rw [Clock.loopWraps_some hl]
            by_contra hn
            exact h3 (by simpa using hn)
          rw [if_neg h3, hw]
          rfl

theorem Clock.tickCountIn_eq (c : Clock) :
    c.tickCountIn =
      ({ c with
          tick := if c.beatDue then 0 else c.tick + 1
          beat := c.nextBeat
          countIn := if c.barDue then c.countIn - 1 else c.countIn },
        { beat := c.beatDue, bar := c.barDue, loop := false }) := by
  unfold Clock.tickCountIn Clock.nextBeat
  by_cases h1 : c.tick < 47
  · have hbeat : c.beatDue = false := by simp [Clock.beatDue, h1]
    have hbar : c.barDue = false := by simp [Clock.barDue, hbeat]
    rw [if_pos h1, hbeat, hbar]
    rfl
  · have hbeat : c.beatDue = true := by simpa [Clock.beatDue] using h1
    rw [if_neg h1, hbeat]
    by_cases h2 : c.beat + 1 < c.b
    · have hbar : c.barDue = false := by simp [Clock.barDue, h2]
      rw [if_pos h2, hbar]
      rfl
    · have hbar : c.barDue = true := by simpa [Clock.barDue, hbeat] using h2
      rw [if_neg h2, hbar]
      rfl

/-! ### The tones and the heads -/

theorem Tones.tick_eq (t : Tones) : t.tick = tonesTicked t := by
  have hslot : t.tickSlot = fun sl =>
      { sl with ticks := sl.ticks - 1, lastSilent := if sl.ticks = 2 then !t.keepsSound sl else sl.lastSilent } := by
    funext sl
    unfold Tones.tickSlot
    by_cases h : sl.ticks = 2
    · simp [h]
    · have : sl.ticks - 1 ≠ 1 := by omega
      simp [h, this]
  unfold Tones.tick tonesTicked
  rw [hslot]
  unfold Tones.keepsSound
  cases t.queue <;> rfl

theorem markHeads_eq (s : State) :
    s.markHeads = { s with
      head0 := s.head0.map fun r => { r with atBar := true }, head1 := s.head1.map fun r => { r with atBar := true } } := rfl

/-! ### A boundary while RUNNING -/

/-- The marks of a boundary while RUNNING for its receivers: the counters, the tones, the pass indices, and at a BAR boundary
the heads, the scene sequencer and the grant pass. -/
def State.runningMarked (s : State) : State :=
  let c := s.clock
  { s with
    clock := { c.counted with divider := c.p - 1, dividerSet := true, loopSet := false }
    tones := tonesTicked s.tones
    tracks := if c.loopDue = true ∧ c.loopSet = false then s.tracks.map Track.advancePass else s.tracks
    head0 := s.head0.map fun r => if c.barDue then { r with atBar := true } else r
    head1 := s.head1.map fun r => if c.barDue then { r with atBar := true } else r
    scenes := if c.barDue then s.scenes.countdown else s.scenes
    bnd :=
      { taken := some { beat := c.beatDue, bar := c.barDue, loop := c.loopDue }, mark := .running
        toneLoad := s.tones.loadPending && s.tones.slot.isNone
        grant := if c.barDue then .normal else .none
        sceneStep := if c.barDue then s.scenes.stepDue c.loopDue else none
        tempo := c.barDue && c.pendingTempo.isSome } }

/-- A boundary while RUNNING, ahead of its marks for the receivers of a BAR. -/
def State.runningTicked (s : State) : State :=
  let s1 := State.tickCommon { s with clock := s.clock.counted }
    { beat := s.clock.beatDue, bar := s.clock.barDue, loop := s.clock.loopDue } .running
  if s.clock.loopDue && !s.clock.loopSet then s1.advancePasses else s1

theorem runningTicked_eq (s : State) :
    s.runningTicked =
      { s with
        clock := { s.clock.counted with divider := s.clock.p - 1, dividerSet := true, loopSet := false }
        tones := tonesTicked s.tones
        tracks := if s.clock.loopDue = true ∧ s.clock.loopSet = false then s.tracks.map Track.advancePass else s.tracks
        bnd :=
          { taken := some { beat := s.clock.beatDue, bar := s.clock.barDue, loop := s.clock.loopDue }, mark := .running
            toneLoad := s.tones.loadPending && s.tones.slot.isNone } } := by
  unfold State.runningTicked State.tickCommon
  dsimp only
  rw [Tones.tick_eq]
  by_cases h : s.clock.loopDue = true ∧ s.clock.loopSet = false
  · rw [if_pos h, if_pos (by simpa using h)]; rfl
  · rw [if_neg h, if_neg (by simpa using h)]; rfl

theorem Clock.loopDue_of_no_bar {c : Clock} (h : c.barDue = false) : c.loopDue = false := by
  unfold Clock.loopDue; rw [h]; rfl

theorem runningMarked_bar {s : State} (h : s.clock.barDue = true) :
    s.runningMarked = s.runningTicked.markBar s.clock.loopDue := by
  rw [runningTicked_eq]
  unfold State.markBar State.runningMarked
  rw [markHeads_eq]
  dsimp only
  rw [h]
  rfl

theorem runningMarked_no_bar {s : State} (h : s.clock.barDue = false) : s.runningMarked = s.runningTicked := by
  rw [runningTicked_eq]
  unfold State.runningMarked
  dsimp only
  rw [h]
  simp

/-- The BAR report of a boundary while RUNNING, unless the scene step comes first. -/
def State.runningReported (s : State) : State :=
  if s.clock.barDue then s.runningMarked.barReportNow else s.runningMarked

theorem takeRunning_eq {s : State} {now : Receivers} (hr : now.recorder = true → s.head0 = none ∧ s.head1 = none)
    (hc : now.claims = false) :
    s.takeRunning now =
      (if now.grant = true then (s.runningReported.clickMade s.clock.beatDue now.click).grantPass
        else s.runningReported.clickMade s.clock.beatDue now.click).startWalk := by
  have hmark : (if s.clock.barDue = true then (s.runningTicked.markBar s.clock.loopDue).barReportNow else s.runningTicked)
      = s.runningReported := by
    unfold State.runningReported
    cases h : s.clock.barDue with
    | true => rw [runningMarked_bar h]; rfl
    | false => rw [runningMarked_no_bar h]; rfl
  have he : s.takeRunning now
      = (((if s.clock.barDue = true then (s.runningTicked.markBar s.clock.loopDue).barReportNow
          else s.runningTicked).setClickTest s.clock.beatDue).receive now).startWalk := by
    unfold State.takeRunning
    rw [Clock.tickRunning_eq]
    rfl
  rw [he, hmark, receive_setClickTest _ (fun h => ?_) hc]
  obtain ⟨h0, h1⟩ := hr h
  have hm : s.runningMarked.head0 = none ∧ s.runningMarked.head1 = none := by
    unfold State.runningMarked
    rw [h0, h1]
    exact ⟨rfl, rfl⟩
  unfold State.runningReported State.barReportNow State.reportBar
  split_ifs
  · exact hm
  · rw [State.report_head0, State.report_head1]; exact hm
  · exact hm

theorem runningReported_voicesOnly (s : State) : VoicesOnly s.runningMarked s.runningReported :=
  VoicesOnly.ite (VoicesOnly.ite (VoicesOnly.refl _) (report_voicesOnly ..)) (VoicesOnly.refl _)

theorem barReportNow_mix_tracks (s : State) : s.barReportNow.mix = s.mix ∧ s.barReportNow.tracks = s.tracks := by
  unfold State.barReportNow State.reportBar
  split
  · exact ⟨rfl, rfl⟩
  · exact ⟨State.report_mix .., State.report_tracks ..⟩

theorem runningReported_mix_tracks (s : State) :
    s.runningReported.mix = s.mix ∧ s.runningReported.tracks = s.runningMarked.tracks := by
  unfold State.runningReported
  split
  · exact barReportNow_mix_tracks _
  · exact ⟨rfl, rfl⟩

/-- A report's link does not depend on more than the state's link and supervisor. -/
theorem reportWith_link_congr {s u : State} (hd : List Byte) (r : Report) (p : List Byte) (hs : u.sup = s.sup)
    (hl : u.link = s.link) : (u.reportWith hd r p).link = (s.reportWith hd r p).link := by
  unfold State.reportWith State.reportEnabled State.send
  rw [hs, hl]
  split_ifs <;> simp [hl]

theorem countdown_current (q : Sequencer) : q.countdown.current = q.current := by
  unfold Sequencer.countdown; split <;> rfl

theorem runningReported_link (s : State) :
    s.runningReported.link =
      if s.clock.barDue = true ∧ s.runningMarked.bnd.sceneStep = none then
        (s.reportWith (le2 s.clock.counted.songBar.toNat ++ [0]) .bar
          [byte s.clock.counted.bar, optNumByte s.scenes.current]).link
      else s.link := by
  unfold State.runningReported
  cases hb : s.clock.barDue with
  | false => rfl
  | true =>
    rw [if_pos rfl]
    unfold State.barReportNow
    cases hs : s.runningMarked.bnd.sceneStep with
    | some c => rfl
    | none =>
      have hbeat : s.clock.counted.beat = 0 := by
        unfold Clock.counted Clock.nextBeat; rw [hb]; rfl
      have hcur : s.runningMarked.scenes.current = s.scenes.current := by
        unfold State.runningMarked
        dsimp only
        rw [hb]
        exact countdown_current _
      have hhead : s.runningMarked.header = le2 s.clock.counted.songBar.toNat ++ [0] := by
        have hcb : s.runningMarked.header = le2 s.clock.counted.songBar.toNat ++ [byte s.clock.counted.beat] := rfl
        rw [hcb, hbeat]
        rfl
      have hrep : (if (none : Option SceneStep).isSome = true then s.runningMarked else s.runningMarked.reportBar)
          = s.runningMarked.reportWith s.runningMarked.header .bar
              [byte s.clock.counted.bar, optNumByte s.runningMarked.scenes.current] := rfl
      rw [hrep, hhead, hcur]
      exact reportWith_link_congr _ _ _ rfl rfl

/-! ### What a boundary while RUNNING leaves -/

/-- The state behind the receivers of a boundary while RUNNING, ahead of its walk. -/
def State.runningReceived (s : State) (now : Receivers) : State :=
  if now.grant = true then (s.runningReported.clickMade s.clock.beatDue now.click).grantPass
  else s.runningReported.clickMade s.clock.beatDue now.click

/-- The click and the grant pass of a boundary while RUNNING, as its receivers leave them. -/
def State.runningLeft (s : State) (now : Receivers) : State :=
  { s.runningReported with
    tones := if s.clock.beatDue = true ∧ now.click = true then
        clickTested s .running (clickAsked s s.clock.nextBeat) (tonesTicked s.tones)
      else tonesTicked s.tones
    bnd := { s.runningMarked.bnd with
      click := if s.clock.beatDue = true ∧ now.click = false then some (clickAsked s s.clock.nextBeat) else none
      grant := if s.clock.barDue = true ∧ now.grant = false then .normal else .none } }

theorem runningClicked_eq (s : State) (now : Receivers) :
    s.runningReported.clickMade s.clock.beatDue now.click =
      { s.runningReported with
        tones := if s.clock.beatDue = true ∧ now.click = true then
            clickTested s .running (clickAsked s s.clock.nextBeat) (tonesTicked s.tones)
          else tonesTicked s.tones
        bnd := { s.runningMarked.bnd with
          click := if s.clock.beatDue = true ∧ now.click = false then some (clickAsked s s.clock.nextBeat) else none } } := by
  have h := runningReported_voicesOnly s
  rw [clickMade_eq (s := s) (mark := .running) (b := s.clock.nextBeat) _ _ (by rw [h.bnd]; rfl) (by rw [h.clock]; rfl)
    (by rw [h.tones]; rfl) (by rw [h.head0]; exact Option.map_eq_none_iff) (by rw [h.head1]; exact Option.map_eq_none_iff),
    h.bnd]

theorem runningLeft_eq (s : State) (now : Receivers) :
    s.runningLeft now = if now.grant = true then (s.runningReported.clickMade s.clock.beatDue now.click).grantTaken
      else s.runningReported.clickMade s.clock.beatDue now.click := by
  rw [runningClicked_eq]
  unfold State.runningLeft
  cases hg : now.grant with
  | true => simp [State.grantTaken]
  | false =>
    have hm : s.runningMarked.bnd.grant = if s.clock.barDue then .normal else .none := rfl
    simp [hm]

theorem runningReceived_voicesOnly (s : State) (now : Receivers) :
    VoicesOnly (s.runningLeft now) (s.runningReceived now) := by
  rw [runningLeft_eq]
  unfold State.runningReceived
  split
  · exact grantPass_voicesOnly _
  · exact VoicesOnly.refl _

/-- With no grant pass of this boundary to make, the receivers change no voice. -/
theorem runningReceived_no_pass {s : State} {now : Receivers} (h : ¬(s.clock.barDue = true ∧ now.grant = true)) :
    s.runningReceived now = s.runningLeft now := by
  rw [runningLeft_eq]
  unfold State.runningReceived
  cases hg : now.grant with
  | false => rfl
  | true =>
    have hn : (s.runningReported.clickMade s.clock.beatDue now.click).bnd.grant = .none := by
      rw [runningClicked_eq]
      have hm : s.runningMarked.bnd.grant = if s.clock.barDue then .normal else .none := rfl
      have hb : s.clock.barDue = false := by simpa [hg] using h
      show s.runningMarked.bnd.grant = .none
      rw [hm, hb]
      rfl
    rw [if_pos rfl, if_pos rfl, grantPass_none hn, grantTaken_eq hn]

theorem runningReceived_pass {s : State} {now : Receivers} (hb : s.clock.barDue = true) (hg : now.grant = true) :
    GrantsFirst (s.runningLeft now) (s.runningReceived now) (min s.mix.freeList.length s.mix.wait.length) := by
  have hn : (s.runningReported.clickMade s.clock.beatDue now.click).bnd.grant ≠ .none := by
    rw [runningClicked_eq]
    have hm : s.runningMarked.bnd.grant = if s.clock.barDue then .normal else .none := rfl
    show s.runningMarked.bnd.grant ≠ .none
    rw [hm, hb]
    simp
  have hmix : (s.runningReported.clickMade s.clock.beatDue now.click).mix = s.mix := by
    rw [runningClicked_eq]; exact (runningReported_mix_tracks s).1
  have g := grantPass_grants hn
  rw [hmix] at g
  rw [runningLeft_eq, if_pos hg]
  unfold State.runningReceived
  rwa [if_pos hg]

/-- With no layer waiting the receivers change no voice. -/
theorem runningReceived_no_wait {s : State} {now : Receivers} (hw : s.mix.wait = []) :
    s.runningReceived now = s.runningLeft now := by
  by_cases h : s.clock.barDue = true ∧ now.grant = true
  · obtain ⟨hb, hg⟩ := h
    have hn : (s.runningReported.clickMade s.clock.beatDue now.click).bnd.grant = .normal := by
      rw [runningClicked_eq]
      have hm : s.runningMarked.bnd.grant = if s.clock.barDue then .normal else .none := rfl
      show s.runningMarked.bnd.grant = .normal
      rw [hm, hb]
      rfl
    have hwait : (s.runningReported.clickMade s.clock.beatDue now.click).grantTaken.mix.wait = [] := by
      rw [runningClicked_eq]
      exact (congrArg Mix.wait (runningReported_mix_tracks s).1).trans hw
    rw [runningLeft_eq, if_pos hg]
    unfold State.runningReceived
    rw [if_pos hg, grantPass_normal hn, State.grantLoop_over _ _ (Or.inr hwait)]
  · exact runningReceived_no_pass h

theorem VoicesGranted.congr {s v t : State} (h : VoicesGranted v t) (hm : v.mix = s.mix) (hl : v.layers = s.layers)
    (ho : ∀ k, (v.track k).oneShot = (s.track k).oneShot) (hf : ∀ k, v.trackFrames k = s.trackFrames k) :
    VoicesGranted s t := by
  unfold VoicesGranted at *
  simpa only [hm, ho, hf, State.layer_congr hl] using h

theorem track_runningMarked (s : State) (k : TrackId) :
    s.runningMarked.track k =
      if s.clock.loopDue = true ∧ s.clock.loopSet = false then (s.track k).advancePass else s.track k := by
  unfold State.runningMarked State.track
  dsimp only
  split
  · exact Vector.getElem_map ..
  · rfl

theorem Track.advancePass_none {r : Track} (h : r.span = none) : r.advancePass = { r with passSet := false } := by
  unfold Track.advancePass; rw [h]

theorem Track.advancePass_some {r : Track} {sp : Span} (h : r.span = some sp) :
    r.advancePass = if r.passSet then { r with passSet := false } else { r with pass := (r.pass + 1) % sp.loops } := by
  unfold Track.advancePass; rw [h]

/-- The advance of the pass indices changes a track's pass index alone, and the mark that it is set ahead (R10). -/
theorem Track.advancePass_eq (r : Track) :
    r.advancePass = { r with pass := r.advancePass.pass, passSet := r.advancePass.passSet } := by
  cases h : r.span with
  | none => rw [Track.advancePass_none h, ← h]
  | some sp => rw [Track.advancePass_some h]; split <;> rw [← h]

theorem track_runningMarked_eq (s : State) (k : TrackId) :
    s.runningMarked.track k = { s.track k with
      pass := (s.runningMarked.track k).pass, passSet := (s.runningMarked.track k).passSet } := by
  rw [track_runningMarked]
  split
  · exact Track.advancePass_eq _
  · rfl

theorem track_runningLeft (s : State) (now : Receivers) (k : TrackId) :
    (s.runningLeft now).track k = s.runningMarked.track k :=
  State.track_congr (s := s.runningMarked) (runningReported_mix_tracks s).2 k

theorem runningReceived_mute (s : State) (now : Receivers) (k : TrackId) :
    ((s.runningReceived now).track k).mute = (s.track k).mute := by
  have hl : ((s.runningLeft now).track k).mute = (s.track k).mute := by
    rw [track_runningLeft, track_runningMarked_eq]
  by_cases h : s.clock.barDue = true ∧ now.grant = true
  · obtain ⟨hb, hg⟩ := h
    rw [(runningReceived_pass hb hg).mute, hl]
  · rw [runningReceived_no_pass h, hl]

theorem runningReceived_granted {s : State} {now : Receivers} (hb : s.clock.barDue = true) (hg : now.grant = true) :
    VoicesGranted s (s.runningReceived now) := by
  have hmix : (s.runningLeft now).mix = s.mix := (runningReported_mix_tracks s).1
  have hlayers : (s.runningLeft now).layers = s.layers := (runningReported_voicesOnly s).layers
  have hclock : (s.runningLeft now).clock = s.runningMarked.clock := (runningReported_voicesOnly s).clock
  have hframes : ∀ k, (s.runningLeft now).trackFrames k = s.trackFrames k := fun k => by
    unfold State.trackFrames
    rw [track_runningLeft, track_runningMarked_eq, hclock]
    rfl
  have g := runningReceived_pass hb hg
  rw [← hmix] at g
  exact g.voicesGranted.congr hmix hlayers (fun k => by rw [track_runningLeft, track_runningMarked_eq]) hframes

theorem stepDue_eq (q : Sequencer) (loop : Bool) :
    q.stepDue loop = if q.current ≠ none ∧ q.bars = .count 1 then some .countdownEnd
      else if loop = true ∧ q.due ≠ none then some .dueApply else none := by
  obtain ⟨table, current, bars, due, slot⟩ := q
  cases current with
  | none => simp [Sequencer.stepDue, Option.isSome_iff_ne_none]
  | some n =>
    match bars with
    | .count 1 => simp [Sequencer.stepDue]
    | .count 0 | .count (n + 2) | .stay => simp [Sequencer.stepDue, Option.isSome_iff_ne_none]

theorem countdown_zero {q : Sequencer} (h : q.bars = .count 0) : q.countdown = q := by
  unfold Sequencer.countdown; rw [h]; cases q.current <;> rfl

theorem countdown_succ {q : Sequencer} {n : Nat} (h : q.bars = .count (n + 1)) :
    q.countdown = { q with bars := if q.current.isSome then .count n else .count (n + 1) } := by
  obtain ⟨table, current, bars, due, slot⟩ := q
  obtain rfl : bars = .count (n + 1) := h
  cases current <;> rfl

theorem countdown_stay {q : Sequencer} (h : q.bars = .stay) : q.countdown = q := by
  unfold Sequencer.countdown; rw [h]; cases q.current <;> rfl

/-- The boundary in progress behind its receivers while RUNNING. -/
theorem runningLeft_bnd (s : State) (now : Receivers) :
    (s.runningLeft now).bnd =
      { taken := some { beat := s.clock.beatDue, bar := s.clock.barDue, loop := s.clock.loopDue }, mark := .running
        grant := if s.clock.barDue = true ∧ now.grant = false then .normal else .none
        click := if s.clock.beatDue = true ∧ now.click = false then some (clickAsked s s.clock.nextBeat) else none
        tempo := s.clock.barDue && s.clock.pendingTempo.isSome
        sceneStep :=
          if s.clock.barDue = true ∧ s.scenes.current ≠ none ∧ s.scenes.bars = .count 1 then some .countdownEnd
          else if s.clock.loopDue = true ∧ s.scenes.due ≠ none then some .dueApply else none
        toneLoad := s.tones.loadPending && s.tones.slot.isNone } := by
  unfold State.runningLeft State.runningMarked
  dsimp only
  cases hb : s.clock.barDue with
  | true => simp [stepDue_eq]
  | false => simp [Clock.loopDue_of_no_bar hb]

/-- The countdown of a boundary counts at a BAR boundary alone (R147). -/
theorem runningMarked_scenes (s : State) :
    s.runningMarked.scenes = if s.clock.barDue then s.scenes.countdown else s.scenes := rfl

/-- The link behind a boundary while RUNNING that gives no voice: the BAR report, unless the scene step comes first. -/
theorem runningReceived_link {s : State} {now : Receivers}
    (h : s.clock.barDue = false ∨ now.grant = false ∨ s.mix.wait = []) :
    (s.runningReceived now).link =
      if s.clock.barDue = true ∧ (s.runningLeft now).bnd.sceneStep = none then
        (s.reportWith (le2 s.clock.counted.songBar.toNat ++ [0]) .bar
          [byte s.clock.counted.bar, optNumByte s.scenes.current]).link
      else s.link := by
  have he : s.runningReceived now = s.runningLeft now := by
    rcases h with h | h | h
    · exact runningReceived_no_pass (by simp [h])
    · exact runningReceived_no_pass (by simp [h])
    · exact runningReceived_no_wait h
  rw [he]
  exact runningReported_link s

/-- A track behind a boundary while RUNNING (R10). -/
theorem runningReceived_track (s : State) (now : Receivers) (k : TrackId) :
    ((s.runningReceived now).track k).span = (s.track k).span
      ∧ ((s.runningReceived now).track k).stack = (s.track k).stack
      ∧ ((s.runningReceived now).track k).mute = (s.track k).mute
      ∧ ((s.runningReceived now).track k).redo = (s.track k).redo
      ∧ ((s.runningReceived now).track k).pass = (s.runningMarked.track k).pass := by
  have hv := runningReceived_voicesOnly s now
  have hl := track_runningLeft s now k
  rw [hv.span, hv.stack, runningReceived_mute, hv.redo, hv.pass, hl]
  refine ⟨?_, ?_, rfl, ?_, rfl⟩ <;> rw [track_runningMarked_eq]

/-! ### Which boundary is taken -/

theorem tickDue_of {s : State} (h : s.sup.state = .ready) (hd : s.clock.divider = 0) (hs : s.clock.dividerSet = false) :
    s.tickDue = true := by
  simp [State.tickDue, h, hd, hs]

theorem takeTick_stopped {s : State} {now : Receivers} (hd : s.tickDue = true) (hm : s.clock.startMark = .none)
    (ht : s.clock.transport = .stopped) (hc : now.claims = false) :
    s.takeTick now = s.tickCommon { beat := false, bar := false, loop := false } .stopped := by
  unfold State.takeTick State.takeStopped State.placeClaims
  rw [if_pos hd, hm, if_neg (by simp), ht, hc]
  rfl

theorem takeTick_countIn {s : State} {now : Receivers} (hd : s.tickDue = true) (hm : s.clock.startMark = .none)
    (ht : s.clock.transport = .countIn) (he : s.countInEnds = false) : s.takeTick now = s.takeCountIn now := by
  unfold State.takeTick
  rw [if_pos hd, hm, if_neg (by simp), ht, he]
  rfl

theorem takeTick_running {s : State} {now : Receivers} (hd : s.tickDue = true) (hm : s.clock.startMark = .none)
    (ht : s.clock.transport = .running) : s.takeTick now = s.takeRunning now := by
  unfold State.takeTick
  rw [if_pos hd, hm, if_neg (by simp), ht]

theorem takeTick_later {s : State} {now : Receivers} (hd : s.tickDue = false) (hr : s.isReady = true) :
    s.takeTick now = s.endBegunWalk.receive now := by
  unfold State.takeTick
  rw [if_neg (by simp [hd]), if_pos hr]

/-- A TICK boundary in COUNT_IN, ahead of its receivers. -/
def State.countInTicked (s : State) : State :=
  { s with
    clock := { s.clock with
      divider := s.clock.p - 1, dividerSet := true, loopSet := false
      tick := if s.clock.beatDue then 0 else s.clock.tick + 1
      beat := s.clock.nextBeat, countIn := if s.clock.barDue then s.clock.countIn - 1 else s.clock.countIn }
    tones := tonesTicked s.tones
    bnd :=
      { taken := some { beat := s.clock.beatDue, bar := s.clock.barDue, loop := false }, mark := .countIn
        tempo := s.clock.barDue && s.clock.pendingTempo.isSome
        toneLoad := s.tones.loadPending && s.tones.slot.isNone } }

theorem takeCountIn_ticked (s : State) (now : Receivers) :
    s.takeCountIn now = (s.countInTicked.setClickTest s.clock.beatDue).receive now := by
  unfold State.takeCountIn State.tickCommon State.countInTicked
  rw [Clock.tickCountIn_eq]
  dsimp only
  rw [Tones.tick_eq]

/-- A TICK boundary in COUNT_IN that does not end it. -/
theorem takeCountIn_eq {s : State} {now : Receivers} (hr : now.recorder = true → s.head0 = none ∧ s.head1 = none)
    (hc : now.claims = false) :
    s.takeCountIn now =
      { s with
        clock := { s.clock with
          divider := s.clock.p - 1, dividerSet := true, loopSet := false
          tick := if s.clock.beatDue then 0 else s.clock.tick + 1
          beat := s.clock.nextBeat, countIn := if s.clock.barDue then s.clock.countIn - 1 else s.clock.countIn }
        tones := if s.clock.beatDue = true ∧ now.click = true then
            clickTested s .countIn (clickAsked s s.clock.nextBeat) (tonesTicked s.tones)
          else tonesTicked s.tones
        bnd :=
          { taken := some { beat := s.clock.beatDue, bar := s.clock.barDue, loop := false }, mark := .countIn
            click := if s.clock.beatDue = true ∧ now.click = false then some (clickAsked s s.clock.nextBeat) else none
            tempo := s.clock.barDue && s.clock.pendingTempo.isSome
            toneLoad := s.tones.loadPending && s.tones.slot.isNone } } := by
  have hclick := clickMade_eq (r := s.countInTicked) (s := s) (mark := .countIn) (b := s.clock.nextBeat) s.clock.beatDue
    now.click rfl rfl rfl Iff.rfl Iff.rfl
  have hpass : (s.countInTicked.clickMade s.clock.beatDue now.click).grantPass
      = s.countInTicked.clickMade s.clock.beatDue now.click := grantPass_none rfl
  rw [takeCountIn_ticked, receive_setClickTest (s := s.countInTicked) _ hr hc, hpass, ite_self, hclick]
  rfl

theorem countInEnds_false {s : State} (h : ¬(s.clock.barDue = true ∧ s.clock.countIn ≤ 1)) : s.countInEnds = false := by
  unfold State.countInEnds
  by_contra hn
  simp only [Bool.not_eq_false, Bool.and_eq_true, decide_eq_true_eq] at hn
  obtain ⟨⟨⟨-, htick⟩, hbeat⟩, hcount⟩ := hn
  refine h ⟨?_, hcount⟩
  unfold Clock.barDue Clock.beatDue
  simp [htick, hbeat]

/-- A receiver that acts later in the frame, a begun walk finished first. -/
theorem tickBoundary_later {w : State} {now : Receivers} (h : w.sup.state = .ready) (hd : w.tickDue = false) :
    exec (.tickBoundary now) w = .next (w.settleWalk.receive now) := by
  have hsup : w.beginHead.sup = w.sup := (beginHead_keeps w).sup
  have hclock : w.beginHead.clock.divider = w.clock.divider ∧ w.beginHead.clock.dividerSet = w.clock.dividerSet := by
    rw [(beginHead_stays w).clock]; exact ⟨rfl, rfl⟩
  have hdue : w.beginHead.tickDue = false := by
    unfold State.tickDue at *
    rw [hsup, hclock.1, hclock.2, hd]
  have hready : w.beginHead.isReady = true := by
    unfold State.isReady; rw [hsup, h]; rfl
  exact congrArg Host.Outcome.next (takeTick_later hdue hready)

/-- Settles O52: the receivers of a boundary are `runningReceived` and `takeCountIn_eq`, its walk `startWalk_eq_walked`, and
those that act later in the frame `clickTest_some` and `grantPass_grants`. -/
theorem boundariesCountTheSong : Obligations.BoundariesCountTheSong := by
  refine ⟨?_, ?_⟩
  · intro w now s hready hdiv hset hmark hrec hclaims
    have hdue : s.tickDue = true := tickDue_of hready hdiv hset
    have hexec : exec (.tickBoundary now) w = .next (s.takeTick now) := rfl
    clear_value s
    intro c beat bar loop beatNow tested asked load
    refine ⟨fun ht => ?_, fun ht he => ?_, fun ht => ?_⟩
    · rw [hexec, takeTick_stopped hdue hmark ht hclaims]
      unfold State.tickCommon
      rw [Tones.tick_eq]
    · rw [hexec, takeTick_countIn hdue hmark ht (countInEnds_false he), takeCountIn_eq hrec hclaims]
      rfl
    · have hv := runningReceived_voicesOnly s now
      have hrep := runningReported_voicesOnly s
      have hbnd := hv.bnd.trans (runningLeft_bnd s now)
      have hclock : (s.runningReceived now).clock = s.runningMarked.clock := hv.clock.trans hrep.clock
      have htaken : (s.runningReceived now).bnd.taken = some { beat := beat, bar := bar, loop := loop } := by
        rw [hbnd]; rfl
      obtain ⟨l, walk, hstart, hwalk0, hwalk⟩ := startWalk_eq_walked htaken
        (satisfies_of_taken _ (by rw [hclock]; rfl) (by rw [hclock]; exact hmark))
      rw [hv.cues.trans hrep.cues] at hwalk0 hwalk
      refine ⟨(s.runningReceived now).walked l walk, ?_, ?_, ?_, ?_, ?_, fun k => ?_, ?_, ?_, ?_, ?_, ?_, ?_, ?_, ?_, ?_,
        ?_, ?_, ?_⟩
      · rw [hexec, takeTick_running hdue hmark ht, takeRunning_eq hrec hclaims, ← hstart]
        rfl
      · exact hclock
      · exact congrArg (fun b : Boundary => { b with walk := walk }) hbnd
      · exact hv.head0.trans hrep.head0
      · exact hv.head1.trans hrep.head1
      · obtain ⟨h1, h2, h3, h4, h5⟩ := runningReceived_track s now k
        refine ⟨h1, h2, h3, h4, h5.trans ?_⟩
        rw [track_runningMarked]
        cases hsp : (s.track k).span with
        | none => split <;> simp [Track.advancePass_none hsp]
        | some sp =>
          rw [Track.advancePass_some hsp]
          by_cases hl : s.clock.loopDue = true ∧ s.clock.loopSet = false
          · rw [if_pos hl]
            cases hp : (s.track k).passSet with
            | true => exact (if_neg (by simp)).symm
            | false => exact (if_pos ⟨hl.1, hl.2, rfl⟩).symm
          · rw [if_neg hl]
            exact (if_neg fun h => hl ⟨h.1, h.2.1⟩).symm
      · refine (hv.scenes.trans hrep.scenes).trans ((runningMarked_scenes s).trans ?_)
        change (if bar = true then s.scenes.countdown else s.scenes) = _
        generalize s.scenes = q
        generalize bar = onBar
        obtain ⟨table, current, bars, due, slot⟩ := q
        match bars with
        | .count 0 => rw [countdown_zero rfl, ite_self]
        | .stay => rw [countdown_stay rfl, ite_self]
        | .count (n + 1) =>
          rw [countdown_succ rfl]
          cases onBar <;> simp
      · exact hv.tones
      · split
        · next h => exact runningReceived_granted h.1 h.2
        · next h => exact (congrArg State.mix (runningReceived_no_pass h)).trans (runningReported_mix_tracks s).1
      · intro h
        have hstep : ((s.runningReceived now).walked l walk).bnd.sceneStep = (s.runningLeft now).bnd.sceneStep :=
          (congrArg Boundary.sceneStep hv.bnd :)
        have hwalked : ((s.runningReceived now).walked l walk).clock = s.runningMarked.clock := hclock
        rw [hstep, hwalked]
        exact runningReceived_link h
      · exact hv.layers.trans hrep.layers
      · exact hv.mem.trans hrep.mem
      · exact hv.pool.trans hrep.pool
      · exact hv.bounce.trans hrep.bounce
      · exact hv.sup.trans hrep.sup
      · exact (congrArg CueQueue.nextId (hv.cues.trans hrep.cues) :)
      · intro h
        obtain ⟨hw, hl⟩ := hwalk0 h
        refine ⟨hw, ?_⟩
        rw [hl]
        exact congrArg (fun q : CueQueue => { q with list := s.cues.list }) (hv.cues.trans hrep.cues)
      · exact hwalk
  · intro w h hd s
    refine ⟨fun c hc => ?_, fun hg => ?_⟩
    · have he : exec (.tickBoundary { recorder := false, grant := false, click := true, claims := false }) w
          = .next s.clickTest := tickBoundary_later h hd
      rw [he, clickTest_some hc]
    · have he : exec (.tickBoundary { recorder := false, grant := true, click := false, claims := false }) w
          = .next s.grantPass := tickBoundary_later h hd
      have g : GrantsFirst s.grantTaken s.grantPass _ := grantPass_grants (by rw [hg]; simp)
      have hv := g.only
      exact ⟨s.grantPass, he, g.voicesGranted.congr rfl rfl (fun _ => rfl) (fun _ => rfl), hv.bnd, hv.clock, hv.layers,
        hv.cues, hv.mem, hv.pool, hv.sup⟩

end Sys2Proof.Machine
end

