-- ==== Sys2Proof/Proofs/StartInstant.lean ====
section
/-! COUNT_IN_BEGIN, START_INSTANT and COUNT_IN_END (R20, R33, R40, R41, R137, R158). -/

namespace Sys2Proof.Machine

/-- What one step of a fold establishes and every step keeps holds behind a fold that makes that step. -/
theorem foldl_reaches {α : Type} {f : State → α → State} {I P : State → Prop} {x : α} (hI : ∀ s y, I s → I (f s y))
    (hP : ∀ s, I s → P (f s x)) (hkeep : ∀ s y, I s → P s → P (f s y)) (l : List α) (hx : x ∈ l) (s : State) (h : I s) :
    P (l.foldl f s) := by
  have hafter : ∀ (l : List α) (s : State), I s → P s → P (l.foldl f s) := by
    intro l
    induction l with
    | nil => exact fun s _ hp => hp
    | cons y l ih => exact fun s hi hp => ih _ (hI s y hi) (hkeep s y hi hp)
  induction l generalizing s with
  | nil => simp at hx
  | cons y l ih =>
    rcases List.mem_cons.1 hx with rfl | hx
    · exact hafter l _ (hI s x h) (hP s h)
    · exact ih hx _ (hI s y h)

theorem foldl_invariant {α : Type} {f : State → α → State} {I : State → Prop} (hI : ∀ s y, I s → I (f s y)) (l : List α)
    (s : State) (h : I s) : I (l.foldl f s) := by
  induction l generalizing s with
  | nil => exact h
  | cons y l ih => exact ih _ (hI s y h)

/-! ### The joins of the start instant (R137) -/

/-- From s to u layers join the wait list, and nothing else changes. -/
structure JoinsOnly (s u : State) : Prop where
  same : u = { s with mix := { s.mix with wait := u.mix.wait } }
  waits : ∀ x, s.mix.waits x = true → u.mix.waits x = true

theorem JoinsOnly.refl (s : State) : JoinsOnly s s := ⟨rfl, fun _ h => h⟩

theorem JoinsOnly.trans {s t u : State} (h : JoinsOnly s t) (k : JoinsOnly t u) : JoinsOnly s u :=
  ⟨k.same.trans (by rw [h.same]), fun x hx => k.waits x (h.waits x hx)⟩

theorem JoinsOnly.voicesOnly {s u : State} (h : JoinsOnly s u) : VoicesOnly s u := by
  rw [h.same]; exact mix_voicesOnly s _ rfl

theorem JoinsOnly.tracks {s u : State} (h : JoinsOnly s u) : u.tracks = s.tracks := (congrArg State.tracks h.same :)

theorem JoinsOnly.voices {s u : State} (h : JoinsOnly s u) : u.mix.voices = s.mix.voices :=
  (congrArg (fun v : State => v.mix.voices) h.same :)

theorem JoinsOnly.fresh {s u : State} (h : JoinsOnly s u) : u.mix.fresh = s.mix.fresh :=
  (congrArg (fun v : State => v.mix.fresh) h.same :)

theorem JoinsOnly.voiceOf {s u : State} (h : JoinsOnly s u) (x : LayerId) : u.mix.voiceOf x = s.mix.voiceOf x := by
  unfold Mix.voiceOf; rw [h.voices]

theorem JoinsOnly.audible {s u : State} (h : JoinsOnly s u) (t : TrackId) (x : LayerId) : u.audible t x = s.audible t x :=
  h.voicesOnly.audible x (by rw [State.track_congr h.tracks])

/-- The layer waits for a voice or holds one. -/
def State.Served (s : State) (x : LayerId) : Prop := s.mix.waits x = true ∨ (s.mix.voiceOf x).isSome = true

theorem JoinsOnly.served {s u : State} (h : JoinsOnly s u) {x : LayerId} (hx : s.Served x) : u.Served x :=
  hx.imp (h.waits x) fun hv => by rw [h.voiceOf, hv]

theorem joinWait_joinsOnly (s : State) (x : LayerId) : JoinsOnly s (s.joinWait x) :=
  ⟨rfl, fun y hy => by
    obtain ⟨w, hw, rfl⟩ := Mix.waits_iff.1 hy
    exact Mix.waits_iff.2 ⟨w, State.mem_joinWait.2 (Or.inl hw), rfl⟩⟩

theorem joinWait_served (s : State) (x : LayerId) : (s.joinWait x).Served x :=
  Or.inl (Mix.waits_iff.2 ⟨_, State.mem_joinWait.2 (Or.inr rfl), rfl⟩)

/-- One layer's join at the start instant. -/
def State.joinLayer (t : TrackId) (s : State) (x : LayerId) : State :=
  if s.audible t x = true ∧ s.mix.waits x = false ∧ (s.mix.voiceOf x).isNone = true then s.joinWait x else s

theorem joinTrack_eq (s : State) (t : TrackId) : s.joinTrack t = (s.track t).stack.foldl (State.joinLayer t) s := rfl

theorem joinLayer_joinsOnly (t : TrackId) (s : State) (x : LayerId) : JoinsOnly s (s.joinLayer t x) := by
  unfold State.joinLayer
  split
  · exact joinWait_joinsOnly s x
  · exact JoinsOnly.refl s

theorem joinLayer_served {t : TrackId} {s : State} {x : LayerId} (h : s.audible t x = true) : (s.joinLayer t x).Served x := by
  unfold State.joinLayer
  split
  · exact joinWait_served s x
  · next hn =>
    unfold State.Served
    by_contra hc
    simp only [not_or, Bool.not_eq_true, Option.isSome_eq_false_iff] at hc
    exact hn ⟨h, hc⟩

theorem joinTrack_joinsOnly (s : State) (t : TrackId) : JoinsOnly s (s.joinTrack t) :=
  foldl_invariant (I := JoinsOnly s) (fun _ x h => h.trans (joinLayer_joinsOnly t _ x)) _ s (JoinsOnly.refl s)

theorem joinTrack_served {s : State} {t : TrackId} {x : LayerId} (hx : x ∈ (s.track t).stack) (h : s.audible t x = true) :
    (s.joinTrack t).Served x :=
  foldl_reaches (I := JoinsOnly s) (P := fun u => u.Served x) (fun _ y hu => hu.trans (joinLayer_joinsOnly t _ y))
    (fun _ hu => joinLayer_served (by rw [hu.audible, h])) (fun _ y _ hp => (joinLayer_joinsOnly t _ y).served hp) _ hx s
    (JoinsOnly.refl s)

theorem joinTracks_joinsOnly (s : State) : JoinsOnly s ((List.finRange 8).foldl State.joinTrack s) :=
  foldl_invariant (I := JoinsOnly s) (fun _ t h => h.trans (joinTrack_joinsOnly _ t)) _ s (JoinsOnly.refl s)

theorem joinTracks_served {s : State} {t : TrackId} {x : LayerId} (hx : x ∈ (s.track t).stack) (h : s.audible t x = true) :
    ((List.finRange 8).foldl State.joinTrack s).Served x :=
  foldl_reaches (I := JoinsOnly s) (P := fun u => u.Served x) (x := t) (fun _ j hu => hu.trans (joinTrack_joinsOnly _ j))
    (fun u hu => joinTrack_served (s := u) (by rw [State.track_congr hu.tracks]; exact hx) (by rw [hu.audible, h]))
    (fun _ j _ hp => (joinTrack_joinsOnly _ j).served hp) _ (List.mem_finRange t) s (JoinsOnly.refl s)

/-! ### The arming of the start instant (R20) -/

/-- From s to u one-shot tracks are armed, and nothing else changes. -/
structure ArmsTracks (s u : State) : Prop where
  only : VoicesOnly s u
  mix : u.mix = s.mix
  mute : ∀ k, (u.track k).mute = (s.track k).mute
  oneShot : ∀ k, (u.track k).oneShot = (s.track k).oneShot

theorem ArmsTracks.refl (s : State) : ArmsTracks s s := ⟨VoicesOnly.refl s, rfl, fun _ => rfl, fun _ => rfl⟩

theorem ArmsTracks.trans {s t u : State} (h : ArmsTracks s t) (k : ArmsTracks t u) : ArmsTracks s u :=
  ⟨h.only.trans k.only, k.mix.trans h.mix, fun j => (k.mute j).trans (h.mute j), fun j => (k.oneShot j).trans (h.oneShot j)⟩

theorem armAtStart_armsTracks (s : State) (t : TrackId) : ArmsTracks s (s.armAtStart t) := by
  unfold State.armAtStart
  split
  · exact ⟨armOneShot_voicesOnly .., State.armOneShot_mix .., State.armOneShot_mute s t, State.armOneShot_oneShot s t⟩
  · exact ArmsTracks.refl s

theorem armAtStart_armed {s : State} {t : TrackId} (ha : s.trackAudible t = true) (ho : (s.track t).oneShot = true) :
    (s.armAtStart t).Armed t := by
  unfold State.armAtStart State.Armed
  rw [if_pos ha, (armOneShot_voicesOnly ..).trackFrames, State.track_armOneShot_same, if_pos ho]

theorem armAtStart_keeps_armed {s : State} {k : TrackId} (t : TrackId) (h : s.Armed k) : (s.armAtStart t).Armed k := by
  unfold State.armAtStart
  split
  · unfold State.Armed at *
    rw [(armOneShot_voicesOnly ..).trackFrames]
    by_cases e : k = t
    · rw [e] at h ⊢
      rw [State.track_armOneShot_same]
      split
      · rfl
      · exact h
    · rw [State.track_armOneShot_other e, h]
  · exact h

theorem armTracks_armsTracks (s : State) : ArmsTracks s ((List.finRange 8).foldl State.armAtStart s) :=
  foldl_invariant (I := ArmsTracks s) (fun _ t h => h.trans (armAtStart_armsTracks _ t)) _ s (ArmsTracks.refl s)

theorem armTracks_armed {s : State} {k : TrackId} (ha : s.trackAudible k = true) (ho : (s.track k).oneShot = true) :
    ((List.finRange 8).foldl State.armAtStart s).Armed k :=
  foldl_reaches (I := ArmsTracks s) (P := fun u => u.Armed k) (x := k) (fun _ t h => h.trans (armAtStart_armsTracks _ t))
    (fun _ h => armAtStart_armed (by rw [h.only.trackAudible (h.mute k), ha]) (by rw [h.oneShot, ho]))
    (fun _ t _ hp => armAtStart_keeps_armed t hp) _ (List.mem_finRange k) s (ArmsTracks.refl s)

/-! ### The start instant, receiver by receiver -/

/-- The start instant's boundary, with every pass index 0 (R10, R33). -/
def State.startTicked (s : State) : State := s.zeroPasses.tickCommon { beat := true, bar := true, loop := true } .running

theorem startTicked_eq (s : State) :
    s.startTicked =
      { s with
        clock := { s.clock with divider := s.clock.p - 1, dividerSet := true, loopSet := false }
        tracks := s.tracks.map fun r => { r with pass := 0, passSet := false }
        tones := tonesTicked s.tones
        bnd :=
          { taken := some { beat := true, bar := true, loop := true }, mark := .running
            toneLoad := s.tones.loadPending && s.tones.slot.isNone } } := by
  unfold State.startTicked State.tickCommon State.zeroPasses
  dsimp only
  rw [Tones.tick_eq]

theorem track_startTicked (s : State) (k : TrackId) :
    s.startTicked.track k = { s.track k with pass := 0, passSet := false } := Vector.getElem_map ..

/-- The joins of the start instant made. -/
def State.startJoined (s : State) : State := (List.finRange 8).foldl State.joinTrack s.startTicked

/-- The joins and the arming of the start instant made. -/
@[irreducible] def State.startArmed (s : State) : State := (List.finRange 8).foldl State.armAtStart s.startJoined

theorem startJoined_joins (s : State) : JoinsOnly s.startTicked s.startJoined := joinTracks_joinsOnly _

theorem startArmed_arms (s : State) : ArmsTracks s.startJoined s.startArmed := by
  unfold State.startArmed; exact armTracks_armsTracks _

theorem startArmed_voicesOnly (s : State) : VoicesOnly s.startTicked s.startArmed :=
  (startJoined_joins s).voicesOnly.trans (startArmed_arms s).only

theorem track_startJoined (s : State) (k : TrackId) :
    s.startJoined.track k = { s.track k with pass := 0, passSet := false } := by
  rw [State.track_congr (startJoined_joins s).tracks, track_startTicked]

theorem startArmed_mute (s : State) (k : TrackId) : (s.startArmed.track k).mute = (s.track k).mute := by
  rw [(startArmed_arms s).mute, track_startJoined]

theorem startArmed_oneShot (s : State) (k : TrackId) : (s.startArmed.track k).oneShot = (s.track k).oneShot := by
  rw [(startArmed_arms s).oneShot, track_startJoined]

theorem startArmed_voices (s : State) : s.startArmed.mix.voices = s.mix.voices := by
  rw [(startArmed_arms s).mix, (startJoined_joins s).voices, startTicked_eq]

theorem startArmed_served {s : State} {k : TrackId} {x : LayerId} (hx : x ∈ (s.track k).stack)
    (h : s.startArmed.audible k x = true) : s.startArmed.Served x := by
  have hmute : (s.startArmed.track k).mute = (s.startTicked.track k).mute := by
    rw [startArmed_mute, track_startTicked]
  rw [(startArmed_voicesOnly s).audible x hmute] at h
  have hs : s.startJoined.Served x := joinTracks_served (s := s.startTicked) (by rw [track_startTicked]; exact hx) h
  unfold State.Served at *
  rwa [(startArmed_arms s).mix]

theorem startArmed_armed {s : State} {k : TrackId} (ha : s.startArmed.trackAudible k = true)
    (ho : (s.track k).oneShot = true) : s.startArmed.Armed k := by
  have he : s.startArmed = (List.finRange 8).foldl State.armAtStart s.startJoined := by unfold State.startArmed; rfl
  rw [he]
  refine armTracks_armed (s := s.startJoined) ?_ ?_
  · rw [← (startArmed_arms s).only.trackAudible ((startArmed_arms s).mute k), ha]
  · rw [track_startJoined]; exact ho

/-- The start instant's marks for its receivers. -/
def State.startMarked (s : State) : State :=
  let a := s.startArmed
  { a with
    head0 := a.head0.map fun r => { r with atBar := true }
    head1 := a.head1.map fun r => { r with atBar := true }
    bnd := { a.bnd with
      grant := .start, tempo := s.clock.pendingTempo.isSome, click := some (a.tones.testAt a.clock.beat) } }

theorem startNow_eq {s : State} {now : Receivers} (hr : now.recorder = true → s.head0 = none ∧ s.head1 = none)
    (hc : now.claims = false) :
    s.startNow now =
      (if now.grant = true then
          (if now.click = true then s.startMarked.reportBar.clickTest else s.startMarked.reportBar).grantPass
        else if now.click = true then s.startMarked.reportBar.clickTest else s.startMarked.reportBar).startWalk := by
  have he : s.startNow now = (s.startMarked.reportBar.receive now).startWalk := by
    unfold State.startNow State.startMarked State.startArmed State.startJoined State.startTicked
    dsimp only
    generalize (List.finRange 8).foldl State.armAtStart _ = a
    rfl
  have hv := startArmed_voicesOnly s
  rw [he, receive_eq (fun h => ?_) hc]
  obtain ⟨h0, h1⟩ := hr h
  unfold State.reportBar State.startMarked
  rw [State.report_head0, State.report_head1]
  dsimp only
  rw [hv.head0, hv.head1, startTicked_eq]
  dsimp only
  rw [h0, h1]
  exact ⟨rfl, rfl⟩

theorem reportBar_voicesOnly (s : State) : VoicesOnly s s.reportBar := report_voicesOnly ..

/-- The click test of the start instant made, or left for later. -/
def State.startClicked (s : State) (now : Receivers) : State :=
  if now.click = true then s.startMarked.reportBar.clickTest else s.startMarked.reportBar

theorem startMarked_heads (s : State) :
    s.startMarked.head0 = s.head0.map (fun r => { r with atBar := true })
      ∧ s.startMarked.head1 = s.head1.map (fun r => { r with atBar := true }) := by
  have hv := startArmed_voicesOnly s
  unfold State.startMarked
  dsimp only
  rw [hv.head0, hv.head1, startTicked_eq]
  exact ⟨rfl, rfl⟩

theorem startMarked_tones (s : State) : s.startMarked.tones = tonesTicked s.tones :=
  (startArmed_voicesOnly s).tones.trans (by rw [startTicked_eq])

theorem startMarked_clock (s : State) :
    s.startMarked.clock = { s.clock with divider := s.clock.p - 1, dividerSet := true, loopSet := false } :=
  (startArmed_voicesOnly s).clock.trans (by rw [startTicked_eq])

theorem startMarked_bnd (s : State) :
    s.startMarked.bnd =
      { taken := some { beat := true, bar := true, loop := true }, mark := .running
        toneLoad := s.tones.loadPending && s.tones.slot.isNone
        grant := .start, tempo := s.clock.pendingTempo.isSome, click := some (clickAsked s s.clock.beat) } := by
  have hv := startArmed_voicesOnly s
  have hb : s.startMarked.bnd = { s.startArmed.bnd with
      grant := .start, tempo := s.clock.pendingTempo.isSome
      click := some (s.startArmed.tones.testAt s.startArmed.clock.beat) } := rfl
  rw [hb, hv.bnd, hv.tones, hv.clock, startTicked_eq]
  rfl

theorem startClicked_eq (s : State) (now : Receivers) :
    s.startClicked now =
      { s.startMarked.reportBar with
        tones := if now.click then clickTested s .running (clickAsked s s.clock.beat) (tonesTicked s.tones)
          else tonesTicked s.tones
        bnd := { s.startMarked.bnd with click := if now.click then none else some (clickAsked s s.clock.beat) } } := by
  have hv := reportBar_voicesOnly s.startMarked
  have hbnd : s.startMarked.reportBar.bnd = s.startMarked.bnd := hv.bnd
  have htones : s.startMarked.reportBar.tones = tonesTicked s.tones := hv.tones.trans (startMarked_tones s)
  unfold State.startClicked
  cases hc : now.click with
  | false =>
    have hclick : s.startMarked.bnd = { s.startMarked.bnd with click := some (clickAsked s s.clock.beat) } := by
      rw [startMarked_bnd]
    rw [if_neg (by simp), if_neg (by simp), if_neg (by simp), ← hclick, ← htones, ← hbnd]
  | true =>
    have hclick : s.startMarked.reportBar.bnd.click = some (clickAsked s s.clock.beat) := by
      rw [hbnd, startMarked_bnd]
    have hmark : s.startMarked.bnd.mark = .running := by rw [startMarked_bnd]
    have hheads := startMarked_heads s
    have htest : clickTested s.startMarked.reportBar = clickTested s :=
      clickTested_congr (by rw [hv.head0, hheads.1]; exact Option.map_eq_none_iff)
        (by rw [hv.head1, hheads.2]; exact Option.map_eq_none_iff)
    rw [if_pos rfl, if_pos rfl, if_pos rfl, clickTest_some hclick, htest, htones, hbnd, hmark]

/-- The state behind the receivers of the start instant, ahead of its walk. -/
def State.startReceived (s : State) (now : Receivers) : State :=
  if now.grant = true then (s.startClicked now).grantPass else s.startClicked now

/-- The same, but for the voices that its grant pass gives. -/
def State.startLeft (s : State) (now : Receivers) : State :=
  if now.grant = true then (s.startClicked now).grantTaken else s.startClicked now

theorem startClicked_voicesOnly (s : State) (now : Receivers) :
    VoicesOnly { s.startMarked with bnd := (s.startClicked now).bnd, tones := (s.startClicked now).tones }
      (s.startClicked now) := by
  have hv := reportBar_voicesOnly s.startMarked
  rw [startClicked_eq]
  exact ⟨by rw [hv.same], hv.mix, hv.track⟩

theorem startReceived_grants (s : State) (now : Receivers) :
    ∃ n, n ≤ min s.startArmed.mix.freeList.length s.startArmed.mix.wait.length
      ∧ GrantsFirst (s.startLeft now) (s.startReceived now) n := by
  unfold State.startLeft State.startReceived
  split
  · have hn : (s.startClicked now).bnd.grant ≠ .none := by
      rw [startClicked_eq, startMarked_bnd]; simp
    have hmix : (s.startClicked now).mix = s.startArmed.mix := by
      rw [startClicked_eq]
      exact State.report_mix ..
    have g := grantPass_grants hn
    rw [hmix] at g
    exact ⟨_, le_rfl, g⟩
  · exact ⟨0, Nat.zero_le _, GrantsFirst.zero _⟩

theorem startNow_eq_startWalk {s : State} {now : Receivers} (hr : now.recorder = true → s.head0 = none ∧ s.head1 = none)
    (hc : now.claims = false) : s.startNow now = (s.startReceived now).startWalk := startNow_eq hr hc

theorem startLeft_eq (s : State) (now : Receivers) :
    s.startLeft now = { s.startClicked now with
      bnd := { (s.startClicked now).bnd with grant := if now.grant then .none else .start } } := by
  have hg : (s.startClicked now).bnd.grant = .start := by rw [startClicked_eq, startMarked_bnd]
  unfold State.startLeft
  split
  · rfl
  · rw [← hg]

theorem startLeft_voicesOnly (s : State) (now : Receivers) :
    VoicesOnly { s.startMarked with bnd := (s.startLeft now).bnd, tones := (s.startLeft now).tones } (s.startLeft now) := by
  have hv := startClicked_voicesOnly s now
  rw [startLeft_eq]
  exact ⟨by rw [hv.same], hv.mix, hv.track⟩

theorem startLeft_tracks (s : State) (now : Receivers) : (s.startLeft now).tracks = s.startArmed.tracks := by
  rw [startLeft_eq, startClicked_eq]
  exact State.report_tracks ..

theorem startLeft_mix (s : State) (now : Receivers) : (s.startLeft now).mix = s.startArmed.mix := by
  rw [startLeft_eq, startClicked_eq]
  exact State.report_mix ..

theorem startLeft_bnd (s : State) (now : Receivers) :
    (s.startLeft now).bnd =
      { taken := some { beat := true, bar := true, loop := true }, mark := .running
        toneLoad := s.tones.loadPending && s.tones.slot.isNone
        grant := if now.grant then .none else .start, tempo := s.clock.pendingTempo.isSome
        click := if now.click then none else some (clickAsked s s.clock.beat) } := by
  rw [startLeft_eq, startClicked_eq, startMarked_bnd]

theorem startLeft_tones (s : State) (now : Receivers) :
    (s.startLeft now).tones = if now.click then clickTested s .running (clickAsked s s.clock.beat) (tonesTicked s.tones)
      else tonesTicked s.tones := by
  rw [startLeft_eq, startClicked_eq]

/-! ### What the start instant leaves -/

theorem startArmed_trackFrames (s : State) (k : TrackId) : s.startArmed.trackFrames k = s.trackFrames k := by
  rw [(startArmed_voicesOnly s).trackFrames]
  unfold State.trackFrames
  rw [track_startTicked, startTicked_eq]
  rfl

theorem State.audible_congr {s u : State} {k : TrackId} (hl : u.layers = s.layers) (hc : u.clock = s.clock)
    (hs : u.sup = s.sup) (ht : (u.track k).stack = (s.track k).stack) (hm : (u.track k).mute = (s.track k).mute) (x : LayerId) :
    u.audible k x = s.audible k x := by
  unfold State.audible State.soundLayer State.playing State.moving
  rw [State.layer_congr hl, hc, hs, ht, hm]

theorem State.trackAudible_congr {s u : State} {k : TrackId} (hl : u.layers = s.layers) (hc : u.clock = s.clock)
    (hs : u.sup = s.sup) (ht : (u.track k).stack = (s.track k).stack) (hm : (u.track k).mute = (s.track k).mute) :
    u.trackAudible k = s.trackAudible k := by
  have hsound : u.soundLayer = s.soundLayer := funext fun x => by unfold State.soundLayer; rw [State.layer_congr hl]
  unfold State.trackAudible State.soundLayers State.playing State.moving
  rw [hsound, hc, hs, ht, hm]

/-- What the receivers of the start instant leave of the state whose tracks joined and were armed. -/
theorem startReceived_fields (s : State) (now : Receivers) :
    (s.startReceived now).layers = s.startArmed.layers ∧ (s.startReceived now).clock = s.startArmed.clock
      ∧ (s.startReceived now).sup = s.startArmed.sup
      ∧ ∀ k, ((s.startReceived now).track k).stack = (s.startArmed.track k).stack
        ∧ ((s.startReceived now).track k).mute = (s.startArmed.track k).mute
        ∧ ((s.startReceived now).track k).pass = (s.startArmed.track k).pass := by
  obtain ⟨n, -, g⟩ := startReceived_grants s now
  have hl := startLeft_voicesOnly s now
  have ht := State.track_congr (startLeft_tracks s now)
  refine ⟨g.only.layers.trans hl.layers, g.only.clock.trans hl.clock, g.only.sup.trans hl.sup, fun k => ⟨?_, ?_, ?_⟩⟩
  · rw [g.only.stack, ht]
  · rw [g.mute, ht]
  · rw [g.only.pass, ht]

theorem startReceived_served {s : State} {now : Receivers} {k : TrackId} {x : LayerId} (hx : x ∈ (s.track k).stack)
    (h : (s.startReceived now).audible k x = true) : (s.startReceived now).Served x := by
  obtain ⟨n, -, g⟩ := startReceived_grants s now
  obtain ⟨hlayers, hclock, hsup, htrack⟩ := startReceived_fields s now
  obtain ⟨hstack, hmute, -⟩ := htrack k
  rw [State.audible_congr hlayers hclock hsup hstack hmute] at h
  refine g.waits_or_voiced ?_
  rw [startLeft_mix]
  exact startArmed_served hx h

theorem startReceived_armed {s : State} {now : Receivers} {k : TrackId} (ho : (s.track k).oneShot = true)
    (h : (s.startReceived now).trackAudible k = true) : ((s.startReceived now).track k).remaining = s.trackFrames k := by
  obtain ⟨n, -, g⟩ := startReceived_grants s now
  obtain ⟨hlayers, hclock, hsup, htrack⟩ := startReceived_fields s now
  obtain ⟨hstack, hmute, -⟩ := htrack k
  rw [State.trackAudible_congr hlayers hclock hsup hstack hmute] at h
  have hframes : (s.startLeft now).trackFrames k = s.startArmed.trackFrames k := by
    unfold State.trackFrames
    rw [State.track_congr (startLeft_tracks s now), (startLeft_voicesOnly s now).clock]
    rfl
  have harmed : (s.startLeft now).Armed k := by
    have := startArmed_armed h ho
    unfold State.Armed at *
    rw [hframes, State.track_congr (startLeft_tracks s now), this]
  have hz : ((s.startReceived now).track k).remaining = (s.startReceived now).trackFrames k := g.armed_of harmed
  rw [hz, g.only.trackFrames, hframes, startArmed_trackFrames]

theorem startReceived_voices {s : State} {now : Receivers} {x : LayerId} {v : VoiceId}
    (h : (s.startReceived now).mix.voices.get v = some x) :
    s.mix.voices.get v = some x ∨ x ∈ (s.startReceived now).mix.fresh := by
  obtain ⟨n, hn, g⟩ := startReceived_grants s now
  rw [← startLeft_mix s now] at hn
  have hv := g.held_or_fresh hn h
  rwa [startLeft_mix, startArmed_voices] at hv

theorem cueMet_all {span : TrackId → Option Span} {pass : TrackId → Nat} (h : ∀ n, pass n = 0) :
    cueMet { beat := true, bar := true, loop := true } span pass = fun q => decide (q.grid ≠ .now) := by
  funext q
  unfold cueMet
  cases q.grid with
  | track =>
    dsimp only
    rw [Bool.true_and]
    split
    · rw [h]; simp
    · rfl
  | _ => rfl

/-- What the start instant makes of a state (R33, R137), with the receivers that act in it. -/
structure StartsFrom (s t : State) (now : Receivers) : Prop where
  clock : t.clock = { s.clock with divider := s.clock.p - 1, dividerSet := true, loopSet := false }
  bnd : t.bnd =
    { taken := some { beat := true, bar := true, loop := true }, mark := .running
      toneLoad := s.tones.loadPending && s.tones.slot.isNone
      grant := if now.grant then .none else .start, tempo := s.clock.pendingTempo.isSome
      click := if now.click then none else some (clickAsked s s.clock.beat), walk := t.bnd.walk }
  tones : t.tones = if now.click then clickTested s .running (clickAsked s s.clock.beat) (tonesTicked s.tones)
    else tonesTicked s.tones
  walk : WalkStands (fun q => decide (q.grid ≠ .now)) s.cues.list t.cues.list 0 t.bnd.walk
  track : ∀ k, (t.track k).pass = 0 ∧ (t.track k).stack = (s.track k).stack ∧ (t.track k).mute = (s.track k).mute
    ∧ (∀ x ∈ (s.track k).stack, t.audible k x = true → t.mix.waits x = true ∨ (t.mix.voiceOf x).isSome = true)
    ∧ ((s.track k).oneShot = true → t.trackAudible k = true → (t.track k).remaining = s.trackFrames k)
  voices : ∀ x v, t.mix.voices.get v = some x → s.mix.voices.get v = some x ∨ x ∈ t.mix.fresh
  head0 : t.head0 = s.head0.map (fun r => { r with atBar := true })
  head1 : t.head1 = s.head1.map (fun r => { r with atBar := true })
  same : t.layers = s.layers ∧ t.mem = s.mem ∧ t.pool = s.pool ∧ t.scenes = s.scenes ∧ t.bounce = s.bounce ∧ t.sup = s.sup

theorem startNow_startsFrom {s : State} {now : Receivers} (hm : s.clock.startMark = .none)
    (hr : now.recorder = true → s.head0 = none ∧ s.head1 = none) (hc : now.claims = false) :
    StartsFrom s (s.startNow now) now := by
  obtain ⟨n, -, g⟩ := startReceived_grants s now
  have hl := startLeft_voicesOnly s now
  have ha := startArmed_voicesOnly s
  obtain ⟨hlayers, hclock, hsup, htrack⟩ := startReceived_fields s now
  have hticked := startTicked_eq s
  have hc' : (s.startReceived now).clock =
      { s.clock with divider := s.clock.p - 1, dividerSet := true, loopSet := false } := by
    rw [hclock, ha.clock, hticked]
  have hpass : ∀ k, ((s.startReceived now).track k).pass = 0 := fun k => by
    rw [(htrack k).2.2, ha.pass, track_startTicked]
  have hbnd := g.only.bnd.trans (startLeft_bnd s now)
  have hmet : (s.startReceived now).satisfies { beat := true, bar := true, loop := true }
      = fun q => decide (q.grid ≠ .now) := by
    rw [satisfies_of_taken _ (by rw [hc']) (by rw [hc']; exact hm)]
    exact cueMet_all hpass
  obtain ⟨l, walk, hstart, -, hwalk⟩ := startWalk_eq_walked (by rw [hbnd]) hmet
  have hcues : (s.startReceived now).cues = s.cues := by
    rw [g.only.cues, hl.cues]
    exact ha.cues.trans (by rw [hticked])
  rw [startNow_eq_startWalk hr hc, hstart]
  rw [hcues, hbnd] at hwalk
  exact
    { clock := hc'
      bnd := congrArg (fun b : Boundary => { b with walk := walk }) hbnd
      tones := g.only.tones.trans (startLeft_tones s now)
      walk := hwalk rfl
      track := fun k => by
        obtain ⟨hstack, hmute, -⟩ := htrack k
        refine ⟨hpass k, ?_, hmute.trans (startArmed_mute s k), fun x hx h => startReceived_served hx h,
          fun ho h => startReceived_armed ho h⟩
        exact hstack.trans ((ha.stack k).trans (by rw [track_startTicked]))
      voices := fun x v h => startReceived_voices h
      head0 := g.only.head0.trans (hl.head0.trans (startMarked_heads s).1)
      head1 := g.only.head1.trans (hl.head1.trans (startMarked_heads s).2)
      same := by
        refine ⟨hlayers.trans (ha.layers.trans ?_), g.only.mem.trans (hl.mem.trans (ha.mem.trans ?_)),
          g.only.pool.trans (hl.pool.trans (ha.pool.trans ?_)), g.only.scenes.trans (hl.scenes.trans (ha.scenes.trans ?_)),
          g.only.bounce.trans (hl.bounce.trans (ha.bounce.trans ?_)), hsup.trans (ha.sup.trans ?_)⟩ <;> rw [hticked] }

/-! ### The first frame of a count-in (R33, R40) -/

/-- The boundary of a count-in's first frame, ahead of its receivers. -/
def State.countInOpened (s : State) : State :=
  { s with
    clock := { s.clock with startMark := .none, divider := s.clock.p - 1, dividerSet := true, loopSet := false }
    tones := tonesTicked s.tones
    bnd :=
      { taken := some { beat := true, bar := true, loop := false }, mark := .countIn
        tempo := s.clock.pendingTempo.isSome, toneLoad := s.tones.loadPending && s.tones.slot.isNone } }

theorem countInBegins_opened {s : State} (now : Receivers) (hd : s.tickDue = true) (hm : s.clock.startMark = .countIn) :
    s.countInBegins now = (s.countInOpened.setClickTest true).receive now := by
  unfold State.countInBegins State.tickCommon State.unmark State.countInOpened
  rw [if_pos ⟨hd, hm⟩]
  dsimp only
  rw [Tones.tick_eq]

theorem countInBegins_eq {s : State} {now : Receivers} (hd : s.tickDue = true) (hm : s.clock.startMark = .countIn)
    (hr : now.recorder = true → s.head0 = none ∧ s.head1 = none) (hc : now.claims = false) :
    s.countInBegins now =
      { s with
        clock := { s.clock with startMark := .none, divider := s.clock.p - 1, dividerSet := true, loopSet := false }
        tones := if now.click then clickTested s .countIn (clickAsked s s.clock.beat) (tonesTicked s.tones)
          else tonesTicked s.tones
        bnd :=
          { taken := some { beat := true, bar := true, loop := false }, mark := .countIn
            click := if now.click then none else some (clickAsked s s.clock.beat)
            tempo := s.clock.pendingTempo.isSome, toneLoad := s.tones.loadPending && s.tones.slot.isNone } } := by
  have hclick := clickMade_eq (r := s.countInOpened) (s := s) (mark := .countIn) (b := s.clock.beat) true now.click
    rfl rfl rfl Iff.rfl Iff.rfl
  have hpass : (s.countInOpened.clickMade true now.click).grantPass = s.countInOpened.clickMade true now.click :=
    grantPass_none rfl
  rw [countInBegins_opened now hd hm, receive_setClickTest (s := s.countInOpened) _ hr hc, hpass, ite_self, hclick]
  cases now.click <;> rfl

/-! ### The two ways to the start instant -/

theorem State.report_eq (s : State) (r : Report) (p : List Byte) :
    s.report r p = { s with link := (s.report r p).link } := by
  unfold State.report State.reportWith
  split_ifs <;> rfl

theorem enterRunning_eq (s : State) :
    s.enterRunning = { s with
      clock := { s.clock with transport := .running, countIn := 0, tick := 0, beat := 0 }
      link := s.enterRunning.link } := State.report_eq ..

/-- Settles O53: the count-in's first frame is `countInBegins_eq`, and both ways to the start instant `startNow_startsFrom`. -/
theorem countInAndStartInstant : Obligations.CountInAndStartInstant := by
  intro w now s hready hdiv hset hrec hclaims tested asked load started reloaded
  have hdue : s.tickDue = true := tickDue_of hready hdiv hset
  have hbegin : exec (.countInBegin now) w = .next (s.countInBegins now) := rfl
  have hstart : exec (.startInstant now) w = .next (s.startsNow now) := rfl
  have hend : exec (.countInEnd now) w = .next (s.countInOver now) := rfl
  clear_value s
  have hstarted : ∀ (c : Clock) (l : Link) (t : State), c.pendingTempo = s.clock.pendingTempo →
      c.loopFrames = s.clock.loopFrames → StartsFrom { s with clock := c, link := l } t now → started t := by
    intro c l t htempo hframes h
    have hbeat : t.clock.beat = c.beat := (congrArg Clock.beat h.clock :)
    have hb := h.bnd
    obtain ⟨hlayers, hmem, hpool, hscenes, hbounce, hsup⟩ := h.same
    refine ⟨congrArg Boundary.taken hb, congrArg Boundary.mark hb, (congrArg Boundary.tempo hb).trans ?_,
      congrArg Boundary.sceneStep hb, congrArg Boundary.toneLoad hb, (congrArg Boundary.click hb).trans ?_,
      h.tones.trans ?_, congrArg Boundary.grant hb, h.walk, fun k => ?_, h.voices, h.head0, h.head1, hlayers, hmem, hpool,
      hscenes, hbounce, hsup⟩
    · exact congrArg Option.isSome htempo
    · rw [hbeat]; rfl
    · rw [hbeat]; rfl
    · obtain ⟨h1, h2, h3, h4, h5⟩ := h.track k
      refine ⟨h1, h2, h3, h4, fun ho ha => (h5 ho ha).trans ?_⟩
      unfold State.trackFrames
      rw [hframes]
      rfl
  refine ⟨fun hm => ?_, fun hm => ?_, fun hm ht htick hbeat hcount => ?_⟩
  · rw [hbegin, countInBegins_eq hdue hm hrec hclaims]
  · have h := startNow_startsFrom (s := s.unmark) rfl hrec hclaims
    have he : s.startsNow now = s.unmark.startNow now := if_pos ⟨hdue, hm⟩
    rw [← he] at h
    generalize s.startsNow now = t at hstart h
    exact ⟨t, hstart, h.clock, hstarted s.unmark.clock s.link t rfl rfl h⟩
  · have hover : s.countInEnds = true := by
      unfold State.countInEnds
      simp [ht, htick, hbeat, hcount]
    have he : s.countInOver now = s.enterRunning.startNow now := if_pos ⟨hdue, hm, hover⟩
    have hr := enterRunning_eq s
    have h : StartsFrom s.enterRunning (s.enterRunning.startNow now) now :=
      startNow_startsFrom (by rw [hr]; exact hm) (by rw [hr]; exact hrec) hclaims
    rw [← he] at h
    generalize s.countInOver now = t at hend h
    rw [hr] at h
    refine ⟨t, hend, h.clock.trans ?_, hstarted { s.clock with transport := .running, countIn := 0, tick := 0, beat := 0 } _ t rfl rfl h⟩
    exact congrArg (fun m : StartMark => { s.clock with
      transport := .running, countIn := 0, tick := 0, beat := 0, divider := s.clock.p - 1, dividerSet := true
      loopSet := false, startMark := m }) hm

end Sys2Proof.Machine
end

