-- ==== Sys2Proof/Proofs/SceneSteps.lean ====
section
/-! The scene sequencer's steps (R146, R147, R148, R155) and the walk that goes on behind them (R58). -/

namespace Sys2Proof.Machine

/-! ### The flag byte of the tracks (R155) -/

/-- A flag added at a place that is clear. -/
theorem getLsbD_add_flag {acc : Byte} {t : TrackId} (j : TrackId) (h : acc.getLsbD t.val = false) :
    (acc + byte (2 ^ t.val)).getLsbD j.val = if j = t then true else acc.getLsbD j.val := by
  have hp : byte (2 ^ t.val) = BitVec.twoPow 8 t.val := by
    apply BitVec.eq_of_toNat_eq
    simp [byte]
  have hz : acc &&& BitVec.twoPow 8 t.val = 0#8 := by
    rw [BitVec.and_twoPow, h]; rfl
  rw [hp, BitVec.add_eq_or_of_and_eq_zero _ _ hz, BitVec.getLsbD_or, BitVec.getLsbD_twoPow]
  by_cases e : j = t
  · simp [e]
  · have : t.val ≠ j.val := fun h => e (Fin.ext h.symm)
    simp [e, this]

theorem getLsbD_foldl_flags {f : TrackId → Bool} (l : List TrackId) (hl : l.Nodup) (acc : Byte)
    (h : ∀ t ∈ l, acc.getLsbD t.val = false) (k : TrackId) :
    (l.foldl (fun acc t => if f t then acc + byte (2 ^ t.val) else acc) acc).getLsbD k.val
      = if k ∈ l then f k else acc.getLsbD k.val := by
  induction l generalizing acc with
  | nil => rfl
  | cons t l ih =>
    obtain ⟨ht, hl⟩ := List.nodup_cons.1 hl
    have hbit : ∀ j : TrackId, (if f t then acc + byte (2 ^ t.val) else acc).getLsbD j.val
        = if j = t then f t else acc.getLsbD j.val := by
      intro j
      cases hf : f t with
      | true => rw [if_pos rfl, getLsbD_add_flag j (h t List.mem_cons_self)]
      | false =>
        rw [if_neg (by simp)]
        split
        · next e => rw [e, h t List.mem_cons_self]
        · rfl
    rw [List.foldl_cons, ih hl _ fun j hj => ?_, hbit]
    · by_cases e : k = t
      · rw [e, if_neg ht, if_pos rfl, if_pos List.mem_cons_self]
      · rw [if_neg e]
        exact if_congr (by simp [e]) rfl rfl
    · rw [hbit, if_neg fun e : j = t => ht (e ▸ hj), h j (List.mem_cons_of_mem _ hj)]

theorem getLsbD_trackFlags (f : TrackId → Bool) (k : TrackId) : (trackFlags f).getLsbD k.val = f k := by
  unfold trackFlags
  rw [getLsbD_foldl_flags (f := f) _ (List.nodup_finRange 8) 0 (fun _ _ => by simp) k, if_pos (List.mem_finRange k)]

/-! ### The application of a scene (R146) -/

theorem sceneAction_voicesOnly (s : State) (act : SceneAct) (t : TrackId) : VoicesOnly s (s.sceneAction act t) := by
  unfold State.sceneAction
  refine VoicesOnly.ite (VoicesOnly.refl s) ?_
  cases act with
  | leave => exact VoicesOnly.refl s
  | play => exact unmuteTrack_voicesOnly s t
  | mute => exact muteTrack_voicesOnly s t

theorem track_sceneAction_other {s : State} {t k : TrackId} (act : SceneAct) (h : k ≠ t) :
    (s.sceneAction act t).track k = s.track k := by
  unfold State.sceneAction
  split
  · rfl
  · cases act with
    | leave => rfl
    | play => exact State.track_unmuteTrack_other h
    | mute => exact State.track_muteTrack_other h

/-- The mute flag that a scene's action gives its track. -/
theorem sceneAction_mute (s : State) (r : Scene) (k : TrackId) :
    ((s.sceneAction (r.actions.get k) k).track k).mute = sceneFlag r s k := by
  unfold State.sceneAction sceneFlag
  by_cases h : (s.track k).stack = []
  · rw [if_pos (State.trackState_empty.2 h), if_pos h]
  · rw [if_neg fun e => h (State.trackState_empty.1 e), if_neg h]
    cases r.actions.get k with
    | leave => rfl
    | play => exact State.unmuteTrack_mute s k
    | mute => exact State.muteTrack_mute s k

/-- The actions of a scene on every track. -/
@[irreducible] def State.sceneActions (s : State) (r : Scene) : State :=
  (List.finRange 8).foldl (fun s t => s.sceneAction (r.actions.get t) t) s

theorem sceneActions_voicesOnly (s : State) (r : Scene) : VoicesOnly s (s.sceneActions r) := by
  unfold State.sceneActions
  exact VoicesOnly.foldl (fun s t => sceneAction_voicesOnly s _ t) _ s

/-- A scene's flag depends on the track's stack and on its flag, and is its own after it is set. -/
theorem sceneFlag_of {r : Scene} {s u : State} {k : TrackId} (hs : (u.track k).stack = (s.track k).stack)
    (hm : (u.track k).mute = (s.track k).mute ∨ (u.track k).mute = sceneFlag r s k) : sceneFlag r u k = sceneFlag r s k := by
  unfold sceneFlag at *
  rw [hs]
  by_cases h : (s.track k).stack = []
  · rw [if_pos h] at hm
    rw [if_pos h, if_pos h]
    exact hm.elim id id
  · rw [if_neg h] at hm
    rw [if_neg h, if_neg h]
    cases ha : r.actions.get k with
    | leave => rw [ha] at hm; exact hm.elim id id
    | play => rfl
    | mute => rfl

theorem sceneActions_mute (s : State) (r : Scene) (k : TrackId) : ((s.sceneActions r).track k).mute = sceneFlag r s k := by
  unfold State.sceneActions
  refine foldl_reaches (x := k)
    (I := fun u => VoicesOnly s u ∧ ((u.track k).mute = (s.track k).mute ∨ (u.track k).mute = sceneFlag r s k))
    (P := fun u => (u.track k).mute = sceneFlag r s k) (fun u j hu => ?_) (fun u hu => ?_) (fun u j hu hp => ?_) _
    (List.mem_finRange k) s ⟨VoicesOnly.refl s, Or.inl rfl⟩
  · obtain ⟨hv, hm⟩ := hu
    refine ⟨hv.trans (sceneAction_voicesOnly ..), ?_⟩
    by_cases e : k = j
    · subst e
      exact Or.inr ((sceneAction_mute u r k).trans (sceneFlag_of (hv.stack k) hm))
    · rw [track_sceneAction_other _ e]; exact hm
  · obtain ⟨hv, hm⟩ := hu
    exact (sceneAction_mute u r k).trans (sceneFlag_of (hv.stack k) hm)
  · obtain ⟨hv, hm⟩ := hu
    by_cases e : k = j
    · subst e
      exact (sceneAction_mute u r k).trans (sceneFlag_of (hv.stack k) hm)
    · rw [track_sceneAction_other _ e]; exact hp

/-- The sequencer once scene n is applied. -/
def Sequencer.applied (q : Sequencer) (n : SceneId) : Sequencer :=
  { q with current := some n, bars := (q.table.get n).bars, due := none }

theorem applyScene_eq (s : State) (n : SceneId) (cause : SceneCause) (fromSlot : Bool) :
    let r := s.scenes.table.get n
    let v := s.sceneActions r
    s.applyScene n cause fromSlot =
      State.report { v with scenes := s.scenes.applied n } .scene
        [numByte n, optNumByte s.scenes.current, cause.code, flagByte fromSlot, r.bars.reportCode,
          s.muteFlags ^^^ v.muteFlags, v.muteFlags] := by
  intro r v
  have hv : v.scenes = s.scenes := (sceneActions_voicesOnly s r).scenes
  have he : s.applyScene n cause fromSlot =
      State.report { v with scenes := { v.scenes with current := some n, bars := r.bars, due := none } } .scene
        [numByte n, optNumByte s.scenes.current, cause.code, flagByte fromSlot, r.bars.reportCode,
          s.muteFlags ^^^ v.muteFlags, v.muteFlags] := by
    unfold State.applyScene v State.sceneActions
    dsimp only
  rw [he, hv]
  rfl

/-! ### The step and the walk behind it (R58, R147, R148) -/

/-- From s to u a scene step moves the sequencer to q, and nothing else changes but voices, flags and reports. -/
def SceneMoves (s u : State) (q : Sequencer) : Prop := VoicesOnly { s with scenes := q } u

theorem VoicesOnly.setScenes {s u : State} (h : VoicesOnly s u) (q : Sequencer) :
    VoicesOnly { s with scenes := q } { u with scenes := q } := ⟨by rw [h.same], h.mix, h.track⟩

theorem applyScene_moves (s : State) (n : SceneId) (cause : SceneCause) (fromSlot : Bool) :
    SceneMoves s (s.applyScene n cause fromSlot) (s.scenes.applied n) := by
  rw [applyScene_eq]
  exact ((sceneActions_voicesOnly s _).setScenes _).trans (report_voicesOnly ..)

theorem applyScene_mute (s : State) (n : SceneId) (cause : SceneCause) (fromSlot : Bool) (k : TrackId) :
    ((s.applyScene n cause fromSlot).track k).mute = sceneFlag (s.scenes.table.get n) s k := by
  rw [applyScene_eq, State.track_congr (State.report_tracks ..)]
  exact sceneActions_mute s _ k

theorem endScenes_moves (s : State) (target : Option SceneId) (fromSlot : Bool) :
    SceneMoves s (s.endScenes target fromSlot) s.scenes.idle := report_voicesOnly ..

theorem endScenes_tracks (s : State) (target : Option SceneId) (fromSlot : Bool) :
    (s.endScenes target fromSlot).tracks = s.tracks := State.report_tracks ..

/-- A walk that goes on stands or is over, and with none in progress nothing changes (R58). -/
theorem resumeWalk_eq_walked (s : State) :
    ∃ l walk, s.resumeWalk = s.walked l walk ∧ (s.bnd.walk = none → walk = none ∧ l = s.cues.list)
      ∧ ∀ i k, s.bnd.walk = some i → s.bnd.taken = some k →
        WalkStands (cueMet k (fun n => (s.track n).span) s.leavingPass) s.cues.list l i walk := by
  unfold State.resumeWalk
  cases hw : s.bnd.walk with
  | none =>
    have hwalked : s.walked s.cues.list none = s := by unfold State.walked; rw [← hw]
    exact ⟨s.cues.list, none, hwalked.symm, fun _ => ⟨rfl, rfl⟩, fun i k h => absurd h (by simp)⟩
  | some i =>
    cases hk : s.bnd.taken with
    | none =>
      refine ⟨s.cues.list.take i ++ s.cues.list.drop i, none, ?_, fun h => absurd h (by simp), fun _ _ _ h => absurd h (by simp)⟩
      have hscan : s.scanFrom i = (s.cues.list.drop i, none) := by unfold State.scanFrom; rw [hk]
      show s.walkFrom i = _
      unfold State.walkFrom
      rw [hscan]
      rfl
    | some k =>
      obtain ⟨l, walk, h1, h2⟩ := walkFrom_eq_walked i hk (satisfies_eq_cueMet s k)
      refine ⟨l, walk, h1, fun h => absurd h (by simp), fun j m hj hm => ?_⟩
      rw [← Option.some.inj hj, ← Option.some.inj hm]
      exact h2

/-- The boundary in progress and the cues behind a scene step: the walk has begun with it and goes on (R58). -/
def SceneGoesOn (s t : State) : Prop :=
  t.bnd = { s.bnd with sceneStep := none, begun := true, walk := t.bnd.walk } ∧ t.cues.nextId = s.cues.nextId
    ∧ (s.bnd.walk = none → t.bnd.walk = none ∧ t.cues = s.cues)
    ∧ ∀ i k, s.bnd.walk = some i → s.bnd.taken = some k →
      WalkStands (cueMet k (fun n => (t.track n).span) t.leavingPass) s.cues.list t.cues.list i t.bnd.walk

/-- A scene step that moves the sequencer to q, its BAR report and the walk behind it. -/
structure SceneStepTaken (s t : State) (q : Sequencer) (tracks : Vector Track 8) : Prop where
  goesOn : SceneGoesOn s t
  scenes : t.scenes = q
  mem : t.mem = s.mem
  clock : t.clock = s.clock
  layers : t.layers = s.layers
  sup : t.sup = s.sup
  tracks : t.tracks = tracks

theorem sceneStepTaken_of_moves {s u : State} {q : Sequencer} (h : SceneMoves s.clearSceneStep u q) :
    SceneStepTaken s u.reportBar.resumeWalk q u.tracks := by
  have hv : VoicesOnly { s.clearSceneStep with scenes := q } u.reportBar := VoicesOnly.trans h (reportBar_voicesOnly u)
  have ht : u.reportBar.tracks = u.tracks := State.report_tracks ..
  generalize u.reportBar = v at hv ht
  obtain ⟨l, walk, he, hnone, hsome⟩ := resumeWalk_eq_walked v
  have hbnd : v.bnd = { s.bnd with sceneStep := none, begun := true } := hv.bnd
  have hcues : v.cues = s.cues := hv.cues
  rw [he]
  rw [hbnd, hcues] at hnone hsome
  exact
    { goesOn := by
        refine ⟨congrArg (fun b : Boundary => { b with walk := walk }) hbnd,
          (congrArg CueQueue.nextId hcues :), fun hw => ?_, hsome⟩
        obtain ⟨h1, h2⟩ := hnone hw
        exact ⟨h1, by rw [h2]; exact congrArg (fun q : CueQueue => { q with list := s.cues.list }) hcues⟩
      scenes := hv.scenes
      mem := hv.mem
      clock := hv.clock
      layers := hv.layers
      sup := hv.sup
      tracks := ht }

/-! ### The end of a countdown (R147) -/

/-- The state in which the target of a countdown's end is dealt with: the slot is empty. -/
def State.slotTaken (s : State) : State := { s with scenes := { s.scenes with slot := none } }

theorem countdownEnd_eq (s : State) :
    s.countdownEnd = s.slotTaken.takeTarget s.scenes.target.1 s.scenes.target.2 s.bnd.isLoop := rfl

theorem target_fromSlot (q : Sequencer) : q.target.2 = q.slot.isSome := by
  unfold Sequencer.target
  cases q.slot <;> rfl

theorem takeTarget_none {s : State} (fromSlot loopKind : Bool) :
    s.takeTarget none fromSlot loopKind = s.endScenes none fromSlot := rfl

theorem takeTarget_invalid {s : State} {n : SceneId} (fromSlot loopKind : Bool)
    (h : (s.scenes.table.get n).valid = false) :
    s.takeTarget (some n) fromSlot loopKind = s.endScenes (some n) fromSlot := by
  unfold State.takeTarget
  dsimp only
  rw [h]
  rfl

theorem takeTarget_applied {s : State} {n : SceneId} (fromSlot : Bool) {loopKind : Bool}
    (h : (s.scenes.table.get n).valid = true) (ht : (s.scenes.table.get n).tie = true ∨ loopKind = true) :
    ∃ cause, s.takeTarget (some n) fromSlot loopKind = s.applyScene n cause fromSlot := by
  unfold State.takeTarget
  dsimp only
  rw [h]
  cases hc : (s.scenes.table.get n).tie with
  | true => exact ⟨.tied, by rw [if_neg (by simp), if_pos rfl]⟩
  | false =>
    have hl : loopKind = true := by simpa [hc] using ht
    exact ⟨.loop, by rw [hl, if_neg (by simp), if_neg (by simp), if_pos rfl]⟩

theorem takeTarget_due {s : State} {n : SceneId} (fromSlot : Bool) {loopKind : Bool}
    (h : (s.scenes.table.get n).valid = true) (ht : (s.scenes.table.get n).tie = false) (hl : loopKind = false) :
    s.takeTarget (some n) fromSlot loopKind
      = { s with scenes := { s.scenes with due := some { scene := n, fromSlot := fromSlot } } } := by
  unfold State.takeTarget
  dsimp only
  rw [h, ht, hl]
  rfl

theorem isLoop_iff (b : Boundary) : b.isLoop = true ↔ (b.taken.map (·.loop)) = some true := by
  unfold Boundary.isLoop
  cases b.taken <;> simp

theorem takeSceneStep_countdown {s : State} (h : s.bnd.sceneStep = some .countdownEnd) :
    s.takeSceneStep = s.clearSceneStep.countdownEnd.reportBar.resumeWalk := by
  unfold State.takeSceneStep; rw [h]

theorem takeSceneStep_due {s : State} (h : s.bnd.sceneStep = some .dueApply) :
    s.takeSceneStep = s.clearSceneStep.dueApply.reportBar.resumeWalk := by
  unfold State.takeSceneStep; rw [h]

/-- How the target of a countdown's end is dealt with (R147). -/
structure TargetTaken (s u : State) (target : Option SceneId) (fromSlot loopKind : Bool) (q : Sequencer) : Prop where
  moves : SceneMoves s u q
  table : q.table = s.scenes.table
  slot : s.scenes.slot = none → q.slot = none
  none : target = none → q = s.scenes.idle ∧ u.tracks = s.tracks
  invalid : ∀ n, target = some n → (s.scenes.table.get n).valid = false → q = s.scenes.idle ∧ u.tracks = s.tracks
  applied : ∀ n, target = some n → (s.scenes.table.get n).valid = true →
    (s.scenes.table.get n).tie = true ∨ loopKind = true →
    q = s.scenes.applied n ∧ ∀ k, (u.track k).mute = sceneFlag (s.scenes.table.get n) s k
  due : ∀ n, target = some n → (s.scenes.table.get n).valid = true → (s.scenes.table.get n).tie = false →
    loopKind = false → q = { s.scenes with due := some { scene := n, fromSlot := fromSlot } } ∧ u.tracks = s.tracks

theorem takeTarget_taken (s : State) (target : Option SceneId) (fromSlot loopKind : Bool) :
    ∃ q, TargetTaken s (s.takeTarget target fromSlot loopKind) target fromSlot loopKind q := by
  cases target with
  | none =>
    exact ⟨s.scenes.idle, endScenes_moves .., rfl, fun _ => rfl, fun _ => ⟨rfl, endScenes_tracks ..⟩,
      fun n h => absurd h (by simp), fun n h => absurd h (by simp), fun n h => absurd h (by simp)⟩
  | some n =>
    cases hv : (s.scenes.table.get n).valid with
    | false =>
      rw [takeTarget_invalid fromSlot loopKind hv]
      refine ⟨s.scenes.idle, endScenes_moves .., rfl, fun _ => rfl, fun h => absurd h (by simp),
        fun _ _ _ => ⟨rfl, endScenes_tracks ..⟩, fun m hm hv' => ?_, fun m hm hv' => ?_⟩
      all_goals
        rw [← Option.some.inj hm, hv] at hv'
        exact absurd hv' (by simp)
    | true =>
      have hinvalid : ∀ m, some n = some m → ¬(s.scenes.table.get m).valid = false := fun m hm h => by
        rw [← Option.some.inj hm, hv] at h
        exact absurd h (by simp)
      by_cases ht : (s.scenes.table.get n).tie = true ∨ loopKind = true
      · obtain ⟨cause, he⟩ := takeTarget_applied fromSlot hv ht
        rw [he]
        refine ⟨s.scenes.applied n, applyScene_moves .., rfl, id, fun h => absurd h (by simp),
          fun m hm h => absurd h (hinvalid m hm), fun m hm _ _ => ?_, fun m hm _ h1 h2 => ?_⟩
        · obtain rfl := Option.some.inj hm
          exact ⟨rfl, applyScene_mute s n cause fromSlot⟩
        · obtain rfl := Option.some.inj hm
          simp [h1, h2] at ht
      · simp only [not_or, Bool.not_eq_true] at ht
        rw [takeTarget_due fromSlot hv ht.1 ht.2]
        refine ⟨_, VoicesOnly.refl _, rfl, id, fun h => absurd h (by simp), fun m hm h => absurd h (hinvalid m hm),
          fun m hm _ h => ?_, fun m hm _ _ _ => ?_⟩
        · obtain rfl := Option.some.inj hm
          simp [ht.1, ht.2] at h
        · obtain rfl := Option.some.inj hm
          exact ⟨rfl, rfl⟩

theorem Scene.reportCode_bars (r : Scene) : r.bars.reportCode = r.length := by
  unfold Scene.bars
  split
  · next h => rw [h]; rfl
  · exact byte_toNat _

theorem SceneStepTaken.track {s t : State} {q : Sequencer} {u : State} (h : SceneStepTaken s t q u.tracks) (k : TrackId) :
    t.track k = u.track k := State.track_congr h.tracks k

theorem dueApply_valid {s : State} {d : DueScene} (h : s.scenes.due = some d)
    (hv : (s.scenes.table.get d.scene).valid = true) : s.dueApply = s.applyScene d.scene .loop d.fromSlot := by
  unfold State.dueApply
  rw [h]
  exact if_pos hv

theorem dueApply_invalid {s : State} {d : DueScene} (h : s.scenes.due = some d)
    (hv : (s.scenes.table.get d.scene).valid = false) : s.dueApply = s.endScenes (some d.scene) d.fromSlot := by
  unfold State.dueApply
  rw [h]
  exact if_neg (by simp [hv])

/-- Settles O42: every scene step is `sceneStepTaken_of_moves`, whose sequencer `takeTarget_taken` and whose flags
`applyScene_mute` give. -/
theorem scenesAdvanceAtTheBar : Obligations.ScenesAdvanceAtTheBar := by
  unfold Obligations.ScenesAdvanceAtTheBar
  intro goesOn
  have hgoesOn : goesOn = SceneGoesOn := rfl
  clear_value goesOn
  subst hgoesOn
  refine ⟨fun s => ⟨fun h => ?_, fun h => ?_⟩, fun s => ⟨fun h => ?_, fun d h hd => ?_⟩, fun s n => ?_⟩
  · exact congrArg Host.Outcome.next (if_neg h)
  · intro target loopKind
    have htarget : s.scenes.target.1 = target := by
      unfold Sequencer.target target
      cases s.scenes.slot <;> rfl
    have hloop : (s.bnd.isLoop = true) = loopKind := propext (isLoop_iff s.bnd)
    clear_value target loopKind
    subst hloop
    have hexec : exec .sceneCountdownEnd s = .next s.clearSceneStep.countdownEnd.reportBar.resumeWalk :=
      congrArg Host.Outcome.next ((if_pos h).trans (takeSceneStep_countdown h))
    have hend : s.clearSceneStep.countdownEnd
        = s.clearSceneStep.slotTaken.takeTarget target s.scenes.slot.isSome s.bnd.isLoop := by
      rw [countdownEnd_eq, ← htarget, ← target_fromSlot]; rfl
    obtain ⟨q, hq⟩ := takeTarget_taken s.clearSceneStep.slotTaken target s.scenes.slot.isSome s.bnd.isLoop
    rw [← hend] at hq
    have ht := sceneStepTaken_of_moves (s := s) hq.moves
    refine ⟨_, hexec, ht.goesOn, ?_, ?_, ht.mem, ht.clock, ht.layers, ht.sup, fun h => ?_, fun n h => ⟨fun h1 => ?_,
      fun h1 h2 => ?_, fun h1 h2 h3 => ?_⟩⟩
    · rw [ht.scenes, hq.table]; rfl
    · rw [ht.scenes, hq.slot rfl]
    · obtain ⟨he, htr⟩ := hq.none h
      rw [ht.scenes, he]
      exact ⟨rfl, rfl, rfl, ht.tracks.trans htr⟩
    · obtain ⟨he, htr⟩ := hq.invalid n h h1
      rw [ht.scenes, he]
      exact ⟨rfl, rfl, rfl, ht.tracks.trans htr⟩
    · obtain ⟨he, hm⟩ := hq.applied n h h1 h2
      rw [ht.scenes, he]
      exact ⟨rfl, rfl, rfl, fun k => by rw [ht.track]; exact hm k⟩
    · obtain ⟨he, htr⟩ := hq.due n h h1 h2 (by simpa using h3)
      rw [ht.scenes, he]
      exact ⟨rfl, ht.tracks.trans htr⟩
  · exact congrArg Host.Outcome.next (if_neg h)
  · intro r
    have hexec : exec .dueSceneApply s = .next s.clearSceneStep.dueApply.reportBar.resumeWalk :=
      congrArg Host.Outcome.next ((if_pos h).trans (takeSceneStep_due h))
    cases hv : r.valid with
    | true =>
      have he := dueApply_valid (s := s.clearSceneStep) hd hv
      have ht := sceneStepTaken_of_moves (s := s) (u := s.clearSceneStep.dueApply) (by
        rw [he]; exact applyScene_moves ..)
      have hm : ∀ k, (s.clearSceneStep.dueApply.track k).mute = sceneFlag r s k := fun k => by
        rw [he]; exact applyScene_mute ..
      refine ⟨_, hexec, ht.goesOn, ?_, ht.mem, ht.clock, ht.layers, ht.sup, ?_, fun _ => ?_, fun e => absurd e (by simp)⟩
      · rw [ht.scenes]; rfl
      · rw [ht.scenes]; rfl
      · rw [ht.scenes]
        exact ⟨rfl, rfl, rfl, fun k => by rw [ht.track]; exact hm k⟩
    | false =>
      have he := dueApply_invalid (s := s.clearSceneStep) hd hv
      have ht := sceneStepTaken_of_moves (s := s) (u := s.clearSceneStep.dueApply) (by
        rw [he]; exact endScenes_moves ..)
      refine ⟨_, hexec, ht.goesOn, ?_, ht.mem, ht.clock, ht.layers, ht.sup, ?_, fun e => absurd e (by simp), fun _ => ?_⟩
      · rw [ht.scenes]; rfl
      · rw [ht.scenes]; rfl
      · rw [ht.scenes]
        refine ⟨rfl, rfl, rfl, ht.tracks.trans ?_⟩
        rw [he]; exact endScenes_tracks ..
  · intro r act v hvalid
    have hact : act = fun w k => w.sceneAction (r.actions.get k) k := by
      funext w k
      unfold act State.sceneAction
      rw [if_congr (State.trackState_empty (s := w) (t := k)) rfl rfl]
      cases r.actions.get k <;> rfl
    have hv : v = s.sceneActions r := by
      unfold v State.sceneActions
      rw [hact]
    clear_value v
    subst hv
    have hdo : s.doAction (.scene n) = (.ok, s.applyScene n .cue false) := if_pos hvalid
    have hvo := sceneActions_voicesOnly s r
    have hmute := sceneActions_mute s r
    refine ⟨s.muteFlags ^^^ (s.sceneActions r).muteFlags, (s.sceneActions r).muteFlags, ?_, fun k => ⟨hmute k, hvo.stack k,
      ?_, ?_⟩, hvo.layers, hvo.mem, hvo.clock, hvo.cues, hvo.bnd, hvo.pool, hvo.head0, hvo.head1, hvo.sup⟩
    · rw [hdo, applyScene_eq, Scene.reportCode_bars]
      rfl
    · exact (getLsbD_trackFlags _ k).trans (hmute k)
    · rw [BitVec.getLsbD_xor]
      unfold State.muteFlags
      rw [getLsbD_trackFlags, getLsbD_trackFlags, hmute]

end Sys2Proof.Machine
end

