-- ==== Sys2Proof/Proofs/Frees.lean ====
section
/-! A layer record freed: what it takes from its track, the voices and the pool, and when L goes (R6, R9, R35, R134). -/

namespace Sys2Proof.Machine

theorem State.inUse_congr {s u : State} (h : u.layers = s.layers) : u.inUse = s.inUse := by
  have hl : u.layer = s.layer := funext fun x => State.layer_congr h x
  unfold State.inUse; rw [hl]

/-- A track without a layer. -/
def Track.without (r : Track) (x : LayerId) : Track :=
  { r with stack := r.stack.filter (· ≠ x), redo := r.redo.filter (· ≠ x) }

/-- A track whose span is absent where nothing needs it (R9). -/
def Track.trimmed (r : Track) : Track :=
  if r.stack = [] ∧ r.redo = [] ∧ r.reservations = 0 then { r with span := none, pass := 0, passSet := false } else r

/-- The state once layer x is freed, the loop length not yet looked at. -/
def State.dropped (s : State) (x : LayerId) (l : Layer) : State :=
  ((((s.unlist l.track x).freeBlocks (namedBlocks l.map)).setLayer x none).releaseVoice x).trimSpan l.track

theorem freeLayer_none {s : State} {x : LayerId} (h : s.layer x = none) : s.freeLayer x = s := by
  unfold State.freeLayer; rw [h]

theorem freeLayer_some {s : State} {x : LayerId} {l : Layer} (h : s.layer x = some l) :
    s.freeLayer x = if (s.dropped x l).inUse = [] then (s.dropped x l).clearLoop else s.dropped x l := by
  unfold State.freeLayer; rw [h]; rfl

/-! ### The loop length (R35) -/

theorem clearLoop_eq (s : State) :
    s.clearLoop = { s with clock := s.clearLoop.clock, link := s.clearLoop.link } := by
  unfold State.clearLoop
  split
  · rfl
  · rw [State.reportLoop, State.report_eq]

theorem clearLoop_loop (s : State) : s.clearLoop.clock.loop = none := by
  unfold State.clearLoop
  split
  · next h => exact h
  · unfold State.reportLoop; rw [State.report_clock]

theorem clearLoop_none {s : State} (h : s.clock.loop = none) : s.clearLoop = s := by
  unfold State.clearLoop; rw [h]

/-! ### What a free leaves, part by part -/

/-- A free changes the tracks, the layers, the pool and the mix as `dropped` does, and of the rest at most L and the reports. -/
theorem freeLayer_eq_dropped {s : State} {x : LayerId} {l : Layer} (h : s.layer x = some l) :
    s.freeLayer x = { s.dropped x l with clock := (s.freeLayer x).clock, link := (s.freeLayer x).link } := by
  rw [freeLayer_some h]
  split
  · exact clearLoop_eq _
  · rfl

theorem layer_dropped (s : State) (x : LayerId) (l : Layer) (y : LayerId) :
    (s.dropped x l).layer y = if y = x then none else s.layer y :=
  State.layer_setLayer ((s.unlist l.track x).freeBlocks (namedBlocks l.map)) x y none

theorem track_dropped (s : State) (x : LayerId) (l : Layer) (k : TrackId) :
    (s.dropped x l).track k = if k = l.track then ((s.track k).without x).trimmed else s.track k := by
  have h1 : ∀ j, (((s.unlist l.track x).freeBlocks (namedBlocks l.map)).setLayer x none |>.releaseVoice x).track j
      = if j = l.track then (s.track j).without x else s.track j := fun j => by
    refine (State.track_modTrack s l.track j fun r => r.without x).trans ?_
    split
    · next e => rw [e]
    · rfl
  refine (State.track_modTrack _ l.track k _).trans ?_
  rw [h1, h1, if_pos rfl]
  split
  · next e => rw [e]; rfl
  · rfl

theorem layer_freeLayer (s : State) (x y : LayerId) : (s.freeLayer x).layer y = if y = x then none else s.layer y := by
  cases h : s.layer x with
  | none =>
    rw [freeLayer_none h]
    split
    · next e => rw [e, h]
    · rfl
  | some l =>
    rw [freeLayer_eq_dropped h]
    exact layer_dropped s x l y

theorem track_freeLayer {s : State} {x : LayerId} {l : Layer} (h : s.layer x = some l) (k : TrackId) :
    (s.freeLayer x).track k = if k = l.track then ((s.track k).without x).trimmed else s.track k := by
  rw [freeLayer_eq_dropped h]
  exact track_dropped s x l k

theorem pool_freeLayer {s : State} {x : LayerId} {l : Layer} (h : s.layer x = some l) :
    (s.freeLayer x).pool = s.pool.release (namedBlocks l.map) := by
  rw [freeLayer_eq_dropped h]; rfl

theorem mix_freeLayer {s : State} {x : LayerId} {l : Layer} (h : s.layer x = some l) :
    (s.freeLayer x).mix = s.mix.drop x := by
  rw [freeLayer_eq_dropped h]; rfl

/-- What a free never touches. -/
theorem freeLayer_same (s : State) (x : LayerId) :
    s.freeLayer x = { s with
      clock := (s.freeLayer x).clock, tracks := (s.freeLayer x).tracks, layers := (s.freeLayer x).layers
      pool := (s.freeLayer x).pool, mix := (s.freeLayer x).mix, link := (s.freeLayer x).link } := by
  cases h : s.layer x with
  | none => rw [freeLayer_none h]
  | some l => rw [freeLayer_eq_dropped h]; rfl

/-- From s to u layers are freed: nothing changes but tracks, layers, the pool, the mix, L and the reports. -/
structure FreesOnly (s u : State) : Prop where
  same : u = { s with
    clock := u.clock, tracks := u.tracks, layers := u.layers, pool := u.pool, mix := u.mix, link := u.link }
  clock : u.clock = { s.clock with loop := u.clock.loop, bar := u.clock.bar, loopPos := u.clock.loopPos }
  mix : u.mix = { s.mix with voices := u.mix.voices, wait := u.mix.wait }
  link : u.link = { s.link with tx := u.link.tx, lost := u.link.lost }
  sub : ∀ y, s.layer y = none → u.layer y = none
  kept : ∀ y m, u.layer y = some m → s.layer y = some m

theorem FreesOnly.refl (s : State) : FreesOnly s s := ⟨rfl, rfl, rfl, rfl, fun _ h => h, fun _ _ h => h⟩

theorem FreesOnly.trans {s t u : State} (h : FreesOnly s t) (k : FreesOnly t u) : FreesOnly s u :=
  ⟨k.same.trans (by rw [h.same]), k.clock.trans (by rw [h.clock]), k.mix.trans (by rw [h.mix]),
    k.link.trans (by rw [h.link]), fun y hy => k.sub y (h.sub y hy), fun y m hm => h.kept y m (k.kept y m hm)⟩

theorem FreesOnly.foldl {α : Type} {f : State → α → State} (h : ∀ s x, FreesOnly s (f s x)) (l : List α) (s : State) :
    FreesOnly s (l.foldl f s) :=
  foldl_invariant (I := FreesOnly s) (fun _ x hu => hu.trans (h _ x)) l s (FreesOnly.refl s)

theorem report_freesOnly (s : State) (r : Report) (p : List Byte) : FreesOnly s (s.report r p) := by
  refine ⟨by rw [State.report_eq], by rw [State.report_clock], by rw [State.report_mix], (report_keeps ..).link, ?_, ?_⟩
  · exact fun y h => (State.layer_congr (State.report_layers ..) y).trans h
  · exact fun y m h => (State.layer_congr (State.report_layers ..) y).symm.trans h

theorem clearLoop_clock (s : State) :
    s.clearLoop.clock = { s.clock with
      loop := s.clearLoop.clock.loop, bar := s.clearLoop.clock.bar, loopPos := s.clearLoop.clock.loopPos } := by
  unfold State.clearLoop
  split
  · rfl
  · unfold State.reportLoop; rw [State.report_clock]

theorem clearLoop_freesOnly (s : State) : FreesOnly s s.clearLoop := by
  refine ⟨?_, clearLoop_clock s, ?_, (clearLoop_keeps s).link, ?_, ?_⟩ <;> rw [clearLoop_eq]
  · exact fun y h => h
  · exact fun y m h => h

theorem dropped_freesOnly {s : State} {x : LayerId} {l : Layer} : FreesOnly s (s.dropped x l) := by
  refine ⟨rfl, rfl, rfl, rfl, fun y h => ?_, fun y m h => ?_⟩
  · rw [layer_dropped]; split
    · rfl
    · exact h
  · rw [layer_dropped] at h
    split at h
    · exact absurd h (by simp)
    · exact h

theorem freeLayer_freesOnly (s : State) (x : LayerId) : FreesOnly s (s.freeLayer x) := by
  cases h : s.layer x with
  | none => rw [freeLayer_none h]; exact FreesOnly.refl s
  | some l =>
    rw [freeLayer_some h]
    split
    · exact dropped_freesOnly.trans (clearLoop_freesOnly _)
    · exact dropped_freesOnly

theorem discardLayer_freesOnly (s : State) (t : TrackId) (x : LayerId) (reason : DiscardReason) :
    FreesOnly s (s.discardLayer t x reason) := (freeLayer_freesOnly s x).trans (report_freesOnly ..)

section
variable {s u : State} (h : FreesOnly s u)
include h

theorem FreesOnly.mem : u.mem = s.mem := (congrArg State.mem h.same :)
theorem FreesOnly.head0 : u.head0 = s.head0 := (congrArg State.head0 h.same :)
theorem FreesOnly.head1 : u.head1 = s.head1 := (congrArg State.head1 h.same :)
theorem FreesOnly.bounce : u.bounce = s.bounce := (congrArg State.bounce h.same :)
theorem FreesOnly.scenes : u.scenes = s.scenes := (congrArg State.scenes h.same :)
theorem FreesOnly.tones : u.tones = s.tones := (congrArg State.tones h.same :)
theorem FreesOnly.sup : u.sup = s.sup := (congrArg State.sup h.same :)
theorem FreesOnly.cues : u.cues = s.cues := (congrArg State.cues h.same :)
theorem FreesOnly.bnd : u.bnd = s.bnd := (congrArg State.bnd h.same :)

theorem FreesOnly.inUse_nil (hs : s.inUse = []) : u.inUse = [] :=
  State.inUse_eq_nil.2 fun y => h.sub y (State.inUse_eq_nil.1 hs y)

end

/-! ### The loop length through frees (R35) -/

/-- L goes with the last layer record, and stays while one is left. -/
structure LoopFollows (s u : State) : Prop where
  frees : ∀ y, s.layer y = none → u.layer y = none
  absent : s.clock.loop = none → u.clock.loop = none
  kept : u.inUse ≠ [] → u.clock = s.clock
  cleared : s.inUse ≠ [] → u.inUse = [] → u.clock.loop = none

theorem LoopFollows.refl (s : State) : LoopFollows s s := ⟨fun _ h => h, id, fun _ => rfl, fun h k => absurd k h⟩

theorem LoopFollows.inUse {s u : State} (h : LoopFollows s u) (hs : s.inUse = []) : u.inUse = [] :=
  State.inUse_eq_nil.2 fun y => h.frees y (State.inUse_eq_nil.1 hs y)

theorem LoopFollows.trans {s t u : State} (h : LoopFollows s t) (k : LoopFollows t u) : LoopFollows s u where
  frees y hy := k.frees y (h.frees y hy)
  absent hs := k.absent (h.absent hs)
  kept hu := (k.kept hu).trans (h.kept fun e => hu (k.inUse e))
  cleared hs hu := by
    by_cases ht : t.inUse = []
    · exact k.absent (h.cleared hs ht)
    · exact k.cleared ht hu

theorem LoopFollows.foldl {α : Type} {f : State → α → State} (h : ∀ s x, LoopFollows s (f s x)) (l : List α) (s : State) :
    LoopFollows s (l.foldl f s) :=
  foldl_invariant (I := LoopFollows s) (fun _ x hu => hu.trans (h _ x)) l s (LoopFollows.refl s)

theorem loopFollows_of_same {s u : State} (hl : u.layers = s.layers) (hc : u.clock = s.clock) : LoopFollows s u where
  frees y hy := (State.layer_congr hl y).trans hy
  absent hs := by rw [hc, hs]
  kept _ := hc
  cleared hs hu := absurd (State.inUse_eq_nil.2 fun y =>
    (State.layer_congr hl y).symm.trans (State.inUse_eq_nil.1 hu y)) hs

theorem freeLayer_loopFollows (s : State) (x : LayerId) : LoopFollows s (s.freeLayer x) := by
  cases h : s.layer x with
  | none => rw [freeLayer_none h]; exact LoopFollows.refl s
  | some l =>
    have hf := freeLayer_freesOnly s x
    rw [freeLayer_some h] at hf ⊢
    by_cases hu : (s.dropped x l).inUse = []
    · rw [if_pos hu] at hf ⊢
      refine ⟨hf.sub, fun _ => clearLoop_loop _, fun hn => absurd ?_ hn, fun _ _ => clearLoop_loop _⟩
      exact (clearLoop_freesOnly _).inUse_nil hu
    · rw [if_neg hu] at hf ⊢
      exact ⟨hf.sub, id, fun _ => rfl, fun _ h' => absurd h' hu⟩

theorem report_loopFollows (s : State) (r : Report) (p : List Byte) : LoopFollows s (s.report r p) :=
  loopFollows_of_same (State.report_layers ..) (State.report_clock ..)

theorem discardLayer_loopFollows (s : State) (t : TrackId) (x : LayerId) (reason : DiscardReason) :
    LoopFollows s (s.discardLayer t x reason) := (freeLayer_loopFollows s x).trans (report_loopFollows ..)

end Sys2Proof.Machine
end

