-- ==== Sys2Proof/Proofs/FreeFolds.lean ====
section
/-! Layer records freed one after another: a warm reset's cleanup, a CLEAR, the discard of a redo list (R18, R70, R171). -/

namespace Sys2Proof.Machine

/-- A step that frees a layer, with a report or without. -/
def FreesEach (f : State → LayerId → State) : Prop := ∀ s x, f s x = { s.freeLayer x with link := (f s x).link }

theorem freesEach_freeLayer : FreesEach State.freeLayer := fun _ _ => rfl

theorem freesEach_discardLayer (t : TrackId) (reason : DiscardReason) :
    FreesEach fun s x => s.discardLayer t x reason := fun _ _ => State.report_eq ..

section
variable {f : State → LayerId → State} (hf : FreesEach f)
include hf

theorem FreesEach.layer (s : State) (x y : LayerId) : (f s x).layer y = if y = x then none else s.layer y := by
  rw [hf]; exact layer_freeLayer s x y

theorem FreesEach.tracks (s : State) (x : LayerId) : (f s x).tracks = (s.freeLayer x).tracks := by rw [hf]
theorem FreesEach.pool (s : State) (x : LayerId) : (f s x).pool = (s.freeLayer x).pool := by rw [hf]
theorem FreesEach.mix (s : State) (x : LayerId) : (f s x).mix = (s.freeLayer x).mix := by rw [hf]

theorem FreesEach.foldl_layer (l : List LayerId) (s : State) (y : LayerId) :
    (l.foldl f s).layer y = if y ∈ l then none else s.layer y := by
  induction l generalizing s with
  | nil => rfl
  | cons x l ih =>
    rw [List.foldl_cons, ih, hf.layer]
    by_cases h : y ∈ l
    · rw [if_pos h, if_pos (List.mem_cons_of_mem _ h)]
    · rw [if_neg h]
      exact if_congr (by simp [h]) rfl rfl

/-- The blocks of the freed layers join the free list in their order (R97). -/
theorem FreesEach.foldl_free (l : List LayerId) (hl : l.Nodup) (s : State) :
    (l.foldl f s).pool.free
      = s.pool.free ++ l.flatMap fun x => namedBlocks (((s.layer x).map (·.map)).getD []) := by
  induction l generalizing s with
  | nil => exact (List.append_nil _).symm
  | cons x l ih =>
    obtain ⟨hx, hl⟩ := List.nodup_cons.1 hl
    have hsame : ∀ y ∈ l, (f s x).layer y = s.layer y := fun y hy => by
      rw [hf.layer, if_neg fun e : y = x => hx (e ▸ hy)]
    have hfirst : (f s x).pool.free = s.pool.free ++ namedBlocks (((s.layer x).map (·.map)).getD []) := by
      rw [hf.pool]
      cases h : s.layer x with
      | none => rw [freeLayer_none h]; exact (List.append_nil _).symm
      | some m => rw [pool_freeLayer h]; rfl
    rw [List.foldl_cons, ih hl, hfirst, List.flatMap_cons, List.append_assoc]
    congr 2
    exact List.flatMap_congr fun y hy => by rw [hsame y hy]

/-- No freed layer holds a voice or waits for one (R134). -/
theorem FreesEach.foldl_silent (l : List LayerId) (s : State) {x : LayerId} (hx : x ∈ l) (h : s.layer x ≠ none ∨ s.mix.Silent x) :
    (l.foldl f s).mix.Silent x := by
  have hkeep : ∀ (u : State) (y : LayerId), u.mix.Silent x → (f u y).mix.Silent x := fun u y hu => by
    rw [hf.mix]
    cases hy : u.layer y with
    | none => rw [freeLayer_none hy]; exact hu
    | some m => rw [mix_freeLayer hy]; exact hu.drop y
  refine foldl_reaches (I := fun u => u.layer x ≠ none ∨ u.mix.Silent x) (P := fun u => u.mix.Silent x) (x := x)
    (fun u y hu => ?_) (fun u hu => ?_) (fun u y _ hp => hkeep u y hp) l hx s h
  · by_cases e : y = x
    · subst e
      refine Or.inr ?_
      rcases hu with hu | hu
      · obtain ⟨m, hm⟩ := Option.ne_none_iff_exists'.1 hu
        rw [hf.mix, mix_freeLayer hm]
        exact Mix.silent_drop_same ..
      · exact hkeep u y hu
    · rw [hf.layer, if_neg fun e' => e e'.symm]
      exact hu.imp_right (hkeep u y)
  · rcases hu with hu | hu
    · obtain ⟨m, hm⟩ := Option.ne_none_iff_exists'.1 hu
      rw [hf.mix, mix_freeLayer hm]
      exact Mix.silent_drop_same ..
    · exact hkeep u x hu

/-- A track none of whose layers is freed stays. -/
theorem FreesEach.foldl_track_other (l : List LayerId) (s : State) {k : TrackId}
    (h : ∀ x ∈ l, (s.layer x).map (·.track) ≠ some k) : (l.foldl f s).track k = s.track k := by
  induction l generalizing s with
  | nil => rfl
  | cons x l ih =>
    have hstep : (f s x).track k = s.track k := by
      rw [State.track_congr (hf.tracks s x)]
      cases hx : s.layer x with
      | none => rw [freeLayer_none hx]
      | some m =>
        rw [track_freeLayer hx, if_neg fun e => h x List.mem_cons_self (by rw [hx, e]; rfl)]
    rw [List.foldl_cons, ih, hstep]
    intro y hy
    rw [hf.layer]
    split
    · simp
    · exact h y (List.mem_cons_of_mem _ hy)

end

/-! ### A track whose layers are freed -/

/-- Layer y is one of the track that the list frees. -/
def State.freesOf (s : State) (l : List LayerId) (k : TrackId) (y : LayerId) : Bool :=
  decide (y ∈ l) && decide ((s.layer y).map (·.track) = some k)

/-- A track's record behind frees: its lists without the freed layers, its span trimmed or not, and the rest as it was. -/
structure TrackFreed (s u : State) (l : List LayerId) (k : TrackId) : Prop where
  stack : (u.track k).stack = (s.track k).stack.filter fun y => !s.freesOf l k y
  redo : (u.track k).redo = (s.track k).redo.filter fun y => !s.freesOf l k y
  rest : u.track k = { s.track k with
    stack := (u.track k).stack, redo := (u.track k).redo, span := (u.track k).span, pass := (u.track k).pass
    passSet := (u.track k).passSet }
  span : (u.track k).span = (s.track k).span ∨ (u.track k).stack = [] ∧ (u.track k).redo = [] ∧ (u.track k).span = none

theorem Track.trimmed_lists (r : Track) : r.trimmed.stack = r.stack ∧ r.trimmed.redo = r.redo := by
  unfold Track.trimmed; split <;> exact ⟨rfl, rfl⟩

theorem Track.trimmed_rest (r : Track) :
    r.trimmed = { r with span := r.trimmed.span, pass := r.trimmed.pass, passSet := r.trimmed.passSet } := by
  unfold Track.trimmed; split <;> rfl

theorem Track.trimmed_span (r : Track) :
    r.trimmed.span = r.span ∨ r.stack = [] ∧ r.redo = [] ∧ r.trimmed.span = none := by
  unfold Track.trimmed
  split
  · next h => exact Or.inr ⟨h.1, h.2.1, rfl⟩
  · exact Or.inl rfl

theorem TrackFreed.refl (s : State) (k : TrackId) : TrackFreed s s [] k := by
  refine ⟨?_, ?_, rfl, Or.inl rfl⟩ <;> exact (List.filter_eq_self.2 fun _ _ => by simp [State.freesOf]).symm

/-- The free of one layer, seen from a track. -/
theorem trackFreed_freeLayer (s : State) (x : LayerId) (k : TrackId) : TrackFreed s (s.freeLayer x) [x] k := by
  cases h : s.layer x with
  | none =>
    have hp : ∀ y, s.freesOf [x] k y = false := fun y => by
      unfold State.freesOf
      by_cases e : y = x
      · simp [e, h]
      · simp [e]
    rw [freeLayer_none h]
    refine ⟨?_, ?_, rfl, Or.inl rfl⟩ <;> exact (List.filter_eq_self.2 fun y _ => by simp [hp]).symm
  | some m =>
    by_cases e : k = m.track
    · have hp : (fun y => !s.freesOf [x] k y) = fun y => decide (y ≠ x) := by
        funext y
        unfold State.freesOf
        by_cases ey : y = x
        · simp [ey, h, e]
        · simp [ey]
      have ht : (s.freeLayer x).track k = ((s.track k).without x).trimmed := by rw [track_freeLayer h, if_pos e]
      obtain ⟨h1, h2⟩ := Track.trimmed_lists ((s.track k).without x)
      refine ⟨?_, ?_, ?_, ?_⟩
      · rw [ht, h1, hp]; rfl
      · rw [ht, h2, hp]; rfl
      · rw [ht, Track.trimmed_rest]; rfl
      · rw [ht, h1, h2]; exact Track.trimmed_span _
    · have hp : ∀ y, s.freesOf [x] k y = false := fun y => by
        unfold State.freesOf
        by_cases ey : y = x
        · simp [ey, h, Ne.symm e]
        · simp [ey]
      have ht : (s.freeLayer x).track k = s.track k := by rw [track_freeLayer h, if_neg e]
      refine ⟨?_, ?_, by rw [ht], by rw [ht]; exact Or.inl rfl⟩ <;>
        rw [ht] <;> exact (List.filter_eq_self.2 fun y _ => by simp [hp]).symm

theorem TrackFreed.cons {s t u : State} {x : LayerId} {l : List LayerId} {k : TrackId} (hx : x ∉ l)
    (hl : ∀ y, t.layer y = if y = x then none else s.layer y) (h : TrackFreed s t [x] k) (g : TrackFreed t u l k) :
    TrackFreed s u (x :: l) k := by
  have hp : ∀ y, (!s.freesOf (x :: l) k y) = ((!t.freesOf l k y) && !s.freesOf [x] k y) := fun y => by
    unfold State.freesOf
    by_cases e : y = x
    · simp [e, hx]
    · have : t.layer y = s.layer y := by rw [hl, if_neg e]
      simp [e, this]
  have hfilter : ∀ L : List LayerId, (L.filter fun y => !s.freesOf [x] k y).filter (fun y => !t.freesOf l k y)
      = L.filter fun y => !s.freesOf (x :: l) k y := fun L => by
    rw [List.filter_filter]
    exact List.filter_congr fun y _ => (hp y).symm
  refine ⟨?_, ?_, ?_, ?_⟩
  · rw [g.stack, h.stack, hfilter]
  · rw [g.redo, h.redo, hfilter]
  · rw [g.rest, h.rest]
  · rcases g.span with e | e
    · rw [e]
      rcases h.span with e' | ⟨h1, h2, h3⟩
      · exact Or.inl e'
      · refine Or.inr ⟨?_, ?_, h3⟩
        · rw [g.stack, h1]; rfl
        · rw [g.redo, h2]; rfl
    · exact Or.inr e

theorem FreesEach.foldl_track {f : State → LayerId → State} (hf : FreesEach f) (l : List LayerId) (hl : l.Nodup) (s : State)
    (k : TrackId) : TrackFreed s (l.foldl f s) l k := by
  induction l generalizing s with
  | nil => exact TrackFreed.refl s k
  | cons x l ih =>
    obtain ⟨hx, hl⟩ := List.nodup_cons.1 hl
    have hone := trackFreed_freeLayer s x k
    have htr := State.track_congr (hf.tracks s x) k
    refine TrackFreed.cons hx (hf.layer s x) ⟨?_, ?_, ?_, ?_⟩ (ih hl (f s x)) <;> rw [htr]
    · exact hone.stack
    · exact hone.redo
    · exact hone.rest
    · exact hone.span

end Sys2Proof.Machine
end

