-- ==== Sys2Proof/Proofs/WarmReset.lean ====
section
/-! WARM_RESET_END (R27, R47, R66, R107, R127, R156, R171, R178, R193). -/

namespace Sys2Proof.Machine

/-! ### The cleanup's folds -/

theorem layer_setPin (s : State) (pin : Option Byte) (x y : LayerId) :
    (s.setPin pin x).layer y = if y = x then (s.layer y).map (fun l => { l with pin := pin }) else s.layer y := by
  refine (State.layer_modLayer s x y fun l => { l with pin := pin }).trans ?_
  split
  · next e => rw [e]
  · rfl

theorem foldl_setPin_layer (pin : Option Byte) (l : List LayerId) (s : State) (y : LayerId) :
    (l.foldl (fun s x => s.setPin pin x) s).layer y
      = if y ∈ l then (s.layer y).map (fun l => { l with pin := pin }) else s.layer y := by
  induction l generalizing s with
  | nil => rfl
  | cons x l ih =>
    rw [List.foldl_cons, ih, layer_setPin]
    by_cases hx : y = x
    · have hm : y ∈ x :: l := by rw [hx]; exact List.mem_cons_self
      rw [if_pos hx, if_pos hm]
      split
      · cases s.layer y <;> rfl
      · rfl
    · rw [if_neg hx]
      exact if_congr (by simp [hx]) rfl rfl

theorem foldl_setPin_same (pin : Option Byte) (l : List LayerId) (s : State) :
    l.foldl (fun s x => s.setPin pin x) s = { s with layers := (l.foldl (fun s x => s.setPin pin x) s).layers } :=
  foldl_invariant (I := fun u => u = { s with layers := u.layers }) (fun u x hu => by
    rw [hu]; rfl) l s rfl

/-- The pins of every layer in use cleared. -/
theorem foldl_setPin_inUse (s : State) (y : LayerId) :
    (s.inUse.foldl (fun s x => s.setPin none x) s).layer y = (s.layer y).map fun l => { l with pin := none } := by
  rw [foldl_setPin_layer]
  split
  · rfl
  · next h =>
    have hn : s.layer y = none := by
      by_contra hc
      exact h (State.mem_inUse.2 hc)
    rw [hn]; rfl

theorem trimSpan_eq (s : State) (t : TrackId) : s.trimSpan t = s.setTrack t (s.track t).trimmed := rfl

theorem foldl_trimSpan (s : State) :
    TracksOnly s ((List.finRange 8).foldl State.trimSpan s)
      ∧ ∀ k, ((List.finRange 8).foldl State.trimSpan s).track k = (s.track k).trimmed := by
  have he : State.trimSpan = fun u k => u.setTrack k (u.track k).trimmed := rfl
  obtain ⟨h1, h2⟩ := foldl_setTrack (s := s) (g := fun u k => (u.track k).trimmed) (fun u k _ e => by rw [e])
    (List.finRange 8) (List.nodup_finRange 8) s (TracksOnly.refl s) fun _ _ => rfl
  rw [he]
  exact ⟨h1, fun k => by rw [h2 k, if_pos (List.mem_finRange k)]⟩

/-! ### The FILLING layers (R27, R107) -/

theorem mem_fillingLayers {s : State} {x : LayerId} :
    x ∈ s.fillingLayers ↔ (s.layer x).map (·.state) = some .filling := by
  unfold State.fillingLayers State.filling
  rw [List.mem_filter, State.mem_inUse]
  cases s.layer x <;> simp

theorem nodup_fillingLayers (s : State) : s.fillingLayers.Nodup :=
  ((List.nodup_finRange 56).filter _).filter _

theorem sum_map_filter {α : Type} (p : α → Bool) (f : α → Nat) (l : List α) :
    ((l.filter p).map f).sum = (l.map fun x => if p x then f x else 0).sum := by
  induction l with
  | nil => rfl
  | cons x l ih =>
    cases hp : p x with
    | true => simp [hp, ih]
    | false => simp [hp, ih]

/-- The blocks the cleanup returns, record by record. -/
theorem cleanupBlocks_eq (s : State) :
    s.cleanupBlocks = ((List.finRange 56).map fun x => if s.filling x then s.blocksOf x else 0).sum := by
  unfold State.cleanupBlocks State.fillingLayers State.inUse
  rw [sum_map_filter, sum_map_filter]
  congr 2
  funext x
  unfold State.filling
  cases s.layer x <;> rfl

/-- The state with the heads idle and the FILLING layers freed. -/
def State.unfilled (s : State) : State := s.fillingLayers.foldl State.freeLayer { s with head0 := none, head1 := none }

theorem unfilled_frees (s : State) : FreesOnly { s with head0 := none, head1 := none } s.unfilled :=
  FreesOnly.foldl freeLayer_freesOnly _ _

theorem unfilled_loopFollows (s : State) : LoopFollows { s with head0 := none, head1 := none } s.unfilled :=
  LoopFollows.foldl freeLayer_loopFollows _ _

theorem layer_unfilled (s : State) (y : LayerId) :
    s.unfilled.layer y = if y ∈ s.fillingLayers then none else s.layer y :=
  freesEach_freeLayer.foldl_layer _ _ y

theorem track_unfilled (s : State) (k : TrackId) :
    TrackFreed { s with head0 := none, head1 := none } s.unfilled s.fillingLayers k :=
  freesEach_freeLayer.foldl_track _ (nodup_fillingLayers s) _ k

/-- The cleanup's tables: the FILLING layers freed, the pins cleared, the tracks' positions gone. -/
def State.cleaned (s : State) : State :=
  let s2 := s.unfilled.inUse.foldl (fun s x => s.setPin none x) s.unfilled
  (List.finRange 8).foldl State.trimSpan { s2 with tracks := s2.tracks.map Track.warm }

theorem cleanup_eq_cleaned (s : State) :
    s.cleanup = { s.cleaned with
      clock := s.cleaned.clock.warm
      cues := { list := [], nextId := 0 }
      bounce := { queue := [], nextId := 0, threshold := s.cleaned.bounce.threshold, headFresh := false }
      mix := s.cleaned.mix.clear.nextFrame
      scenes := s.cleaned.scenes.idle
      tones := s.cleaned.tones.warm
      pool := { s.cleaned.pool with scan := none }
      bnd := {} } := by
  unfold State.cleanup State.cleaned State.unfilled
  rfl

theorem cleaned_same (s : State) :
    s.cleaned = { s.unfilled with tracks := s.cleaned.tracks, layers := s.cleaned.layers } := by
  have h1 := foldl_setPin_same none s.unfilled.inUse s.unfilled
  have h2 := (foldl_trimSpan { s.unfilled.inUse.foldl (fun s x => s.setPin none x) s.unfilled with
    tracks := (s.unfilled.inUse.foldl (fun s x => s.setPin none x) s.unfilled).tracks.map Track.warm }).1
  unfold State.cleaned
  dsimp only
  generalize (List.finRange 8).foldl State.trimSpan _ = v at h2
  rw [TracksOnly, h1] at h2
  rw [h2]

theorem layer_cleaned (s : State) (y : LayerId) :
    s.cleaned.layer y = (s.unfilled.layer y).map fun l => { l with pin := none } := by
  have h2 := (foldl_trimSpan { s.unfilled.inUse.foldl (fun s x => s.setPin none x) s.unfilled with
    tracks := (s.unfilled.inUse.foldl (fun s x => s.setPin none x) s.unfilled).tracks.map Track.warm }).1
  have hl : s.cleaned.layers = (s.unfilled.inUse.foldl (fun s x => s.setPin none x) s.unfilled).layers := by
    unfold State.cleaned
    exact (congrArg State.layers h2 :)
  rw [State.layer_congr hl, foldl_setPin_inUse]

theorem track_cleaned (s : State) (k : TrackId) : s.cleaned.track k = (s.unfilled.track k).warm.trimmed := by
  have h2 := (foldl_trimSpan { s.unfilled.inUse.foldl (fun s x => s.setPin none x) s.unfilled with
    tracks := (s.unfilled.inUse.foldl (fun s x => s.setPin none x) s.unfilled).tracks.map Track.warm }).2 k
  have hs : (s.unfilled.inUse.foldl (fun s x => s.setPin none x) s.unfilled).tracks = s.unfilled.tracks := by
    rw [foldl_setPin_same]
  have hw : State.track { s.unfilled.inUse.foldl (fun s x => s.setPin none x) s.unfilled with
      tracks := (s.unfilled.inUse.foldl (fun s x => s.setPin none x) s.unfilled).tracks.map Track.warm } k
      = (s.unfilled.track k).warm := by
    rw [hs]
    exact Vector.getElem_map ..
  unfold State.cleaned
  dsimp only
  rw [h2, hw]

/-- A track behind the cleanup: its lists lose the FILLING layers, its span goes with the last layer, its settings stay. -/
theorem track_cleaned_fields (s : State) (k : TrackId) :
    (s.cleaned.track k).stack = (s.track k).stack.filter
        (fun x => decide ((s.layer x).map (fun l => (l.state, l.track)) ≠ some (.filling, k)))
      ∧ (s.cleaned.track k).redo = (s.track k).redo.filter
        (fun x => decide ((s.layer x).map (fun l => (l.state, l.track)) ≠ some (.filling, k)))
      ∧ (s.cleaned.track k).span
        = (if (s.cleaned.track k).stack = [] ∧ (s.cleaned.track k).redo = [] then none else (s.track k).span)
      ∧ (s.cleaned.track k).reservations = 0 ∧ (s.cleaned.track k).pass = 0 ∧ (s.cleaned.track k).remaining = 0
      ∧ (s.cleaned.track k).mute = (s.track k).mute ∧ (s.cleaned.track k).oneShot = (s.track k).oneShot
      ∧ (s.cleaned.track k).gain = (s.track k).gain ∧ (s.cleaned.track k).pan = (s.track k).pan
      ∧ (s.cleaned.track k).mask = (s.track k).mask := by
  have hf := track_unfilled s k
  have hrest := hf.rest
  have hp : (fun y => !State.freesOf { s with head0 := none, head1 := none } s.fillingLayers k y)
      = fun x => decide ((s.layer x).map (fun l => (l.state, l.track)) ≠ some (.filling, k)) := by
    funext y
    unfold State.freesOf
    rw [Bool.eq_iff_iff, Bool.not_eq_true', Bool.and_eq_false_iff, decide_eq_false_iff_not, decide_eq_false_iff_not,
      decide_eq_true_iff, mem_fillingLayers]
    change ¬(s.layer y).map _ = _ ∨ ¬(s.layer y).map _ = _ ↔ _
    cases s.layer y with
    | none => simp
    | some l => simp only [Option.map_some, Option.some.injEq, ne_eq, Prod.mk.injEq]; tauto
  have hstack := hf.stack
  have hredo := hf.redo
  rw [hp] at hstack hredo
  have hspan : (s.cleaned.track k).span
      = if (s.unfilled.track k).stack = [] ∧ (s.unfilled.track k).redo = [] then none else (s.unfilled.track k).span := by
    rw [track_cleaned]
    unfold Track.trimmed Track.warm
    dsimp only
    by_cases he : (s.unfilled.track k).stack = [] ∧ (s.unfilled.track k).redo = []
    · rw [if_pos he, if_pos ⟨he.1, he.2, rfl⟩]
    · rw [if_neg he, if_neg fun h => he ⟨h.1, h.2.1⟩]
  have hlists : (s.cleaned.track k).stack = (s.unfilled.track k).stack ∧ (s.cleaned.track k).redo = (s.unfilled.track k).redo := by
    rw [track_cleaned]; exact Track.trimmed_lists _
  have hcleaned : s.cleaned.track k = { (s.unfilled.track k).warm with
      span := (s.cleaned.track k).span, pass := (s.cleaned.track k).pass, passSet := (s.cleaned.track k).passSet } := by
    rw [track_cleaned]; exact Track.trimmed_rest _
  have hpass : (s.cleaned.track k).pass = 0 := by
    rw [track_cleaned]
    unfold Track.trimmed
    split <;> rfl
  refine ⟨hlists.1.trans hstack, hlists.2.trans hredo, ?_, (congrArg Track.reservations hcleaned :), hpass,
    (congrArg Track.remaining hcleaned :), ?_, ?_, ?_, ?_, ?_⟩
  · rw [hspan, hlists.1, hlists.2]
    split
    · rfl
    · next he =>
      rcases hf.span with h | h
      · exact h
      · exact absurd ⟨h.1, h.2.1⟩ he
  · exact (congrArg Track.mute hcleaned : _).trans (congrArg Track.mute hrest :)
  · exact (congrArg Track.oneShot hcleaned : _).trans (congrArg Track.oneShot hrest :)
  · exact (congrArg Track.gain hcleaned : _).trans (congrArg Track.gain hrest :)
  · exact (congrArg Track.pan hcleaned : _).trans (congrArg Track.pan hrest :)
  · exact (congrArg Track.mask hcleaned : _).trans (congrArg Track.mask hrest :)

/-! ### The reset left, and HELLO (R171, R172) -/

/-- The state in which HELLO is formed. -/
def State.warmLeft (s : State) : State :=
  State.leaveReset (State.resetEndCheck (State.unlatch { s.cleanup with pool := s.cleanup.pool.rebuild }))

theorem endWarm_eq (s : State) :
    s.endWarm = if s.warmLeft.hello.inUse = [] then (s.warmLeft.hello.reportReady s.cleanupBlocks 0).haltFromMemory .resetEnd
      else (s.warmLeft.hello.haltFromMemory .resetEnd).startScan s.cleanupBlocks := rfl

/-- HELLO as a frame (R172). -/
def State.helloFrame (s : State) : Frame :=
  { kind := 0x40, tag := 0
    payload := s.header ++ ([0x48, 0x0B, Config.revision, s.sup.causes.byte, s.sup.state.code, flagByte s.clock.loop.isSome,
      byte (s.clock.loop.getD 0)] ++ le2 s.clock.p
      ++ [byte s.clock.b, byte s.inUse.length, flagByte s.sup.low, flagByte s.sup.detection, flagByte s.sup.edgeMemory]) }

theorem hello_of_empty {s : State} (h : s.sup.state ≠ .reset) (hq : s.link.tx = []) :
    s.hello = { s with link := { s.link with tx := [s.helloFrame] } } := by
  have hn : s.link.reportsQueued < 16 := by unfold Link.reportsQueued; rw [hq]; exact Nat.zero_lt_succ _
  unfold State.hello
  rw [State.report_hello _ h hn, State.send, hq]
  rfl

theorem leaveReset_ready {s : State} (h : s.inUse = []) :
    s.leaveReset = { s with
      link := s.link.warm, sup := { s.sup with inForce := CauseSet.empty, state := .ready }
      clock := { s.clock with divider := s.clock.p - 1, dividerSet := true } } := if_pos h

theorem leaveReset_verifying {s : State} (h : s.inUse ≠ []) :
    s.leaveReset = { s with
      link := s.link.warm, sup := { s.sup with inForce := CauseSet.empty, state := .verifying } } := if_neg h

/-- What is left to do behind HELLO changes the supervisor's halt marks and its state, the divider, the scan and, by its
reports alone, the link. -/
structure WarmGoesOn (x t : State) : Prop where
  same : t = { x with clock := t.clock, pool := { x.pool with scan := t.pool.scan }, sup := t.sup, link := t.link }
  clock : t.clock = { x.clock with divider := t.clock.divider, dividerSet := t.clock.dividerSet }
  sup : t.sup = { x.sup with state := t.sup.state, latch := t.sup.latch, edgeMemory := t.sup.edgeMemory }
  link : t.link = { x.link with tx := t.link.tx, lost := t.link.lost }
  tx : x.link.tx <+: t.link.tx

theorem WarmGoesOn.refl (x : State) : WarmGoesOn x x := ⟨rfl, rfl, rfl, rfl, List.prefix_refl _⟩

theorem WarmGoesOn.trans {x y z : State} (h : WarmGoesOn x y) (k : WarmGoesOn y z) : WarmGoesOn x z :=
  ⟨k.same.trans (by rw [h.same]), k.clock.trans (by rw [h.clock]), k.sup.trans (by rw [h.sup]),
    k.link.trans (by rw [h.link]), h.tx.trans k.tx⟩

theorem report_goesOn (s : State) (r : Report) (p : List Byte) : WarmGoesOn s (s.report r p) := by
  refine ⟨by rw [State.report_eq], by rw [State.report_clock], by rw [State.report_sup], State.reportWith_link .., ?_⟩
  rcases State.reportWith_tx s s.header r p with h | ⟨-, h⟩
  · exact (show (s.report r p).link.tx = s.link.tx from h) ▸ List.prefix_refl _
  · exact (show (s.report r p).link.tx = _ from h) ▸ List.prefix_append ..

theorem haltEvent_stopped {s : State} (source : HaltSource) (hl : s.sup.latch = false) (ht : s.clock.transport = .stopped) :
    s.haltEvent source =
      (State.scenesIdle { s with sup := { s.sup with latch := true }, cues := { s.cues with list := [] } }).reportHalt
        s.cues.list.length s.headsBusy s.clock.transport source := by
  unfold State.haltEvent
  rw [if_neg (by simp [hl])]
  dsimp only
  rw [State.stopTransport_stopped .halt .halt (s := { s with
    sup := { s.sup with latch := true }, cues := { s.cues with list := [] } }) ht]

/-- A halt from the edge memory at the end of a reset: the transport stands and the cue list is empty already (R178, R179). -/
theorem haltFromMemory_halts {s : State} (source : HaltSource) (ht : s.clock.transport = .stopped)
    (hl : s.sup.latch = false) (hc : s.cues.list = []) (hs : s.scenes.idle = s.scenes) :
    (s.haltFromMemory source).sup = { s.sup with
        latch := s.sup.detection && s.sup.edgeMemory, edgeMemory := s.sup.edgeMemory && !s.sup.detection }
      ∧ (s.haltFromMemory source).pool = s.pool ∧ (s.haltFromMemory source).clock = s.clock
      ∧ WarmGoesOn s (s.haltFromMemory source) := by
  unfold State.haltFromMemory
  by_cases h : (s.sup.detection && s.sup.edgeMemory) = true
  · rw [if_pos h, haltEvent_stopped source (s := { s with sup := { s.sup with edgeMemory := false } }) hl ht]
    have hkept : (s.sup.edgeMemory && !s.sup.detection) = false := by
      rw [Bool.and_eq_true] at h
      rw [h.1, h.2]; rfl
    have hquiet : State.scenesIdle { s with
        sup := { s.sup with edgeMemory := false, latch := true }, cues := { s.cues with list := [] } }
        = { s with sup := { s.sup with edgeMemory := false, latch := true } } := by
      unfold State.scenesIdle
      dsimp only
      rw [hs, ← hc]
    dsimp only
    rw [hquiet]
    unfold State.reportHalt
    refine ⟨?_, State.report_pool .., State.report_clock .., ?_⟩
    · rw [State.report_sup, h, hkept]
    · have hmark : WarmGoesOn s { s with sup := { s.sup with edgeMemory := false, latch := true } } :=
        ⟨rfl, rfl, rfl, rfl, List.prefix_refl _⟩
      exact hmark.trans (report_goesOn ..)
  · rw [if_neg h]
    refine ⟨?_, rfl, rfl, WarmGoesOn.refl s⟩
    have hlatch : (s.sup.detection && s.sup.edgeMemory) = s.sup.latch := by rw [hl]; simpa using h
    have hkept : (s.sup.edgeMemory && !s.sup.detection) = s.sup.edgeMemory := by
      cases he : s.sup.edgeMemory with
      | false => rfl
      | true =>
        have hd : s.sup.detection = false := by simpa [he] using h
        rw [hd]; rfl
    rw [hlatch, hkept]

/-! ### The verify scan's start (R104, R106) -/

theorem nextOwned_nil {p : Pool} (h : p.owned = []) : p.nextOwned 0 = none := by
  unfold Pool.nextOwned; rw [h]; rfl

theorem nextOwned_cons {p : Pool} {e : BlockId × Owned} {rest : List (BlockId × Owned)} (h : p.owned = e :: rest) :
    p.nextOwned 0 = some e.1 := by
  unfold Pool.nextOwned; rw [h]; simp

theorem startScan_goesOn (s : State) (freed : Nat) : WarmGoesOn s (s.startScan freed) := by
  unfold State.startScan State.endScan State.reportReady
  split
  · have hready : WarmGoesOn s (State.becomeReady { s with pool := { s.pool with scan := none } }) :=
      ⟨rfl, rfl, rfl, rfl, List.prefix_refl _⟩
    exact hready.trans (report_goesOn ..)
  · exact ⟨rfl, rfl, rfl, rfl, List.prefix_refl _⟩

theorem startScan_nil {s : State} (freed : Nat) (h : s.pool.owned = []) :
    (s.startScan freed).sup = { s.sup with state := .ready } ∧ (s.startScan freed).pool.scan = none := by
  unfold State.startScan
  rw [nextOwned_nil h]
  unfold State.endScan State.reportReady
  dsimp only
  rw [State.report_sup, State.report_pool]
  exact ⟨rfl, rfl⟩

theorem startScan_cons {s : State} (freed : Nat) {e : BlockId × Owned} {rest : List (BlockId × Owned)}
    (h : s.pool.owned = e :: rest) :
    s.startScan freed = { s with
      pool := { s.pool with scan := some { next := e.1, frames := 0, checked := 0, freed := freed } } } := by
  unfold State.startScan
  rw [nextOwned_cons h]

end Sys2Proof.Machine
end

