-- ==== Sys2Proof/Proofs/WarmResetEnd.lean ====
section
/-! WARM_RESET_END, from the cleanup's tables to READY (R104, R106, R107, R171, R172, R178, R193). -/

namespace Sys2Proof.Machine

/-! ### The state in which HELLO is formed -/

theorem inUse_cleaned (s : State) : s.cleaned.inUse = s.unfilled.inUse := by
  unfold State.inUse
  refine List.filter_congr fun x _ => ?_
  rw [layer_cleaned]
  exact Option.isSome_map

theorem cleaned_sup (s : State) : s.cleaned.sup = s.sup := by
  rw [cleaned_same]; exact (unfilled_frees s).sup

/-- The edge memory once the reset-end check is made (R178). -/
def State.edgeAtEnd (s : State) : Bool := s.sup.edgeMemory || s.sup.lineActive

/-- Behind the cleanup: the free list rebuilt, the latch clear, the edge checked, and the reset left (R107, R171, R178). -/
theorem leaveReset_rebuilt (c : State) :
    ∃ divider dividerSet, State.leaveReset (State.resetEndCheck (State.unlatch { c with pool := c.pool.rebuild })) =
      { c with
        pool := c.pool.rebuild
        clock := { c.clock with divider := divider, dividerSet := dividerSet }
        link := c.link.warm
        sup := { c.sup with
          latch := false, edgeMemory := c.edgeAtEnd, inForce := CauseSet.empty
          state := if c.inUse = [] then .ready else .verifying } } := by
  generalize hv : State.resetEndCheck (State.unlatch { c with pool := c.pool.rebuild }) = v
  have hcheck : v = { c with
      pool := c.pool.rebuild, sup := { c.sup with latch := false, edgeMemory := c.edgeAtEnd } } := by
    unfold State.resetEndCheck State.unlatch Sup.lineActive at hv
    unfold State.edgeAtEnd Sup.lineActive
    exact hv.symm
  have hinUse : v.inUse = c.inUse := State.inUse_congr (by rw [hcheck])
  by_cases h : c.inUse = []
  · exact ⟨c.clock.p - 1, true, by rw [leaveReset_ready (hinUse.trans h), if_pos h, hcheck]⟩
  · exact ⟨c.clock.divider, c.clock.dividerSet, by rw [leaveReset_verifying fun e => h (hinUse.symm.trans e), if_neg h, hcheck]⟩

theorem inUse_cleanup (s : State) : s.cleanup.inUse = s.unfilled.inUse := by
  rw [← inUse_cleaned]
  exact State.inUse_congr (by rw [cleanup_eq_cleaned])

theorem warmLeft_eq (s : State) :
    ∃ divider dividerSet, s.warmLeft = { s.cleanup with
      pool := s.cleanup.pool.rebuild
      clock := { s.cleanup.clock with divider := divider, dividerSet := dividerSet }
      link := s.cleanup.link.warm
      sup := { s.sup with
        latch := false, edgeMemory := s.edgeAtEnd, inForce := CauseSet.empty
        state := if s.unfilled.inUse = [] then .ready else .verifying } } := by
  have hsup : s.cleanup.sup = s.sup := by rw [cleanup_eq_cleaned]; exact cleaned_sup s
  have hedge : s.cleanup.edgeAtEnd = s.edgeAtEnd := by unfold State.edgeAtEnd; rw [hsup]
  obtain ⟨d, ds, h⟩ := leaveReset_rebuilt s.cleanup
  refine ⟨d, ds, h.trans ?_⟩
  rw [hedge, hsup, inUse_cleanup]

theorem inUse_warmLeft (s : State) : s.warmLeft.inUse = s.unfilled.inUse := by
  obtain ⟨d, ds, h⟩ := warmLeft_eq s
  rw [← inUse_cleanup]
  exact State.inUse_congr (by rw [h])

theorem warmLeft_hello (s : State) :
    s.warmLeft.hello = { s.warmLeft with link := { s.warmLeft.link with tx := [s.warmLeft.helloFrame] } } := by
  obtain ⟨d, ds, h⟩ := warmLeft_eq s
  refine hello_of_empty ?_ ?_
  · rw [h]
    dsimp only
    split <;> simp
  · rw [h]; rfl

theorem inUse_hello (s : State) : s.warmLeft.hello.inUse = s.unfilled.inUse := by
  rw [← inUse_warmLeft]
  exact State.inUse_congr (by rw [warmLeft_hello])

/-! ### What is left to do behind HELLO -/

theorem reportReady_goesOn (s : State) (freed checked : Nat) : WarmGoesOn s (s.reportReady freed checked) :=
  report_goesOn ..

/-- The supervisor's marks behind a halt from the edge memory. -/
def Sup.haltTaken (u : Sup) : Sup :=
  { u with latch := u.detection && u.edgeMemory, edgeMemory := u.edgeMemory && !u.detection }

/-- A state in which the halt from the edge memory meets nothing but its own marks. -/
def State.HaltsQuietly (s : State) : Prop :=
  s.clock.transport = .stopped ∧ s.sup.latch = false ∧ s.cues.list = [] ∧ s.scenes.idle = s.scenes

theorem warmLeft_haltsQuietly (s : State) : s.warmLeft.hello.HaltsQuietly := by
  obtain ⟨d, ds, h⟩ := warmLeft_eq s
  rw [warmLeft_hello, h, cleanup_eq_cleaned]
  exact ⟨rfl, rfl, rfl, rfl⟩

theorem endWarm_ready {s : State} (h : s.unfilled.inUse = []) :
    WarmGoesOn s.warmLeft.hello s.endWarm ∧ s.endWarm.sup = s.warmLeft.hello.sup.haltTaken
      ∧ (s.warmLeft.hello.reportReady s.cleanupBlocks 0).link.tx <+: s.endWarm.link.tx := by
  have hinUse : s.warmLeft.hello.inUse = [] := (inUse_hello s).trans h
  obtain ⟨h1, h2, h3, h4⟩ := warmLeft_haltsQuietly s
  have hr := reportReady_goesOn s.warmLeft.hello s.cleanupBlocks 0
  have hsup : (s.warmLeft.hello.reportReady s.cleanupBlocks 0).sup = s.warmLeft.hello.sup := State.report_sup ..
  rw [endWarm_eq, if_pos hinUse]
  obtain ⟨g1, g2, g3, g4⟩ := haltFromMemory_halts (s := s.warmLeft.hello.reportReady s.cleanupBlocks 0) .resetEnd
    (by rw [State.reportReady, State.report_clock]; exact h1) (by rw [hsup]; exact h2)
    (by rw [State.reportReady, State.report_cues]; exact h3) (by rw [State.reportReady, State.report_scenes]; exact h4)
  refine ⟨hr.trans g4, ?_, g4.tx⟩
  rw [g1, hsup]
  rfl

theorem endWarm_verifying {s : State} (h : s.unfilled.inUse ≠ []) :
    WarmGoesOn s.warmLeft.hello s.endWarm
      ∧ (s.warmLeft.hello.pool.owned = [] →
        s.endWarm.sup = { s.warmLeft.hello.sup.haltTaken with state := .ready } ∧ s.endWarm.pool.scan = none)
      ∧ ∀ e rest, s.warmLeft.hello.pool.owned = e :: rest →
        s.endWarm.sup = s.warmLeft.hello.sup.haltTaken
          ∧ s.endWarm.pool.scan = some { next := e.1, frames := 0, checked := 0, freed := s.cleanupBlocks } := by
  have hinUse : s.warmLeft.hello.inUse ≠ [] := fun e => h ((inUse_hello s).symm.trans e)
  obtain ⟨h1, h2, h3, h4⟩ := warmLeft_haltsQuietly s
  rw [endWarm_eq, if_neg hinUse]
  obtain ⟨g1, g2, g3, g4⟩ := haltFromMemory_halts .resetEnd h1 h2 h3 h4
  refine ⟨g4.trans (startScan_goesOn ..), fun ho => ?_, fun e rest ho => ?_⟩
  · obtain ⟨k1, k2⟩ := startScan_nil (s := s.warmLeft.hello.haltFromMemory .resetEnd) s.cleanupBlocks (by rw [g2, ho])
    exact ⟨by rw [k1, g1]; rfl, k2⟩
  · rw [startScan_cons (s := s.warmLeft.hello.haltFromMemory .resetEnd) s.cleanupBlocks (by rw [g2, ho])]
    exact ⟨g1, rfl⟩

/-! ### The fields behind the reset -/

theorem endWarm_goesOn (s : State) : WarmGoesOn s.warmLeft.hello s.endWarm := by
  by_cases h : s.unfilled.inUse = []
  · exact (endWarm_ready h).1
  · exact (endWarm_verifying h).1

/-- What the end of a warm reset leaves of the cleanup's state. -/
structure WarmEnds (s t : State) : Prop where
  same : t = { s.cleanup with clock := t.clock, pool := t.pool, sup := t.sup, link := t.link }
  pool : t.pool = { s.cleanup.pool.rebuild with scan := t.pool.scan }
  clock : t.clock = { s.cleanup.clock with divider := t.clock.divider, dividerSet := t.clock.dividerSet }
  link : t.link = { s.cleanup.link.warm with tx := t.link.tx, lost := t.link.lost }
  sup : t.sup = { s.sup with
    latch := t.sup.latch, edgeMemory := t.sup.edgeMemory, inForce := CauseSet.empty, state := t.sup.state }
  hello : [s.warmLeft.helloFrame] <+: t.link.tx

theorem endWarm_ends (s : State) : WarmEnds s s.endWarm := by
  have g := endWarm_goesOn s
  obtain ⟨d, ds, h⟩ := warmLeft_eq s
  have hx : s.warmLeft.hello = { s.cleanup with
      pool := s.warmLeft.hello.pool, clock := s.warmLeft.hello.clock, link := s.warmLeft.hello.link
      sup := s.warmLeft.hello.sup } := by rw [warmLeft_hello, h]
  have hpool : s.warmLeft.hello.pool = s.cleanup.pool.rebuild := by rw [warmLeft_hello, h]
  have hclock : s.warmLeft.hello.clock = { s.cleanup.clock with divider := d, dividerSet := ds } := by
    rw [warmLeft_hello, h]
  have hlink : s.warmLeft.hello.link = { s.cleanup.link.warm with tx := s.warmLeft.hello.link.tx } := by
    rw [warmLeft_hello, h]
  have hsup : s.warmLeft.hello.sup = { s.sup with
      latch := s.warmLeft.hello.sup.latch, edgeMemory := s.warmLeft.hello.sup.edgeMemory, inForce := CauseSet.empty
      state := s.warmLeft.hello.sup.state } := by rw [warmLeft_hello, h]
  have htx : s.warmLeft.hello.link.tx = [s.warmLeft.helloFrame] := by rw [warmLeft_hello]
  have hscan : s.endWarm.pool = { s.warmLeft.hello.pool with scan := s.endWarm.pool.scan } := (congrArg State.pool g.same :)
  exact
    { same := g.same.trans (by rw [← hscan, hx])
      pool := hscan.trans (by rw [hpool])
      clock := g.clock.trans (by rw [hclock])
      link := g.link.trans (by rw [hlink])
      sup := g.sup.trans (by rw [hsup])
      hello := htx ▸ g.tx }

/-- HELLO's fields at the end of a warm reset (R172). -/
theorem helloFrame_warmLeft (s : State) :
    s.warmLeft.helloFrame =
      { kind := 0x40, tag := 0
        payload := [0, 0, 0, 0x48, 0x0B, Config.revision, s.sup.causes.byte, if s.unfilled.inUse = [] then 2 else 1,
          flagByte s.cleanup.clock.loop.isSome, byte (s.cleanup.clock.loop.getD 0)] ++ le2 s.cleanup.clock.p
          ++ [byte s.cleanup.clock.b, byte s.unfilled.inUse.length, flagByte s.sup.low, flagByte s.sup.detection,
            flagByte s.edgeAtEnd] } := by
  obtain ⟨d, ds, h⟩ := warmLeft_eq s
  have hin := inUse_warmLeft s
  have hcode : s.warmLeft.sup.state.code = if s.unfilled.inUse = [] then 2 else 1 := by
    rw [h]
    by_cases hu : s.unfilled.inUse = []
    · rw [if_pos hu, if_pos hu]; rfl
    · rw [if_neg hu, if_neg hu]; rfl
  have hhead : s.warmLeft.header = [0, 0, 0] := by
    rw [h, cleanup_eq_cleaned]
    exact (by decide : le2 0 ++ [byte 0] = [0, 0, 0])
  unfold State.helloFrame
  rw [hcode, hhead, hin, h]
  rfl

theorem hello_sup (s : State) :
    s.warmLeft.hello.sup = { s.sup with
      latch := false, edgeMemory := s.edgeAtEnd, inForce := CauseSet.empty
      state := if s.unfilled.inUse = [] then .ready else .verifying } := by
  obtain ⟨d, ds, h⟩ := warmLeft_eq s
  rw [warmLeft_hello, h]

theorem endWarm_halt (s : State) :
    s.endWarm.sup.latch = (s.sup.detection && s.edgeAtEnd) ∧ s.endWarm.sup.edgeMemory = (s.edgeAtEnd && !s.sup.detection) := by
  have hx := hello_sup s
  by_cases h : s.unfilled.inUse = []
  · rw [(endWarm_ready h).2.1, Sup.haltTaken, hx]
    exact ⟨rfl, rfl⟩
  · obtain ⟨-, hnil, hcons⟩ := endWarm_verifying h
    cases ho : s.warmLeft.hello.pool.owned with
    | nil =>
      rw [(hnil ho).1, Sup.haltTaken, hx]
      exact ⟨rfl, rfl⟩
    | cons e rest =>
      rw [(hcons e rest ho).1, Sup.haltTaken, hx]
      exact ⟨rfl, rfl⟩

theorem layer_endWarm (s : State) (x : LayerId) :
    s.endWarm.layer x = (s.unfilled.layer x).map fun l => { l with pin := none } := by
  have hl : s.endWarm.layers = s.cleaned.layers :=
    (congrArg State.layers (endWarm_ends s).same : _).trans (by rw [cleanup_eq_cleaned])
  rw [State.layer_congr hl, layer_cleaned]

theorem track_endWarm (s : State) (k : TrackId) : s.endWarm.track k = s.cleaned.track k :=
  State.track_congr ((congrArg State.tracks (endWarm_ends s).same : _).trans (by rw [cleanup_eq_cleaned])) k

theorem inUse_endWarm (s : State) : s.endWarm.inUse = s.unfilled.inUse := by
  rw [← inUse_cleanup]
  exact State.inUse_congr (congrArg State.layers (endWarm_ends s).same :)

/-- The bar clock behind a warm reset: the position is gone, P and B stay, and L is the one the frees leave (R35, R47). -/
theorem clock_endWarm (s : State) :
    s.endWarm.clock = { s.clock.warm with
      divider := s.endWarm.clock.divider, dividerSet := s.endWarm.clock.dividerSet, loop := s.unfilled.clock.loop } := by
  have hc : s.cleanup.clock = { s.clock.warm with loop := s.unfilled.clock.loop } := by
    rw [cleanup_eq_cleaned, cleaned_same]
    dsimp only
    rw [(unfilled_frees s).clock]
    rfl
  rw [(endWarm_ends s).clock, hc]

theorem link_cleanup (s : State) :
    s.cleanup.link = { s.link with tx := s.cleanup.link.tx, lost := s.cleanup.link.lost } := by
  have h : s.cleanup.link = s.unfilled.link := by rw [cleanup_eq_cleaned, cleaned_same]
  rw [h, (unfilled_frees s).link]

theorem bad_setScan (p : Pool) (o : Option Scan) : Pool.bad { p with scan := o } = p.bad := rfl

/-- The READY report of a warm reset with no layer left (R106). -/
theorem ready_endWarm {s : State} (h : s.unfilled.inUse = []) (he : s.link.enables.getLsbD 1 = true) :
    s.endWarm.link.tx[1]? = some
      { kind := 0x41, tag := 0, payload := [0, 0, 0, 0, 0] ++ le2 s.cleanupBlocks ++ [0, 0] ++ le2 s.endWarm.pool.bad } := by
  obtain ⟨d, ds, hw⟩ := warmLeft_eq s
  have hx := warmLeft_hello s
  have hstate : s.warmLeft.hello.sup.state ≠ .reset := by rw [hello_sup, if_pos h]; simp
  have henables : s.warmLeft.hello.link.enables = s.link.enables := by rw [hx, hw, link_cleanup]; rfl
  have hbad : s.warmLeft.hello.pool.bad = s.endWarm.pool.bad := by
    have hpool : s.warmLeft.hello.pool = s.cleanup.pool.rebuild := by rw [hx, hw]
    have hscan := (congrArg Pool.bad (endWarm_ends s).pool).trans (bad_setScan ..)
    exact (congrArg Pool.bad hpool).trans hscan.symm
  have hhead : s.warmLeft.hello.header = [0, 0, 0] := by
    rw [hx, hw, cleanup_eq_cleaned]
    exact (by decide : le2 0 ++ [byte 0] = [0, 0, 0])
  have hin : s.warmLeft.hello.inUse = [] := (inUse_hello s).trans h
  have htx : s.warmLeft.hello.link.tx = [s.warmLeft.helloFrame] := by rw [hx]
  have henabled : s.warmLeft.hello.reportEnabled .ready = true := by
    unfold State.reportEnabled; rw [henables]; exact he
  have hroom : s.warmLeft.hello.link.reportsQueued < 16 := by
    unfold Link.reportsQueued
    rw [htx]
    exact (List.length_filter_le ..).trans_lt (Nat.lt_of_sub_pos (Nat.zero_lt_succ _))
  have hsent : (s.warmLeft.hello.reportReady s.cleanupBlocks 0).link.tx =
      [s.warmLeft.helloFrame,
        { kind := 0x41, tag := 0, payload := [0, 0, 0, 0, 0] ++ le2 s.cleanupBlocks ++ [0, 0] ++ le2 s.endWarm.pool.bad }] := by
    unfold State.reportReady State.report State.reportWith
    dsimp only
    rw [if_neg hstate, if_neg (by simp [henabled]), if_pos hroom, hin, hhead, hbad]
    unfold State.send
    dsimp only
    rw [htx]
    generalize s.cleanupBlocks = freed
    generalize s.endWarm.pool.bad = bad
    generalize s.warmLeft.helloFrame = hello
    rfl
  obtain ⟨rest, hrest⟩ := (endWarm_ready h).2.2
  rw [hsent] at hrest
  rw [← hrest]
  rfl

theorem Pool.entry_congr {p q : Pool} (h : p.owned = q.owned) : p.entry = q.entry := by
  funext b
  unfold Pool.entry
  rw [h]

theorem Pool.rebuild_owned (p : Pool) : p.rebuild.owned = p.owned := by rw [Pool.rebuild]

theorem Pool.rebuild_free (p : Pool) : p.rebuild.free = allBlocks.filter fun b => (p.entry b).isNone := by
  rw [Pool.rebuild]

theorem State.endWarm_pool_owned (s : State) : s.endWarm.pool.owned = s.warmLeft.hello.pool.owned :=
  (congrArg (fun u : State => u.pool.owned) (endWarm_goesOn s).same :)

theorem hello_pool_owned (s : State) : s.warmLeft.hello.pool.owned = s.cleanup.pool.owned := by
  obtain ⟨d, ds, hw⟩ := warmLeft_eq s
  have hpool : s.warmLeft.hello.pool = s.cleanup.pool.rebuild := by rw [warmLeft_hello, hw]
  rw [hpool, Pool.rebuild_owned]

/-- Settles O57: the cleanup's tables are `layer_cleaned` and `track_cleaned_fields`, the rest of the end `endWarm_ends`,
and its reports `helloFrame_warmLeft` and `ready_endWarm`. -/
theorem warmResetKeepsTheSealedLayers : Obligations.WarmResetKeepsTheSealedLayers := by
  intro s
  refine ⟨fun h => congrArg Host.Outcome.next (if_neg fun e => h e.1), fun h hp hc => ?_⟩
  intro edge returned
  have hcold : s.sup.coldInForce = false := by unfold Sup.coldInForce; rw [hp, hc]; rfl
  have hexec : exec .warmResetEnd s = .next s.endWarm := congrArg Host.Outcome.next (if_pos ⟨h, hcold⟩)
  have hedge : edge = s.edgeAtEnd := rfl
  have hreturned : returned = s.cleanupBlocks := by
    rw [cleanupBlocks_eq]
    refine congrArg List.sum (List.map_congr_left fun x _ => ?_)
    unfold State.filling State.blocksOf
    cases s.layer x with
    | none => rfl
    | some l => simp
  clear_value edge returned
  subst hedge hreturned
  have E := endWarm_ends s
  have hF := unfilled_frees s
  have hcleaned := cleaned_same s
  have hrest : s.endWarm.head0 = none ∧ s.endWarm.head1 = none ∧ s.endWarm.cues = { list := [], nextId := 0 }
      ∧ s.endWarm.mem = s.mem ∧ s.endWarm.mix = s.unfilled.mix.clear.nextFrame
      ∧ s.endWarm.bounce = { queue := [], nextId := 0, threshold := s.unfilled.bounce.threshold, headFresh := false }
      ∧ s.endWarm.scenes = s.unfilled.scenes.idle ∧ s.endWarm.tones = s.unfilled.tones.warm := by
    rw [E.same, cleanup_eq_cleaned, hcleaned]
    exact ⟨hF.head0, hF.head1, rfl, hF.mem, rfl, rfl, rfl, rfl⟩
  obtain ⟨hhead0, hhead1, hcues, hmem, hmix, hbounce, hscenes, htones⟩ := hrest
  have hclock := clock_endWarm s
  have hL := unfilled_loopFollows s
  have hinUse := inUse_endWarm s
  have hpool := E.pool
  have hlink : s.endWarm.link = { s.link.warm with tx := s.endWarm.link.tx, lost := s.endWarm.link.lost } :=
    E.link.trans (by rw [link_cleanup]; rfl)
  have hlayer : ∀ x, s.endWarm.layer x = ((if x ∈ s.fillingLayers then none else s.layer x).map
      fun l => { l with pin := none }) := fun x => by rw [layer_endWarm, layer_unfilled]
  have hfilling : ∀ x l, s.layer x = some l → (x ∈ s.fillingLayers ↔ l.state = .filling) := fun x l hx => by
    rw [mem_fillingLayers, hx]; simp
  obtain ⟨hlatch, hmemory⟩ := endWarm_halt s
  refine ⟨s.endWarm, hexec, hhead0, hhead1, hcues, hmem, fun x l hx hn => ?_, fun x l hx hn => ?_, fun x hx => ?_,
    fun k => ?_, ?_, ?_, ?_, ?_, ?_, ?_, ?_, ?_, ?_, ?_, ?_, ?_, ?_, ?_, ?_, ?_, fun hu => ?_, fun hs hu => ?_, ?_, ?_, ?_, ?_, ?_,
    ?_, ?_, ?_, ?_, fun hu => ?_, fun hu ho => ?_, fun hu e rest ho => ?_, hlatch, hmemory, ?_, ?_, ?_, ?_⟩
  · rw [hlayer, if_neg fun e => hn ((hfilling x l hx).1 e), hx]; rfl
  · rw [hlayer, if_pos ((hfilling x l hx).2 hn)]; rfl
  · rw [hlayer, hx, ite_self]; rfl
  · rw [track_endWarm]; exact track_cleaned_fields s k
  · rw [hmix, hF.mix]; rfl
  · rw [hbounce, hF.bounce]
  · rw [hscenes, hF.scenes]; rfl
  · rw [htones, hF.tones]; rfl
  · exact (congrArg Clock.transport hclock :)
  · exact (congrArg Clock.tick hclock :)
  · exact (congrArg Clock.beat hclock :)
  · exact (congrArg Clock.bar hclock :)
  · exact (congrArg Clock.songBar hclock :)
  · exact (congrArg Clock.loopPos hclock :)
  · exact (congrArg Clock.countIn hclock :)
  · exact (congrArg Clock.pendingTempo hclock :)
  · exact (congrArg Clock.taps hclock :)
  · exact (congrArg Clock.frameCount hclock :)
  · exact (congrArg Clock.p hclock :)
  · exact (congrArg Clock.b hclock :)
  · have hloop : s.unfilled.clock.loop = s.clock.loop := (congrArg Clock.loop (hL.kept fun e => hu (hinUse.trans e)) :)
    exact (congrArg Clock.loop hclock : _).trans hloop
  · exact (congrArg Clock.loop hclock : _).trans (hL.cleared hs (hinUse.symm.trans hu))
  · have hentry : s.endWarm.pool.entry = s.cleanup.pool.entry :=
      Pool.entry_congr (s.endWarm_pool_owned.trans (hello_pool_owned s))
    rw [hentry, ← Pool.rebuild_free]
    rw [hpool]
  · exact (congrArg Pool.lowArmed hpool :)
  · exact (congrArg Pool.emptyArmed hpool :)
  · exact (congrArg Link.requests hlink :)
  · exact (congrArg Link.enables hlink :)
  · exact (congrArg Link.timeout hlink :)
  · exact (congrArg Link.timer hlink :)
  · exact (congrArg Link.autopilot hlink :)
  · obtain ⟨rest, hrest⟩ := E.hello
    have hc : s.cleanup.clock.loop = s.endWarm.clock.loop ∧ s.cleanup.clock.p = s.endWarm.clock.p
        ∧ s.cleanup.clock.b = s.endWarm.clock.b := by rw [E.clock]; exact ⟨rfl, rfl, rfl⟩
    obtain ⟨hloop, hp, hb⟩ := hc
    have hhead := helloFrame_warmLeft s
    rw [hloop, hp, hb, ← hinUse] at hhead
    rw [← hhead, ← hrest]
    rfl
  · refine ⟨?_, ready_endWarm (hinUse.symm.trans hu)⟩
    have hx := hello_sup s
    rw [if_pos (hinUse.symm.trans hu)] at hx
    rw [(endWarm_ready (hinUse.symm.trans hu)).2.1, hx]
    rfl
  · have hx : s.warmLeft.hello.pool.owned = [] := s.endWarm_pool_owned.symm.trans ho
    obtain ⟨h1, h2⟩ := (endWarm_verifying fun e => hu (hinUse.trans e)).2.1 hx
    exact ⟨by rw [h1], h2⟩
  · have hx : s.warmLeft.hello.pool.owned = e :: rest := s.endWarm_pool_owned.symm.trans ho
    obtain ⟨h1, h2⟩ := (endWarm_verifying fun e => hu (hinUse.trans e)).2.2 e rest hx
    refine ⟨?_, h2⟩
    rw [h1, Sup.haltTaken, hello_sup, if_neg fun e => hu (hinUse.trans e)]
  · exact (congrArg Sup.causes E.sup :)
  · exact (congrArg Sup.inForce E.sup :)
  · exact (congrArg Sup.detection E.sup :)
  · exact (congrArg Sup.low E.sup :)

end Sys2Proof.Machine
end

