-- ==== Sys2Proof/Proofs/ClockRanges.lean ====
section
/-! The ranges of the bar clock that every step keeps (R29, R36, R37, R39, R40). The shared operations keep them
(`Keeps.clock`); here are the boundaries, the requests that set the clock, and the resets. -/

namespace Sys2Proof.Machine

/-! ### The clock's own part of the legal form -/

/-- The ranges of R29 that the bar clock keeps by itself. -/
structure Clock.InRange (c : Clock) : Prop where
  period : 250 ≤ c.p ∧ c.p ≤ 1500
  meter : 1 ≤ c.b ∧ c.b ≤ 12
  pending : ∀ p b, c.pendingTempo = some (p, b) → PairLegal p b
  tick : c.tick < 48
  beat : c.beat < c.b
  bar : (c.loop = none → c.bar = 0) ∧ ∀ l, c.loop = some l → c.bar < l
  countIn : c.countIn ≤ 4
  taps : c.taps.length ≤ 4

/-- The clock is legal when it is in range, and stands at tick 0 and beat 0 where a Start's mark or a pending tempo asks
for it. -/
theorem State.clockLegal_iff {s : State} :
    s.clockLegal ↔ s.clock.InRange
      ∧ ((s.clock.startMark ≠ .none ∨ s.bnd.tempo = true) → s.clock.tick = 0 ∧ s.clock.beat = 0) :=
  ⟨fun ⟨h1, h2, h3, h4, h5, h6, h7, h8, h9⟩ => ⟨⟨h1, h2, h3, h4, h5, h6, h7, h8⟩, h9⟩,
    fun ⟨⟨h1, h2, h3, h4, h5, h6, h7, h8⟩, h9⟩ => ⟨h1, h2, h3, h4, h5, h6, h7, h8, h9⟩⟩

theorem State.clockLegal.inRange {s : State} (h : s.clockLegal) : s.clock.InRange := (State.clockLegal_iff.1 h).1

/-- The clock is legal wherever it and the waiting tempo are the same. -/
theorem State.clockLegal.congr {s t : State} (h : s.clockLegal) (hc : t.clock = s.clock)
    (ht : t.bnd.tempo = s.bnd.tempo) : t.clockLegal := State.clockLegal_congr hc ht h

/-- With no mark of a Start and no pending tempo to apply, the clock's ranges are all. -/
theorem Clock.InRange.legal {s : State} (h : s.clock.InRange) (hm : s.clock.startMark = .none) (ht : s.bnd.tempo = false) :
    s.clockLegal :=
  State.clockLegal_iff.2 ⟨h, fun k => absurd k (by simp [hm, ht])⟩

/-- At tick 0 and beat 0 the clock's ranges are all. -/
theorem Clock.InRange.legal_zero {s : State} (h : s.clock.InRange) (ht : s.clock.tick = 0) (hb : s.clock.beat = 0) :
    s.clockLegal :=
  State.clockLegal_iff.2 ⟨h, fun _ => ⟨ht, hb⟩⟩

/-- The divider, the marks, the song bar, the loop position and the transport state are in no range of these. -/
theorem Clock.InRange.other {c : Clock} (h : c.InRange) (d : Nat) (ds : Bool) (n : Half) (pos : Nat) (tr : Transport)
    (f : Word) (m : StartMark) (ls : Bool) :
    Clock.InRange { c with
      divider := d, dividerSet := ds, songBar := n, loopPos := pos, transport := tr, frameCount := f, startMark := m
      loopSet := ls } :=
  { h with }

/-! ### The counters at a boundary -/

theorem Clock.InRange.counted {c : Clock} (h : c.InRange) : c.counted.InRange := by
  have hm := h.meter
  have htick := h.tick
  have hbeat := h.beat
  refine { h with tick := ?_, beat := ?_, bar := ⟨fun e => ?_, fun l e => ?_⟩ }
  · change (if c.beatDue then 0 else c.tick + 1) < 48
    by_cases hd : c.beatDue = true
    · rw [if_pos hd]; omega
    · have hd : c.tick < 47 := by simpa [Clock.beatDue] using hd
      split <;> omega
  · change c.nextBeat < c.b
    unfold Clock.nextBeat Clock.barDue
    cases hd : c.beatDue with
    | false => exact hbeat
    | true =>
      by_cases hb : c.b ≤ c.beat + 1
      · simp [hb]; omega
      · simp [hb]; omega
  · change (if c.loopDue then 0 else if c.barDue then c.bar + 1 else c.bar) = 0
    unfold Clock.loopDue
    rw [Clock.loopWraps_none (c := c) e]
    cases c.barDue with
    | false => exact h.bar.1 e
    | true => rfl
  · change (if c.loopDue then 0 else if c.barDue then c.bar + 1 else c.bar) < l
    have hl := h.bar.2 l e
    unfold Clock.loopDue
    rw [Clock.loopWraps_some (c := c) e]
    cases c.barDue with
    | false => exact hl
    | true =>
      by_cases hw : l ≤ c.bar + 1
      · simp [hw]; omega
      · cases c.loopSet <;> simp [hw] <;> omega

/-- A BAR boundary stands at tick 0 and beat 0. -/
theorem Clock.counted_zero {c : Clock} (h : c.barDue = true) : c.counted.tick = 0 ∧ c.counted.beat = 0 := by
  have hb : c.beatDue = true := by
    unfold Clock.barDue at h
    exact (Bool.and_eq_true_iff.1 h).1
  exact ⟨if_pos hb, if_pos h⟩

/-! ### The boundaries -/

theorem placeClaims_keeps (s : State) (now : Receivers) : Keeps s (s.placeClaims now) :=
  Keeps.ite (pool_keeps rfl rfl) (Keeps.refl s)

theorem receive_keeps (s : State) (now : Receivers) : Keeps s (s.receive now) := by
  have h1 := (placeClaims_keeps s now).trans
    (Keeps.ite (c := now.recorder = true) ((recorderAtBar_keeps _ .h0).trans (recorderAtBar_keeps _ .h1)) (Keeps.refl _))
  have h2 := h1.trans (Keeps.ite (c := now.click = true) (clickTest_keeps _) (Keeps.refl _))
  exact h2.trans (Keeps.ite (grantPass_keeps _) (Keeps.refl _))

/-- A boundary while RUNNING, receiver by receiver. -/
theorem takeRunning_reported (s : State) (now : Receivers) :
    s.takeRunning now = ((s.runningReported.setClickTest s.clock.beatDue).receive now).startWalk := by
  have hmark : s.runningReported
      = if s.clock.barDue = true then (s.runningTicked.markBar s.clock.loopDue).barReportNow else s.runningTicked := by
    unfold State.runningReported
    cases h : s.clock.barDue with
    | true => rw [runningMarked_bar h]; rfl
    | false => rw [runningMarked_no_bar h]; rfl
  rw [hmark]
  unfold State.takeRunning
  rw [Clock.tickRunning_eq]
  rfl

theorem takeRunning_clockLegal {s : State} (now : Receivers) (h : s.clock.InRange) (hm : s.clock.startMark = .none) :
    (s.takeRunning now).clockLegal := by
  have hmarked : s.runningMarked.clockLegal := by
    refine State.clockLegal_iff.2 ⟨h.counted.other .., fun k => ?_⟩
    rcases k with k | k
    · exact absurd hm k
    · exact Clock.counted_zero (Bool.and_eq_true_iff.1 k).1
  have hreported : s.runningReported.clockLegal :=
    State.clockLegal_congr (runningReported_voicesOnly s).clock (congrArg Boundary.tempo (runningReported_voicesOnly s).bnd)
      hmarked
  rw [takeRunning_reported]
  exact (startWalk_keeps _).clock ((receive_keeps _ _).clock (hreported.congr rfl rfl))

theorem takeCountIn_clockLegal {s : State} (now : Receivers) (h : s.clock.InRange) (hm : s.clock.startMark = .none) :
    (s.takeCountIn now).clockLegal := by
  rw [takeCountIn_ticked]
  refine (receive_keeps _ _).clock (State.clockLegal.congr (s := s.countInTicked) ?_ rfl rfl)
  refine State.clockLegal_iff.2 ⟨?_, fun k => ?_⟩
  · have hcount : (if s.clock.barDue then s.clock.countIn - 1 else s.clock.countIn) ≤ 4 := by
      have := h.countIn
      split <;> omega
    exact { h with tick := h.counted.tick, beat := h.counted.beat, countIn := hcount }
  · rcases k with k | k
    · exact absurd hm k
    · exact Clock.counted_zero (Bool.and_eq_true_iff.1 k).1

theorem takeStopped_clockLegal {s : State} (now : Receivers) (h : s.clock.InRange) (hm : s.clock.startMark = .none) :
    (s.takeStopped now).clockLegal :=
  (placeClaims_keeps _ _).clock (Clock.InRange.legal (h.other ..) hm rfl)

theorem takeTick_clockLegal {s : State} (now : Receivers) (h : s.clockLegal) : (s.takeTick now).clockLegal := by
  unfold State.takeTick
  split
  · split
    · exact h
    · next hm =>
      have hm : s.clock.startMark = .none := not_not.1 hm
      split
      · exact takeStopped_clockLegal now h.inRange hm
      · split
        · exact h
        · exact takeCountIn_clockLegal now h.inRange hm
      · exact takeRunning_clockLegal now h.inRange hm
  · split
    · exact (receive_keeps _ _).clock ((endBegunWalk_keeps _).clock h)
    · exact h

theorem countInBegins_clockLegal {s : State} (now : Receivers) (h : s.clockLegal) : (s.countInBegins now).clockLegal := by
  by_cases hd : s.tickDue = true ∧ s.clock.startMark = .countIn
  · obtain ⟨hd, hm⟩ := hd
    obtain ⟨ht, hb⟩ := h.atZero (Or.inl (by simp [hm]))
    rw [countInBegins_opened now hd hm]
    refine (receive_keeps _ _).clock (State.clockLegal.congr (s := s.countInOpened) ?_ rfl rfl)
    exact Clock.InRange.legal_zero (h.inRange.other ..) ht hb
  · unfold State.countInBegins
    rw [if_neg hd]
    exact h

/-- The start instant, receiver by receiver. -/
theorem startNow_marked (s : State) (now : Receivers) :
    s.startNow now = (s.startMarked.reportBar.receive now).startWalk := by
  unfold State.startNow State.startMarked State.startArmed State.startJoined State.startTicked
  dsimp only
  generalize (List.finRange 8).foldl State.armAtStart _ = a
  rfl

/-- The start instant stands at tick 0 and beat 0 (R33, R40, R41). -/
theorem startNow_clockLegal {s : State} (now : Receivers) (h : s.clock.InRange) (ht : s.clock.tick = 0)
    (hb : s.clock.beat = 0) : (s.startNow now).clockLegal := by
  have hmarked : s.startMarked.clockLegal := by
    have hc := startMarked_clock s
    refine Clock.InRange.legal_zero ?_ ?_ ?_ <;> rw [hc]
    · exact h.other ..
    · exact ht
    · exact hb
  rw [startNow_marked]
  exact (startWalk_keeps _).clock ((receive_keeps _ _).clock ((reportBar_keeps _).clock hmarked))

theorem startsNow_clockLegal {s : State} (now : Receivers) (h : s.clockLegal) : (s.startsNow now).clockLegal := by
  unfold State.startsNow
  split
  · next hd =>
    obtain ⟨ht, hb⟩ := h.atZero (Or.inl (by simp [hd.2]))
    exact startNow_clockLegal now (h.inRange.other ..) ht hb
  · exact h

theorem countInOver_clockLegal {s : State} (now : Receivers) (h : s.clockLegal) : (s.countInOver now).clockLegal := by
  unfold State.countInOver
  split
  · have hc := congrArg State.clock (enterRunning_eq s)
    have hb : 0 < s.clock.b := h.meter.1
    refine startNow_clockLegal now ?_ ?_ ?_ <;> rw [hc]
    exact { h.inRange with tick := Nat.zero_lt_succ _, beat := hb, countIn := Nat.zero_le _ }
  · exact h

/-! ### The audio frame -/

theorem Clock.InRange.frame {c : Clock} (h : c.InRange) (moving : Bool) : (c.frame moving).InRange := { h with }

/-- Where no tempo waits to be applied any more, the ranges are kept with any change of the divider, the marks and the
position. -/
theorem State.clockLegal.untempoed {s t : State} (h : s.clockLegal) (hr : t.clock.InRange)
    (hz : t.clock.startMark = s.clock.startMark ∧ t.clock.tick = s.clock.tick ∧ t.clock.beat = s.clock.beat)
    (ht : t.bnd.tempo = false) : t.clockLegal := by
  obtain ⟨hm, htick, hbeat⟩ := hz
  refine State.clockLegal_iff.2 ⟨hr, fun k => ?_⟩
  rw [hm, ht] at k
  rw [htick, hbeat]
  exact h.atZero (Or.inl (k.resolve_right (by decide)))

theorem foldl_countOneShot_keeps (s : State) : Keeps s ((List.finRange 8).foldl State.countOneShot s) :=
  Keeps.foldl (fun u _ => Keeps.ite (modTrack_keeps ..) (Keeps.refl u)) _ s

theorem readyFrame_clockLegal {s : State} (ins : Vector Sample 4) (h : s.clockLegal) : (s.readyFrame ins).clockLegal := by
  have hadvanced : (if s.moving then (s.advanceHead ins .h0).advanceHead ins .h1 else s).clockLegal := by
    split
    · exact (advanceHead_keeps _ _ _).clock ((advanceHead_keeps _ _ _).clock h)
    · exact h
  unfold State.readyFrame
  dsimp only
  generalize (if s.moving then (s.advanceHead ins .h0).advanceHead ins .h1 else s) = s1 at hadvanced ⊢
  have hcounted := (foldl_countOneShot_keeps { s1 with outputs := s1.mixFrame ins }).clock (hadvanced.congr rfl rfl)
  generalize (List.finRange 8).foldl State.countOneShot _ = s3 at hcounted ⊢
  have hbounced := (bounceFrame_keeps { s3 with tones := s3.tones.frame }).clock (hcounted.congr rfl rfl)
  exact hbounced.untempoed (hbounced.inRange.frame _) ⟨rfl, rfl, rfl⟩ rfl

/-! ### The requests -/

theorem takeRequest_clockLegal {s : State} (h : s.clockLegal) : s.takeRequest.clockLegal := by
  have ha : s.arriveNow.clockLegal := by
    rw [arriveNow_fields]
    exact h.congr rfl rfl
  exact ((finishWalk_keeps _).clock ha).congr rfl rfl

/-- A request's owner keeps the clock's ranges. -/
def ClockOwner (owner : Owner) : Prop := ∀ u p, u.clockLegal → (owner u p).1.clockLegal

/-- An owner that leaves the clock as it is. -/
theorem ClockOwner.of_same {owner : Owner}
    (h : ∀ u p, (owner u p).1.clock = u.clock ∧ (owner u p).1.bnd = u.bnd) : ClockOwner owner := fun u p k =>
  State.clockLegal_congr (h u p).1 (congrArg Boundary.tempo (h u p).2) k

theorem serve_clockLegal {kind : Byte} {others : List Byte} {tag : Byte} {payload : List Byte} {owner : Owner} {s : State}
    (ho : ClockOwner owner) (h : s.clockLegal) : (serve kind others tag payload owner s).clockLegal := by
  unfold serve
  split
  · exact h
  · split
    · exact (ho _ payload (takeRequest_clockLegal h)).congr rfl rfl
    · exact (takeRequest_clockLegal h).congr rfl rfl

theorem tempoInRange_iff {p b : Nat} : tempoInRange p b = true ↔ PairLegal p b := by
  simp [tempoInRange, PairLegal, and_assoc]

theorem ownSetTempo_clock : ClockOwner ownSetTempo := fun u p h => by
  unfold ownSetTempo
  split
  · split
    · exact h
    · split
      · exact h
      · next hr =>
        have hr := tempoInRange_iff.1 (by simpa using hr)
        split
        · exact h
        · exact (stageTempo_keeps u _ _ fun _ => hr).clock h
  · exact h

theorem setTaps_clockLegal {s : State} {taps : List Word} (h : s.clockLegal) (ht : taps.length ≤ 4) :
    (s.setTaps taps).clockLegal := { h with taps := ht }

theorem ownTap_clock : ClockOwner ownTap := fun u p h => by
  unfold ownTap State.takeTap
  split
  · exact h
  · split
    · exact h
    · dsimp only
      split
      · next ht => exact setTaps_clockLegal h (Nat.le_of_lt ht)
      · have h0 := setTaps_clockLegal (taps := []) h (Nat.zero_le _)
        split
        · next hp => exact (stageTempo_keeps _ _ _ fun _ => ⟨hp, h.meter⟩).clock h0
        · exact h0

theorem started_clockLegal {s : State} (n : Nat) (h : s.clockLegal) (hn : n ≤ 4) :
    State.clockLegal { s with clock := s.clock.started n } := by
  refine Clock.InRange.legal_zero ?_ rfl rfl
  have hr := h.inRange
  have hb : 0 < s.clock.b := hr.meter.1
  exact { hr with
    tick := Nat.zero_lt_succ _, beat := hb, countIn := hn
    bar := ⟨fun _ => rfl, fun l e => Nat.lt_of_le_of_lt (Nat.zero_le _) (hr.bar.2 l e)⟩ }

theorem ownStart_clock : ClockOwner ownStart := fun u p h => by
  unfold ownStart
  split
  · next c =>
    split
    · exact h
    · split
      · exact h
      · next hc =>
        split
        · exact h
        · split
          · exact h
          · exact (reportTransport_keeps _ _ _ _).clock (started_clockLegal _ h (Nat.le_of_not_lt hc))
  · exact h

theorem ownStop_clock : ClockOwner ownStop := fun u p h => by
  unfold ownStop
  split
  · exact h
  · exact (stopTransport_keeps _ _ _).clock h

theorem ownStandby_clock : ClockOwner ownStandby := fun u p h => by
  have hs : u.enterStandby.clockLegal := by
    have hf := (flushTones_keeps u .standby).clock h
    exact hf.untempoed { hf.inRange with taps := Nat.zero_le _ } ⟨rfl, rfl, rfl⟩ rfl
  unfold ownStandby
  split
  · exact h
  · split
    · exact h
    · dsimp only [answer]
      split
      · exact hs
      · exact hs.congr rfl rfl

theorem haltEvent_clockLegal {s : State} (source : HaltSource) (h : s.clockLegal) : (s.haltEvent source).clockLegal := by
  cases hl : s.sup.latch with
  | true => unfold State.haltEvent; rw [if_pos hl]; exact h
  | false => exact (haltEvent_keeps s source hl).clock (h.congr rfl rfl)

theorem haltFromMemory_clockLegal {s : State} (source : HaltSource) (h : s.clockLegal) :
    (s.haltFromMemory source).clockLegal := by
  unfold State.haltFromMemory
  split
  · exact haltEvent_clockLegal source (h.congr rfl rfl)
  · exact h

theorem ownHaltConfigWrite_clock : ClockOwner ownHaltConfigWrite := fun u p h => by
  unfold ownHaltConfigWrite
  split
  · split
    · exact h
    · split
      · exact h
      · split
        · exact h
        · exact haltFromMemory_clockLegal _ (h.congr rfl rfl)
  · exact h

theorem requestCue_clockLegal {u : State} (a : Action) (g : Grid) (delay : Nat) (replace : Bool) (h : u.clockLegal) :
    (u.requestCue a g delay replace).1.clockLegal := by
  have hremoved : State.clockLegal
      (State.replaceRemove { u with cues := { u.cues with nextId := u.cues.nextId + 1 } } a replace) := by
    unfold State.replaceRemove
    split <;> exact h.congr rfl rfl
  unfold State.requestCue State.acceptCue
  split
  · exact h
  · split
    · exact h
    · dsimp only
      split
      · exact (executeCue_keeps _ _ _).clock hremoved
      · exact hremoved.congr rfl rfl

theorem ownCue_clock : ClockOwner ownCue := fun u p h => by
  unfold ownCue
  split
  · split
    · exact h
    · split
      · exact h
      · exact requestCue_clockLegal _ _ _ _ h
  · exact h

theorem ownClearAll_clock : ClockOwner ownClearAll := fun u p h => by
  unfold ownClearAll
  split
  · exact h
  · exact requestCue_clockLegal _ _ _ _ h

theorem ownTrackConfig_clock : ClockOwner ownTrackConfig := ClockOwner.of_same fun u p => by
  unfold ownTrackConfig
  split
  · split
    · exact ⟨rfl, rfl⟩
    · split
      · exact ⟨rfl, rfl⟩
      · split
        · exact ⟨rfl, rfl⟩
        · exact ⟨(oneShotAction_voicesOnly _ _ _).clock.trans (muteAction_voicesOnly _ _ _).clock,
            (oneShotAction_voicesOnly _ _ _).bnd.trans (muteAction_voicesOnly _ _ _).bnd⟩
  · exact ⟨rfl, rfl⟩

theorem cancelBounces_clockLegal {u : State} (f : Bounce → Bool) (h : u.clockLegal) : (u.cancelBounces f).1.clockLegal :=
  (abortBounces_keeps _ _).clock h

theorem ownCancelBounceById_clock : ClockOwner ownCancelBounceById := fun u p h => by
  unfold ownCancelBounceById
  split
  · split
    · exact h
    · split
      · exact h
      · split
        · exact h
        · exact cancelBounces_clockLegal _ h
  · exact h

theorem ownCancelBounceAll_clock : ClockOwner ownCancelBounceAll := fun u p h => by
  unfold ownCancelBounceAll
  split
  · exact h
  · split
    · exact h
    · exact cancelBounces_clockLegal _ h

theorem copySpan_keeps (s : State) (d : TrackId) (xs : List LayerId) (n : Nat) : Keeps s (s.copySpan d xs n) := by
  unfold State.copySpan
  split
  · exact gainSpan_keeps ..
  · exact Keeps.refl s

theorem copySpan_bounce (s : State) (d : TrackId) (xs : List LayerId) (n : Nat) :
    (s.copySpan d xs n).bounce = s.bounce := by
  unfold State.copySpan State.gainSpan
  split
  · exact State.modTrack_bounce ..
  · rfl

theorem acceptBounce_keeps {s : State} (fold : Bool) (d : TrackId) (xs : List LayerId) (levels muteSources : Bool) (n : Nat)
    (h : s.bounce.queue.length ≠ 4) : Keeps s (s.acceptBounce fold d xs levels muteSources n).1 := by
  unfold State.acceptBounce
  cases fold with
  | true => exact enqueueBounce_keeps _ _ _ _ _ _ _ h
  | false => exact (copySpan_keeps ..).trans (enqueueBounce_keeps _ _ _ _ _ _ _ (by rw [copySpan_bounce]; exact h))

theorem requestBounce_keeps (s : State) (fold : Bool) (d : TrackId) (xs : List LayerId) (levels muteSources : Bool) :
    Keeps s (s.requestBounce fold d xs levels muteSources).1 := by
  unfold State.requestBounce
  dsimp only
  split
  · exact Keeps.refl s
  · next hq =>
    split
    · exact Keeps.refl s
    · split
      · exact Keeps.refl s
      · split
        · split
          · exact Keeps.refl s
          · exact acceptBounce_keeps _ _ _ _ _ _ hq
        · split
          · exact Keeps.refl s
          · exact acceptBounce_keeps _ _ _ _ _ _ hq

theorem ownBounce_clock : ClockOwner ownBounce := fun u p h => by
  unfold ownBounce
  split
  · split
    · exact h
    · dsimp only
      split
      · exact h
      · split
        · exact h
        · split
          · exact h
          · split
            · exact h
            · exact (requestBounce_keeps ..).clock h
  · exact h

/-! ### The owners that leave the clock alone -/

theorem ownResetCauseReadAndClear_clock : ClockOwner ownResetCauseReadAndClear := .of_same fun _ _ => by
  unfold ownResetCauseReadAndClear
  repeat' split
  all_goals exact ⟨rfl, rfl⟩

theorem ownRestart_clock (cold : Bool) : ClockOwner (ownRestart cold) := .of_same fun _ _ => by
  unfold ownRestart
  repeat' split
  all_goals exact ⟨rfl, rfl⟩

theorem ownLinkConfigWrite_clock : ClockOwner ownLinkConfigWrite := .of_same fun _ _ => by
  unfold ownLinkConfigWrite
  repeat' split
  all_goals exact ⟨rfl, rfl⟩

theorem ownSupplyConfigWrite_clock (vdd : Half) : ClockOwner (ownSupplyConfigWrite vdd) := .of_same fun _ _ => by
  unfold ownSupplyConfigWrite
  repeat' split
  all_goals exact ⟨rfl, rfl⟩

theorem ownHaltClear_clock : ClockOwner ownHaltClear := .of_same fun _ _ => by
  unfold ownHaltClear
  repeat' split
  all_goals exact ⟨rfl, rfl⟩

theorem ownCancelCueById_clock : ClockOwner ownCancelCueById := .of_same fun _ _ => by
  unfold ownCancelCueById
  repeat' split
  all_goals exact ⟨rfl, rfl⟩

theorem ownCancelCueByTrack_clock : ClockOwner ownCancelCueByTrack := .of_same fun _ _ => by
  unfold ownCancelCueByTrack
  repeat' split
  all_goals exact ⟨rfl, rfl⟩

theorem ownCancelCueAll_clock : ClockOwner ownCancelCueAll := .of_same fun _ _ => by
  unfold ownCancelCueAll
  repeat' split
  all_goals exact ⟨rfl, rfl⟩

theorem ownListCues_clock : ClockOwner ownListCues := .of_same fun _ _ => by
  unfold ownListCues
  repeat' split
  all_goals exact ⟨rfl, rfl⟩

theorem ownTrackInfo_clock : ClockOwner ownTrackInfo := .of_same fun _ _ => by
  unfold ownTrackInfo
  repeat' split
  all_goals exact ⟨rfl, rfl⟩

theorem ownLayerInfo_clock : ClockOwner ownLayerInfo := .of_same fun _ _ => by
  unfold ownLayerInfo
  repeat' split
  all_goals exact ⟨rfl, rfl⟩

theorem ownLayerMap_clock : ClockOwner ownLayerMap := .of_same fun _ _ => by
  unfold ownLayerMap
  repeat' split
  all_goals exact ⟨rfl, rfl⟩

theorem ownSetLevel_clock : ClockOwner ownSetLevel := .of_same fun _ _ => by
  unfold ownSetLevel
  repeat' split
  all_goals exact ⟨rfl, rfl⟩

theorem ownBounceInfo_clock : ClockOwner ownBounceInfo := .of_same fun _ _ => by
  unfold ownBounceInfo
  repeat' split
  all_goals exact ⟨rfl, rfl⟩

theorem ownFoldConfig_clock : ClockOwner ownFoldConfig := .of_same fun _ _ => by
  unfold ownFoldConfig
  repeat' split
  all_goals exact ⟨rfl, rfl⟩

theorem ownSceneWrite_clock : ClockOwner ownSceneWrite := .of_same fun _ _ => by
  unfold ownSceneWrite
  repeat' split
  all_goals exact ⟨rfl, rfl⟩

theorem ownSceneRead_clock : ClockOwner ownSceneRead := .of_same fun _ _ => by
  unfold ownSceneRead
  repeat' split
  all_goals exact ⟨rfl, rfl⟩

theorem ownSceneNextSet_clock : ClockOwner ownSceneNextSet := .of_same fun _ _ => by
  unfold ownSceneNextSet
  repeat' split
  all_goals exact ⟨rfl, rfl⟩

theorem ownSceneNextEmpty_clock : ClockOwner ownSceneNextEmpty := .of_same fun _ _ => by
  unfold ownSceneNextEmpty
  repeat' split
  all_goals exact ⟨rfl, rfl⟩

theorem ownSceneStop_clock : ClockOwner ownSceneStop := .of_same fun _ _ => by
  unfold ownSceneStop
  repeat' split
  all_goals exact ⟨rfl, rfl⟩

theorem ownClickConfigWrite_clock : ClockOwner ownClickConfigWrite := .of_same fun _ _ => by
  unfold ownClickConfigWrite
  repeat' split
  all_goals exact ⟨rfl, rfl⟩

theorem ownTones_clock : ClockOwner ownTones := .of_same fun _ _ => by
  unfold ownTones
  repeat' split
  all_goals exact ⟨rfl, rfl⟩

theorem ownMonitorConfigWrite_clock : ClockOwner ownMonitorConfigWrite := .of_same fun _ _ => by
  unfold ownMonitorConfigWrite
  repeat' split
  all_goals exact ⟨rfl, rfl⟩

theorem ownToneFlush_clock : ClockOwner ownToneFlush := fun u p h => by
  unfold ownToneFlush
  split
  · exact h
  · exact (flushTones_keeps _ _).clock (h.congr rfl rfl)

/-! ### The resets, the wake and the verify scan -/

theorem startReset_clockLegal {s : State} (cause : CauseSet) (h : s.clockLegal) : (s.startReset cause).clockLegal := by
  unfold State.startReset
  split
  · exact h.congr rfl rfl
  · have hf := (finishWalk_keeps s).clock h
    exact hf.untempoed hf.inRange ⟨rfl, rfl, rfl⟩ rfl

theorem hello_keeps (s : State) : Keeps s s.hello := report_keeps ..

theorem cold_inRange : Clock.cold.InRange where
  period := by decide
  meter := by decide
  pending := fun p b e => absurd e (by simp [Clock.cold])
  tick := by decide
  beat := by decide
  bar := ⟨fun _ => rfl, fun l e => absurd e (by simp [Clock.cold])⟩
  countIn := by decide
  taps := by decide

theorem coldValues_clockLegal (s : State) (haltHigh : Bool) : (s.coldValues haltHigh).clockLegal :=
  Clock.InRange.legal cold_inRange rfl rfl

/-- A warm reset leaves the clock's position at 0, so that its ranges are all (R47). -/
theorem Clock.InRange.warm {c : Clock} (h : c.InRange) : c.warm.InRange where
  period := h.period
  meter := h.meter
  pending := fun p b e => absurd e (by simp [Clock.warm])
  tick := Nat.zero_lt_succ _
  beat := h.meter.1
  bar := ⟨fun _ => rfl, fun l e => Nat.lt_of_le_of_lt (Nat.zero_le _) (h.bar.2 l e)⟩
  countIn := Nat.zero_le _
  taps := Nat.zero_le _

theorem endWarm_clockLegal {s : State} (h : s.clockLegal) : s.endWarm.clockLegal := by
  have hu : s.unfilled.clockLegal := (Keeps.foldl freeLayer_keeps _ _).clock (h.congr rfl rfl)
  have hf := (unfilled_frees s).clock
  have hc : s.endWarm.clock = { s.unfilled.clock.warm with
      divider := s.endWarm.clock.divider, dividerSet := s.endWarm.clock.dividerSet } := by
    rw [clock_endWarm, hf]
    rfl
  refine Clock.InRange.legal_zero ?_ ?_ ?_ <;> rw [hc]
  · exact hu.inRange.warm.other ..
  · rfl
  · rfl

theorem upset_keeps_clock (b : BlockId) (s : State) (c : Host.Cell) : (State.upset b s c).clock = s.clock
    ∧ (State.upset b s c).bnd = s.bnd := by
  unfold State.upset
  split <;> exact ⟨rfl, rfl⟩

theorem visit_clock (s : State) (b : BlockId) : (s.visit b).clock = s.clock ∧ (s.visit b).bnd = s.bnd := by
  unfold State.visit State.markDamaged
  repeat' split
  all_goals exact ⟨rfl, rfl⟩

theorem endScan_clockLegal {s : State} (freed checked : Nat) (h : s.clockLegal) : (s.endScan freed checked).clockLegal :=
  (report_keeps ..).clock
    (State.clockLegal_iff.2 ⟨h.inRange.other .., fun k => h.atZero k⟩ :
      State.clockLegal (State.becomeReady { s with pool := { s.pool with scan := none } }))

theorem scanOn_clockLegal {s : State} (v : Scan) (h : s.clockLegal) : (s.scanOn v).clockLegal := by
  unfold State.scanOn
  split
  · exact h.congr rfl rfl
  · exact endScan_clockLegal _ _ h

theorem visitEnd_clockLegal {s : State} (upsets : List Host.Cell) (v : Scan) (h : s.clockLegal) :
    (((upsets.foldl (State.upset v.next) s).visit v.next).scanOn v).clockLegal := by
  have hu : (upsets.foldl (State.upset v.next) s).clockLegal :=
    foldl_invariant (I := State.clockLegal)
      (fun u c hu => hu.congr (upset_keeps_clock _ u c).1 (congrArg Boundary.tempo (upset_keeps_clock _ u c).2)) upsets s h
  exact scanOn_clockLegal v (hu.congr (visit_clock _ _).1 (congrArg Boundary.tempo (visit_clock _ _).2))

theorem endWake_clockLegal {s : State} (w : Wake) (duration : Half) (h : s.clockLegal) :
    (s.endWake w duration).clockLegal := by
  have hr : State.clockLegal (State.becomeReady
      { s with sup := { s.sup with wake := none }, link := s.link.restartTimer.nextFrame }) :=
    State.clockLegal_iff.2 ⟨h.inRange.other .., fun k => h.atZero k⟩
  have hw := (report_keeps _ .woke ([w.cause.code] ++ le2 duration.toNat)).clock hr
  unfold State.endWake
  split
  · exact haltEvent_clockLegal _ hw
  · exact hw

theorem edge_clockLegal {s : State} (h : s.clockLegal) : s.edge.clockLegal := by
  have hedge : (if s.sup.detection then s.finishWalk.haltEvent .edge
      else { s with sup := { s.sup with edgeMemory := true } }).clockLegal := by
    split
    · exact haltEvent_clockLegal _ ((finishWalk_keeps s).clock h)
    · exact h.congr rfl rfl
  unfold State.edge
  split
  · exact h
  · exact hedge
  · exact hedge
  · split
    · exact h.congr rfl rfl
    · exact h
  · split
    · exact h.congr rfl rfl
    · exact h

/-! ### The recorder's, the bounce engine's and the link's events -/

theorem sealDue_keeps (s : State) (h : HeadId) : Keeps s (s.sealDue h) := by
  unfold State.sealDue
  split
  · exact Keeps.refl s
  · refine Keeps.ite (Keeps.refl s) ?_
    split
    · exact Keeps.refl s
    · next hr => exact sealPending_keeps _ _ _ _ hr

theorem lengthEndDue_keeps (s : State) (h : HeadId) : Keeps s (s.lengthEndDue h) := by
  unfold State.lengthEndDue
  split
  · exact Keeps.refl s
  · exact Keeps.ite (endAtLength_keeps ..) (Keeps.refl s)

theorem startHead_keeps (s : State) : Keeps s s.startHead := by
  unfold State.startHead
  split
  · split
    · exact startBounce_keeps ..
    · exact Keeps.refl s
  · exact Keeps.refl s

theorem finishHead_keeps (s : State) : Keeps s s.finishHead := by
  unfold State.finishHead
  split
  · exact Keeps.refl s
  · split
    · exact Keeps.refl s
    · exact Keeps.ite (finishIndex_keeps ..) (Keeps.refl s)

theorem selfMute_keeps (s : State) (t : TrackId) : Keeps s (s.selfMute t) :=
  Keeps.ite ((modTrack_keeps ..).trans (muteTrack_keeps ..)) (Keeps.refl s)

theorem entryEnd_keeps (s : State) : Keeps s s.entryEnd := by
  unfold State.entryEnd
  split
  · exact Keeps.refl s
  · exact Keeps.ite (endEntry_keeps ..) (Keeps.refl s)

theorem arrive_clock (s : State) (f : Frame) : (s.arrive f).clock = s.clock ∧ (s.arrive f).bnd = s.bnd := by
  unfold State.arrive State.offer State.arriveWake State.arriveTimer
  repeat' split
  all_goals exact ⟨rfl, rfl⟩

theorem sendFirst_clock (s : State) : s.sendFirst.clock = s.clock ∧ s.sendFirst.bnd = s.bnd := by
  unfold State.sendFirst
  repeat' split
  all_goals exact ⟨rfl, rfl⟩

theorem silenceExpires_clockLegal {s : State} (h : s.clockLegal) : s.silenceExpires.clockLegal := by
  unfold State.silenceExpires
  dsimp only
  split
  · exact (report_keeps ..).clock (h.congr rfl rfl)
  · refine (report_keeps ..).clock ((windDown_keeps _ _).clock ((windDown_keeps _ _).clock ?_))
    exact h.congr rfl rfl

theorem applyDue_keeps (s : State) : Keeps s (if s.bnd.tempo then s.applyAtBar else s) := by
  split
  · next ht => exact applyAtBar_keeps s ht
  · exact Keeps.refl s

/-! ### Every command -/

/-- What a command that is taken leaves. -/
theorem clockLegal_of_done {u t : State} (h : done u = .next t) (k : u.clockLegal) : t.clockLegal := by
  cases h
  exact k

theorem exec_clockLegal {i : Instr} {s t : State} (hs : s.clockLegal) (h : exec i s = .next t) : t.clockLegal := by
  have hbegun : s.beginHead.clockLegal := (beginHead_keeps s).clock hs
  have hsettled : s.settleWalk.clockLegal := (settleWalk_keeps s).clock hs
  cases i with
  | getStatus tag p => exact clockLegal_of_done h (serve_clockLegal (.of_same fun _ _ => ⟨rfl, rfl⟩) hs)
  | resetCauseRead tag p => exact clockLegal_of_done h (serve_clockLegal (.of_same fun _ _ => ⟨rfl, rfl⟩) hs)
  | linkConfigRead tag p => exact clockLegal_of_done h (serve_clockLegal (.of_same fun _ _ => ⟨rfl, rfl⟩) hs)
  | supplyConfigRead tag p vdd => exact clockLegal_of_done h (serve_clockLegal (.of_same fun _ _ => ⟨rfl, rfl⟩) hs)
  | haltConfigRead tag p => exact clockLegal_of_done h (serve_clockLegal (.of_same fun _ _ => ⟨rfl, rfl⟩) hs)
  | getPosition tag p => exact clockLegal_of_done h (serve_clockLegal (.of_same fun _ _ => ⟨rfl, rfl⟩) hs)
  | poolInfo tag p => exact clockLegal_of_done h (serve_clockLegal (.of_same fun _ _ => ⟨rfl, rfl⟩) hs)
  | clickConfigRead tag p => exact clockLegal_of_done h (serve_clockLegal (.of_same fun _ _ => ⟨rfl, rfl⟩) hs)
  | monitorConfigRead tag p => exact clockLegal_of_done h (serve_clockLegal (.of_same fun _ _ => ⟨rfl, rfl⟩) hs)
  | resetCauseReadAndClear tag p => exact clockLegal_of_done h (serve_clockLegal ownResetCauseReadAndClear_clock hs)
  | restartWarm tag p => exact clockLegal_of_done h (serve_clockLegal (ownRestart_clock _) hs)
  | restartCold tag p => exact clockLegal_of_done h (serve_clockLegal (ownRestart_clock _) hs)
  | linkConfigWrite tag p => exact clockLegal_of_done h (serve_clockLegal ownLinkConfigWrite_clock hs)
  | supplyConfigWrite tag p vdd => exact clockLegal_of_done h (serve_clockLegal (ownSupplyConfigWrite_clock _) hs)
  | haltClear tag p => exact clockLegal_of_done h (serve_clockLegal ownHaltClear_clock hs)
  | cancelCueById tag p => exact clockLegal_of_done h (serve_clockLegal ownCancelCueById_clock hs)
  | cancelCueByTrack tag p => exact clockLegal_of_done h (serve_clockLegal ownCancelCueByTrack_clock hs)
  | cancelCueAll tag p => exact clockLegal_of_done h (serve_clockLegal ownCancelCueAll_clock hs)
  | listCues tag p => exact clockLegal_of_done h (serve_clockLegal ownListCues_clock hs)
  | trackInfo tag p => exact clockLegal_of_done h (serve_clockLegal ownTrackInfo_clock hs)
  | layerInfo tag p => exact clockLegal_of_done h (serve_clockLegal ownLayerInfo_clock hs)
  | layerMap tag p => exact clockLegal_of_done h (serve_clockLegal ownLayerMap_clock hs)
  | setLevel tag p => exact clockLegal_of_done h (serve_clockLegal ownSetLevel_clock hs)
  | bounceInfo tag p => exact clockLegal_of_done h (serve_clockLegal ownBounceInfo_clock hs)
  | foldConfig tag p => exact clockLegal_of_done h (serve_clockLegal ownFoldConfig_clock hs)
  | sceneWrite tag p => exact clockLegal_of_done h (serve_clockLegal ownSceneWrite_clock hs)
  | sceneRead tag p => exact clockLegal_of_done h (serve_clockLegal ownSceneRead_clock hs)
  | sceneNextSet tag p => exact clockLegal_of_done h (serve_clockLegal ownSceneNextSet_clock hs)
  | sceneNextEmpty tag p => exact clockLegal_of_done h (serve_clockLegal ownSceneNextEmpty_clock hs)
  | sceneStop tag p => exact clockLegal_of_done h (serve_clockLegal ownSceneStop_clock hs)
  | clickConfigWrite tag p => exact clockLegal_of_done h (serve_clockLegal ownClickConfigWrite_clock hs)
  | tones tag p => exact clockLegal_of_done h (serve_clockLegal ownTones_clock hs)
  | monitorConfigWrite tag p => exact clockLegal_of_done h (serve_clockLegal ownMonitorConfigWrite_clock hs)
  | standby tag p => exact clockLegal_of_done h (serve_clockLegal ownStandby_clock hs)
  | haltConfigWrite tag p => exact clockLegal_of_done h (serve_clockLegal ownHaltConfigWrite_clock hs)
  | setTempo tag p => exact clockLegal_of_done h (serve_clockLegal ownSetTempo_clock hs)
  | tap tag p => exact clockLegal_of_done h (serve_clockLegal ownTap_clock hs)
  | start tag p => exact clockLegal_of_done h (serve_clockLegal ownStart_clock hs)
  | stop tag p => exact clockLegal_of_done h (serve_clockLegal ownStop_clock hs)
  | cue tag p => exact clockLegal_of_done h (serve_clockLegal ownCue_clock hs)
  | clearAll tag p => exact clockLegal_of_done h (serve_clockLegal ownClearAll_clock hs)
  | trackConfig tag p => exact clockLegal_of_done h (serve_clockLegal ownTrackConfig_clock hs)
  | bounce tag p => exact clockLegal_of_done h (serve_clockLegal ownBounce_clock hs)
  | cancelBounceById tag p => exact clockLegal_of_done h (serve_clockLegal ownCancelBounceById_clock hs)
  | cancelBounceAll tag p => exact clockLegal_of_done h (serve_clockLegal ownCancelBounceAll_clock hs)
  | toneFlush tag p => exact clockLegal_of_done h (serve_clockLegal ownToneFlush_clock hs)
  | unknownRequest kind tag p =>
    change (if _ then _ else _ : Result) = _ at h
    split at h
    · exact clockLegal_of_done h hs
    · exact clockLegal_of_done h ((takeRequest_clockLegal hs).congr rfl rfl)
  | requestWarm => exact clockLegal_of_done h (by split; exacts [startReset_clockLegal _ hs, hs])
  | requestCold => exact clockLegal_of_done h (by split; exacts [startReset_clockLegal _ hs, hs])
  | wellFormedFrame kind tag p =>
    exact clockLegal_of_done h (hsettled.congr (arrive_clock _ _).1 (congrArg Boundary.tempo (arrive_clock _ _).2))
  | frameDiscard cause => exact clockLegal_of_done h (hs.congr rfl rfl)
  | byteGap => exact clockLegal_of_done h (hs.congr rfl rfl)
  | startByte => exact clockLegal_of_done h (by split; exacts [hs, hs.congr rfl rfl])
  | frameSent =>
    exact clockLegal_of_done h (hsettled.congr (sendFirst_clock _).1 (congrArg Boundary.tempo (sendFirst_clock _).2))
  | linkSilenceExpiry =>
    exact clockLegal_of_done h (by split; exacts [silenceExpires_clockLegal ((finishWalk_keeps s).clock hs), hs])
  | audioFrame in0 in1 in2 in3 =>
    refine clockLegal_of_done h ?_
    split
    · split
      · exact hs
      · exact readyFrame_clockLegal _ hs
    · split
      · exact hs
      · exact hs.congr rfl rfl
    · exact hs
  | tickBoundary now => exact clockLegal_of_done h (takeTick_clockLegal now hbegun)
  | countInBegin now => exact clockLegal_of_done h (countInBegins_clockLegal now hbegun)
  | countInEnd now => exact clockLegal_of_done h (countInOver_clockLegal now hbegun)
  | startInstant now => exact clockLegal_of_done h (startsNow_clockLegal now hbegun)
  | pendingTempoApply => exact clockLegal_of_done h ((applyDue_keeps _).clock hsettled)
  | cueExecute => exact clockLegal_of_done h (by split; exacts [(cueStep_keeps s).clock hs, hs])
  | endPendingSeal head => exact clockLegal_of_done h ((sealDue_keeps _ _).clock hsettled)
  | trackLengthEnd head => exact clockLegal_of_done h ((lengthEndDue_keeps _ _).clock hsettled)
  | oneShotSelfMute track => exact clockLegal_of_done h ((selfMute_keeps _ _).clock hsettled)
  | bounceStart => exact clockLegal_of_done h ((startHead_keeps _).clock hsettled)
  | bounceIndexBegin => exact clockLegal_of_done h hbegun
  | bounceIndexFinish => exact clockLegal_of_done h ((finishHead_keeps _).clock hsettled)
  | sceneCountdownEnd => exact clockLegal_of_done h (by split; exacts [(takeSceneStep_keeps s).clock hs, hs])
  | dueSceneApply => exact clockLegal_of_done h (by split; exacts [(takeSceneStep_keeps s).clock hs, hs])
  | clickEnd => exact clockLegal_of_done h (by split; exacts [hs.congr rfl rfl, hs])
  | toneLoad =>
    refine clockLegal_of_done h ?_
    repeat' split
    all_goals exact hs.congr rfl rfl
  | toneEntryEnd => exact clockLegal_of_done h ((entryEnd_keeps _).clock hsettled)
  | waveformFlip tone =>
    refine clockLegal_of_done h ?_
    repeat' split
    all_goals exact hs.congr rfl rfl
  | power => exact clockLegal_of_done h (startReset_clockLegal _ hs)
  | brown => exact clockLegal_of_done h (startReset_clockLegal _ hs)
  | pin => exact clockLegal_of_done h (startReset_clockLegal _ hs)
  | coldResetEnd haltHigh =>
    refine clockLegal_of_done h ?_
    split
    · exact (hello_keeps _).clock ((coldValues_clockLegal s haltHigh).congr rfl rfl)
    · exact hs
  | warmResetEnd => exact clockLegal_of_done h (by split; exacts [endWarm_clockLegal hs, hs])
  | verifyVisitEnd upsets =>
    refine clockLegal_of_done h ?_
    split
    · exact hs
    · split
      · exact visitEnd_clockLegal upsets _ hs
      · exact hs
  | supplyLow vdd =>
    refine clockLegal_of_done h ?_
    unfold State.fallLow
    split
    · have hc : (s.settleWalk.cross true vdd).clockLegal := (report_keeps ..).clock (hsettled.congr rfl rfl)
      dsimp only
      split
      · exact hc.congr rfl rfl
      · exact hc
    · exact hsettled
  | supplyOk vdd =>
    refine clockLegal_of_done h ?_
    unfold State.riseNormal
    split
    · exact (report_keeps ..).clock (hsettled.congr rfl rfl)
    · exact hsettled
  | wakeEnd duration =>
    refine clockLegal_of_done h ?_
    split
    · exact hs
    · split
      · exact endWake_clockLegal _ _ hs
      · exact hs
  | haltEdge => exact clockLegal_of_done h (by split; exacts [hs, edge_clockLegal (hs.congr rfl rfl)])
  | haltLineInactive => exact clockLegal_of_done h (by split; exacts [hs.congr rfl rfl, hs])

/-- Settles O7, by the command at the front of the queue. -/
theorem clockRangesAreKeptByEveryStep : Obligations.ClockRangesAreKeptByEveryStep := by
  intro s t hs h
  unfold step at h
  split at h
  · cases h
    exact hs
  · refine exec_clockLegal ?_ h
    exact hs.congr rfl rfl

end Sys2Proof.Machine
end

