-- ==== Sys2Proof/Proofs/ResetLegal.lean ====
section
/-! The state after reset (R29, R91, R93, R107, R193). -/

namespace Sys2Proof.Machine

/-- Settles O4: the link port, the memory and the queues by their values, the clock's by `cold_inRange`, the pool's by the
laws of the free list. -/
theorem resetStateIsLegal : Obligations.ResetStateIsLegal := by
  refine ⟨⟨List.Pairwise.nil, fun c hc => absurd hc List.not_mem_nil⟩, ?_, Clock.InRange.legal cold_inRange rfl rfl, ?_, ?_⟩
  · refine ⟨Nat.zero_le _, ?_, ?_⟩
    · exact (List.length_filter_le ..).trans (by decide)
    · decide
  · refine ⟨?_, fun b => ?_, fun x l hx => ?_, fun x l hx => ?_⟩
    · rw [reset_free]; exact allBlocks_nodup
    · rw [reset_free, reset_entry]; exact iff_of_true (mem_allBlocks b) rfl
    · rw [reset_layer] at hx; exact absurd hx (by simp)
    · rw [reset_layer] at hx; exact absurd hx (by simp)
  · exact ⟨Nat.zero_le _, Nat.zero_le _, Nat.zero_le _⟩

end Sys2Proof.Machine
end

