-- ==== Sys2Proof/Proofs/Transport.lean ====
section
/-! SET_TEMPO, TAP, PENDING_TEMPO_APPLY and START (R36, R37, R39, R40). -/

namespace Sys2Proof.Machine

/-! ### The fields of a reply -/

/-- A two-byte field read from two bytes is written as they stand. -/
theorem le2_fromLe2 (lo hi : Byte) : le2 (fromLe2 lo hi) = [lo, hi] := by
  have hlo := lo.isLt
  have hhi := hi.isLt
  have h0 : byte (fromLe2 lo hi) = lo := by
    apply BitVec.eq_of_toNat_eq
    simp only [byte, fromLe2, BitVec.toNat_ofNat]
    omega
  have h1 : byte (fromLe2 lo hi / 256) = hi := by
    apply BitVec.eq_of_toNat_eq
    simp only [byte, fromLe2, BitVec.toNat_ofNat]
    omega
  unfold le2
  rw [h0, h1]

/-! ### START -/

theorem exec_start {s : State} {tag c : Byte} (h : s.canTake { kind := 0x12, tag := tag, payload := [c] } = true) :
    exec (.start tag [c]) s
      = .next ((ownStart s.takeRequest [c]).1.reply 0x12 tag (ownStart s.takeRequest [c]).2) :=
  congrArg Host.Outcome.next (serve_taken h rfl rfl)

/-- The transport that a Start with this count-in enters (R40). -/
def enteredBy (c : Byte) : Transport := if c = 0 then .running else .countIn

theorem started_eq (k : Clock) (c : Byte) :
    k.started c.toNat = { k with
      tick := 0, beat := 0, bar := 0, songBar := 0, loopPos := 0, divider := 0, dividerSet := true
      countIn := c.toNat, transport := enteredBy c, startMark := if c = 0 then .start else .countIn, loopSet := false } := by
  have hc : c.toNat = 0 ↔ c = 0 := ⟨fun e => BitVec.eq_of_toNat_eq e, fun e => by rw [e]; rfl⟩
  unfold Clock.started enteredBy
  simp only [hc]

theorem ownStart_ready {u : State} (c : Byte) (hr : u.isReady = true) :
    ownStart u [c] =
      if 4 < c.toNat then (u, [3, 0])
      else if u.sup.latch = true then (u, [8, 0])
      else if u.clock.transport ≠ .stopped then (u, [6, 0])
      else
        (State.reportTransport { u with clock := u.clock.started c.toNat } .stopped .start c.toNat,
          [0, (u.clock.started c.toNat).transport.code]) := by
  unfold ownStart
  rw [hr]
  rfl

/-- Settles O20: the order of the checks is `ownStart_ready`, the counters of an accepted Start are `started_eq`. -/
theorem startZeroesTheSongAndEntersTheTransport : Obligations.StartZeroesTheSongAndEntersTheTransport := by
  intro s tag c h hr u entered
  rw [exec_start h, ownStart_ready c (isReady_of_ready hr)]
  refine congrArg Host.Outcome.next ?_
  split
  · rfl
  · split
    · rfl
    · split
      · rfl
      · rw [started_eq, State.reportTransport, byte_toNat]
        rfl

/-! ### SET_TEMPO and TAP -/

theorem exec_setTempo {s : State} {tag p0 p1 b : Byte}
    (h : s.canTake { kind := 0x10, tag := tag, payload := [p0, p1, b] } = true) :
    exec (.setTempo tag [p0, p1, b]) s
      = .next ((ownSetTempo s.takeRequest [p0, p1, b]).1.reply 0x10 tag (ownSetTempo s.takeRequest [p0, p1, b]).2) :=
  congrArg Host.Outcome.next (serve_taken h rfl rfl)

theorem exec_tap {s : State} {tag : Byte} (h : s.canTake { kind := 0x11, tag := tag, payload := [] } = true) :
    exec (.tap tag []) s = .next ((ownTap s.takeRequest []).1.reply 0x11 tag (ownTap s.takeRequest []).2) :=
  congrArg Host.Outcome.next (serve_taken h rfl rfl)

theorem tempoLocked_iff {u : State} : u.tempoLocked = true ↔ u.clock.loop.isSome = true ∨ u.definingRuns = true :=
  Bool.or_eq_true_iff

/-- A pair in range is applied at once while STOPPED. -/
theorem stageTempo_stopped {u : State} (p b : Nat) (h : u.clock.transport = .stopped) :
    u.stageTempo p b = (0, u.applyStopped p b .now) := by
  unfold State.stageTempo
  rw [h]

/-- A pair in range is staged while the transport moves. -/
theorem stageTempo_moving {u : State} (p b : Nat) (h : u.clock.transport ≠ .stopped) :
    u.stageTempo p b = (if u.clock.pendingTempo = none then 1 else 2,
      { u with clock := { u.clock with pendingTempo := some (p, b) } }) := by
  unfold State.stageTempo
  split
  · next e => exact absurd e h
  · rfl

theorem not_pairLegal {p b : Nat} : ¬PairLegal p b ↔ p < 250 ∨ 1500 < p ∨ b < 1 ∨ 12 < b := by
  unfold PairLegal
  omega

theorem ownSetTempo_ready {u : State} (p0 p1 b : Byte) (hr : u.isReady = true) :
    ownSetTempo u [p0, p1, b] =
      if fromLe2 p0 p1 < 250 ∨ 1500 < fromLe2 p0 p1 ∨ b.toNat < 1 ∨ 12 < b.toNat then (u, [3, 0])
      else if u.tempoLocked = true then (u, [9, 0])
      else ((u.stageTempo (fromLe2 p0 p1) b.toNat).2, [0, (u.stageTempo (fromLe2 p0 p1) b.toNat).1]) := by
  have hrange : ((!tempoInRange (fromLe2 p0 p1) b.toNat) = true) ↔
      fromLe2 p0 p1 < 250 ∨ 1500 < fromLe2 p0 p1 ∨ b.toNat < 1 ∨ 12 < b.toNat := by
    rw [← not_pairLegal, ← tempoInRange_iff, Bool.not_eq_true, Bool.not_eq_true']
  unfold ownSetTempo
  rw [hr]
  simp only [hrange]
  rfl

theorem ownSetTempo_reply {u : State} (tag p0 p1 b : Byte) (hr : u.isReady = true) :
    (ownSetTempo u [p0, p1, b]).1.reply 0x10 tag (ownSetTempo u [p0, p1, b]).2 =
      if fromLe2 p0 p1 < 250 ∨ 1500 < fromLe2 p0 p1 ∨ b.toNat < 1 ∨ 12 < b.toNat then u.reply 0x10 tag [3, 0]
      else if u.clock.loop.isSome = true ∨ u.definingRuns = true then u.reply 0x10 tag [9, 0]
      else if u.clock.transport = .stopped then
        State.reply
          (State.report
            { u with
              clock :=
                { u.clock with p := fromLe2 p0 p1, b := b.toNat, tick := 0, beat := 0, pendingTempo := none } }
            .tempo [p0, p1, b, 0])
          0x10 tag [0, 0]
      else
        State.reply { u with clock := { u.clock with pendingTempo := some (fromLe2 p0 p1, b.toNat) } } 0x10 tag
          [0, if u.clock.pendingTempo = none then 1 else 2] := by
  rw [ownSetTempo_ready _ _ _ hr]
  simp only [tempoLocked_iff]
  split
  · rfl
  · split
    · rfl
    · split
      · next ht =>
        rw [stageTempo_stopped _ _ ht, State.applyStopped, State.reportTempo]
        dsimp only
        rw [le2_fromLe2, byte_toNat]
        rfl
      · next ht =>
        rw [stageTempo_moving _ _ ht]

theorem ownTap_locked {u : State} (hr : u.isReady = true) (h : u.tempoLocked = true) :
    ownTap u [] = (u, [9, 0, 0, 0, 0xFF]) := by
  unfold ownTap
  rw [hr, h]
  rfl

theorem ownTap_taken {u : State} (hr : u.isReady = true) (h : u.tempoLocked = false) : ownTap u [] = u.takeTap := by
  unfold ownTap
  rw [hr, h]
  rfl

/-- A Tap that leaves fewer than four stamps (R39). -/
theorem takeTap_few {u : State} {taps : List Word} (ht : addTap u.clock.taps u.clock.frameCount = taps)
    (h : taps.length < 4) : u.takeTap = (u.setTaps taps, [0, byte taps.length, 0, 0, 0xFF]) := by
  unfold State.takeTap
  rw [ht, if_pos h]
  rfl

/-- The P of the fourth Tap (R39): S / 144, rounded. -/
def fourthTapP (now t0 : Word) : Nat := ((now - t0).toNat + 72) / 144

/-- A fourth Tap whose P is in range (R39). -/
theorem takeTap_formed {u : State} {t0 t1 t2 : Word}
    (ht : addTap u.clock.taps u.clock.frameCount = [t0, t1, t2, u.clock.frameCount])
    (hp : 250 ≤ fourthTapP u.clock.frameCount t0 ∧ fourthTapP u.clock.frameCount t0 ≤ 1500) :
    u.takeTap = (((u.setTaps []).stageTempo (fourthTapP u.clock.frameCount t0) u.clock.b).2,
      [0, 4] ++ le2 (fourthTapP u.clock.frameCount t0)
        ++ [((u.setTaps []).stageTempo (fourthTapP u.clock.frameCount t0) u.clock.b).1]) := by
  unfold State.takeTap
  rw [ht]
  exact (if_neg (Nat.lt_irrefl 4)).trans (if_pos hp)

/-- A fourth Tap whose P is out of range (R39). -/
theorem takeTap_discarded {u : State} {t0 t1 t2 : Word}
    (ht : addTap u.clock.taps u.clock.frameCount = [t0, t1, t2, u.clock.frameCount])
    (hp : ¬(250 ≤ fourthTapP u.clock.frameCount t0 ∧ fourthTapP u.clock.frameCount t0 ≤ 1500)) :
    u.takeTap = (u.setTaps [], [3, 4] ++ le2 (fourthTapP u.clock.frameCount t0) ++ [0xFF]) := by
  unfold State.takeTap
  rw [ht]
  exact (if_neg (Nat.lt_irrefl 4)).trans (if_neg hp)

/-- An empty history, and one whose newest stamp is old, hold the new stamp alone (R39). -/
theorem addTap_alone {taps : List Word} {now : Word}
    (h : ∀ newest, taps.getLast? = some newest → 96000 < (now - newest).toNat) : addTap taps now = [now] := by
  unfold addTap
  split
  · next newest e => exact if_pos (h newest e)
  · rfl

theorem addTap_joins {taps : List Word} {now newest : Word} (e : taps.getLast? = some newest)
    (h : (now - newest).toNat ≤ 96000) : addTap taps now = taps ++ [now] := by
  unfold addTap
  rw [e]
  exact if_neg (Nat.not_lt.2 h)

/-- TAP (R39). -/
theorem tap_applies_or_stages {s : State} {tag : Byte}
    (h : s.canTake { kind := 0x11, tag := tag, payload := [] } = true) (hr : s.sup.state = .ready) :
    let u := s.takeRequest
    let now := u.clock.frameCount
    let locked := u.clock.loop.isSome = true ∨ u.definingRuns = true
    (locked → exec (.tap tag []) s = .next (u.reply 0x11 tag [9, 0, 0, 0, 0xFF]))
    ∧ (¬locked →
      ((∀ newest, u.clock.taps.getLast? = some newest → 96000 < (now - newest).toNat) →
        exec (.tap tag []) s = .next
          (State.reply { u with clock := { u.clock with taps := [now] } } 0x11 tag [0, 1, 0, 0, 0xFF]))
      ∧ (∀ newest, u.clock.taps.getLast? = some newest → (now - newest).toNat ≤ 96000 → u.clock.taps.length < 3 →
        exec (.tap tag []) s = .next
          (State.reply { u with clock := { u.clock with taps := u.clock.taps ++ [now] } } 0x11 tag
            [0, byte (u.clock.taps.length + 1), 0, 0, 0xFF]))
      ∧ (∀ t0 t1 t2, u.clock.taps = [t0, t1, t2] → (now - t2).toNat ≤ 96000 →
        let p := ((now - t0).toNat + 72) / 144
        exec (.tap tag []) s = .next
          (if p < 250 ∨ 1500 < p then
             State.reply { u with clock := { u.clock with taps := [] } } 0x11 tag ([3, 4] ++ le2 p ++ [0xFF])
           else if u.clock.transport = .stopped then
             State.reply
               (State.report
                 { u with
                   clock := { u.clock with p := p, tick := 0, beat := 0, taps := [], pendingTempo := none } }
                 .tempo (le2 p ++ [byte u.clock.b, 0]))
               0x11 tag ([0, 4] ++ le2 p ++ [0])
           else
             State.reply { u with clock := { u.clock with taps := [], pendingTempo := some (p, u.clock.b) } } 0x11 tag
               ([0, 4] ++ le2 p ++ [if u.clock.pendingTempo = none then 1 else 2])))) := by
  intro u now locked
  have hready : u.isReady = true := isReady_of_ready hr
  have hexec : ∀ v p, ownTap u [] = (v, p) → exec (.tap tag []) s = .next (v.reply 0x11 tag p) := fun v p e => by
    rw [exec_tap h, e]
  refine ⟨fun hl => hexec _ _ (ownTap_locked hready (tempoLocked_iff.2 hl)), fun hl => ?_⟩
  have htap : ownTap u [] = u.takeTap :=
    ownTap_taken hready (Bool.eq_false_iff.2 fun e => hl (tempoLocked_iff.1 e))
  refine ⟨fun hold => hexec _ _ (htap.trans (takeTap_few (addTap_alone hold) (by decide : 1 < 4))),
    fun newest e hn h3 => ?_, fun t0 t1 t2 e hn => ?_⟩
  · refine hexec _ _ (htap.trans ((takeTap_few (addTap_joins e hn) ?_).trans ?_)) <;>
      rw [List.length_append, List.length_singleton]
    · exact Nat.succ_lt_succ h3
    · rfl
  · intro p
    have hadd : addTap u.clock.taps now = [t0, t1, t2, now] := by
      rw [addTap_joins (newest := t2) (by rw [e]; rfl) hn, e]
      rfl
    by_cases hp : 250 ≤ fourthTapP now t0 ∧ fourthTapP now t0 ≤ 1500
    · have hin : ¬(p < 250 ∨ 1500 < p) := not_or.2 ⟨Nat.not_lt.2 hp.1, Nat.not_lt.2 hp.2⟩
      rw [if_neg hin]
      refine (hexec _ _ (htap.trans (takeTap_formed hadd hp))).trans (congrArg Host.Outcome.next ?_)
      split
      · next ht =>
        rw [stageTempo_stopped (u := u.setTaps []) _ _ ht]
        rfl
      · next ht =>
        rw [stageTempo_moving (u := u.setTaps []) _ _ ht]
        rfl
    · have hout : p < 250 ∨ 1500 < p := (not_and_or.1 hp).imp Nat.lt_of_not_le Nat.lt_of_not_le
      rw [if_pos hout]
      exact hexec _ _ (htap.trans (takeTap_discarded hadd hp))

/-! ### PENDING_TEMPO_APPLY -/

theorem applyAtBar_some {s : State} {p b : Nat} (h : s.clock.pendingTempo = some (p, b)) :
    s.applyAtBar = State.report
      { s with
        clock := { s.clock with p := p, b := b, divider := p - 1, pendingTempo := none }
        bnd := { s.bnd with tempo := false } }
      .tempo (le2 p ++ [byte b, 1]) := by
  unfold State.applyAtBar
  rw [h]
  rfl

/-- Settles O19: `ownSetTempo_reply` for SET_TEMPO, `tap_applies_or_stages` for TAP, and `applyAtBar_some` for the pair that a
BAR boundary applies. -/
theorem setTempoAndTapApplyOrStage : Obligations.SetTempoAndTapApplyOrStage := by
  refine ⟨⟨fun s tag p0 p1 b h hr =>
      (exec_setTempo h).trans (congrArg _ (ownSetTempo_reply tag p0 p1 b (isReady_of_ready hr))),
      fun s tag h hr => tap_applies_or_stages h hr⟩,
    fun w => ⟨fun ht => ?_, fun p b ht hp => ?_⟩⟩
  · exact congrArg Host.Outcome.next (if_neg (by simp [ht]))
  · exact congrArg Host.Outcome.next ((if_pos ht).trans (applyAtBar_some hp))

end Sys2Proof.Machine
end

