-- ==== Sys2Proof/Proofs/StopFrame.lean ====
section
/-! What a stop of the transport and a halt event leave, the recordings they cut aside (R42, R179), and the supply's crossings
and the wake's end (R174, R177). -/

namespace Sys2Proof.Machine

/-! ### The stop of a moving transport -/

/-- The recordings cut by a stop, on the clock that has stopped (R42, R85, R86). -/
def State.cutsTaken (s : State) (reason : SealReason) : State := State.cutHeads { s with clock := s.clock.stopped } reason

/-- The voices, the click and the rest of the boundary gone with the stop (R42). -/
def State.quieted (s : State) : State :=
  { s with mix := s.mix.clear, tones := { s.tones with clickEnds := true }, bnd := s.bnd.stopped }

/-- The stop of a moving transport is its four parts in order: the cuts, the pending pair, the rest, and TRANSPORT. -/
theorem stopTransport_moving {s : State} (cause : TransportCause) (reason : SealReason) (h : s.clock.transport ≠ .stopped) :
    s.stopTransport cause reason
      = ((s.cutsTaken reason).applyPendingStopped.quieted.reportTransport s.clock.transport cause 0).scenesIdle := by
  unfold State.stopTransport
  split
  · next e => exact absurd e h
  · rfl

/-- What a stop from u leaves of the blocks that no recording touches (R42). -/
structure StopLeaves (u t : State) : Prop where
  transport : t.clock.transport = .stopped
  countIn : t.clock.countIn = 0
  pending : t.clock.pendingTempo = none
  songBar : t.clock.songBar = u.clock.songBar
  divider : t.clock.divider = u.clock.divider
  head0 : t.head0 = none
  head1 : t.head1 = none
  voices : t.mix.voices = Vector.replicate 24 none
  wait : t.mix.wait = []
  scenes : t.scenes = u.scenes.idle
  tones : t.tones = { u.tones with clickEnds := true }
  cues : t.cues = u.cues
  sup : t.sup = u.sup
  bnd : t.bnd = u.bnd.stopped
  applied : ∀ p b, u.clock.pendingTempo = some (p, b) →
    t.clock.p = p ∧ t.clock.b = b ∧ t.clock.tick = 0 ∧ t.clock.beat = 0
  kept : u.clock.pendingTempo = none →
    t.clock.p = u.clock.p ∧ t.clock.b = u.clock.b ∧ t.clock.tick = u.clock.tick ∧ t.clock.beat = u.clock.beat

theorem applyPendingStopped_none {s : State} (h : s.clock.pendingTempo = none) : s.applyPendingStopped = s := by
  unfold State.applyPendingStopped
  rw [h]

/-- The clock at a stop's end when a pair was pending (R36, R37). -/
theorem applyPendingStopped_clock {s : State} {p b : Nat} (h : s.clock.pendingTempo = some (p, b)) :
    s.applyPendingStopped.clock = { s.clock with p := p, b := b, tick := 0, beat := 0, pendingTempo := none } := by
  unfold State.applyPendingStopped
  rw [h]
  exact State.report_clock ..

/-- A pending pair's application touches the clock and the link alone. -/
theorem applyPendingStopped_eq (s : State) :
    s.applyPendingStopped = { s with clock := s.applyPendingStopped.clock, link := s.applyPendingStopped.link } := by
  unfold State.applyPendingStopped
  split
  · rfl
  · unfold State.applyStopped State.reportTempo
    rw [State.report_eq]

theorem cutsTaken_stays (s : State) (reason : SealReason) :
    Stays { s with clock := s.clock.stopped } (s.cutsTaken reason) := cutHeads_stays ..

theorem cutsTaken_sup (s : State) (reason : SealReason) : (s.cutsTaken reason).sup = s.sup :=
  (cutHeads_keeps { s with clock := s.clock.stopped } reason).sup

/-- The clock that the cuts leave: they can move L, the bar and the loop position alone. -/
theorem cutsTaken_clock (s : State) (reason : SealReason) :
    ∃ loop bar pos set, (s.cutsTaken reason).clock
      = { s.clock.stopped with loop := loop, bar := bar, loopPos := pos, loopSet := set } :=
  ⟨_, _, _, _, (cutsTaken_stays s reason).clock⟩

/-- The state at the end of a stop, its reports apart, keeps everything but the clock from the cuts. -/
theorem stopLeaves_of_clock {s t : State} {reason : SealReason}
    (hclock : t.clock = (s.cutsTaken reason).applyPendingStopped.clock)
    (hheads : t.head0 = (s.cutsTaken reason).head0 ∧ t.head1 = (s.cutsTaken reason).head1)
    (hmix : t.mix = (s.cutsTaken reason).mix.clear) (hscenes : t.scenes = (s.cutsTaken reason).scenes.idle)
    (htones : t.tones = { (s.cutsTaken reason).tones with clickEnds := true })
    (hcues : t.cues = (s.cutsTaken reason).cues) (hsup : t.sup = (s.cutsTaken reason).sup)
    (hbnd : t.bnd = (s.cutsTaken reason).bnd.stopped) : StopLeaves s t := by
  have hstays := cutsTaken_stays s reason
  have hidle : t.head0 = none ∧ t.head1 = none :=
    ⟨hheads.1.trans (cutHeads_idle _ _).1, hheads.2.trans (cutHeads_idle _ _).2⟩
  obtain ⟨loop, bar, pos, set, hcut⟩ := cutsTaken_clock s reason
  have hpending : (s.cutsTaken reason).clock.pendingTempo = s.clock.pendingTempo := by rw [hcut]; rfl
  have hnone : s.clock.pendingTempo = none →
      t.clock = { s.clock.stopped with loop := loop, bar := bar, loopPos := pos, loopSet := set } := fun h => by
    rw [hclock, applyPendingStopped_none (hpending.trans h), hcut]
  have hsome : ∀ p b, s.clock.pendingTempo = some (p, b) →
      t.clock = { s.clock.stopped with
        loop := loop, bar := bar, loopPos := pos, loopSet := set
        p := p, b := b, tick := 0, beat := 0, pendingTempo := none } := fun p b h => by
    rw [hclock, applyPendingStopped_clock (hpending.trans h), hcut]
  have hany : t.clock.transport = .stopped ∧ t.clock.countIn = 0 ∧ t.clock.pendingTempo = none
      ∧ t.clock.songBar = s.clock.songBar ∧ t.clock.divider = s.clock.divider := by
    cases h : s.clock.pendingTempo with
    | none => rw [hnone h]; exact ⟨rfl, rfl, h, rfl, rfl⟩
    | some q => rw [hsome q.1 q.2 h]; exact ⟨rfl, rfl, rfl, rfl, rfl⟩
  obtain ⟨htransport, hcount, hpend, hsong, hdiv⟩ := hany
  exact
    { transport := htransport, countIn := hcount, pending := hpend, songBar := hsong, divider := hdiv
      head0 := hidle.1, head1 := hidle.2, voices := by rw [hmix]; rfl, wait := by rw [hmix]; rfl
      scenes := by rw [hscenes, hstays.scenes], tones := by rw [htones, hstays.tones]
      cues := hcues.trans hstays.cues, sup := hsup.trans (cutsTaken_sup ..), bnd := by rw [hbnd, hstays.bnd]
      applied := fun p b h => by rw [hsome p b h]; exact ⟨rfl, rfl, rfl, rfl⟩
      kept := fun h => by rw [hnone h]; exact ⟨rfl, rfl, rfl, rfl⟩ }

theorem stopTransport_leaves {s : State} (cause : TransportCause) (reason : SealReason) (h : s.clock.transport ≠ .stopped) :
    StopLeaves s (s.stopTransport cause reason) := by
  rw [stopTransport_moving cause reason h, State.reportTransport, State.report_eq, applyPendingStopped_eq]
  exact stopLeaves_of_clock rfl ⟨rfl, rfl⟩ rfl rfl rfl rfl rfl rfl

/-! ### The halt event -/

/-- The state with the latch set and the cue list emptied, before the transport stops (R179). -/
def State.latched (s : State) : State :=
  { s with sup := { s.sup with latch := true }, cues := { s.cues with list := [] } }

theorem haltEvent_latched {s : State} (source : HaltSource) (h : s.sup.latch = true) : s.haltEvent source = s := if_pos h

theorem haltEvent_clear {s : State} (source : HaltSource) (h : s.sup.latch = false) :
    s.haltEvent source = (s.latched.stopTransport .halt .halt).scenesIdle.reportHalt
      s.cues.list.length s.headsBusy s.clock.transport source := if_neg (by rw [h]; decide)

/-- A halt event sets the latch, empties the cue list, stops the transport and sets the sequencer IDLE (R179). -/
theorem haltEvent_takes {s : State} (source : HaltSource) (h : s.sup.latch = false) :
    (s.haltEvent source).sup = { s.sup with latch := true } ∧ (s.haltEvent source).cues.list = []
      ∧ (s.haltEvent source).clock.transport = .stopped ∧ (s.haltEvent source).scenes.current = none := by
  rw [haltEvent_clear source h, State.reportHalt, State.report_eq]
  by_cases ht : s.clock.transport = .stopped
  · rw [State.stopTransport_stopped .halt .halt (s := s.latched) ht]
    exact ⟨rfl, rfl, ht, rfl⟩
  · have hleaves : StopLeaves s.latched _ := stopTransport_leaves .halt .halt ht
    exact ⟨hleaves.sup, congrArg CueQueue.list hleaves.cues, hleaves.transport, rfl⟩

/-! ### Supply and wake -/

theorem warnLevel_eq (code : Fin 4) : warnLevel code = 340 + 10 * code.val := by
  revert code
  decide

theorem fallLow_stays {s : State} {vdd : Half} (h : s.sup.low = true ∨ warnLevel s.sup.warnCode ≤ vdd.toNat) :
    s.fallLow vdd = s :=
  if_neg fun k => h.elim (fun e => by simp [e] at k) (Nat.not_le.2 k.2)

theorem fallLow_crosses {s : State} {vdd : Half} (h : s.sup.low = false) (hv : vdd.toNat < warnLevel s.sup.warnCode) :
    s.fallLow vdd = if s.sup.state = .standby then (s.cross true vdd).wake .supply else s.cross true vdd := if_pos ⟨h, hv⟩

theorem riseNormal_stays {s : State} {vdd : Half} (h : s.sup.low = false ∨ vdd.toNat < warnLevel s.sup.warnCode + 5) :
    s.riseNormal vdd = s :=
  if_neg fun k => h.elim (fun e => by simp [e] at k) (Nat.not_lt.2 k.2)

theorem riseNormal_crosses {s : State} {vdd : Half} (h : s.sup.low = true)
    (hv : warnLevel s.sup.warnCode + 5 ≤ vdd.toNat) : s.riseNormal vdd = s.cross false vdd := if_pos ⟨h, hv⟩

/-- The supervisor READY at the end of a wake, with WOKE sent, before a held halt edge (R177). -/
def State.woken (s : State) (w : Wake) (duration : Half) : State :=
  (State.becomeReady
    { s with sup := { s.sup with wake := none }, link := s.link.restartTimer.nextFrame }).report
    .woke ([w.cause.code] ++ le2 duration.toNat)

theorem woken_sup (s : State) (w : Wake) (d : Half) :
    (s.woken w d).sup = { s.sup with state := .ready, wake := none } := State.report_sup ..

theorem wakeEnd_waking {s : State} {w : Wake} {d : Half} (hs : s.sup.state = .waking) (hw : s.sup.wake = some w) :
    exec (.wakeEnd d) s = .next (if w.haltHeld then (s.woken w d).haltEvent .wake else s.woken w d) := by
  change execWakeEnd d s = _
  unfold execWakeEnd
  rw [hw]
  exact congrArg Host.Outcome.next (if_pos hs)

theorem wakeEnd_otherwise {s : State} {d : Half} (hs : s.sup.state ≠ .waking) : exec (.wakeEnd d) s = .next s := by
  change execWakeEnd d s = _
  unfold execWakeEnd
  split
  · rfl
  · exact congrArg Host.Outcome.next (if_neg hs)

/-- Settles O59: each crossing by whether the level is crossed, and a wake's end by whether it holds a halt edge. -/
theorem supplyCrossingsAndWakes : Obligations.SupplyCrossingsAndWakes := by
  refine ⟨fun w vdd => ?_, fun s d => ⟨wakeEnd_otherwise, fun w hs hw => ⟨fun h => ?_, fun hheld hlatch => ?_⟩⟩⟩
  · intro s warn code
    have hwarn : warnLevel s.sup.warnCode = warn := warnLevel_eq _
    refine ⟨fun h => ?_, fun hl hv => ?_, fun h => ?_, fun hl hv => ?_⟩
    · exact congrArg Host.Outcome.next (fallLow_stays (hwarn ▸ h))
    · exact congrArg Host.Outcome.next (fallLow_crosses hl (hwarn ▸ hv))
    · exact congrArg Host.Outcome.next (riseNormal_stays (hwarn ▸ h))
    · exact congrArg Host.Outcome.next (riseNormal_crosses hl (hwarn ▸ hv))
  · rw [wakeEnd_waking hs hw]
    rcases h with h | h
    · rw [if_neg (by rw [h]; decide)]
      rfl
    · rw [haltEvent_latched .wake (by rw [woken_sup]; exact h), ite_self]
      rfl
  · have hclear : (s.woken w d).sup.latch = false := by rw [woken_sup]; exact hlatch
    obtain ⟨hsup, hcues, htransport, hscenes⟩ := haltEvent_takes .wake hclear
    refine ⟨_, (wakeEnd_waking hs hw).trans (congrArg Host.Outcome.next (if_pos hheld)), ?_, ?_, hcues, htransport, hscenes⟩
    · rw [hsup]
    · rw [hsup, woken_sup]

end Sys2Proof.Machine
end

