-- ==== Sys2Proof/Proofs/RecorderSeals.lean ====
section
/-! What a discard and a seal of a head's layer leave (R77, R85, R87, R88, R101). -/

namespace Sys2Proof.Machine

/-! ### The discard (R88) -/

/-- A discarded recording's layer goes as R6 frees it, and its head is IDLE. -/
theorem discardRecording_leaves {s : State} {h : HeadId} {r : Recording} {l : Layer} (reason : DiscardReason)
    (hl : s.layer r.layer = some l) : DiscardLeaves s (s.discardRecording h r reason) h r l := by
  have hv : (s.setHead h none).layer r.layer = some l := (State.layer_congr (State.setHead_layers ..) _).trans hl
  have hlayer : ∀ x, (s.discardRecording h r reason).layer x = if x = r.layer then none else s.layer x := fun x =>
    (State.layer_congr (State.report_layers ..) x).trans
      ((layer_freeLayer ..).trans (by rw [State.layer_congr (State.setHead_layers ..)]))
  have hpool : (s.discardRecording h r reason).pool = s.pool.release (namedBlocks l.map) :=
    (State.report_pool ..).trans ((pool_freeLayer hv).trans (by rw [State.setHead_pool]))
  have hfrees := discardLayer_freesOnly (s.setHead h none) r.track r.layer reason
  have hinUse : (s.setHead h none).inUse ≠ [] := fun e => by
    rw [State.inUse_eq_nil.1 e] at hv
    exact absurd hv (by simp)
  refine ⟨?_, ?_, fun x hx => ?_, ?_, fun b hb => ?_, fun k => ?_, ?_, ?_, ?_⟩
  · exact ((discardRecording_heads s h r reason).head h).trans (State.head_setHead_same ..)
  · rw [hlayer, if_pos rfl]
  · rw [hlayer, if_neg hx]
  · rw [hpool]; rfl
  · rw [hpool, Pool.entry_release, if_pos hb]
  · have ht : (s.discardRecording h r reason).track k
        = if k = l.track then ((s.track k).without r.layer).trimmed else s.track k :=
      (State.track_congr (State.report_tracks ..) k).trans
        ((track_freeLayer hv k).trans (by rw [State.track_congr (State.setHead_tracks ..)]))
    rw [ht]
    split
    · exact (Track.trimmed_lists _).1
    · rfl
  · exact hfrees.mem.trans (State.setHead_mem ..)
  · exact hfrees.bounce.trans (State.setHead_bounce ..)
  · exact (discardLayer_loopFollows ..).cleared hinUse

/-! ### The open block closed (R77, R101) -/

/-- The check state of a block set, in the entry of any block. -/
theorem Pool.entry_setCheck_eq (p : Pool) (b c : BlockId) (k : Check) :
    (p.setCheck b k).entry c = (p.entry c).map fun o => if c = b then { o with check := k } else o := by
  unfold Pool.entry Pool.setCheck
  simp only [List.find?_map, Option.map_map]
  have e : ((fun e : BlockId × Owned => e.1 == c) ∘ fun e => if e.1 = b then (e.1, { e.2 with check := k }) else e)
      = fun e => e.1 == c := by
    funext e; simp only [Function.comp]; split <;> rfl
  rw [e]
  cases hf : p.owned.find? fun e => e.1 == c with
  | none => rfl
  | some o =>
    have hc : o.1 = c := by simpa using List.find?_some hf
    simp only [Option.map_some, Function.comp, hc]
    split <;> rfl

theorem openBlock_mapEntry {s : State} {r : Recording} {l : Layer} (hl : s.layer r.layer = some l) :
    r.index.bind (s.mapEntry r.layer) = r.index.bind fun i => (l.map[i]?).join := by
  have e : s.mapEntry r.layer = fun i => (l.map[i]?).join := by
    funext i
    unfold State.mapEntry
    rw [hl]
  rw [e]

/-- The memory with the rest of an open block zeroed, unless the block was reopened (R77). -/
def State.padded (s : State) (r : Recording) (b : BlockId) : State :=
  if r.reopened then s else { s with mem := s.mem.clearFrames b r.written 4096 }

theorem closeOpen_none {s : State} {r : Recording} {l : Layer} (hl : s.layer r.layer = some l)
    (h : openBlock r l.map = none) : s.closeOpen r = s := by
  unfold openBlock at h
  unfold State.closeOpen
  rw [openBlock_mapEntry hl]
  split
  · rfl
  · next hs => rw [if_neg hs] at h; rw [h]

theorem closeOpen_some {s : State} {r : Recording} {l : Layer} {b : BlockId} (hl : s.layer r.layer = some l)
    (h : openBlock r l.map = some b) : s.closeOpen r = (s.padded r b).closeBlock b := by
  unfold openBlock at h
  unfold State.closeOpen
  rw [openBlock_mapEntry hl]
  split
  · next hs => rw [if_pos hs] at h; exact absurd h (by simp)
  · next hs => rw [if_neg hs] at h; rw [h]; rfl

/-- The close touches the memory and the pool's check states alone. -/
theorem closeOpen_eq (s : State) (r : Recording) :
    s.closeOpen r = { s with mem := (s.closeOpen r).mem, pool := (s.closeOpen r).pool } := by
  unfold State.closeOpen
  split
  · rfl
  · split
    · rfl
    · split <;> rfl

theorem closeOpen_free (s : State) (r : Recording) : (s.closeOpen r).pool.free = s.pool.free := by
  unfold State.closeOpen
  split
  · rfl
  · split
    · rfl
    · split <;> rfl

theorem closeOpen_layer (s : State) (r : Recording) (x : LayerId) : (s.closeOpen r).layer x = s.layer x :=
  State.layer_congr (congrArg State.layers (closeOpen_eq s r) :) x

/-- The bytes of the frames of a block from the last one written on, two a frame. -/
theorem clearFrames_range (b n a : Nat) :
    (b * 4096 + n) * 2 ≤ a ∧ a < (b * 4096 + 4096) * 2 ↔ false = false ∧ b * 8192 + 2 * n ≤ a ∧ a < b * 8192 + 8192 := by
  rw [eq_self, true_and]
  omega

theorem closeOpen_read {s : State} {r : Recording} {l : Layer} (hl : s.layer r.layer = some l) (a : Nat) :
    (s.closeOpen r).mem.read a = closedRead s r l.map a := by
  unfold closedRead
  cases h : openBlock r l.map with
  | none => rw [closeOpen_none hl h]
  | some b =>
    rw [closeOpen_some hl h, State.closeBlock_mem]
    unfold State.padded
    cases hr : r.reopened with
    | true => simp
    | false =>
      refine (Memory.read_clearRange ..).trans ?_
      simp only [clearFrames_range]

theorem closeOpen_checked {s : State} {r : Recording} {l : Layer} (hl : s.layer r.layer = some l) :
    OpenBlockChecked s (s.closeOpen r) r l.map := by
  intro b o hb ho
  have hpool : (s.padded r b).pool = s.pool := by unfold State.padded; split <;> rfl
  rw [closeOpen_some hl hb, State.closeBlock_mem]
  refine (Pool.entry_setCheck_eq ..).trans ?_
  rw [hpool, ho, Option.map_some, if_pos rfl]
  rfl

/-! ### The seal up to the auto-fold check (R87) -/

/-- A seal up to its claim and its one-shot: the auto-fold check follows. -/
def State.sealedUp (s : State) (h : HeadId) (r : Recording) (reason : SealReason) (bars : Nat) : State :=
  ((((s.sealLayer r.layer).setHead h none).reportSealed h r reason bars).claimVoice r.track r.layer).armOneShot r.track

theorem sealRecording_eq (s : State) (h : HeadId) (r : Recording) (reason : SealReason) (bars : Nat) :
    s.sealRecording h r reason bars = (s.sealedUp h r reason bars).autoFold r.track := rfl

theorem reportSealed_voicesOnly (s : State) (h : HeadId) (r : Recording) (reason : SealReason) (bars : Nat) :
    VoicesOnly s (s.reportSealed h r reason bars) := by
  unfold State.reportSealed
  split
  · exact VoicesOnly.refl s
  · exact report_voicesOnly ..

theorem sealedUp_voicesOnly (s : State) (h : HeadId) (r : Recording) (reason : SealReason) (bars : Nat) :
    VoicesOnly ((s.sealLayer r.layer).setHead h none) (s.sealedUp h r reason bars) :=
  (reportSealed_voicesOnly ..).trans ((claimVoice_voicesOnly ..).trans (armOneShot_voicesOnly ..))

theorem VoicesOnly.head {s u : State} (h : VoicesOnly s u) (k : HeadId) : u.head k = s.head k := by
  cases k
  · exact h.head0
  · exact h.head1

/-- A head's recording ends from s: in u its layer is SEALED with this map and everything past its length is freed, the head is
IDLE, and the other head, the cues, the scenes and the supervisor stay. -/
structure EndLeaves (s u : State) (h : HeadId) (r : Recording) (l : Layer) (map : List (Option BlockId)) : Prop where
  layer : SealLeaves s u h r l map s.clock.songBar
  free : u.pool.free = s.pool.free ++ namedBlocks (l.map.drop map.length)
  other : ∀ j, j ≠ h → u.head j = s.head j
  spans : ∀ k, (u.track k).span = (s.track k).span
  cues : u.cues = s.cues
  scenes : u.scenes = s.scenes
  sup : u.sup = s.sup

/-- A state v ready for the seal of head h: the map cut to length, the open block closed, everything else as in s. -/
structure SealReady (s v : State) (r : Recording) (l : Layer) (map : List (Option BlockId)) : Prop where
  layer : v.layer r.layer = some { l with map := map }
  others : ∀ x, x ≠ r.layer → v.layer x = s.layer x
  lists : ∀ k, (v.track k).stack = (s.track k).stack ∧ (v.track k).redo = (s.track k).redo
  bounce : v.bounce = s.bounce
  read : ∀ a, v.mem.read a = closedRead s r map a
  checked : OpenBlockChecked s v r map
  free : v.pool.free = s.pool.free ++ namedBlocks (l.map.drop map.length)
  heads : ∀ j, v.head j = s.head j
  spans : ∀ k, (v.track k).span = (s.track k).span
  songBar : v.clock.songBar = s.clock.songBar
  cues : v.cues = s.cues
  scenes : v.scenes = s.scenes
  sup : v.sup = s.sup

theorem sealedUp_leaves {s v : State} {r : Recording} {l : Layer} {map : List (Option BlockId)} (h : HeadId)
    (reason : SealReason) (bars : Nat) (hv : SealReady s v r l map) :
    EndLeaves s (v.sealedUp h r reason bars) h r l map := by
  have hu := sealedUp_voicesOnly v h r reason bars
  have hlayer : ∀ x, (v.sealedUp h r reason bars).layer x = (v.sealLayer r.layer).layer x := fun x =>
    (hu.layer x).trans (State.layer_congr (State.setHead_layers ..) x)
  have htrack : ∀ k, ((v.sealLayer r.layer).setHead h none).track k = v.track k := fun k =>
    State.track_congr ((State.setHead_tracks ..).trans (State.modLayer_tracks ..)) k
  have hhead : ∀ j, (v.sealedUp h r reason bars).head j = if j = h then none else s.head j := fun j => by
    rw [hu.head, head_setHead, ← hv.heads]
    rfl
  have hmem : (v.sealedUp h r reason bars).mem = v.mem :=
    hu.mem.trans ((State.setHead_mem ..).trans (State.modLayer_mem ..))
  have hpool : (v.sealedUp h r reason bars).pool = v.pool :=
    hu.pool.trans ((State.setHead_pool ..).trans (State.modLayer_pool ..))
  refine ⟨⟨?_, ?_, fun x hx => ?_, fun k => ?_, ?_, fun a => ?_, ?_⟩, ?_, fun j hj => ?_, fun k => ?_, ?_, ?_, ?_⟩
  · rw [hhead, if_pos rfl]
  · rw [hlayer, ← hv.songBar]
    exact (State.layer_modLayer_same ..).trans (by rw [hv.layer]; rfl)
  · rw [hlayer]
    exact (State.layer_modLayer_other _ _ _ _ hx).trans (hv.others x hx)
  · rw [hu.stack, hu.redo, htrack]
    exact hv.lists k
  · exact hu.bounce.trans ((State.setHead_bounce ..).trans ((State.modLayer_bounce ..).trans hv.bounce))
  · rw [hmem]
    exact hv.read a
  · intro b o hb ho
    rw [hpool, hmem]
    exact hv.checked b o hb ho
  · rw [hpool]
    exact hv.free
  · rw [hhead, if_neg hj]
  · rw [hu.span, htrack]
    exact hv.spans k
  · exact hu.cues.trans ((State.setHead_cues ..).trans ((State.modLayer_cues ..).trans hv.cues))
  · exact hu.scenes.trans ((State.setHead_scenes ..).trans ((State.modLayer_scenes ..).trans hv.scenes))
  · exact hu.sup.trans ((State.setHead_sup ..).trans ((State.modLayer_sup ..).trans hv.sup))

theorem sealedUp_clock (v : State) (h : HeadId) (r : Recording) (reason : SealReason) (bars : Nat) :
    (v.sealedUp h r reason bars).clock = v.clock :=
  (sealedUp_voicesOnly ..).clock.trans ((State.setHead_clock ..).trans (State.modLayer_clock ..))

theorem sealedUp_pass (v : State) (h : HeadId) (r : Recording) (reason : SealReason) (bars : Nat) (k : TrackId) :
    ((v.sealedUp h r reason bars).track k).pass = (v.track k).pass := by
  rw [(sealedUp_voicesOnly ..).pass]
  exact congrArg Track.pass (State.track_congr ((State.setHead_tracks ..).trans (State.modLayer_tracks ..)) k)

theorem State.head_congr {s u : State} (h0 : u.head0 = s.head0) (h1 : u.head1 = s.head1) (k : HeadId) :
    u.head k = s.head k := by
  cases k
  · exact h0
  · exact h1

/-! ### A FIXED or DUB layer (R80, R81, R86) -/

theorem sealReady_closeOpen {s : State} {r : Recording} {l : Layer} (hl : s.layer r.layer = some l) :
    SealReady s (s.closeOpen r) r l l.map where
  layer := (closeOpen_layer ..).trans hl
  others _ _ := closeOpen_layer ..
  lists k := by rw [State.track_congr (congrArg State.tracks (closeOpen_eq s r) :)]; exact ⟨rfl, rfl⟩
  bounce := (congrArg State.bounce (closeOpen_eq s r) :)
  read := closeOpen_read hl
  checked := closeOpen_checked hl
  free := by rw [closeOpen_free, List.drop_length]; exact (List.append_nil _).symm
  heads := State.head_congr (congrArg State.head0 (closeOpen_eq s r) :) (congrArg State.head1 (closeOpen_eq s r) :)
  spans k := by rw [State.track_congr (congrArg State.tracks (closeOpen_eq s r))]; rfl
  songBar := (congrArg (fun t : State => t.clock.songBar) (closeOpen_eq s r) :)
  cues := (congrArg State.cues (closeOpen_eq s r) :)
  scenes := (congrArg State.scenes (closeOpen_eq s r) :)
  sup := (congrArg State.sup (closeOpen_eq s r) :)

/-- A FIXED or DUB layer seals with its map as it is. -/
theorem closeOpen_sealRecording_leaves {s : State} {r : Recording} {l : Layer} (h : HeadId) (reason : SealReason)
    (bars : Nat) (hl : s.layer r.layer = some l) :
    ∃ u, (s.closeOpen r).sealRecording h r reason bars = u.autoFold r.track ∧ EndLeaves s u h r l l.map
      ∧ u.clock = s.clock :=
  ⟨(s.closeOpen r).sealedUp h r reason bars, sealRecording_eq .., sealedUp_leaves h reason bars (sealReady_closeOpen hl),
    (sealedUp_clock ..).trans (congrArg State.clock (closeOpen_eq s r) :)⟩

theorem sealNow_leaves {s : State} {r : Recording} {l : Layer} (h : HeadId) (reason : SealReason)
    (hl : s.layer r.layer = some l) (hw : r.writeOffset ≠ 0) :
    ∃ u, s.sealNow h r reason = u.autoFold r.track ∧ EndLeaves s u h r l l.map ∧ u.clock = s.clock := by
  have e : s.sealNow h r reason = (s.closeOpen r).sealRecording h r reason 0 := if_neg hw
  rw [e]
  exact closeOpen_sealRecording_leaves h reason 0 hl

theorem sealNow_empty {s : State} {r : Recording} (h : HeadId) (reason : SealReason) (hw : r.writeOffset = 0) :
    s.sealNow h r reason = s.discardRecording h r .empty := if_pos hw

/-! ### A DEFINING layer (R79, R85) -/

theorem shortenMap_some {s : State} {x : LayerId} {l : Layer} (k : Nat) (hl : s.layer x = some l) :
    s.shortenMap x k = State.freeBlocks
      (s.setLayer x (some { l with map := l.map.take (blocksFor (k * s.clock.barFrames)) }))
      (namedBlocks (l.map.drop (blocksFor (k * s.clock.barFrames)))) := by
  unfold State.shortenMap
  rw [hl]

/-- What is left of a list behind a cut of it is what the cut took off. -/
theorem drop_length_take {α : Type} (l : List α) (n : Nat) : l.drop (l.take n).length = l.drop n := by
  rw [List.length_take]
  rcases Nat.le_total n l.length with h | h
  · rw [Nat.min_eq_left h]
  · rw [Nat.min_eq_right h, List.drop_length, List.drop_eq_nil_of_le h]

/-- A block that a cut map names is not among those past the cut: a map names it once. -/
theorem not_mem_drop_of_mem_take {map : List (Option BlockId)} {n : Nat} {b : BlockId} (hn : (namedBlocks map).Nodup)
    (hb : b ∈ namedBlocks (map.take n)) : b ∉ namedBlocks (map.drop n) := by
  rw [← List.take_append_drop n map, namedBlocks_append, List.nodup_append] at hn
  exact fun h => hn.2.2 b hb b h rfl

theorem openBlock_mem {r : Recording} {map : List (Option BlockId)} {b : BlockId} (h : openBlock r map = some b) :
    b ∈ namedBlocks map := by
  unfold openBlock at h
  split at h
  · exact absurd h (by simp)
  · obtain ⟨i, -, hi⟩ := Option.bind_eq_some_iff.1 h
    exact List.mem_filterMap.2 ⟨some b, List.mem_of_getElem? (Option.join_eq_some_iff.1 hi), rfl⟩

theorem establish_voices (s : State) (k pos : Nat) :
    s.establish k pos = { s with
      clock := { s.clock with loop := some k, bar := 0, loopPos := pos }
      tracks := s.tracks.map fun r => { r with pass := 0, passSet := false }
      link := (s.establish k pos).link } := by
  unfold State.establish State.reportLoop
  rw [State.report_eq]
  rfl

theorem establish_track (s : State) (k pos : Nat) (t : TrackId) :
    (s.establish k pos).track t = { s.track t with pass := 0, passSet := false } := by
  rw [State.track_congr (congrArg State.tracks (establish_voices s k pos))]
  change (s.tracks.map _)[t.val] = _
  rw [Vector.getElem_map]
  rfl

/-- The state in which a DEFINING layer of k bars seals. -/
def State.definingReady (s : State) (r : Recording) (k pos : Nat) : State :=
  ((s.shortenMap r.layer k).closeOpen r).establish k pos

theorem sealReady_defining {s : State} {r : Recording} {l : Layer} (k pos : Nat) (hl : s.layer r.layer = some l)
    (hp : s.poolLegal) :
    SealReady s (s.definingReady r k pos) r l (l.map.take (blocksFor (k * s.clock.barFrames))) := by
  have hshort := shortenMap_some k hl
  generalize hn : blocksFor (k * s.clock.barFrames) = n at hshort ⊢
  have hlayer : (s.shortenMap r.layer k).layer r.layer = some { l with map := l.map.take n } := by
    rw [hshort]
    exact State.layer_setLayer_same ..
  have hclose := sealReady_closeOpen hlayer
  have heq := establish_voices ((s.shortenMap r.layer k).closeOpen r) k pos
  have hentry : ∀ b, b ∈ namedBlocks (l.map.take n) → (s.shortenMap r.layer k).pool.entry b = s.pool.entry b := by
    intro b hb
    rw [hshort]
    exact (Pool.entry_release ..).trans (if_neg (not_mem_drop_of_mem_take (hp.namedOnce _ _ hl) hb))
  have hmem : (s.shortenMap r.layer k).mem = s.mem := by rw [hshort]; rfl
  exact
    { layer := (State.layer_congr (congrArg State.layers heq) _).trans hclose.layer
      others := fun x hx => (State.layer_congr (congrArg State.layers heq) _).trans
        ((hclose.others x hx).trans (by rw [hshort]; exact State.layer_setLayer_other _ _ _ _ hx))
      lists := fun t => by
        rw [State.definingReady, establish_track]
        exact ⟨(hclose.lists t).1.trans (by rw [hshort]; rfl), (hclose.lists t).2.trans (by rw [hshort]; rfl)⟩
      bounce := (congrArg State.bounce heq).trans (hclose.bounce.trans (by rw [hshort]; rfl))
      read := fun a => by
        rw [State.definingReady, congrArg State.mem heq]
        refine (hclose.read a).trans ?_
        unfold closedRead
        rw [hmem]
      checked := fun b o hb ho => by
        rw [State.definingReady, congrArg State.mem heq, congrArg State.pool heq]
        exact hclose.checked b o hb ((hentry b (openBlock_mem hb)).trans ho)
      free := by
        rw [State.definingReady, congrArg State.pool heq, drop_length_take]
        exact (closeOpen_free ..).trans (by rw [hshort]; rfl)
      heads := fun j => (State.head_congr (congrArg State.head0 heq) (congrArg State.head1 heq) j).trans
        ((hclose.heads j).trans (by rw [hshort]; exact State.head_congr rfl rfl j))
      spans := fun t => by
        rw [State.definingReady, establish_track]
        exact (hclose.spans t).trans (by rw [hshort]; rfl)
      songBar := (congrArg (fun t : State => t.clock.songBar) heq).trans (hclose.songBar.trans (by rw [hshort]; rfl))
      cues := (congrArg State.cues heq).trans (hclose.cues.trans (by rw [hshort]; rfl))
      scenes := (congrArg State.scenes heq).trans (hclose.scenes.trans (by rw [hshort]; rfl))
      sup := (congrArg State.sup heq).trans (hclose.sup.trans (by rw [hshort]; rfl)) }

theorem definingReady_clock {s : State} {r : Recording} {l : Layer} (k pos : Nat) (hl : s.layer r.layer = some l) :
    (s.definingReady r k pos).clock = { s.clock with loop := some k, bar := 0, loopPos := pos } := by
  rw [State.definingReady, congrArg State.clock (establish_voices ..), closeOpen_eq, shortenMap_some k hl]
  rfl

/-- A DEFINING layer seals with a map of k bars, L is established with k, and every pass index is 0. -/
theorem sealDefining_leaves {s : State} {r : Recording} {l : Layer} (h : HeadId) (k pos : Nat) (reason : SealReason)
    (hl : s.layer r.layer = some l) (hp : s.poolLegal) :
    ∃ u, s.sealDefining h r k pos reason = u.autoFold r.track
      ∧ EndLeaves s u h r l (l.map.take (blocksFor (k * s.clock.barFrames)))
      ∧ u.clock = { s.clock with loop := some k, bar := 0, loopPos := pos } ∧ ∀ j, (u.track j).pass = 0 :=
  ⟨(s.definingReady r k pos).sealedUp h r reason k, sealRecording_eq ..,
    sealedUp_leaves h reason k (sealReady_defining k pos hl hp), (sealedUp_clock ..).trans (definingReady_clock k pos hl),
    fun _ => (sealedUp_pass ..).trans (congrArg Track.pass (establish_track ..))⟩

/-! ### The auto-fold check (R122) -/

/-- From s to u pins are set and an entry may join the bounce queue: nothing else changes but the reports. -/
structure PinsOnly (s u : State) : Prop where
  same : u = { s with layers := u.layers, bounce := u.bounce, link := u.link }
  frees : ∀ x, u.layer x = none ↔ s.layer x = none

theorem PinsOnly.refl (s : State) : PinsOnly s s := ⟨rfl, fun _ => Iff.rfl⟩

theorem PinsOnly.trans {s t u : State} (h : PinsOnly s t) (k : PinsOnly t u) : PinsOnly s u :=
  ⟨k.same.trans (by rw [h.same]), fun x => (k.frees x).trans (h.frees x)⟩

theorem PinsOnly.ite {c : Prop} [Decidable c] {s t u : State} (h : PinsOnly s t) (k : PinsOnly s u) :
    PinsOnly s (if c then t else u) := by split <;> assumption

theorem report_pinsOnly (s : State) (r : Report) (p : List Byte) : PinsOnly s (s.report r p) :=
  ⟨by rw [State.report_eq], fun x => by rw [State.layer_congr (State.report_layers ..)]⟩

theorem setPin_pinsOnly (s : State) (pin : Option Byte) (x : LayerId) : PinsOnly s (s.setPin pin x) := by
  refine ⟨rfl, fun y => ?_⟩
  unfold State.setPin
  rw [State.layer_modLayer]
  split
  · next e => rw [e, Option.map_eq_none_iff]
  · exact Iff.rfl

theorem setPins_pinsOnly (s : State) (pin : Option Byte) (xs : List LayerId) : PinsOnly s (s.setPins pin xs) :=
  foldl_invariant (I := PinsOnly s) (fun _ x hu => hu.trans (setPin_pinsOnly _ pin x)) xs s (PinsOnly.refl s)

/-- A FOLD joins the queue. -/
theorem enqueueFold_pinsOnly (s : State) (auto : Bool) (xs : List LayerId) (d : TrackId) (levels mute : Bool) :
    PinsOnly s (s.enqueueBounce true auto xs d levels mute) :=
  (setPins_pinsOnly s (some s.bounce.nextId) xs).trans ⟨rfl, fun _ => Iff.rfl⟩

theorem autoFold_pinsOnly (s : State) (t : TrackId) : PinsOnly s (s.autoFold t) := by
  unfold State.autoFold
  refine PinsOnly.ite (PinsOnly.refl s) ?_
  split
  · exact PinsOnly.ite (report_pinsOnly ..) (enqueueFold_pinsOnly ..)
  · exact PinsOnly.refl s

section
variable {s u : State} (h : PinsOnly s u)
include h

theorem PinsOnly.clock : u.clock = s.clock := (congrArg State.clock h.same :)
theorem PinsOnly.tracks : u.tracks = s.tracks := (congrArg State.tracks h.same :)
theorem PinsOnly.pool : u.pool = s.pool := (congrArg State.pool h.same :)
theorem PinsOnly.mem : u.mem = s.mem := (congrArg State.mem h.same :)
theorem PinsOnly.cues : u.cues = s.cues := (congrArg State.cues h.same :)
theorem PinsOnly.scenes : u.scenes = s.scenes := (congrArg State.scenes h.same :)
theorem PinsOnly.sup : u.sup = s.sup := (congrArg State.sup h.same :)
theorem PinsOnly.head (k : HeadId) : u.head k = s.head k :=
  State.head_congr (congrArg State.head0 h.same :) (congrArg State.head1 h.same :) k

end

end Sys2Proof.Machine
end

