-- ==== Sys2Proof/Proofs/RecorderEnds.lean ====
section
/-! The ends that a recording reaches by itself, and END_REC (R79, R80, R81, R83, R89). -/

namespace Sys2Proof.Machine

/-! ### How a recording ends (R79, R80, R89) -/

/-- A DEFINING recording of k whole bars ends by itself there. -/
def EndsByItself (s : State) (r : Recording) : Prop :=
  let k := r.writeOffset / (s.clock.b * 48 * s.clock.p)
  k = 64 ∨ 4194304 < (k + 1) * (s.clock.b * 48 * s.clock.p) ∨ r.endCond = .bars k

theorem autoEnd_byItself {s : State} {r : Recording} (hk : s.wholeBars r ≠ 0) (h : EndsByItself s r) :
    ∃ reason, s.autoEnd r = some reason := by
  unfold State.autoEnd
  dsimp only
  rw [if_neg hk]
  split
  · exact ⟨_, rfl⟩
  · next hlimit =>
    have hbars : r.endCond = .bars (s.wholeBars r) :=
      (or_assoc.2 h).resolve_left hlimit
    exact ⟨_, if_pos hbars⟩

theorem autoEnd_otherwise {s : State} {r : Recording} (h : ¬EndsByItself s r) : s.autoEnd r = none := by
  obtain ⟨h64, hlong, hbars⟩ : ¬s.wholeBars r = 64 ∧ ¬4194304 < (s.wholeBars r + 1) * s.clock.barFrames
      ∧ ¬r.endCond = .bars (s.wholeBars r) :=
    ⟨fun e => h (Or.inl e), fun e => h (Or.inr (Or.inl e)), fun e => h (Or.inr (Or.inr e))⟩
  unfold State.autoEnd
  dsimp only
  rw [if_neg (not_or.2 ⟨h64, hlong⟩), if_neg hbars, ite_self]

theorem reason_isSome {e : EndPending} (h : e ≠ .none) : ∃ reason, e.reason = some reason := by
  cases e with
  | none => exact absurd rfl h
  | endRec => exact ⟨_, rfl⟩
  | autopilot => exact ⟨_, rfl⟩

/-- A FIXED or DUB recording has reached its track length. -/
theorem lengthReached_iff {s : State} {r : Recording} :
    s.lengthReached r = true ↔ r.mode ≠ .defining ∧ r.writeOffset = s.trackFrames r.track := by
  unfold State.lengthReached
  simp

theorem pendingReason_defining {s : State} {r : Recording} (hm : r.mode = .defining) (hk : s.wholeBars r ≠ 0)
    (h : ¬EndsByItself s r) : s.pendingReason r = r.endPending.reason := by
  unfold State.pendingReason
  rw [hm, autoEnd_otherwise h]
  exact if_neg (by simp [hk])

theorem pendingReason_otherwise {s : State} {r : Recording} (hm : r.mode ≠ .defining)
    (h : r.writeOffset ≠ s.trackFrames r.track) : s.pendingReason r = r.endPending.reason := by
  unfold State.pendingReason
  split
  · next e => exact absurd e hm
  · exact if_neg fun e => h (lengthReached_iff.1 e).2

theorem sealPending_defining {s : State} {h : HeadId} {r : Recording} (reason : SealReason) (hm : r.mode = .defining) :
    s.sealPending h r reason = s.sealDefining h r (s.wholeBars r) 0 reason := by
  unfold State.sealPending
  rw [hm]

theorem sealPending_otherwise {s : State} {h : HeadId} {r : Recording} (reason : SealReason) (hm : r.mode ≠ .defining) :
    s.sealPending h r reason = s.sealNow h r reason := by
  unfold State.sealPending
  split
  · next e => exact absurd e hm
  · rfl

/-! ### END_PENDING_SEAL -/

theorem sealDue_off {s : State} {h : HeadId} {r : Recording} (hr : s.head h = some r) (ha : r.atBar = false) :
    s.sealDue h = s := by
  unfold State.sealDue
  rw [hr]
  exact if_pos (Or.inr ha)

theorem sealDue_on {s : State} {h : HeadId} {r : Recording} {reason : SealReason} (hs : s.sup.state = .ready)
    (hr : s.head h = some r) (ha : r.atBar = true) (hp : s.pendingReason r = some reason) :
    s.sealDue h = s.sealPending h r reason := by
  have hready : s.isReady = true := by unfold State.isReady; rw [hs]; rfl
  unfold State.sealDue
  rw [hr]
  dsimp only
  rw [if_neg (by rw [hready, ha]; decide), hp]

/-! ### The BARS and LIMIT ends -/

theorem recorderAtBar_ends {s : State} {h : HeadId} {r : Recording} {reason : SealReason} (hr : s.head h = some r)
    (ha : r.atBar = true) (hm : r.mode = .defining) (he : s.autoEnd r = some reason) :
    s.recorderAtBar h = s.sealDefining h r (s.wholeBars r) 0 reason := by
  unfold State.recorderAtBar
  rw [hr]
  dsimp only
  rw [if_neg (by rw [ha]; decide), if_pos hm, he]

/-- The one busy head's end at a BAR boundary is the whole of the recorder's work there. -/
theorem receive_oneHead {s t : State} {h : HeadId} (hother : ∀ j, j ≠ h → s.head j = none)
    (hs : s.recorderAtBar h = t) (ht : ∀ j, j ≠ h → t.head j = none) :
    s.receive { recorder := true, grant := false, click := false, claims := false } = t := by
  change (s.recorderAtBar .h0).recorderAtBar .h1 = t
  cases h with
  | h0 => rw [hs, recorderAtBar_idle (ht .h1 (by decide))]
  | h1 => rw [recorderAtBar_idle (hother .h0 (by decide)), hs]

/-! ### TRACK_LENGTH_END (R80) -/

theorem lengthEndDue_off {s : State} {h : HeadId} {r : Recording} (hr : s.head h = some r)
    (hl : s.lengthReached r = false) : s.lengthEndDue h = s := by
  unfold State.lengthEndDue
  rw [hr]
  exact if_neg (by rw [hl]; simp)

theorem lengthEndDue_on {s : State} {h : HeadId} {r : Recording} (hs : s.sup.state = .ready) (hr : s.head h = some r)
    (hd : s.tickDue = false) (hl : s.lengthReached r = true) : s.lengthEndDue h = s.endAtLength h r := by
  have hready : s.isReady = true := by unfold State.isReady; rw [hs]; rfl
  unfold State.lengthEndDue
  rw [hr]
  exact if_pos ⟨hready, hd, hl⟩

/-- The track and the guard let a chain go on. -/
def ChainFits (s : State) (r : Recording) : Prop :=
  r.chain = true ∧ (s.track r.track).stack.length + (s.track r.track).reservations < 6
    ∧ (s.sup.low && s.sup.guard) = false

theorem chainGoesOn_iff {s : State} {r : Recording} :
    s.chainGoesOn r = true ↔ ChainFits s r ∧ s.freeRecord.isSome = true := by
  unfold State.chainGoesOn ChainFits State.guardRefuses Track.places
  simp only [Bool.and_eq_true, decide_eq_true_eq, Bool.not_eq_true']
  constructor
  · exact fun ⟨⟨⟨h1, h2⟩, h3⟩, h4⟩ => ⟨⟨h1, h2, h4⟩, h3⟩
  · exact fun ⟨⟨h1, h2, h4⟩, h3⟩ => ⟨⟨⟨h1, h2⟩, h3⟩, h4⟩

theorem endAtLength_last {s : State} {h : HeadId} {r : Recording} (hg : s.chainGoesOn r = false) :
    ∃ reason, s.endAtLength h r = (s.closeOpen r).sealRecording h r reason 0 := by
  unfold State.endAtLength
  rw [hg]
  exact ⟨_, rfl⟩

theorem endAtLength_chains {s : State} {h : HeadId} {r : Recording} (hg : s.chainGoesOn r = true) :
    ∃ reason, s.endAtLength h r = ((s.closeOpen r).sealRecording h r reason 0).continueChain h r := by
  unfold State.endAtLength
  rw [hg]
  exact ⟨_, rfl⟩

/-- The same records are FREE before and after a head's end and its auto-fold check. -/
theorem takesRecord_autoFold {s u : State} {h : HeadId} {r : Recording} {l : Layer} {map : List (Option BlockId)}
    {x : LayerId} (hl : s.layer r.layer = some l) (hu : EndLeaves s u h r l map) (k : TrackId) (hx : TakesRecord s x) :
    TakesRecord (u.autoFold k) x := by
  obtain ⟨-, hlayer, hothers, -⟩ := hu.layer
  have hfree : ∀ y, (u.autoFold k).layer y = none ↔ s.layer y = none := fun y => by
    rw [(autoFold_pinsOnly u k).frees]
    by_cases e : y = r.layer
    · rw [e, hlayer, hl]
      simp
    · rw [hothers y e]
  exact ⟨(hfree x).2 hx.1, fun y hy => mt (hfree y).1 (hx.2 y hy)⟩

/-- What the next layer of a chain changes: its record, its place on the stack and its head (R80). -/
structure ChainLeaves (v t : State) (h : HeadId) (r : Recording) (x : LayerId) : Prop where
  same : t = { v with tracks := t.tracks, layers := t.layers, head0 := t.head0, head1 := t.head1 }
  head : t.head h = some
    { stalled := false, track := r.track, layer := x, mode := .dub, mask := r.mask, endCond := .length
      chain := r.chain, endPending := .none, writeOffset := 0, startPos := r.startPos, index := none, written := 0
      reopened := false, atBar := false }
  others : ∀ j, j ≠ h → t.head j = v.head j
  layer : t.layer x = some
    { state := .filling, track := r.track, origin := .dub
      map := List.replicate ((v.trackFrames r.track + 4095) / 4096) none
      level := 128, startStamp := v.songBarNow, sealStamp := none, mask := some r.mask, parents := [], clip := 0
      gapped := false, damaged := false, pin := none }
  layers : ∀ y, y ≠ x → t.layer y = v.layer y
  stack : (t.track r.track).stack = (v.track r.track).stack ++ [x]

theorem continueChain_leaves {v : State} (h : HeadId) {r : Recording} {x : LayerId} (hx : TakesRecord v x) :
    ChainLeaves v (v.continueChain h r) h r x := by
  unfold State.continueChain
  rw [State.freeRecord_eq_some.2 hx]
  dsimp only
  unfold State.beginRecording
  refine ⟨?_, State.head_setHead_same .., fun j hj => State.head_setHead_other _ _ _ _ hj, ?_, fun y hy => ?_, ?_⟩
  · cases h <;> rfl
  · rw [State.layer_congr (State.setHead_layers ..)]
    exact State.layer_setLayer_same ..
  · rw [State.layer_congr (State.setHead_layers ..)]
    exact State.layer_setLayer_other _ _ _ _ hy
  · rw [State.track_congr (State.setHead_tracks ..)]
    exact congrArg Track.stack (State.track_modTrack_same ..)

section
variable {v t : State} {h : HeadId} {r : Recording} {x : LayerId} (k : ChainLeaves v t h r x)
include k

theorem ChainLeaves.bounce : t.bounce = v.bounce := (congrArg State.bounce k.same :)
theorem ChainLeaves.mem : t.mem = v.mem := (congrArg State.mem k.same :)
theorem ChainLeaves.clock : t.clock = v.clock := (congrArg State.clock k.same :)
theorem ChainLeaves.cues : t.cues = v.cues := (congrArg State.cues k.same :)
theorem ChainLeaves.scenes : t.scenes = v.scenes := (congrArg State.scenes k.same :)
theorem ChainLeaves.sup : t.sup = v.sup := (congrArg State.sup k.same :)

end

/-- With no TICK boundary ahead the song bar that stands is the frame's. -/
theorem songBarNow_noTick {s : State} (h : s.tickDue = false) : s.songBarNow = s.clock.songBar := by
  unfold State.songBarNow State.barAhead
  rw [h]
  rfl

theorem trackFrames_congr {s u : State} {k : TrackId} (hs : (u.track k).span = (s.track k).span)
    (hc : u.clock = s.clock) : u.trackFrames k = s.trackFrames k := by
  unfold State.trackFrames
  rw [hs, hc]

theorem tickDue_congr {s u : State} (hs : u.sup = s.sup) (hc : u.clock = s.clock) : u.tickDue = s.tickDue := by
  unfold State.tickDue
  rw [hs, hc]

/-! ### END_REC (R81, R83) -/

theorem headOn_track {s : State} {k : TrackId} {h : HeadId} {r : Recording} (hk : s.headOn k = some h)
    (hr : s.head h = some r) : r.track = k := by
  have htrack : (s.head h).map (·.track) = some k := by
    unfold State.headOn at hk
    split at hk
    · next e => obtain rfl := Option.some.inj hk; exact e
    · split at hk
      · next e => obtain rfl := Option.some.inj hk; exact e
      · exact absurd hk (by simp)
  rw [hr] at htrack
  exact Option.some.inj htrack

theorem atBarBoundary_iff {s : State} :
    s.atBarBoundary = true ↔ s.bnd.mark = .running ∧ s.bnd.taken.map (·.bar) = some true := by
  unfold State.atBarBoundary
  cases s.bnd.taken <;> simp

theorem doEndRec_otherwise {s : State} {k : TrackId} {h : HeadId} {r : Recording} (hk : s.headOn k = some h)
    (hr : s.head h = some r) (hm : r.mode ≠ .defining) : s.doEndRec k = (.ok, s.sealEndRec h r) := by
  unfold State.doEndRec
  rw [hk]
  dsimp only
  rw [hr]
  dsimp only
  split
  · next e => exact absurd e hm
  · rfl

theorem doEndRec_defining {s : State} {k : TrackId} {h : HeadId} {r : Recording} (hk : s.headOn k = some h)
    (hr : s.head h = some r) (hm : r.mode = .defining) :
    s.doEndRec k =
      if s.atBarBoundary = true ∧ s.wholeBars r ≠ 0 then
        (.ok, s.sealDefining h r (s.wholeBars r) s.framesSinceBar .endRec)
      else if s.barAhead = true ∧ s.wholeBars r ≠ 0 then (.ok, s.sealAhead h r)
      else (.ok, s.setHead h (some { r with endPending := .endRec })) := by
  unfold State.doEndRec
  rw [hk]
  dsimp only
  rw [hr]
  dsimp only
  rw [hm]

/-- The counters restored after a seal on those of the boundary to come (R83). -/
def State.barRestored (s u : State) : State :=
  { u with clock := { u.clock with tick := s.clock.tick, beat := s.clock.beat, songBar := s.clock.songBar } }

theorem sealEndRec_here {s : State} {h : HeadId} {r : Recording} (hb : s.barAhead = false) :
    s.sealEndRec h r = s.sealNow h r .endRec := if_neg (by rw [hb]; decide)

theorem sealEndRec_ahead {s : State} {h : HeadId} {r : Recording} (hb : s.barAhead = true) :
    s.sealEndRec h r = s.barRestored (s.atNextBar.sealNow h r .endRec) := if_pos hb

/-! ### The ends, one by one -/

/-- The whole bars of a DEFINING recording, and the map it then seals with (R79, R85). -/
def definingMap (s : State) (r : Recording) (l : Layer) : List (Option BlockId) :=
  l.map.take (blocksFor (s.wholeBars r * s.clock.barFrames))

/-- A DEFINING recording has ended from s: its layer with the map of its whole bars, L, and the pass indices. -/
structure DefiningLeaves (s u : State) (h : HeadId) (r : Recording) (l : Layer) (pos : Nat) : Prop where
  ends : EndLeaves s u h r l (definingMap s r l)
  clock : u.clock = { s.clock with loop := some (s.wholeBars r), bar := 0, loopPos := pos }
  pass : ∀ j, (u.track j).pass = 0

theorem sealDefining_wholeBars {s : State} {r : Recording} {l : Layer} (h : HeadId) (pos : Nat) (reason : SealReason)
    (hl : s.layer r.layer = some l) (hp : s.poolLegal) :
    ∃ u, s.sealDefining h r (s.wholeBars r) pos reason = u.autoFold r.track ∧ DefiningLeaves s u h r l pos := by
  obtain ⟨u, hu, hends, hclock, hpass⟩ := sealDefining_leaves h (s.wholeBars r) pos reason hl hp
  exact ⟨u, hu, hends, hclock, hpass⟩

section
variable {s : State} {h : HeadId} {r : Recording} {l : Layer}

theorem sealDue_seals (hs : s.sup.state = .ready) (hr : s.head h = some r) (hl : s.layer r.layer = some l)
    (ha : r.atBar = true) (he : r.endPending ≠ .none) (hm : r.mode ≠ .defining)
    (hlen : r.writeOffset ≠ s.trackFrames r.track) (hw : r.writeOffset ≠ 0) :
    ∃ u, s.sealDue h = u.autoFold r.track ∧ EndLeaves s u h r l l.map ∧ u.clock = s.clock := by
  obtain ⟨reason, hreason⟩ := reason_isSome he
  rw [sealDue_on hs hr ha ((pendingReason_otherwise hm hlen).trans hreason), sealPending_otherwise reason hm]
  exact sealNow_leaves h reason hl hw

theorem sealDue_discards (hs : s.sup.state = .ready) (hr : s.head h = some r) (ha : r.atBar = true)
    (he : r.endPending ≠ .none) (hm : r.mode ≠ .defining) (hlen : r.writeOffset ≠ s.trackFrames r.track)
    (hw : r.writeOffset = 0) : s.sealDue h = s.discardRecording h r .empty := by
  obtain ⟨reason, hreason⟩ := reason_isSome he
  rw [sealDue_on hs hr ha ((pendingReason_otherwise hm hlen).trans hreason), sealPending_otherwise reason hm,
    sealNow_empty h reason hw]

theorem sealDue_defining (hs : s.sup.state = .ready) (hr : s.head h = some r) (hl : s.layer r.layer = some l)
    (hp : s.poolLegal) (ha : r.atBar = true) (he : r.endPending ≠ .none) (hm : r.mode = .defining)
    (hk : s.wholeBars r ≠ 0) (hb : ¬EndsByItself s r) :
    ∃ u, s.sealDue h = u.autoFold r.track ∧ DefiningLeaves s u h r l 0 := by
  obtain ⟨reason, hreason⟩ := reason_isSome he
  rw [sealDue_on hs hr ha ((pendingReason_defining hm hk hb).trans hreason), sealPending_defining reason hm]
  exact sealDefining_wholeBars h 0 reason hl hp

theorem receive_defining (hr : s.head h = some r) (hl : s.layer r.layer = some l) (hp : s.poolLegal)
    (ha : r.atBar = true) (hother : ∀ j, j ≠ h → s.head j = none) (hm : r.mode = .defining) (hk : s.wholeBars r ≠ 0)
    (hb : EndsByItself s r) :
    ∃ u, s.receive { recorder := true, grant := false, click := false, claims := false } = u.autoFold r.track
      ∧ DefiningLeaves s u h r l 0 := by
  obtain ⟨reason, hreason⟩ := autoEnd_byItself hk hb
  obtain ⟨u, hu, hleaves⟩ := sealDefining_wholeBars h 0 reason hl hp
  refine ⟨u, receive_oneHead hother ((recorderAtBar_ends hr ha hm hreason).trans hu) fun j hj => ?_, hleaves⟩
  rw [(autoFold_pinsOnly u r.track).head, hleaves.ends.other j hj, hother j hj]

theorem lengthEndDue_seals (hs : s.sup.state = .ready) (hr : s.head h = some r) (hl : s.layer r.layer = some l)
    (hm : r.mode ≠ .defining) (hlen : r.writeOffset = s.trackFrames r.track) (hd : s.tickDue = false)
    (hlast : ¬ChainFits s r ∨ ∀ x, s.layer x ≠ none) :
    ∃ u, s.lengthEndDue h = u.autoFold r.track ∧ EndLeaves s u h r l l.map ∧ u.clock = s.clock := by
  have hgoes : s.chainGoesOn r = false := by
    refine Bool.eq_false_iff.2 fun e => ?_
    obtain ⟨hfits, hfree⟩ := chainGoesOn_iff.1 e
    rcases hlast with h | h
    · exact h hfits
    · rw [State.freeRecord_eq_none.2 h] at hfree
      exact absurd hfree (by decide)
  obtain ⟨reason, hend⟩ := endAtLength_last (h := h) hgoes
  rw [lengthEndDue_on hs hr hd (lengthReached_iff.2 ⟨hm, hlen⟩), hend]
  exact closeOpen_sealRecording_leaves h reason 0 hl

theorem lengthEndDue_chains (hs : s.sup.state = .ready) (hr : s.head h = some r) (hl : s.layer r.layer = some l)
    (hm : r.mode ≠ .defining) (hlen : r.writeOffset = s.trackFrames r.track) (hd : s.tickDue = false)
    (hfits : ChainFits s r) {x : LayerId} (hx : TakesRecord s x) :
    ∃ u t, s.lengthEndDue h = t ∧ EndLeaves s u h r l l.map ∧ u.clock = s.clock
      ∧ ChainLeaves (u.autoFold r.track) t h r x := by
  have hgoes : s.chainGoesOn r = true := chainGoesOn_iff.2 ⟨hfits, by rw [State.freeRecord_eq_some.2 hx]; rfl⟩
  obtain ⟨reason, hend⟩ := endAtLength_chains (h := h) hgoes
  obtain ⟨u, hu, hleaves, hclock⟩ := closeOpen_sealRecording_leaves h reason 0 hl
  rw [lengthEndDue_on hs hr hd (lengthReached_iff.2 ⟨hm, hlen⟩), hend, hu]
  exact ⟨u, _, rfl, hleaves, hclock, continueChain_leaves h (takesRecord_autoFold hl hleaves r.track hx)⟩

end

/-! ### END_REC, one by one -/

section
variable {s : State} {k : TrackId} {h : HeadId} {r : Recording} {l : Layer}

theorem State.poolLegal.atNextBar (hp : s.poolLegal) : s.atNextBar.poolLegal :=
  ⟨hp.freeOnce, hp.freeIff, hp.named, hp.namedOnce⟩

theorem doEndRec_discards (hk : s.headOn k = some h) (hr : s.head h = some r) (hl : s.layer r.layer = some l)
    (hm : r.mode ≠ .defining) (hw : r.writeOffset = 0) :
    ∃ t, s.doEndRec k = (.ok, t) ∧ DiscardLeaves s t h r l := by
  refine ⟨_, doEndRec_otherwise hk hr hm, ?_⟩
  cases hb : s.barAhead with
  | false =>
    rw [sealEndRec_here hb, sealNow_empty h _ hw]
    exact discardRecording_leaves .empty hl
  | true =>
    rw [sealEndRec_ahead hb, sealNow_empty h _ hw]
    exact discardRecording_leaves (s := s.atNextBar) .empty hl

theorem doEndRec_seals (hk : s.headOn k = some h) (hr : s.head h = some r) (hl : s.layer r.layer = some l)
    (hm : r.mode ≠ .defining) (hw : r.writeOffset ≠ 0) (hb : s.barAhead = false) :
    ∃ u, s.doEndRec k = (.ok, u.autoFold k) ∧ EndLeaves s u h r l l.map ∧ u.clock = s.clock := by
  obtain ⟨u, hu, hleaves, hclock⟩ := sealNow_leaves h .endRec hl hw
  rw [headOn_track hk hr] at hu
  exact ⟨u, by rw [doEndRec_otherwise hk hr hm, sealEndRec_here hb, hu], hleaves, hclock⟩

/-- END_REC in the frame of a BAR boundary that is not taken yet: the seal reads the counters to come. -/
theorem doEndRec_sealsAhead (hk : s.headOn k = some h) (hr : s.head h = some r) (hl : s.layer r.layer = some l)
    (hm : r.mode ≠ .defining) (hw : r.writeOffset ≠ 0) (hb : s.barAhead = true) :
    ∃ u, s.doEndRec k = (.ok, s.barRestored (u.autoFold k)) ∧ EndLeaves s.atNextBar u h r l l.map
      ∧ u.clock = s.atNextBar.clock := by
  obtain ⟨u, hu, hleaves, hclock⟩ := sealNow_leaves (s := s.atNextBar) h .endRec hl hw
  rw [headOn_track hk hr] at hu
  exact ⟨u, by rw [doEndRec_otherwise hk hr hm, sealEndRec_ahead hb, hu], hleaves, hclock⟩

theorem barRestored_clock {u : State} (hu : u.clock = s.atNextBar.clock) : (s.barRestored u).clock = s.clock := by
  unfold State.barRestored
  rw [hu]
  rfl

theorem doEndRec_definingHere (hk : s.headOn k = some h) (hr : s.head h = some r) (hl : s.layer r.layer = some l)
    (hp : s.poolLegal) (hm : r.mode = .defining) (hbars : s.wholeBars r ≠ 0) (hb : s.atBarBoundary = true) :
    ∃ u, s.doEndRec k = (.ok, u.autoFold k) ∧ DefiningLeaves s u h r l s.framesSinceBar := by
  obtain ⟨u, hu, hleaves⟩ := sealDefining_wholeBars h s.framesSinceBar .endRec hl hp
  rw [headOn_track hk hr] at hu
  exact ⟨u, by rw [doEndRec_defining hk hr hm, if_pos ⟨hb, hbars⟩, hu], hleaves⟩

/-- The state behind a DEFINING seal ahead of its BAR boundary (R34, R83). -/
def State.loopAheadSet (s u : State) (k : Nat) : State :=
  { u with clock := { s.clock with loop := some k, bar := 0, loopPos := 0, loopSet := true } }

theorem doEndRec_definingAhead (hk : s.headOn k = some h) (hr : s.head h = some r) (hl : s.layer r.layer = some l)
    (hp : s.poolLegal) (hm : r.mode = .defining) (hbars : s.wholeBars r ≠ 0) (hb : s.atBarBoundary = false)
    (ha : s.barAhead = true) :
    ∃ u, s.doEndRec k = (.ok, s.loopAheadSet (u.autoFold k) (s.wholeBars r)) ∧ DefiningLeaves s.atNextBar u h r l 0 := by
  obtain ⟨u, hu, hleaves⟩ := sealDefining_wholeBars (s := s.atNextBar) h 0 .endRec hl hp.atNextBar
  rw [headOn_track hk hr] at hu
  refine ⟨u, ?_, hleaves⟩
  rw [doEndRec_defining hk hr hm, if_neg (by rw [hb]; simp), if_pos ⟨ha, hbars⟩, ← hu]
  rfl

theorem doEndRec_pends (hk : s.headOn k = some h) (hr : s.head h = some r) (hm : r.mode = .defining)
    (hb : s.wholeBars r = 0 ∨ s.atBarBoundary = false ∧ s.barAhead = false) :
    s.doEndRec k = (.ok, s.setHead h (some { r with endPending := .endRec })) := by
  rw [doEndRec_defining hk hr hm, if_neg, if_neg]
  · rintro ⟨ha, hbars⟩
    exact hb.elim hbars fun e => by rw [e.2] at ha; exact absurd ha (by decide)
  · rintro ⟨ha, hbars⟩
    exact hb.elim hbars fun e => by rw [e.1] at ha; exact absurd ha (by decide)

end

/-! ### The obligation -/

theorem otherHead_ne (h : HeadId) : (if h = .h0 then .h1 else .h0 : HeadId) ≠ h := by cases h <;> decide

theorem eq_otherHead {h j : HeadId} (hj : j ≠ h) : j = if h = .h0 then .h1 else .h0 := by
  cases h <;> cases j
  · exact absurd rfl hj
  · rfl
  · rfl
  · exact absurd rfl hj

/-- Settles O55: one lemma per end, gathered by `EndLeaves`, `DefiningLeaves` and `ChainLeaves`. -/
theorem recordingsEndByThemselves : Obligations.RecordingsEndByThemselves := by
  refine ⟨fun w h r l => ?_, fun s k h r l hk hr hl hp => ?_⟩
  · intro s hs hr hl hp other barFrames k n length ends definingEnd byItself
    have hends : ∀ {u map}, EndLeaves s u h r l map → ends u map := fun e =>
      ⟨e.layer, e.free, e.other _ (otherHead_ne h), e.cues, e.scenes, e.sup⟩
    have hdefining : ∀ {u}, DefiningLeaves s u h r l 0 → definingEnd u := fun e => ⟨hends e.ends, e.clock, e.pass⟩
    have hready : w.sup.state = .ready := by rw [← (settleWalk_keeps w).sup]; exact hs
    refine ⟨fun ha => ?_, fun ha he hm hlen => ⟨fun hw => ?_, fun hw => ?_⟩, fun ha he hm hk hb => ?_,
      fun ha ho hm hk hb hd => ?_, fun hlen => ?_, fun hm hlen hd => ?_⟩
    · exact congrArg Host.Outcome.next (sealDue_off hr ha)
    · obtain ⟨u, hu, hleaves, hclock⟩ := sealDue_seals hs hr hl ha he hm hlen hw
      exact ⟨u, congrArg Host.Outcome.next hu, hends hleaves, hclock⟩
    · refine ⟨_, congrArg Host.Outcome.next (sealDue_discards hs hr ha he hm hlen hw),
        discardRecording_leaves .empty hl, ?_, ?_⟩
      · exact ((discardRecording_heads s h r .empty).head _).trans (State.head_setHead_other _ _ _ _ (otherHead_ne h))
      · exact (discardRecording_stays s h r .empty).cues
    · obtain ⟨u, hu, hleaves⟩ := sealDue_defining hs hr hl hp ha he hm hk hb
      exact ⟨u, congrArg Host.Outcome.next hu, hdefining hleaves⟩
    · have hother : ∀ j, j ≠ h → s.head j = none := fun j hj => eq_otherHead hj ▸ ho
      obtain ⟨u, hu, hleaves⟩ := receive_defining hr hl hp ha hother hm hk hb
      exact ⟨u, (tickBoundary_later hready hd).trans (congrArg Host.Outcome.next hu), hdefining hleaves⟩
    · have hoff : s.lengthReached r = false :=
        Bool.eq_false_iff.2 fun e => hlen.elim (lengthReached_iff.1 e).1 fun hne => hne (lengthReached_iff.1 e).2
      exact congrArg Host.Outcome.next (lengthEndDue_off hr hoff)
    · intro fits
      refine ⟨fun hlast => ?_, fun x hfits hx => ?_⟩
      · obtain ⟨u, hu, hleaves, hclock⟩ := lengthEndDue_seals hs hr hl hm hlen hd hlast
        exact ⟨u, congrArg Host.Outcome.next hu, hends hleaves, hclock⟩
      · obtain ⟨u, t, ht, hleaves, hclock, hchain⟩ := lengthEndDue_chains hs hr hl hm hlen hd hfits hx
        have hpins := autoFold_pinsOnly u r.track
        have hclock' : (u.autoFold r.track).clock = s.clock := hpins.clock.trans hclock
        have htracks : ∀ j, (u.autoFold r.track).track j = u.track j := State.track_congr hpins.tracks
        have hsup' : (u.autoFold r.track).sup = s.sup := hpins.sup.trans hleaves.sup
        obtain ⟨-, -, -, hlists, -⟩ := hleaves.layer
        have hlayer := hchain.layer
        have hframes : (u.autoFold r.track).trackFrames r.track = length :=
          trackFrames_congr (by rw [htracks]; exact hleaves.spans _) hclock'
        rw [hframes, songBarNow_noTick ((tickDue_congr hsup' hclock').trans hd), hclock'] at hlayer
        have hhead := hchain.head
        rw [hfits.1] at hhead
        refine ⟨u, t, congrArg Host.Outcome.next ht, hends hleaves, hclock, hhead, hlayer, hchain.layers, hchain.bounce, ?_,
          ?_, hchain.mem.trans hpins.mem, hchain.clock.trans hclock', ?_, ?_, hchain.sup.trans hsup'⟩
        · rw [hchain.stack, htracks, (hlists _).1]
        · rw [hchain.others _ (otherHead_ne h), hpins.head]
          exact hleaves.other _ (otherHead_ne h)
        · exact hchain.cues.trans (hpins.cues.trans hleaves.cues)
        · exact hchain.scenes.trans (hpins.scenes.trans hleaves.scenes)
  · intro barFrames bars map atBar
    have hat : ¬atBar → s.atBarBoundary = false := fun e => Bool.eq_false_iff.2 fun e' => e (atBarBoundary_iff.1 e')
    refine ⟨fun hm => ⟨doEndRec_discards hk hr hl hm, fun hw hb => ?_, fun hw hb => ?_⟩,
      fun hm => ⟨fun hbars hb => ?_, fun hbars hb ha => ?_,
        fun hb => doEndRec_pends hk hr hm (hb.imp_right (And.imp_left hat))⟩⟩
    · obtain ⟨u, hu, hleaves, hclock⟩ := doEndRec_seals hk hr hl hm hw hb
      refine ⟨u, hu, hleaves.layer, hclock, ?_⟩
      rw [hleaves.free, List.drop_length]
      exact List.append_nil _
    · obtain ⟨u, hu, hleaves, hclock⟩ := doEndRec_sealsAhead hk hr hl hm hw hb
      have hpins := autoFold_pinsOnly u k
      refine ⟨u, _, hu, hleaves.layer, ⟨rfl, rfl, rfl, rfl, rfl⟩, ?_, barRestored_clock (hpins.clock.trans hclock), ?_, ?_,
        hpins.sup.trans hleaves.sup⟩
      · rw [hleaves.free, List.drop_length]
        exact List.append_nil _
      · exact (hpins.head h).trans hleaves.layer.1
      · exact hpins.cues.trans hleaves.cues
    · obtain ⟨u, hu, hleaves⟩ := doEndRec_definingHere hk hr hl hp hm hbars (atBarBoundary_iff.2 hb)
      exact ⟨u, hu, hleaves.ends.layer, hleaves.clock, hleaves.pass⟩
    · obtain ⟨u, hu, hleaves⟩ := doEndRec_definingAhead hk hr hl hp hm hbars (hat hb) ha
      have hpins := autoFold_pinsOnly u k
      refine ⟨u, _, hu, hleaves.ends.layer, ⟨rfl, rfl, rfl, rfl, rfl⟩, rfl, ?_, fun j => ?_⟩
      · exact (hpins.head h).trans hleaves.ends.layer.1
      · exact (congrArg Track.pass (State.track_congr hpins.tracks j)).trans (hleaves.pass j)

end Sys2Proof.Machine
end

