-- ==== Sys2Proof/Proofs/StopCuts.lean ====
section
/-! The recordings that a stop cuts, and STOP (R34, R42, R85, R86). -/

namespace Sys2Proof.Machine

/-! ### The cut of one head (R85, R86) -/

theorem cutHead_idle {s : State} {h : HeadId} (reason : SealReason) (hn : s.head h = none) : s.cutHead reason h = s := by
  unfold State.cutHead
  rw [hn]

/-- The state with one more free value chosen (log 10). -/
def State.freeChosen (s : State) : State := { s with freeCount := s.freeCount + 1 }

theorem State.poolLegal.freeChosen {s : State} (hp : s.poolLegal) : s.freeChosen.poolLegal :=
  ⟨hp.freeOnce, hp.freeIff, hp.named, hp.namedOnce⟩

theorem cutDefining_noBar {s : State} {h : HeadId} {r : Recording} {pos : Nat} {reason : SealReason}
    (hk : s.wholeBars r = 0) : s.cutDefining h r pos reason = s.discardRecording h r .noBar := if_pos hk

theorem cutDefining_bars {s : State} {h : HeadId} {r : Recording} {pos : Nat} {reason : SealReason}
    (hk : s.wholeBars r ≠ 0) : s.cutDefining h r pos reason = s.sealDefining h r (s.wholeBars r) pos reason := if_neg hk

theorem cutHead_defining {s : State} {h : HeadId} {r : Recording} (reason : SealReason) (hr : s.head h = some r)
    (hm : r.mode = .defining) :
    s.cutHead reason h = s.freeChosen.cutDefining h r s.cutPosition reason := by
  unfold State.cutHead
  rw [hr]
  dsimp only
  rw [hm]
  rfl

theorem cutHead_otherwise {s : State} {h : HeadId} {r : Recording} (reason : SealReason) (hr : s.head h = some r)
    (hm : r.mode ≠ .defining) : s.cutHead reason h = s.sealNow h r reason := by
  unfold State.cutHead
  rw [hr]
  dsimp only
  split
  · next e => exact absurd e hm
  · rfl

/-- The free value of a cut (log 10). -/
theorem cutPosition_cases (s : State) : s.cutPosition = 0 ∨ s.cutPosition = s.clock.loopPos % s.clock.barFrames := by
  unfold State.cutPosition
  split
  · exact Or.inr rfl
  · exact Or.inl rfl

theorem sameTables_refl (t : State) : SameTables t t := ⟨rfl, rfl, rfl, rfl, rfl⟩

theorem cutHead_leaves {s : State} {h : HeadId} {r : Recording} {l : Layer} (reason : SealReason)
    (hr : s.head h = some r) (hl : s.layer r.layer = some l) (hp : s.poolLegal) :
    CutLeaves s (s.cutHead reason h) h r l := by
  unfold CutLeaves
  intro barFrames k n
  refine ⟨fun hm => ?_, fun hm => ?_⟩
  · rw [cutHead_defining reason hr hm]
    refine ⟨fun hk => ?_, fun hk => ?_⟩
    · rw [cutDefining_noBar (s := s.freeChosen) hk]
      exact discardRecording_leaves (s := s.freeChosen) .noBar hl
    · rw [cutDefining_bars (s := s.freeChosen) hk]
      obtain ⟨u, hu, hleaves⟩ := sealDefining_wholeBars (s := s.freeChosen) h s.cutPosition reason hl hp.freeChosen
      rw [hu]
      have hpins := autoFold_pinsOnly u r.track
      have hclock : (u.autoFold r.track).clock = { s.clock with loop := some k, bar := 0, loopPos := s.cutPosition } :=
        hpins.clock.trans hleaves.clock
      refine ⟨⟨u, hleaves.ends.layer, sameTables_refl _, ?_⟩, (hpins.head h).trans hleaves.ends.layer.1, ?_, ?_, ?_, fun j => ?_⟩
      · exact hleaves.ends.free.trans (congrArg (s.pool.free ++ namedBlocks ·) (drop_length_take l.map n))
      · rw [hclock]
      · rw [hclock]
      · rw [hclock]
        exact cutPosition_cases s
      · exact (congrArg Track.pass (State.track_congr hpins.tracks j)).trans (hleaves.pass j)
  · rw [cutHead_otherwise reason hr hm]
    refine ⟨fun hw => ?_, fun hw => ?_⟩
    · rw [sealNow_empty h reason hw]
      exact discardRecording_leaves .empty hl
    · obtain ⟨u, hu, hleaves, hclock⟩ := sealNow_leaves h reason hl hw
      rw [hu]
      have hpins := autoFold_pinsOnly u r.track
      refine ⟨⟨u, hleaves.layer, sameTables_refl _, ?_⟩, (hpins.head h).trans hleaves.layer.1, ?_, ?_⟩
      · rw [hleaves.free, List.drop_length]
        exact List.append_nil _
      · rw [hpins.clock, hclock]
      · rw [hpins.clock, hclock]

/-! ### What the rest of a stop leaves of a cut -/

/-- From t to v neither the tables, the heads nor L change: a stop's reports, its pending tempo and what it silences. -/
structure CutStands (t v : State) : Prop where
  same : v = { t with
    clock := v.clock, bnd := v.bnd, cues := v.cues, mix := v.mix, scenes := v.scenes, tones := v.tones, sup := v.sup
    link := v.link }
  loop : v.clock.loop = t.clock.loop
  bar : v.clock.bar = t.clock.bar
  loopPos : v.clock.loopPos = t.clock.loopPos

theorem CutStands.trans {s t u : State} (h : CutStands s t) (k : CutStands t u) : CutStands s u :=
  ⟨k.same.trans (by rw [h.same]), k.loop.trans h.loop, k.bar.trans h.bar, k.loopPos.trans h.loopPos⟩

theorem report_cutStands (s : State) (r : Report) (p : List Byte) : CutStands s (s.report r p) :=
  ⟨by rw [State.report_eq], by rw [State.report_clock], by rw [State.report_clock], by rw [State.report_clock]⟩

theorem DiscardLeaves.stands {s t v : State} {h : HeadId} {r : Recording} {l : Layer} (k : DiscardLeaves s t h r l)
    (hv : CutStands t v) : DiscardLeaves s v h r l := by
  obtain ⟨hhead, hlayer, hothers, hfree, hentry, hstack, hmem, hbounce, hloop⟩ := k
  rw [← hv.loop] at hloop
  rw [hv.same]
  exact ⟨hhead, hlayer, hothers, hfree, hentry, hstack, hmem, hbounce, hloop⟩

theorem SameTables.stands {t v w : State} (k : SameTables t w) (hv : CutStands t v) : SameTables v w := by
  rw [hv.same]
  exact k

theorem CutStands.head {t v : State} (hv : CutStands t v) (h : HeadId) : v.head h = t.head h :=
  State.head_congr (congrArg State.head0 hv.same :) (congrArg State.head1 hv.same :) h

theorem CutStands.track {t v : State} (hv : CutStands t v) (j : TrackId) : v.track j = t.track j :=
  State.track_congr (congrArg State.tracks hv.same :) j

theorem CutLeaves.stands {s t v : State} {h : HeadId} {r : Recording} {l : Layer} (k : CutLeaves s t h r l)
    (hv : CutStands t v) : CutLeaves s v h r l := by
  obtain ⟨hdefining, hfixed⟩ := k
  refine ⟨fun hm => ⟨fun hk => ((hdefining hm).1 hk).stands hv, fun hk => ?_⟩,
    fun hm => ⟨fun hw => ((hfixed hm).1 hw).stands hv, fun hw => ?_⟩⟩
  · obtain ⟨⟨w, hseal, hsame, hfree⟩, hhead, hloop, hbar, hpos, hpass⟩ := (hdefining hm).2 hk
    refine ⟨⟨w, hseal, hsame.stands hv, hfree⟩, (hv.head h).trans hhead, hv.loop.trans hloop, hv.bar.trans hbar, ?_, fun j => ?_⟩
    · rw [hv.loopPos]
      exact hpos
    · rw [hv.track]
      exact hpass j
  · obtain ⟨⟨w, hseal, hsame, hfree⟩, hhead, hloop, hpos⟩ := (hfixed hm).2 hw
    exact ⟨⟨w, hseal, hsame.stands hv, hfree⟩, (hv.head h).trans hhead, hv.loop.trans hloop, hv.loopPos.trans hpos⟩

theorem applyPendingStopped_cutStands (s : State) : CutStands s s.applyPendingStopped := by
  unfold State.applyPendingStopped
  split
  · exact ⟨rfl, rfl, rfl, rfl⟩
  · refine CutStands.trans ?_ (report_cutStands ..)
    exact ⟨rfl, rfl, rfl, rfl⟩

/-- A stop's own part stands on what its cuts leave. -/
theorem stopTransport_cutStands {s : State} (cause : TransportCause) (reason : SealReason)
    (h : s.clock.transport ≠ .stopped) : CutStands (s.cutsTaken reason) (s.stopTransport cause reason) := by
  have hquiet : ∀ t : State, CutStands t t.quieted := fun _ => ⟨rfl, rfl, rfl, rfl⟩
  have hidle : ∀ t : State, CutStands t t.scenesIdle := fun _ => ⟨rfl, rfl, rfl, rfl⟩
  rw [stopTransport_moving cause reason h]
  exact (applyPendingStopped_cutStands _).trans ((hquiet _).trans ((report_cutStands ..).trans (hidle _)))

/-- With one head busy, its cut is all that the cuts do. -/
theorem cutHeads_one {s : State} {h : HeadId} (reason : SealReason) (hother : ∀ j, j ≠ h → s.head j = none) :
    s.cutHeads reason = s.cutHead reason h := by
  unfold State.cutHeads
  cases h with
  | h0 => exact cutHead_idle reason ((head_cutHead s reason .h0 .h1).trans (hother .h1 (by decide)))
  | h1 => rw [cutHead_idle reason (hother .h0 (by decide))]

theorem cutHeads_none {s : State} (reason : SealReason) (h0 : s.head0 = none) (h1 : s.head1 = none) :
    s.cutHeads reason = s := by
  unfold State.cutHeads
  rw [cutHead_idle (h := .h0) reason h0, cutHead_idle (h := .h1) reason h1]

/-- What a stop leaves of a recording that runs alone (R34, R85, R86). -/
theorem stopTransport_cutLeaves {s : State} {h : HeadId} {r : Recording} {l : Layer} (cause : TransportCause)
    (reason : SealReason) (ht : s.clock.transport ≠ .stopped) (hr : s.head h = some r)
    (hother : ∀ j, j ≠ h → s.head j = none) (hl : s.layer r.layer = some l) (hp : s.poolLegal) :
    CutLeaves s (s.stopTransport cause reason) h r l := by
  have hcuts : s.cutsTaken reason = State.cutHead { s with clock := s.clock.stopped } reason h := cutHeads_one reason hother
  have hcut : CutLeaves { s with clock := s.clock.stopped } (s.cutsTaken reason) h r l :=
    hcuts ▸ cutHead_leaves reason hr hl ⟨hp.freeOnce, hp.freeIff, hp.named, hp.namedOnce⟩
  exact hcut.stands (stopTransport_cutStands cause reason ht)

/-- A stop with no head busy and no pair pending, whole (R42). -/
theorem stopTransport_quiet {s : State} (cause : TransportCause) (reason : SealReason) (ht : s.clock.transport ≠ .stopped)
    (h0 : s.head0 = none) (h1 : s.head1 = none) (hp : s.clock.pendingTempo = none) :
    s.stopTransport cause reason =
      { State.report (State.quieted { s with clock := s.clock.stopped }) .transport
          [0, s.clock.transport.code, cause.code, 0]
        with scenes := s.scenes.idle } := by
  have hcuts : s.cutsTaken reason = { s with clock := s.clock.stopped } := cutHeads_none reason h0 h1
  have hpending : State.applyPendingStopped { s with clock := s.clock.stopped } = { s with clock := s.clock.stopped } :=
    applyPendingStopped_none hp
  rw [stopTransport_moving cause reason ht, hcuts, hpending]
  unfold State.scenesIdle State.reportTransport
  rw [State.report_scenes]
  rfl

/-! ### STOP -/

theorem exec_stop {s : State} {tag : Byte} (h : s.canTake { kind := 0x13, tag := tag, payload := [] } = true) :
    exec (.stop tag []) s = .next ((ownStop s.takeRequest []).1.reply 0x13 tag (ownStop s.takeRequest []).2) :=
  congrArg Host.Outcome.next (serve_taken h rfl rfl)

theorem ownStop_ready {u : State} (hr : u.isReady = true) :
    ownStop u [] = (u.stopTransport .stopRequest .stop, [0, u.clock.transport.code]) := by
  unfold ownStop
  rw [hr]
  rfl

/-- Settles O21: `stopTransport_leaves` for the blocks, `stopTransport_cutLeaves` for the recording, and `stopTransport_quiet`
for the whole state. -/
theorem stopStopsTheTransport : Obligations.StopStopsTheTransport := by
  unfold Obligations.StopStopsTheTransport
  intro idle stops stopped
  have hstops : ∀ (s : State) (cause : TransportCause), s.clock.transport ≠ .stopped →
      stops s (s.stopTransport cause .stop) := fun s cause ht => by
    have k := stopTransport_leaves cause .stop ht
    exact ⟨k.transport, k.countIn, k.pending, k.songBar, k.divider, k.head0, k.head1, k.voices, k.wait, k.scenes, k.tones,
      k.cues, k.sup, k.bnd, k.applied, k.kept, fun h r l => stopTransport_cutLeaves cause .stop ht⟩
  refine ⟨fun s tag h hr => ?_, fun s ht => ⟨⟨_, rfl, hstops s .stopCue ht⟩, fun h0 h1 hp => ?_⟩⟩
  · intro u
    have hexec := exec_stop h
    rw [ownStop_ready (isReady_of_ready hr)] at hexec
    refine ⟨fun ht => ?_, fun ht => ⟨⟨_, hexec, hstops u .stopRequest ht⟩, fun h0 h1 hp => ?_⟩⟩
    · rw [hexec, State.stopTransport_stopped .stopRequest .stop ht, ht]
      rfl
    · rw [hexec, stopTransport_quiet .stopRequest .stop ht h0 h1 hp]
      rfl
  · exact congrArg (Prod.mk Code.ok) (stopTransport_quiet .stopCue .stop ht h0 h1 hp)

end Sys2Proof.Machine
end

