-- ==== Sys2Proof/Proofs/HaltEvents.lean ====
section
/-! The halt event whole, the halt line's levels, and HALT_CONFIG_WRITE that enables detection (R177..R180). -/

namespace Sys2Proof.Machine

/-! ### The halt event (R179) -/

/-- The state before HALT of a halt event from a moving transport. -/
def State.halting (s : State) : State := (s.latched.stopTransport .halt .halt).scenesIdle

theorem haltEvent_halting {s : State} (source : HaltSource) (h : s.sup.latch = false) :
    s.haltEvent source = s.halting.report .halt
      [byte s.cues.list.length, byte s.headsBusy, s.clock.transport.code, source.code] := haltEvent_clear source h

theorem idle_idle (q : Sequencer) : q.idle.idle = q.idle := rfl

/-- A halt from a moving transport leaves what a stop of the latched state leaves. -/
theorem haltEvent_leaves {s : State} (source : HaltSource) (h : s.sup.latch = false) (ht : s.clock.transport ≠ .stopped) :
    StopLeaves s.latched (s.haltEvent source) := by
  have k : StopLeaves s.latched (s.latched.stopTransport .halt .halt) := stopTransport_leaves .halt .halt ht
  rw [haltEvent_halting source h, State.report_eq]
  exact { k with scenes := (congrArg Sequencer.idle k.scenes).trans (idle_idle _) }

theorem haltEvent_cutLeaves {s : State} {h : HeadId} {r : Recording} {l : Layer} (source : HaltSource)
    (hlatch : s.sup.latch = false) (ht : s.clock.transport ≠ .stopped) (hr : s.head h = some r)
    (hother : ∀ j, j ≠ h → s.head j = none) (hl : s.layer r.layer = some l) (hp : s.poolLegal) :
    CutLeaves s (s.haltEvent source) h r l := by
  have hcut : CutLeaves s.latched (s.latched.stopTransport .halt .halt) h r l :=
    stopTransport_cutLeaves .halt .halt ht hr hother hl ⟨hp.freeOnce, hp.freeIff, hp.named, hp.namedOnce⟩
  have hidle : CutStands (s.latched.stopTransport .halt .halt) s.halting := ⟨rfl, rfl, rfl, rfl⟩
  rw [haltEvent_halting source hlatch]
  exact hcut.stands (hidle.trans (report_cutStands ..))

/-- A halt from a moving transport with no head busy and no pair pending, whole. -/
theorem halting_quiet {s : State} (ht : s.clock.transport ≠ .stopped) (h0 : s.head0 = none) (h1 : s.head1 = none)
    (hp : s.clock.pendingTempo = none) :
    s.halting =
      { State.report (State.quieted { s.latched with clock := s.clock.stopped }) .transport
          [0, s.clock.transport.code, 4, 0]
        with scenes := s.scenes.idle } := by
  unfold State.halting
  rw [stopTransport_quiet (s := s.latched) .halt .halt ht h0 h1 hp]
  rfl

theorem Sup.latched_self {u : Sup} (h : u.latch = true) : { u with latch := true } = u := by
  cases u
  cases h
  rfl

/-! ### The line -/

theorem haltEdge_active {s : State} (h : s.sup.lineActive = true) : exec .haltEdge s = .next s :=
  congrArg Host.Outcome.next (if_pos h)

theorem haltEdge_inactive {s : State} (h : s.sup.lineActive = false) :
    exec .haltEdge s = .next (s.setLine true).edge := congrArg Host.Outcome.next (if_neg (by rw [h]; decide))

theorem haltLineInactive_active {s : State} (h : s.sup.lineActive = true) :
    exec .haltLineInactive s = .next (s.setLine false) := congrArg Host.Outcome.next (if_pos h)

theorem haltLineInactive_inactive {s : State} (h : s.sup.lineActive = false) :
    exec .haltLineInactive s = .next s := congrArg Host.Outcome.next (if_neg (by rw [h]; decide))

theorem edge_reset {s : State} (h : s.sup.state = .reset) : s.edge = s := by
  unfold State.edge
  rw [h]

theorem edge_standby {s : State} (h : s.sup.state = .standby) :
    s.edge = if s.sup.detection = true then s.wake .halt else s := by
  unfold State.edge
  rw [h]

theorem edge_waking {s : State} (h : s.sup.state = .waking) :
    s.edge = if s.sup.detection = true then
      { s with sup := { s.sup with wake := s.sup.wake.map fun w => { w with haltHeld := true } } } else s := by
  unfold State.edge
  rw [h]

/-- An edge in READY or VERIFYING takes a halt event or sets the edge memory. -/
theorem edge_running {s : State} (h : s.sup.state = .ready ∨ s.sup.state = .verifying) :
    s.edge = if s.sup.detection = true then s.finishWalk.haltEvent .edge
      else { s with sup := { s.sup with edgeMemory := true } } := by
  unfold State.edge
  rcases h with h | h <;> rw [h]

theorem haltEdge_remembers {s : State} (ha : s.sup.lineActive = false)
    (hs : s.sup.state = .ready ∨ s.sup.state = .verifying) (hd : s.sup.detection = false) :
    exec .haltEdge s = .next { s with sup := { s.sup with lineHigh := s.sup.activeHigh, edgeMemory := true } } := by
  rw [haltEdge_inactive ha, edge_running (s := s.setLine true) hs]
  exact congrArg Host.Outcome.next (if_neg (Bool.eq_false_iff.1 hd))

/-- With detection enabled and nothing outstanding, an edge in READY or VERIFYING is a halt event. -/
theorem haltEdge_detects {s : State} (ha : s.sup.lineActive = false)
    (hs : s.sup.state = .ready ∨ s.sup.state = .verifying) (hd : s.sup.detection = true) (hwalk : s.bnd.walk = none)
    (hstep : s.bnd.sceneStep = none) (hdue : s.beginIsDue = false) :
    exec .haltEdge s = .next ((s.setLine true).haltEvent .edge) := by
  have hfinish : (s.setLine true).finishWalk = s.setLine true := finishWalk_idle hdue hwalk hstep
  rw [haltEdge_inactive ha, edge_running (s := s.setLine true) hs, hfinish]
  exact congrArg Host.Outcome.next (if_pos hd)

/-! ### HALT_CONFIG_WRITE (R180) -/

theorem exec_haltConfigWrite {s : State} {tag d h c : Byte}
    (ht : s.canTake { kind := 0x07, tag := tag, payload := [1, d, h, c] } = true) :
    exec (.haltConfigWrite tag [1, d, h, c]) s
      = .next ((ownHaltConfigWrite s.takeRequest [1, d, h, c]).1.reply 0x07 tag
        (ownHaltConfigWrite s.takeRequest [1, d, h, c]).2) :=
  congrArg Host.Outcome.next (serve_taken ht rfl rfl)

/-- The state whose detection is enabled, its edge memory cleared by the halt to come (R178, R180). -/
def State.haltEnabled (s : State) (high : Bool) : State :=
  { s with sup := { s.sup with detection := true, activeHigh := high, edgeMemory := false } }

theorem writeHaltConfig_enables {s : State} (high : Bool) (h : s.sup.edgeMemory = true) :
    s.writeHaltConfig true high false = (s.haltEnabled high).haltEvent .enable := by
  unfold State.writeHaltConfig State.haltFromMemory
  dsimp only
  rw [h]
  rfl

theorem ownHaltConfigWrite_enables {u : State} (high : Bool) (hr : u.isReady = true) (h : u.sup.edgeMemory = true) :
    ownHaltConfigWrite u [1, 1, flagByte high, 0]
      = ((u.haltEnabled high).haltEvent .enable,
        0 :: ((u.haltEnabled high).haltEvent .enable).haltConfigBytes) := by
  rw [← writeHaltConfig_enables high h]
  unfold ownHaltConfigWrite
  rw [hr]
  cases high <;> rfl

/-- The halt items behind a halt event that detection's enabling has set off. -/
theorem haltEnabled_bytes {u t : State} {high : Bool} (h : t.sup = { (u.haltEnabled high).sup with latch := true }) :
    t.haltConfigBytes = [1, flagByte high, 0, 1, flagByte (decide (u.sup.lineHigh = high))] := by
  unfold State.haltConfigBytes
  rw [h]
  rfl

theorem haltConfigWrite_enables {s : State} {tag : Byte} {high : Bool}
    (ht : s.canTake { kind := 0x07, tag := tag, payload := [1, 1, flagByte high, 0] } = true)
    (hr : s.sup.state = .ready) (he : s.sup.edgeMemory = true) {t : State}
    (hevent : (s.takeRequest.haltEnabled high).haltEvent .enable = t)
    (hsup : t.sup = { (s.takeRequest.haltEnabled high).sup with latch := true }) :
    exec (.haltConfigWrite tag [1, 1, flagByte high, 0]) s = .next
      (t.reply 0x07 tag [0, 1, flagByte high, 0, 1, flagByte (decide (s.takeRequest.sup.lineHigh = high))]) := by
  rw [exec_haltConfigWrite ht, ownHaltConfigWrite_enables high (isReady_of_ready hr) (by rw [takeRequest_sup]; exact he),
    hevent, haltEnabled_bytes hsup]

/-! ### The obligation -/

/-- Settles O60: `haltEvent_leaves`, `haltEvent_cutLeaves` and `halting_quiet` for the event, an equation of `edge` for each
supervisor state. -/
theorem haltLineAndEnableTakeTheirEffect : Obligations.HaltLineAndEnableTakeTheirEffect := by
  unfold Obligations.HaltLineAndEnableTakeTheirEffect
  intro idle halted halts
  have hhalts : ∀ (u : State) (source : HaltSource), u.sup.latch = false →
      halts u source.code (u.haltEvent source) := fun u source hlatch => by
    refine ⟨fun ht => haltEvent_stopped source hlatch ht, fun ht => ?_⟩
    have k := haltEvent_leaves source hlatch ht
    refine ⟨⟨_, haltEvent_halting source hlatch⟩, k.sup, k.cues, k.transport, k.countIn, k.pending, k.head0, k.head1, k.voices,
      k.wait, k.scenes, k.tones, fun h r l => haltEvent_cutLeaves source hlatch ht, fun h0 h1 hp => ?_⟩
    rw [haltEvent_halting source hlatch, halting_quiet ht h0 h1 hp]
    rfl
  refine ⟨fun s => ?_, fun s tag high ht hr he => ⟨fun hlatch => ?_, fun hlatch => ?_⟩⟩
  · intro active line
    refine ⟨haltEdge_active, haltLineInactive_inactive, haltLineInactive_active, fun ha hs => ?_, fun ha hs => ?_, fun ha hs => ?_,
      fun ha hs => ⟨fun hd => ?_, fun hd hwalk hstep hdue => ⟨fun hlatch => ?_, fun hlatch => ?_⟩⟩⟩
    · rw [haltEdge_inactive ha, edge_reset (s := s.setLine true) hs]
      rfl
    · rw [haltEdge_inactive ha, edge_standby (s := s.setLine true) hs]
      refine congrArg Host.Outcome.next ?_
      change (if s.sup.detection = true then _ else _) = _
      cases s.sup.detection <;> rfl
    · rw [haltEdge_inactive ha, edge_waking (s := s.setLine true) hs]
      refine congrArg Host.Outcome.next ?_
      change (if s.sup.detection = true then _ else _) = _
      cases s.sup.detection <;> rfl
    · exact haltEdge_remembers ha hs hd
    · exact (haltEdge_detects ha hs hd hwalk hstep hdue).trans
        (congrArg Host.Outcome.next (haltEvent_latched (s := s.setLine true) .edge hlatch))
    · exact ⟨_, haltEdge_detects ha hs hd hwalk hstep hdue, hhalts (s.setLine true) .edge hlatch⟩
  · have hset : (s.takeRequest.haltEnabled high).sup.latch = true := hlatch
    exact haltConfigWrite_enables ht hr he (haltEvent_latched .enable hset) (Sup.latched_self hset).symm
  · have hclear : (s.takeRequest.haltEnabled high).sup.latch = false := hlatch
    exact ⟨_, haltConfigWrite_enables ht hr he rfl (haltEvent_takes .enable hclear).1, hhalts _ .enable hclear⟩

end Sys2Proof.Machine
end

