-- ==== Sys2Proof/Proofs/CueRequests.lean ====
section
/-! CUE and CANCEL_CUE (R50..R54, R60, R62). -/

namespace Sys2Proof.Machine

/-! ### The replace flag and the checks of a Cue request (R51, R52) -/

theorem keptCues_false (a : Action) (l : List Cue) : keptCues a false l = l :=
  List.filter_eq_self.2 fun _ _ => rfl

theorem keptCues_true (a : Action) (l : List Cue) : keptCues a true l = l.filter fun c => !replaces a c :=
  List.filter_congr fun c _ => by
    unfold replaces
    cases a.target <;> rfl

theorem length_keptCues_le (a : Action) (replace : Bool) (l : List Cue) : (keptCues a replace l).length ≤ l.length :=
  List.length_filter_le ..

/-- The replace removal leaves the kept cues (R52). -/
theorem replaceRemove_eq (u : State) (a : Action) (replace : Bool) :
    u.replaceRemove a replace = { u with cues := { u.cues with list := keptCues a replace u.cues.list } } := by
  unfold State.replaceRemove
  cases replace with
  | false => rw [keptCues_false]; rfl
  | true => rw [keptCues_true]; rfl

/-- The replace flag removes every cue that is not kept (R52). -/
theorem replaceCount_eq (u : State) (a : Action) (replace : Bool) :
    u.replaceCount a replace = u.cues.list.length - (keptCues a replace u.cues.list).length := by
  unfold State.replaceCount
  cases replace with
  | false => rw [keptCues_false, Nat.sub_self]; rfl
  | true =>
    have hsplit := List.length_eq_length_filter_add (l := u.cues.list) (replaces a)
    rw [keptCues_true, if_pos rfl]
    omega

/-- A Cue request that is not refused HALTED or FULL, with another grid than NOW: the cue joins the list (R51, R52). -/
theorem acceptCue_joins (u : State) (a : Action) {g : Grid} (delay : Nat) (replace : Bool) (hg : g ≠ .now) :
    u.acceptCue a g delay replace =
      ({ u with cues :=
          { list := keptCues a replace u.cues.list ++ [{ id := u.cues.nextId, action := a, grid := g, delay := delay }]
            nextId := u.cues.nextId + 1 } },
        [0, 1, u.cues.nextId, byte (u.cues.list.length - (keptCues a replace u.cues.list).length),
          byte ((keptCues a replace u.cues.list).length + 1)]) := by
  unfold State.acceptCue
  rw [if_neg hg, replaceCount_eq, replaceRemove_eq]
  simp only [cueReply, answer, List.length_append, List.length_singleton]
  rfl

/-- A Cue request with the grid NOW that is not refused HALTED: the cue is executed (R51, R53). -/
theorem acceptCue_now (u : State) (a : Action) (delay : Nat) (replace : Bool) :
    u.acceptCue a .now delay replace =
      let r := State.executeCue
        { u with cues := { list := keptCues a replace u.cues.list, nextId := u.cues.nextId + 1 } } u.cues.nextId a
      cueReply r.2 r.1 2 u.cues.nextId (u.cues.list.length - (keptCues a replace u.cues.list).length) := by
  unfold State.acceptCue
  rw [if_pos rfl, replaceCount_eq, replaceRemove_eq]

/-- The checks of a Cue request behind its fields' ranges (R51). -/
theorem requestCue_eq (u : State) (a : Action) (g : Grid) (delay : Nat) (replace : Bool) :
    u.requestCue a g delay replace =
      if u.sup.latch = true then cueReply u .halted 0 0 0
      else if g ≠ .now ∧ (keptCues a replace u.cues.list).length = 16 then cueReply u .full 0 0 0
      else u.acceptCue a g delay replace := by
  have hle := length_keptCues_le a replace u.cues.list
  have hn : u.cues.list.length - u.replaceCount a replace = (keptCues a replace u.cues.list).length := by
    rw [replaceCount_eq]; omega
  unfold State.requestCue
  rw [hn]

/-! ### The fields of a Cue request (R49, R50) -/

theorem trackOf_isSome {b : Byte} : (trackOf b).isSome = true ↔ b.toNat ≤ 7 := by
  unfold trackOf
  split <;> simp <;> omega

theorem targetOf_isSome {b : Byte} : (targetOf b).isSome = true ↔ b.toNat ≤ 8 := by
  unfold targetOf
  split
  · simp; omega
  · rw [Option.isSome_map, trackOf_isSome]; omega

theorem sceneOf_isSome {b : Byte} : (sceneOf b).isSome = true ↔ b.toNat ≤ 15 := by
  unfold sceneOf
  split <;> simp <;> omega

theorem spanOf_isSome {b : Byte} : (spanOf b).isSome = true ↔ b = 1 ∨ b = 2 ∨ b = 4 := by
  unfold spanOf
  simp only [BitVec.toNat_eq]
  split <;> simp_all

theorem gridOf_isSome {b : Byte} : (gridOf b).isSome = true ↔ b.toNat ≤ 5 := by
  unfold gridOf
  split <;> simp_all; omega

theorem gridOf_now {b : Byte} : gridOf b = some .now ↔ b = 0 := by
  unfold gridOf
  simp only [BitVec.toNat_eq]
  split <;> simp_all

/-- Fields that are each in range, one check behind another. -/
theorem bind_isSome {α β : Type} {o : Option α} {f : α → Option β} {c : Prop} (h : ∀ x, (f x).isSome = true ↔ c) :
    (o.bind f).isSome = true ↔ o.isSome = true ∧ c := by
  cases o with
  | none => simp
  | some x => simpa using h x

theorem guarded_isSome {α : Type} {c : Prop} [Decidable c] {x : α} : (if c then some x else none).isSome = true ↔ c := by
  split <;> simp_all

theorem actionOf_isSome {action target optA optB : Byte} :
    (actionOf action target optA optB).isSome = true ↔
      action.toNat ≤ 9 ∧ (action.toNat ≤ 4 → target.toNat ≤ 7) ∧ (5 ≤ action.toNat → action.toNat ≤ 7 → target.toNat ≤ 8)
        ∧ (action = 0 → (optA = 1 ∨ optA = 2 ∨ optA = 4) ∧ optB.toNat ≤ 64) ∧ (action = 1 → optA.toNat ≤ 1)
        ∧ (action = 8 → optA.toNat ≤ 15) := by
  have h0 : action = 0 ↔ action.toNat = 0 := BitVec.toNat_eq
  have h1 : action = 1 ↔ action.toNat = 1 := BitVec.toNat_eq
  have h8 : action = 8 ↔ action.toNat = 8 := BitVec.toNat_eq
  rw [h0, h1, h8, ← spanOf_isSome]
  unfold actionOf
  split
  case h_1 =>
    refine (bind_isSome fun t => bind_isSome fun span => guarded_isSome).trans ?_
    rw [trackOf_isSome]
    simp_all
  case h_2 =>
    refine (bind_isSome fun t => guarded_isSome).trans ?_
    rw [trackOf_isSome]
    simp_all
  case h_11 =>
    simp only [imp_false] at *
    simp only [Option.isSome_none, Bool.false_eq_true, false_iff]
    omega
  all_goals simp_all [trackOf_isSome, targetOf_isSome, sceneOf_isSome]

/-- The grid, the delay and the flags of a Cue request, its action being read (R50). -/
theorem waitFields_isSome {grid delay flags : Byte} (a : Action) :
    ((gridOf grid).bind fun g =>
      if delay.toNat ≤ 15 ∧ (g = .now → delay.toNat = 0) ∧ flags.toNat ≤ 1 then
        some (a, g, delay.toNat, decide (flags.toNat = 1))
      else none).isSome = true ↔
      grid.toNat ≤ 5 ∧ delay.toNat ≤ 15 ∧ (grid = 0 → delay = 0) ∧ flags.toNat ≤ 1 := by
  rw [← gridOf_isSome, ← gridOf_now, BitVec.toNat_eq (x := delay)]
  cases gridOf grid with
  | none => simp
  | some g =>
    rw [Option.bind_some, guarded_isSome, Option.some.injEq]
    simp

/-- The fields of a Cue request are in range where R50 says so. -/
theorem cueFields_isSome {action target grid delay optA optB flags : Byte} :
    (cueFields action target grid delay optA optB flags).isSome = true ↔
      cueInRange action target grid delay optA optB flags := by
  refine (bind_isSome waitFields_isSome).trans ?_
  rw [actionOf_isSome]
  unfold cueInRange
  tauto

/-! ### CUE (R50, R51, R53, R54) -/

theorem exec_cue {s : State} {tag action target grid delay optA optB flags : Byte}
    (h : s.canTake { kind := 0x18, tag := tag, payload := [action, target, grid, delay, optA, optB, flags] } = true) :
    exec (.cue tag [action, target, grid, delay, optA, optB, flags]) s
      = .next ((ownCue s.takeRequest [action, target, grid, delay, optA, optB, flags]).1.reply 0x18 tag
          (ownCue s.takeRequest [action, target, grid, delay, optA, optB, flags]).2) :=
  congrArg Host.Outcome.next (serve_taken h rfl rfl)

/-- In READY a Cue request with a field out of range is refused BAD_VALUE (R50). -/
theorem ownCue_badValue {u : State} {action target grid delay optA optB flags : Byte} (hr : u.isReady = true)
    (h : cueFields action target grid delay optA optB flags = none) :
    ownCue u [action, target, grid, delay, optA, optB, flags] = cueReply u .badValue 0 0 0 := by
  simp only [ownCue, hr, h]
  rfl

/-- In READY a Cue request whose fields are in range goes on to the other checks (R51). -/
theorem ownCue_requests {u : State} {action target grid delay optA optB flags : Byte} {a : Action} {g : Grid} {d : Nat}
    {replace : Bool} (hr : u.isReady = true)
    (h : cueFields action target grid delay optA optB flags = some (a, g, d, replace)) :
    ownCue u [action, target, grid, delay, optA, optB, flags] = u.requestCue a g d replace := by
  simp only [ownCue, hr, h]
  rfl

theorem requestCue_halted {u : State} (a : Action) (g : Grid) (delay : Nat) (replace : Bool) (h : u.sup.latch = true) :
    u.requestCue a g delay replace = cueReply u .halted 0 0 0 := if_pos h

theorem requestCue_now {u : State} (a : Action) (delay : Nat) (replace : Bool) (h : u.sup.latch = false) :
    u.requestCue a .now delay replace = u.acceptCue a .now delay replace := by
  rw [requestCue_eq, if_neg (by simp [h]), if_neg (by simp)]

theorem requestCue_waits {u : State} (a : Action) {g : Grid} (delay : Nat) (replace : Bool) (h : u.sup.latch = false)
    (hg : g ≠ .now) :
    u.requestCue a g delay replace =
      if (keptCues a replace u.cues.list).length = 16 then cueReply u .full 0 0 0 else u.acceptCue a g delay replace := by
  rw [requestCue_eq, if_neg (by simp [h])]
  simp only [ne_eq, hg, not_false_eq_true, true_and]

/-- A cue executed: its action is carried out, and CUE_DONE or CUE_FAILED is formed behind it (R60). -/
theorem executeCue_eq (u : State) (id : Byte) (a : Action) :
    u.executeCue id a = ((u.doAction a).1,
      if (u.doAction a).1 = .ok then (u.doAction a).2.reportWith u.header .cueDone [id, a.code, a.targetCode]
      else (u.doAction a).2.reportWith u.header .cueFailed [id, a.code, a.targetCode, (u.doAction a).1.byte]) := rfl

theorem executeCue_cues (u : State) (id : Byte) (a : Action) : (u.executeCue id a).2.cues = (u.doAction a).2.cues := by
  rw [executeCue_eq]
  dsimp only
  split <;> exact State.reportWith_cues ..

/-- Settles O22: BAD_VALUE by `cueFields_isSome`, HALTED by `requestCue_halted`, and the two outcomes of another request by
`requestCue_waits`. -/
theorem cueIsRefusedOrJoinsTheList : Obligations.CueIsRefusedOrJoinsTheList := by
  refine ⟨fun s tag action target grid delay optA optB flags h hs => ⟨fun hn => ?_, fun hn hl => ?_⟩,
    fun s tag action target grid delay optA optB flags a g d replace h hs hl hf hg => ?_⟩
  · have hf : cueFields action target grid delay optA optB flags = none := by
      rw [← cueFields_isSome] at hn
      simpa using hn
    rw [exec_cue h, ownCue_badValue (isReady_of_ready hs) hf]
    rfl
  · obtain ⟨⟨a, g, d, replace⟩, hf⟩ := Option.isSome_iff_exists.1 (cueFields_isSome.2 hn)
    rw [exec_cue h, ownCue_requests (isReady_of_ready hs) hf, requestCue_halted _ _ _ _ hl]
    rfl
  · have hlatch : s.takeRequest.sup.latch = false := by rw [takeRequest_sup]; exact hl
    intro u kept
    rw [exec_cue h, ownCue_requests (isReady_of_ready hs) hf, requestCue_waits a d replace hlatch hg,
      acceptCue_joins _ a d replace hg]
    by_cases hfull : kept.length = 16
    · rw [if_pos hfull, if_pos hfull]; rfl
    · rw [if_neg hfull, if_neg hfull]

/-- Settles O23: `acceptCue_now`, the reply's count of cues being the one that the action leaves. -/
theorem nowCueIsExecutedAtOnce : Obligations.NowCueIsExecutedAtOnce := by
  intro s tag action target grid delay optA optB flags a d replace h hs hl hf u kept r
  have hlatch : s.takeRequest.sup.latch = false := by rw [takeRequest_sup]; exact hl
  rw [exec_cue h, ownCue_requests (isReady_of_ready hs) hf, requestCue_now a d replace hlatch, acceptCue_now]
  unfold cueReply
  dsimp only
  rw [executeCue_cues]
  rfl

/-! ### CANCEL_CUE (R62) -/

theorem exec_cancelCueById {s : State} {tag v : Byte}
    (h : s.canTake { kind := 0x19, tag := tag, payload := [0, v] } = true) :
    exec (.cancelCueById tag [0, v]) s = .next
      ((ownCancelCueById s.takeRequest [0, v]).1.reply 0x19 tag (ownCancelCueById s.takeRequest [0, v]).2) :=
  congrArg Host.Outcome.next (serve_taken h rfl rfl)

theorem exec_cancelCueByTrack {s : State} {tag v : Byte}
    (h : s.canTake { kind := 0x19, tag := tag, payload := [1, v] } = true) :
    exec (.cancelCueByTrack tag [1, v]) s = .next
      ((ownCancelCueByTrack s.takeRequest [1, v]).1.reply 0x19 tag (ownCancelCueByTrack s.takeRequest [1, v]).2) :=
  congrArg Host.Outcome.next (serve_taken h rfl rfl)

theorem exec_cancelCueAll {s : State} {tag v : Byte}
    (h : s.canTake { kind := 0x19, tag := tag, payload := [2, v] } = true) :
    exec (.cancelCueAll tag [2, v]) s = .next
      ((ownCancelCueAll s.takeRequest [2, v]).1.reply 0x19 tag (ownCancelCueAll s.takeRequest [2, v]).2) :=
  congrArg Host.Outcome.next (serve_taken h rfl rfl)

theorem ownCancelCueById_ready {u : State} (v : Byte) (hr : u.isReady = true) :
    ownCancelCueById u [0, v] =
      if u.cues.list.filter (fun c => c.id = v) = [] then answer u .noSuch [0] else u.cancelCues fun c => c.id = v := by
  have hnone : u.cues.list.all (fun c => c.id ≠ v) = true ↔ u.cues.list.filter (fun c => c.id = v) = [] := by simp
  simp only [ownCancelCueById, hr, hnone]
  rfl

theorem ownCancelCueByTrack_of_gt {u : State} {v : Byte} (hr : u.isReady = true) (h : 7 < v.toNat) :
    ownCancelCueByTrack u [1, v] = answer u .badValue [0] := by
  simp only [ownCancelCueByTrack, hr, trackOf_of_gt h]
  rfl

theorem ownCancelCueByTrack_of_lt {u : State} {v : Byte} (hr : u.isReady = true) (h : v.toNat < 8) :
    ownCancelCueByTrack u [1, v] = u.cancelCues fun c => c.action.target = some (.track ⟨v.toNat, h⟩) := by
  simp only [ownCancelCueByTrack, hr, trackOf_of_lt h]
  rfl

theorem ownCancelCueAll_ready {u : State} (v : Byte) (hr : u.isReady = true) :
    ownCancelCueAll u [2, v] = u.cancelCues fun _ => true := by
  simp only [ownCancelCueAll, hr]
  rfl

/-- Settles O27: each row is its owner's answer, a removal of the cues of its mode or a refusal. -/
theorem cancelCueRemovesTheCuesOfItsMode : Obligations.CancelCueRemovesTheCuesOfItsMode := by
  intro s tag v hs u without
  have hr := isReady_of_ready hs
  refine ⟨fun h => ?_, fun h => ⟨fun hv => ?_, fun hv => ?_⟩, fun h => ?_⟩
  · rw [exec_cancelCueById h, ownCancelCueById_ready v hr]
    split <;> rfl
  · rw [exec_cancelCueByTrack h, ownCancelCueByTrack_of_gt hr hv]; rfl
  · rw [exec_cancelCueByTrack h, ownCancelCueByTrack_of_lt hr hv]; rfl
  · rw [exec_cancelCueAll h, ownCancelCueAll_ready v hr]
    unfold State.cancelCues
    rw [List.filter_eq_nil_iff.2 (by simp), List.filter_eq_self.2 fun _ _ => rfl]
    rfl

end Sys2Proof.Machine
end

