-- ==== Sys2Proof/Proofs/QueueLimits.lean ====
section
/-! The limits of the cue list, the bounce queue and the prompt queue, which every step keeps (R48, R108, R156). The shared
operations keep them (`Keeps.queues`); here are the requests that put an entry in, the boundaries, the frame and the resets. -/

namespace Sys2Proof.Machine

/-- The limits hold wherever the three queues are the same. -/
theorem State.queuesLegal.congr {s t : State} (h : s.queuesLegal) (hc : t.cues.list = s.cues.list)
    (hb : t.bounce.queue = s.bounce.queue) (ht : t.tones.queue = s.tones.queue) : t.queuesLegal := by
  unfold State.queuesLegal
  rw [hc, hb, ht]
  exact h

/-- The limits hold where the three queues are empty. -/
theorem queuesLegal_of_empty {s : State} (hc : s.cues.list = []) (hb : s.bounce.queue = []) (ht : s.tones.queue = []) :
    s.queuesLegal := by
  unfold State.queuesLegal
  rw [hc, hb, ht]
  exact ⟨Nat.zero_le _, Nat.zero_le _, Nat.zero_le _⟩

/-! ### The taking of a request -/

theorem takeRequest_queuesLegal {s : State} (h : s.queuesLegal) : s.takeRequest.queuesLegal := by
  have ha : s.arriveNow.queuesLegal := by
    rw [arriveNow_fields]
    exact h
  exact (finishWalk_keeps _).queues ha

/-- A request's owner keeps the limits of the queues. -/
def QueuesOwner (owner : Owner) : Prop := ∀ u p, u.queuesLegal → (owner u p).1.queuesLegal

/-- An owner that leaves the three queues as they are. -/
theorem QueuesOwner.of_same {owner : Owner}
    (h : ∀ u p, (owner u p).1.cues = u.cues ∧ (owner u p).1.bounce.queue = u.bounce.queue
      ∧ (owner u p).1.tones.queue = u.tones.queue) : QueuesOwner owner := fun u p k => by
  obtain ⟨hc, hb, ht⟩ := h u p
  exact k.congr (congrArg CueQueue.list hc) hb ht

theorem serve_queuesLegal {kind : Byte} {others : List Byte} {tag : Byte} {payload : List Byte} {owner : Owner} {s : State}
    (ho : QueuesOwner owner) (h : s.queuesLegal) : (serve kind others tag payload owner s).queuesLegal := by
  unfold serve
  split
  · exact h
  · split
    · exact ho _ payload (takeRequest_queuesLegal h)
    · exact takeRequest_queuesLegal h

/-! ### The cue list (R48, R51, R52, R62) -/

/-- Cues taken out of the list keep its limit. -/
theorem filterCues_queuesLegal {u : State} (f : Cue → Bool) (n : Byte) (h : u.queuesLegal) :
    State.queuesLegal { u with cues := { list := u.cues.list.filter f, nextId := n } } :=
  ⟨(List.length_filter_le ..).trans h.1, h.2⟩

theorem requestCue_queuesLegal {u : State} (a : Action) (g : Grid) (delay : Nat) (replace : Bool) (h : u.queuesLegal) :
    (u.requestCue a g delay replace).1.queuesLegal := by
  have hle := (length_keptCues_le a replace u.cues.list).trans h.1
  rw [requestCue_eq]
  split
  · exact h
  · split
    · exact h
    · next hroom =>
      by_cases hg : g = .now
      · rw [hg, acceptCue_now]
        exact (executeCue_keeps ..).queues (filterCues_queuesLegal _ _ h)
      · rw [acceptCue_joins u a delay replace hg]
        have hne : (keptCues a replace u.cues.list).length ≠ 16 := fun e => hroom ⟨hg, e⟩
        refine ⟨?_, h.2⟩
        change (_ ++ [_]).length ≤ 16
        rw [List.length_append, List.length_singleton]
        omega

theorem ownCue_queues : QueuesOwner ownCue := fun u p h => by
  unfold ownCue
  split
  · split
    · exact h
    · split
      · exact h
      · exact requestCue_queuesLegal _ _ _ _ h
  · exact h

theorem ownClearAll_queues : QueuesOwner ownClearAll := fun u p h => by
  unfold ownClearAll
  split
  · exact h
  · exact requestCue_queuesLegal _ _ _ _ h

theorem cancelCues_queuesLegal {u : State} (f : Cue → Bool) (h : u.queuesLegal) : (u.cancelCues f).1.queuesLegal :=
  filterCues_queuesLegal _ _ h

theorem ownCancelCueById_queues : QueuesOwner ownCancelCueById := fun u p h => by
  unfold ownCancelCueById
  split
  · split
    · exact h
    · split
      · exact h
      · split
        · exact h
        · exact cancelCues_queuesLegal _ h
  · exact h

theorem ownCancelCueByTrack_queues : QueuesOwner ownCancelCueByTrack := fun u p h => by
  unfold ownCancelCueByTrack
  split
  · split
    · exact h
    · split
      · exact h
      · split
        · exact h
        · exact cancelCues_queuesLegal _ h
  · exact h

theorem ownCancelCueAll_queues : QueuesOwner ownCancelCueAll := fun u p h => by
  unfold ownCancelCueAll
  split
  · exact h
  · split
    · exact h
    · exact cancelCues_queuesLegal _ h

/-! ### The bounce queue (R108, R110, R125) -/

theorem ownBounce_queues : QueuesOwner ownBounce := fun u p h => by
  unfold ownBounce
  split
  · split
    · exact h
    · dsimp only
      split
      · exact h
      · split
        · exact h
        · split
          · exact h
          · split
            · exact h
            · exact (requestBounce_keeps ..).queues h
  · exact h

theorem cancelBounces_queuesLegal {u : State} (f : Bounce → Bool) (h : u.queuesLegal) : (u.cancelBounces f).1.queuesLegal :=
  (abortBounces_keeps ..).queues h

theorem ownCancelBounceById_queues : QueuesOwner ownCancelBounceById := fun u p h => by
  unfold ownCancelBounceById
  split
  · split
    · exact h
    · split
      · exact h
      · split
        · exact h
        · exact cancelBounces_queuesLegal _ h
  · exact h

theorem ownCancelBounceAll_queues : QueuesOwner ownCancelBounceAll := fun u p h => by
  unfold ownCancelBounceAll
  split
  · exact h
  · split
    · exact h
    · exact cancelBounces_queuesLegal _ h

/-! ### The prompt queue (R156, R162, R165, R166) -/

/-- Three bytes spell a tone entry (R165). -/
theorem length_toneEntries : ∀ {l : List Byte} {es : List ToneEntry}, toneEntries l = some es → 3 * es.length ≤ l.length
  | pitch :: code :: flags :: rest, es, h => by
    unfold toneEntries at h
    obtain ⟨e, -, h⟩ := Option.bind_eq_some_iff.1 h
    obtain ⟨es', hes, h⟩ := Option.bind_eq_some_iff.1 h
    obtain rfl := Option.some.inj h
    have := length_toneEntries hes
    simp only [List.length_cons]
    omega
  | [], es, h | [_], es, h | [_, _], es, h => by
    obtain rfl : [] = es := Option.some.inj h
    exact Nat.zero_le _

theorem ownTones_queues : QueuesOwner ownTones := fun u p h => by
  unfold ownTones
  split
  · next n rest =>
    split
    · exact h
    · split
      · exact h
      · split
        · exact h
        · next es hes =>
          split
          · exact h
          · next hroom =>
            have hlen := (length_toneEntries hes).trans (List.length_take_le ..)
            refine ⟨h.1, h.2.1, ?_⟩
            change (u.tones.queue ++ es).length ≤ 4
            rw [List.length_append]
            omega
  · exact h

theorem ownToneFlush_queues : QueuesOwner ownToneFlush := fun u p h => by
  unfold ownToneFlush
  split
  · exact h
  · exact (flushTones_keeps ..).queues h

/-- A tone entry taken from the head of the queue (R162). -/
theorem load_queuesLegal {s : State} {e : ToneEntry} {rest : List ToneEntry} (wave : Wave) (hq : s.tones.queue = e :: rest)
    (h : s.queuesLegal) : State.queuesLegal { s with tones := s.tones.load e rest wave } := by
  have hlen := h.2.2
  rw [hq] at hlen
  exact ⟨h.1, h.2.1, Nat.le_of_succ_le hlen⟩

/-! ### The other requests that do more than set fields -/

theorem ownSetTempo_queues : QueuesOwner ownSetTempo := fun u p h => by
  unfold ownSetTempo
  split
  · split
    · exact h
    · split
      · exact h
      · next hr =>
        have hr := tempoInRange_iff.1 (by simpa using hr)
        split
        · exact h
        · exact (stageTempo_keeps u _ _ fun _ => hr).queues h
  · exact h

theorem ownTap_queues : QueuesOwner ownTap := fun u p h => by
  unfold ownTap State.takeTap
  split
  · exact h
  · split
    · exact h
    · dsimp only
      split
      · exact h
      · split
        · next hp => exact (stageTempo_keeps _ _ _ fun c => ⟨hp, c.meter⟩).queues h
        · exact h

theorem ownStart_queues : QueuesOwner ownStart := fun u p h => by
  unfold ownStart
  split
  · split
    · exact h
    · split
      · exact h
      · split
        · exact h
        · split
          · exact h
          · exact (reportTransport_keeps ..).queues h
  · exact h

theorem ownStop_queues : QueuesOwner ownStop := fun u p h => by
  unfold ownStop
  split
  · exact h
  · exact (stopTransport_keeps ..).queues h

theorem enterStandby_queuesLegal {u : State} (h : u.queuesLegal) : u.enterStandby.queuesLegal :=
  (flushTones_keeps u .standby).queues h

theorem ownStandby_queues : QueuesOwner ownStandby := fun u p h => by
  unfold ownStandby
  split
  · exact h
  · split
    · exact h
    · dsimp only [answer]
      split <;> exact enterStandby_queuesLegal h

theorem haltEvent_queuesLegal {s : State} (source : HaltSource) (h : s.queuesLegal) : (s.haltEvent source).queuesLegal := by
  cases hl : s.sup.latch with
  | true => unfold State.haltEvent; rw [if_pos hl]; exact h
  | false => exact (haltEvent_keeps s source hl).queues h

theorem haltFromMemory_queuesLegal {s : State} (source : HaltSource) (h : s.queuesLegal) :
    (s.haltFromMemory source).queuesLegal := by
  unfold State.haltFromMemory
  split
  · exact haltEvent_queuesLegal source h
  · exact h

theorem ownHaltConfigWrite_queues : QueuesOwner ownHaltConfigWrite := fun u p h => by
  unfold ownHaltConfigWrite
  split
  · split
    · exact h
    · split
      · exact h
      · split
        · exact h
        · exact haltFromMemory_queuesLegal _ h
  · exact h

theorem ownTrackConfig_queues : QueuesOwner ownTrackConfig := .of_same fun u p => by
  unfold ownTrackConfig
  split
  · split
    · exact ⟨rfl, rfl, rfl⟩
    · split
      · exact ⟨rfl, rfl, rfl⟩
      · split
        · exact ⟨rfl, rfl, rfl⟩
        · next t _ _ =>
          have hv := fun v mute oneShot => (muteAction_voicesOnly v t mute).trans (oneShotAction_voicesOnly _ t oneShot)
          exact ⟨(hv _ _ _).cues, congrArg BounceEngine.queue (hv _ _ _).bounce, congrArg Tones.queue (hv _ _ _).tones⟩
  · exact ⟨rfl, rfl, rfl⟩

/-! ### The boundaries and the frame -/

theorem takeRunning_queuesLegal {s : State} (now : Receivers) (h : s.queuesLegal) : (s.takeRunning now).queuesLegal := by
  have hmarked : s.runningMarked.queuesLegal := h
  have hv := runningReported_voicesOnly s
  have hreported : s.runningReported.queuesLegal :=
    hmarked.congr (congrArg CueQueue.list hv.cues) (congrArg BounceEngine.queue hv.bounce) (congrArg Tones.queue hv.tones)
  rw [takeRunning_reported]
  exact (startWalk_keeps _).queues ((receive_keeps ..).queues hreported)

theorem takeCountIn_queuesLegal {s : State} (now : Receivers) (h : s.queuesLegal) : (s.takeCountIn now).queuesLegal := by
  rw [takeCountIn_ticked]
  exact (receive_keeps ..).queues h

theorem takeTick_queuesLegal {s : State} (now : Receivers) (h : s.queuesLegal) : (s.takeTick now).queuesLegal := by
  unfold State.takeTick
  split
  · split
    · exact h
    · split
      · exact (placeClaims_keeps ..).queues h
      · split
        · exact h
        · exact takeCountIn_queuesLegal now h
      · exact takeRunning_queuesLegal now h
  · split
    · exact (receive_keeps ..).queues ((endBegunWalk_keeps _).queues h)
    · exact h

theorem countInBegins_queuesLegal {s : State} (now : Receivers) (h : s.queuesLegal) : (s.countInBegins now).queuesLegal := by
  unfold State.countInBegins
  split
  · exact (receive_keeps ..).queues h
  · exact h

theorem startNow_queuesLegal {s : State} (now : Receivers) (h : s.queuesLegal) : (s.startNow now).queuesLegal := by
  have hv := startArmed_voicesOnly s
  have hticked : s.startTicked.queuesLegal := h
  have hmarked : s.startMarked.queuesLegal :=
    hticked.congr (congrArg CueQueue.list hv.cues) (congrArg BounceEngine.queue hv.bounce) (congrArg Tones.queue hv.tones)
  rw [startNow_marked]
  exact (startWalk_keeps _).queues ((receive_keeps ..).queues ((reportBar_keeps _).queues hmarked))

theorem startsNow_queuesLegal {s : State} (now : Receivers) (h : s.queuesLegal) : (s.startsNow now).queuesLegal := by
  unfold State.startsNow
  split
  · exact startNow_queuesLegal now h
  · exact h

theorem countInOver_queuesLegal {s : State} (now : Receivers) (h : s.queuesLegal) : (s.countInOver now).queuesLegal := by
  unfold State.countInOver
  split
  · exact startNow_queuesLegal now ((reportTransport_keeps ..).queues h)
  · exact h

theorem closeFrame_queuesLegal {s : State} (h : s.queuesLegal) : s.closeFrame.queuesLegal :=
  ⟨h.1, (List.length_map ..).trans_le h.2.1, h.2.2⟩

theorem readyFrame_queuesLegal {s : State} (ins : Vector Sample 4) (h : s.queuesLegal) : (s.readyFrame ins).queuesLegal := by
  have hadvanced : (if s.moving then (s.advanceHead ins .h0).advanceHead ins .h1 else s).queuesLegal :=
    (Keeps.ite ((advanceHead_keeps ..).trans (advanceHead_keeps ..)) (Keeps.refl s)).queues h
  unfold State.readyFrame
  dsimp only
  generalize (if s.moving then (s.advanceHead ins .h0).advanceHead ins .h1 else s) = s1 at hadvanced ⊢
  have hcounted := (foldl_countOneShot_keeps { s1 with outputs := s1.mixFrame ins }).queues hadvanced
  generalize (List.finRange 8).foldl State.countOneShot _ = s3 at hcounted ⊢
  exact closeFrame_queuesLegal ((bounceFrame_keeps { s3 with tones := s3.tones.frame }).queues hcounted)

/-! ### The resets, the wake and the verify scan -/

theorem startReset_queuesLegal {s : State} (cause : CauseSet) (h : s.queuesLegal) : (s.startReset cause).queuesLegal := by
  unfold State.startReset
  split
  · exact h
  · exact ⟨Nat.zero_le _, ((finishWalk_keeps s).queues h).2.1, Nat.zero_le _⟩

theorem endWarm_queuesLegal (s : State) : s.endWarm.queuesLegal := by
  have hempty : s.endWarm.cues.list = [] ∧ s.endWarm.bounce.queue = [] ∧ s.endWarm.tones.queue = [] := by
    rw [(endWarm_ends s).same, cleanup_eq_cleaned, cleaned_same]
    exact ⟨rfl, rfl, rfl⟩
  obtain ⟨hc, hb, ht⟩ := hempty
  exact queuesLegal_of_empty hc hb ht

theorem endWake_queuesLegal {s : State} (w : Wake) (duration : Half) (h : s.queuesLegal) :
    (s.endWake w duration).queuesLegal := by
  unfold State.endWake
  split
  · exact haltEvent_queuesLegal _ ((report_keeps ..).queues h)
  · exact (report_keeps ..).queues h

theorem edge_queuesLegal {s : State} (h : s.queuesLegal) : s.edge.queuesLegal := by
  have hedge : (if s.sup.detection then s.finishWalk.haltEvent .edge
      else { s with sup := { s.sup with edgeMemory := true } }).queuesLegal := by
    split
    · exact haltEvent_queuesLegal _ ((finishWalk_keeps s).queues h)
    · exact h
  unfold State.edge
  split
  · exact h
  · exact hedge
  · exact hedge
  · split <;> exact h
  · split <;> exact h

theorem visitEnd_queuesLegal {s : State} (upsets : List Host.Cell) (v : Scan) (h : s.queuesLegal) :
    (((upsets.foldl (State.upset v.next) s).visit v.next).scanOn v).queuesLegal := by
  have hupset : (upsets.foldl (State.upset v.next) s).queuesLegal :=
    foldl_invariant (I := State.queuesLegal) (fun u c hu => by unfold State.upset; split <;> exact hu) upsets s h
  have hvisit : ((upsets.foldl (State.upset v.next) s).visit v.next).queuesLegal := by
    unfold State.visit State.markDamaged
    repeat' split
    all_goals exact hupset
  unfold State.scanOn
  split
  · exact hvisit
  · exact (report_keeps ..).queues hvisit

/-! ### The link's events and the supply -/

theorem arrive_queuesLegal {s : State} (f : Frame) (h : s.queuesLegal) : (s.arrive f).queuesLegal := by
  unfold State.arrive State.offer State.arriveWake State.arriveTimer
  repeat' split
  all_goals exact h

theorem sendFirst_queuesLegal {s : State} (h : s.queuesLegal) : s.sendFirst.queuesLegal := by
  unfold State.sendFirst
  repeat' split
  all_goals exact h

theorem silenceExpires_queuesLegal {s : State} (h : s.queuesLegal) : s.silenceExpires.queuesLegal := by
  unfold State.silenceExpires
  dsimp only
  split
  · exact (report_keeps ..).queues h
  · refine (report_keeps ..).queues ((windDown_keeps ..).queues ((windDown_keeps ..).queues ?_))
    exact filterCues_queuesLegal _ _ h

theorem fallLow_queuesLegal {s : State} (vdd : Half) (h : s.queuesLegal) : (s.fallLow vdd).queuesLegal := by
  have hc : (s.cross true vdd).queuesLegal := (report_keeps ..).queues h
  unfold State.fallLow
  split
  · dsimp only
    split <;> exact hc
  · exact h

theorem riseNormal_queuesLegal {s : State} (vdd : Half) (h : s.queuesLegal) : (s.riseNormal vdd).queuesLegal := by
  unfold State.riseNormal
  split
  · exact (report_keeps ..).queues h
  · exact h

/-! ### Every command -/

/-- What a command that is taken leaves. -/
theorem queuesLegal_of_done {u t : State} (h : done u = .next t) (k : u.queuesLegal) : t.queuesLegal := by
  cases h
  exact k

theorem exec_queuesLegal {i : Instr} {s t : State} (hs : s.queuesLegal) (h : exec i s = .next t) : t.queuesLegal := by
  have hbegun : s.beginHead.queuesLegal := (beginHead_keeps s).queues hs
  have hsettled : s.settleWalk.queuesLegal := (settleWalk_keeps s).queues hs
  cases i with
  | getStatus | resetCauseRead | linkConfigRead | supplyConfigRead | haltConfigRead | getPosition | poolInfo
  | clickConfigRead | monitorConfigRead =>
    exact queuesLegal_of_done h (serve_queuesLegal (.of_same fun _ _ => ⟨rfl, rfl, rfl⟩) hs)
  | resetCauseReadAndClear | restartWarm | restartCold | linkConfigWrite | supplyConfigWrite | haltClear | listCues
  | trackInfo | layerInfo | layerMap | setLevel | bounceInfo | foldConfig | sceneWrite | sceneRead | sceneNextSet
  | sceneNextEmpty | sceneStop | clickConfigWrite | monitorConfigWrite =>
    refine queuesLegal_of_done h (serve_queuesLegal (.of_same fun _ _ => ?_) hs)
    simp only [ownResetCauseReadAndClear, ownRestart, ownLinkConfigWrite, ownSupplyConfigWrite, ownHaltClear, ownListCues,
      ownTrackInfo, ownLayerInfo, ownLayerMap, ownSetLevel, ownBounceInfo, ownFoldConfig, ownSceneWrite, ownSceneRead,
      ownSceneNextSet, ownSceneNextEmpty, ownSceneStop, ownClickConfigWrite, ownMonitorConfigWrite]
    repeat' split
    all_goals exact ⟨rfl, rfl, rfl⟩
  | cue => exact queuesLegal_of_done h (serve_queuesLegal ownCue_queues hs)
  | clearAll => exact queuesLegal_of_done h (serve_queuesLegal ownClearAll_queues hs)
  | cancelCueById => exact queuesLegal_of_done h (serve_queuesLegal ownCancelCueById_queues hs)
  | cancelCueByTrack => exact queuesLegal_of_done h (serve_queuesLegal ownCancelCueByTrack_queues hs)
  | cancelCueAll => exact queuesLegal_of_done h (serve_queuesLegal ownCancelCueAll_queues hs)
  | bounce => exact queuesLegal_of_done h (serve_queuesLegal ownBounce_queues hs)
  | cancelBounceById => exact queuesLegal_of_done h (serve_queuesLegal ownCancelBounceById_queues hs)
  | cancelBounceAll => exact queuesLegal_of_done h (serve_queuesLegal ownCancelBounceAll_queues hs)
  | tones => exact queuesLegal_of_done h (serve_queuesLegal ownTones_queues hs)
  | toneFlush => exact queuesLegal_of_done h (serve_queuesLegal ownToneFlush_queues hs)
  | setTempo => exact queuesLegal_of_done h (serve_queuesLegal ownSetTempo_queues hs)
  | tap => exact queuesLegal_of_done h (serve_queuesLegal ownTap_queues hs)
  | start => exact queuesLegal_of_done h (serve_queuesLegal ownStart_queues hs)
  | stop => exact queuesLegal_of_done h (serve_queuesLegal ownStop_queues hs)
  | standby => exact queuesLegal_of_done h (serve_queuesLegal ownStandby_queues hs)
  | haltConfigWrite => exact queuesLegal_of_done h (serve_queuesLegal ownHaltConfigWrite_queues hs)
  | trackConfig => exact queuesLegal_of_done h (serve_queuesLegal ownTrackConfig_queues hs)
  | unknownRequest =>
    change (if _ then _ else _ : Result) = _ at h
    split at h
    · exact queuesLegal_of_done h hs
    · exact queuesLegal_of_done h (takeRequest_queuesLegal hs)
  | frameDiscard | byteGap => exact queuesLegal_of_done h hs
  | startByte => exact queuesLegal_of_done h (by split <;> exact hs)
  | wellFormedFrame => exact queuesLegal_of_done h (arrive_queuesLegal _ hsettled)
  | frameSent => exact queuesLegal_of_done h (sendFirst_queuesLegal hsettled)
  | linkSilenceExpiry =>
    exact queuesLegal_of_done h (by split; exacts [silenceExpires_queuesLegal ((finishWalk_keeps s).queues hs), hs])
  | audioFrame =>
    refine queuesLegal_of_done h ?_
    split
    · split
      · exact hs
      · exact readyFrame_queuesLegal _ hs
    · split <;> exact hs
    · exact hs
  | tickBoundary now => exact queuesLegal_of_done h (takeTick_queuesLegal now hbegun)
  | countInBegin now => exact queuesLegal_of_done h (countInBegins_queuesLegal now hbegun)
  | countInEnd now => exact queuesLegal_of_done h (countInOver_queuesLegal now hbegun)
  | startInstant now => exact queuesLegal_of_done h (startsNow_queuesLegal now hbegun)
  | pendingTempoApply => exact queuesLegal_of_done h ((applyDue_keeps _).queues hsettled)
  | cueExecute => exact queuesLegal_of_done h ((Keeps.ite (cueStep_keeps s) (Keeps.refl s)).queues hs)
  | endPendingSeal => exact queuesLegal_of_done h ((sealDue_keeps ..).queues hsettled)
  | trackLengthEnd => exact queuesLegal_of_done h ((lengthEndDue_keeps ..).queues hsettled)
  | oneShotSelfMute => exact queuesLegal_of_done h ((selfMute_keeps ..).queues hsettled)
  | bounceStart => exact queuesLegal_of_done h ((startHead_keeps _).queues hsettled)
  | bounceIndexBegin => exact queuesLegal_of_done h hbegun
  | bounceIndexFinish => exact queuesLegal_of_done h ((finishHead_keeps _).queues hsettled)
  | sceneCountdownEnd | dueSceneApply =>
    exact queuesLegal_of_done h ((Keeps.ite (takeSceneStep_keeps s) (Keeps.refl s)).queues hs)
  | clickEnd => exact queuesLegal_of_done h (by split <;> exact hs)
  | toneLoad =>
    refine queuesLegal_of_done h ?_
    split
    · split
      · next hq => exact load_queuesLegal _ hq hs
      · exact hs
    · exact hs
  | toneEntryEnd => exact queuesLegal_of_done h ((entryEnd_keeps _).queues hsettled)
  | waveformFlip =>
    refine queuesLegal_of_done h ?_
    repeat' split
    all_goals exact hs
  | power | brown | pin => exact queuesLegal_of_done h (startReset_queuesLegal _ hs)
  | requestWarm | requestCold => exact queuesLegal_of_done h (by split; exacts [startReset_queuesLegal _ hs, hs])
  | coldResetEnd =>
    refine queuesLegal_of_done h ?_
    split
    · exact (hello_keeps _).queues (queuesLegal_of_empty rfl rfl rfl)
    · exact hs
  | warmResetEnd => exact queuesLegal_of_done h (by split; exacts [endWarm_queuesLegal s, hs])
  | verifyVisitEnd =>
    refine queuesLegal_of_done h ?_
    split
    · exact hs
    · split
      · exact visitEnd_queuesLegal _ _ hs
      · exact hs
  | supplyLow => exact queuesLegal_of_done h (fallLow_queuesLegal _ hsettled)
  | supplyOk => exact queuesLegal_of_done h (riseNormal_queuesLegal _ hsettled)
  | wakeEnd =>
    refine queuesLegal_of_done h ?_
    split
    · exact hs
    · split
      · exact endWake_queuesLegal _ _ hs
      · exact hs
  | haltEdge => exact queuesLegal_of_done h (by split; exacts [hs, edge_queuesLegal hs])
  | haltLineInactive => exact queuesLegal_of_done h (by split <;> exact hs)

/-- Settles O9, by the command at the front of the queue. -/
theorem queueLimitsAreKeptByEveryStep : Obligations.QueueLimitsAreKeptByEveryStep := by
  intro s t hs h
  unfold step at h
  split at h
  · cases h
    exact hs
  · refine exec_queuesLegal ?_ h
    exact hs

end Sys2Proof.Machine
end

