-- ==== Sys2Proof/Proofs/QueueAnswers.lean ====
section
/-! LIST_CUES, BOUNCE_INFO and SCENE_READ (R63, R126, R151). -/

namespace Sys2Proof.Machine

theorem exec_listCues {s : State} {tag n : Byte} (h : s.canTake { kind := 0x1A, tag := tag, payload := [n] } = true) :
    exec (.listCues tag [n]) s = .next ((ownListCues s.takeRequest [n]).1.reply 0x1A tag (ownListCues s.takeRequest [n]).2) :=
  congrArg Host.Outcome.next (serve_taken h rfl rfl)

theorem exec_bounceInfo {s : State} {tag n : Byte} (h : s.canTake { kind := 0x2A, tag := tag, payload := [n] } = true) :
    exec (.bounceInfo tag [n]) s
      = .next ((ownBounceInfo s.takeRequest [n]).1.reply 0x2A tag (ownBounceInfo s.takeRequest [n]).2) :=
  congrArg Host.Outcome.next (serve_taken h rfl rfl)

theorem exec_sceneRead {s : State} {tag n : Byte} (h : s.canTake { kind := 0x31, tag := tag, payload := [n] } = true) :
    exec (.sceneRead tag [n]) s = .next ((ownSceneRead s.takeRequest [n]).1.reply 0x31 tag (ownSceneRead s.takeRequest [n]).2) :=
  congrArg Host.Outcome.next (serve_taken h rfl rfl)

/-! ### What the owners answer -/

theorem ownListCues_of_gt {n : Byte} (u : State) (h : 15 < n.toNat) : ownListCues u [n] = (u, 3 :: zeros 45) := by
  simp only [ownListCues, if_pos h]; rfl

theorem ownListCues_of_le {n : Byte} (u : State) (h : n.toNat ≤ 15) :
    ownListCues u [n] = (u, 0 :: ([byte u.cues.list.length, n, byte ((u.cues.list.drop n.toNat).take 6).length]
      ++ padTo 42 0xFF (((u.cues.list.drop n.toNat).take 6).flatMap Cue.bytes))) := by
  simp only [ownListCues, if_neg (Nat.not_lt.2 h)]; rfl

theorem ownBounceInfo_of_gt {n : Byte} (u : State) (h : 3 < n.toNat) : ownBounceInfo u [n] = (u, 3 :: zeros 26) := by
  simp only [ownBounceInfo, if_pos h]; rfl

theorem ownBounceInfo_of_le {n : Byte} (u : State) (h : n.toNat ≤ 3) :
    ownBounceInfo u [n] = (u, 0 :: ([byte u.bounce.queue.length, n]
      ++ ((u.bounce.queue[n.toNat]?).map Bounce.bytes).getD noBounceBytes ++ [byte u.bounce.threshold])) := by
  simp only [ownBounceInfo, if_neg (Nat.not_lt.2 h)]; rfl

theorem sceneOf_of_lt {b : Byte} (h : b.toNat < 16) : sceneOf b = some ⟨b.toNat, h⟩ := dif_pos h

theorem sceneOf_of_gt {b : Byte} (h : 15 < b.toNat) : sceneOf b = none := dif_neg (by omega)

theorem ownSceneRead_of_gt {n : Byte} (u : State) (h : 15 < n.toNat) : ownSceneRead u [n] = (u, 3 :: zeros 18) := by
  simp only [ownSceneRead, sceneOf_of_gt h]; rfl

theorem ownSceneRead_of_lt {n : Byte} (u : State) (h : n.toNat < 16) :
    ownSceneRead u [n] = (u, 0 :: u.sceneBytes ⟨n.toNat, h⟩) := by
  simp only [ownSceneRead, sceneOf_of_lt h]; rfl

theorem sceneBytes_eq {n : Byte} (u : State) (h : n.toNat < 16) :
    u.sceneBytes ⟨n.toNat, h⟩ = n :: (u.sceneBytes ⟨n.toNat, h⟩).tail := by
  simp [State.sceneBytes, numByte]

/-- Settles O31: each row is its owner's answer, which reads the tables and returns the state as it is. -/
theorem queuesAndScenesAreAnswered : Obligations.QueuesAndScenesAreAnswered := by
  intro s tag n u fill scene
  refine ⟨fun h => ⟨fun k => ?_, fun k => ?_⟩, fun h => ⟨fun k => ?_, fun k => ?_⟩, fun h => ⟨fun k => ?_, fun k => ?_⟩⟩
  · rw [exec_listCues h, ownListCues_of_gt _ k]; exact ⟨_, rfl⟩
  · rw [exec_listCues h, ownListCues_of_le _ k]; rfl
  · rw [exec_bounceInfo h, ownBounceInfo_of_gt _ k]; exact ⟨_, rfl⟩
  · rw [exec_bounceInfo h, ownBounceInfo_of_le _ k]
    cases he : s.takeRequest.bounce.queue[n.toNat]? with
    | none => rfl
    | some e =>
      cases hr : e.run with
      | none => simp only [Option.map_some, Option.getD_some, Bounce.bytes, hr]; rfl
      | some r => simp only [Option.map_some, Option.getD_some, Bounce.bytes, hr]; rfl
  · rw [exec_sceneRead h, ownSceneRead_of_gt _ k]; exact ⟨_, rfl⟩
  · rw [exec_sceneRead h, ownSceneRead_of_lt _ k]
    rw [sceneBytes_eq]
    rfl

end Sys2Proof.Machine
end

