-- ==== Sys2Proof/Proofs/CueWalk.lean ====
section
/-! CUE_EXECUTE (R56..R60): the walk's next due cue is removed and executed, and the walk goes on. -/

namespace Sys2Proof.Machine

theorem length_visitedCues (met : Cue → Bool) (l : List Cue) : (visitedCues met l).length = l.length := List.length_map ..

/-- The scan of a list stops at the first cue that is met with no delay left, the cues ahead of it visited (R58). -/
theorem scanCues_stops {met : Cue → Bool} {before after : List Cue} {c : Cue} (hc : met c = true) (hd : c.delay = 0)
    (h : ∀ q ∈ before, met q = true → q.delay ≠ 0) :
    scanCues met (before ++ c :: after) = (visitedCues met before, some (c, after)) := by
  induction before with
  | nil => exact if_pos ⟨hc, hd⟩
  | cons b before ih =>
    have hrest := ih fun q hq => h q (List.mem_cons_of_mem _ hq)
    rw [List.cons_append]
    unfold scanCues
    rw [if_neg fun hb => h b List.mem_cons_self hb.1 hb.2, hrest]
    rfl

theorem scanFrom_taken {s : State} {k : Kinds} (i : Nat) (hk : s.bnd.taken = some k) :
    s.scanFrom i = scanCues (cueMet k (fun n => (s.track n).span) s.leavingPass) (s.cues.list.drop i) := by
  unfold State.scanFrom
  rw [hk, ← satisfies_eq_cueMet]

/-- The state with another cue list, its walk over. -/
def State.walkTaken (s : State) (l : List Cue) : State :=
  { s with cues := { s.cues with list := l }, bnd := { s.bnd with walk := none, begun := true } }

/-- With no cue due from the place of the walk on, its cues are visited and it is over (R58). -/
theorem cueStep_over {s : State} {i : Nat} {l : List Cue} (hw : s.bnd.walk = some i) (h : s.scanFrom i = (l, none)) :
    s.cueStep = s.walkTaken (s.cues.list.take i ++ l) := by
  unfold State.cueStep
  rw [hw]
  dsimp only
  rw [h]
  rfl

/-- The cue at which the walk stands leaves the list and is executed; the walk goes on while the song runs (R58, R59). -/
theorem cueStep_due {s : State} {i : Nat} {l rest : List Cue} {c : Cue} (hw : s.bnd.walk = some i)
    (h : s.scanFrom i = (l, some (c, rest))) :
    s.cueStep =
      let u := ((s.walkTaken (s.cues.list.take i ++ (l ++ rest))).executeCue c.id c.action).2
      if u.clock.transport = .running then u.walkFrom (i + l.length) else u := by
  unfold State.cueStep
  rw [hw]
  dsimp only
  rw [h]
  rfl

theorem exec_cueExecute {s : State} (h : s.bnd.sceneStep = none) : exec .cueExecute s = .next s.cueStep :=
  congrArg Host.Outcome.next (if_pos h)

/-- Settles O54: the scan is `scanCues_over` or `scanCues_stops`, the step `cueStep_over` or `cueStep_due`, and the walk
behind it `walkFrom_eq_walked`. -/
theorem dueCueLeavesTheListAndIsExecuted : Obligations.DueCueLeavesTheListAndIsExecuted := by
  intro s
  refine ⟨fun h => ?_, fun i k hs hw hk => ?_⟩
  · by_cases hs : s.bnd.sceneStep = none
    · have hidle : s.cueStep = s := by unfold State.cueStep; rw [h.resolve_left fun e => e hs]
      rw [exec_cueExecute hs, hidle]
    · exact congrArg Host.Outcome.next (if_neg hs)
  · intro met
    have hscan := scanFrom_taken i hk
    refine ⟨fun hnone => ?_, fun before c after hl hc hd hb => ?_⟩
    · rw [scanCues_over hnone] at hscan
      rw [exec_cueExecute hs, cueStep_over hw hscan]
      rfl
    · rw [hl, scanCues_stops hc hd hb] at hscan
      intro r u
      have hstep : s.cueStep = if u.clock.transport = .running then u.walkFrom (i + before.length) else u := by
        rw [cueStep_due hw hscan, length_visitedCues]
        rfl
      refine ⟨fun ht => ?_, fun m ht hm => ?_⟩
      · rw [exec_cueExecute hs, hstep, if_neg ht]
      · obtain ⟨l, w, hwalk, hstands⟩ := walkFrom_eq_walked (i + before.length) hm (satisfies_eq_cueMet u m)
        refine ⟨l, w, ?_, hstands⟩
        rw [exec_cueExecute hs, hstep, if_pos ht, hwalk]
        rfl

end Sys2Proof.Machine
end

