-- ==== Sys2Proof/Proofs/SilenceExpiry.lean ====
section
/-! LINK_SILENCE_EXPIRY (R65, R89, R188). -/

namespace Sys2Proof.Machine

/-- A head is given its end at the next bar (R89). -/
def Recording.windsDown (r : Recording) : Recording :=
  { r with chain := false, endPending := if r.endPending = .endRec then .endRec else .autopilot }

/-- While the song moves the waiting REC and DUB cues go, and both heads are given their end (R65, R89). -/
theorem autopilotMoving_eq (s : State) :
    s.autopilotMoving =
      { s with
        cues := { s.cues with list := s.cues.list.filter fun c => !c.records }
        head0 := s.head0.map Recording.windsDown
        head1 := s.head1.map Recording.windsDown } := rfl

theorem silenceExpires_stopped {s : State} (h : s.clock.transport = .stopped) :
    s.silenceExpires =
      State.report { s with link := { s.link with timer := false, autopilot := true } } .linkSilent
        [0, 0, 0, byte s.link.timeout] := by
  unfold State.silenceExpires
  rw [h]
  rfl

theorem silenceExpires_moving {s : State} (h : s.clock.transport ≠ .stopped) :
    s.silenceExpires =
      State.report (State.autopilotMoving { s with link := { s.link with timer := false, autopilot := true } }) .linkSilent
        [byte (s.cues.list.filter Cue.records).length, byte s.headsBusy, s.clock.transport.code,
          byte s.link.timeout] := by
  unfold State.silenceExpires
  cases ht : s.clock.transport with
  | stopped => exact absurd ht h
  | countIn => rfl
  | running => rfl

theorem takesRequests_iff {s : State} : s.takesRequests = true ↔ s.sup.state = .ready ∨ s.sup.state = .verifying := by
  simp [State.takesRequests]

/-- Settles O48: the expiry behind the walk, with the transport stopped or moving. -/
theorem silenceExpirySetsTheAutopilot : Obligations.SilenceExpirySetsTheAutopilot := by
  intro s
  refine ⟨fun h => congrArg Host.Outcome.next (if_neg fun e => by simp [h] at e), fun h hs => ?_⟩
  intro u records marked link
  have hexec : exec .linkSilenceExpiry s = .next u.silenceExpires :=
    congrArg Host.Outcome.next (if_pos ⟨h, takesRequests_iff.2 hs⟩)
  have hrecords : Cue.records = records := by
    funext ⟨_, action, _, _⟩
    cases action <;> rfl
  rw [hexec]
  by_cases ht : u.clock.transport = .stopped
  · rw [if_pos ht, silenceExpires_stopped ht]
  · rw [if_neg ht, silenceExpires_moving ht, autopilotMoving_eq, hrecords]
    rfl

end Sys2Proof.Machine
end

