-- ==== Sys2Proof/Proofs/ResetStart.lean ====
section
/-! RESTART_WARM, RESTART_COLD and the start of a reset (R48, R141, R159, R162, R166, R168, R169, R173). -/

namespace Sys2Proof.Machine

/-! ### RESTART (R173) -/

theorem exec_restart {s : State} {tag : Byte} (cold : Bool)
    (h : s.canTake { kind := 0x03, tag := tag, payload := [flagByte cold] } = true) :
    exec (if cold then .restartCold tag [1] else .restartWarm tag [0]) s = .next
      ((ownRestart cold s.takeRequest [flagByte cold]).1.reply 0x03 tag (ownRestart cold s.takeRequest [flagByte cold]).2) := by
  cases cold with
  | false => exact congrArg Host.Outcome.next (serve_taken h rfl rfl)
  | true => exact congrArg Host.Outcome.next (serve_taken h rfl rfl)

theorem ownRestart_accepted (u : State) (cold : Bool) :
    ownRestart cold u [flagByte cold] =
      ({ u with sup := { u.sup with restart := some { cold := cold, ahead := u.link.tx.length + 1 } } }, [0]) := by
  cases cold <;> rfl

/-! ### The start of a reset (R168, R169) -/

/-- A cause other than a power-on joins the set (R168, R169). -/
theorem start_warm (held : CauseSet) {cause : CauseSet} (h : cause.power = false) : held.start cause = held.join cause :=
  if_neg (by simp [h])

theorem join_power (c : CauseSet) : c.join CauseSet.onlyPower = { c with power := true } := by
  simp [CauseSet.join, CauseSet.onlyPower, CauseSet.empty]

theorem join_brown (c : CauseSet) : c.join CauseSet.onlyBrown = { c with brown := true } := by
  simp [CauseSet.join, CauseSet.onlyBrown, CauseSet.empty]

theorem join_pin (c : CauseSet) : c.join CauseSet.onlyPin = { c with pin := true } := by
  simp [CauseSet.join, CauseSet.onlyPin, CauseSet.empty]

theorem join_requestWarm (c : CauseSet) : c.join CauseSet.onlyWarm = { c with requestWarm := true } := by
  simp [CauseSet.join, CauseSet.onlyWarm, CauseSet.empty]

theorem join_requestCold (c : CauseSet) : c.join CauseSet.onlyCold = { c with requestCold := true } := by
  simp [CauseSet.join, CauseSet.onlyCold, CauseSet.empty]

theorem startReset_joins {s : State} (cause : CauseSet) (h : s.sup.state = .reset) :
    s.startReset cause =
      { s with sup := { s.sup with causes := s.sup.causes.start cause, inForce := s.sup.inForce.join cause } } := if_pos h

/-- With no walk and no claim outstanding a reset starts on the state as it is (R168; log 45). -/
theorem startReset_starts {s : State} (cause : CauseSet) (h : s.sup.state ≠ .reset) (hw : s.bnd.walk = none)
    (hs : s.bnd.sceneStep = none) (hb : s.beginIsDue = false) :
    s.startReset cause =
      { s with
        sup := { s.sup with
          state := .reset, causes := s.sup.causes.start cause, inForce := cause, restart := none, wake := none }
        link := s.link.abandon
        mix := s.mix.clear.nextFrame
        cues := { s.cues with list := [] }
        tones := s.tones.warm
        outputs := Outputs.zero
        bnd := {} } := by
  unfold State.startReset
  rw [if_neg h, finishWalk_idle hb hw hs]

/-! ### The requested resets (R173) -/

theorem restartNow_iff {s : State} {cold : Bool} :
    s.restartNow cold = true ↔ s.sup.restart = some { cold := cold, ahead := 0 } := by
  unfold State.restartNow
  cases hr : s.sup.restart with
  | none => simp
  | some r =>
    cases r with
    | mk c n => simp

theorem exec_requestWarm {s : State} (h : s.sup.restart = some { cold := false, ahead := 0 }) :
    exec .requestWarm s = .next (s.startReset CauseSet.onlyWarm) := congrArg Host.Outcome.next (if_pos (restartNow_iff.2 h))

theorem exec_requestCold {s : State} (h : s.sup.restart = some { cold := true, ahead := 0 }) :
    exec .requestCold s = .next (s.startReset CauseSet.onlyCold) := congrArg Host.Outcome.next (if_pos (restartNow_iff.2 h))

/-- No reset of a kind is due while the pending request is of the other kind or has answers ahead of it (R173). -/
theorem restartNow_eq_false {s : State} {cold : Bool}
    (h : ∀ r, s.sup.restart = some r → r.cold = (!cold) ∨ r.ahead ≠ 0) : s.restartNow cold = false := by
  refine Bool.eq_false_iff.2 fun e => ?_
  rcases h _ (restartNow_iff.1 e) with hc | hn
  · cases cold <;> simp at hc
  · exact hn rfl

/-- Settles O15: a Restart by `ownRestart_accepted`, a cause by `startReset_starts` or `startReset_joins`, a requested reset
by `restartNow_iff`. -/
theorem restartAndCausesStartAReset : Obligations.RestartAndCausesStartAReset := by
  refine ⟨fun s tag cold h => ?_, fun s => ?_⟩
  · rw [exec_restart cold h, ownRestart_accepted, takeRequest_sup]
  · intro only held f started joined
    refine ⟨fun hr hw hs hb => ?_, fun hr => ?_, fun h => ?_, fun h => ?_⟩
    · have hstart := fun cause => startReset_starts cause hr hw hs hb
      have hwarm := fun cause => start_warm s.sup.causes (cause := cause)
      refine ⟨congrArg Host.Outcome.next ((hstart _).trans ?_), congrArg Host.Outcome.next ((hstart _).trans ?_),
        congrArg Host.Outcome.next ((hstart _).trans ?_), fun h => (exec_requestWarm h).trans
          (congrArg Host.Outcome.next ((hstart _).trans ?_)), fun h => (exec_requestCold h).trans
          (congrArg Host.Outcome.next ((hstart _).trans ?_))⟩
      · rfl
      · rw [hwarm _ rfl, join_brown]; rfl
      · rw [hwarm _ rfl, join_pin]; rfl
      · rw [hwarm _ rfl, join_requestWarm]; rfl
      · rw [hwarm _ rfl, join_requestCold]; rfl
    · have hjoin := fun cause => startReset_joins cause hr
      have hwarm := fun cause => start_warm s.sup.causes (cause := cause)
      refine ⟨congrArg Host.Outcome.next ((hjoin _).trans ?_), congrArg Host.Outcome.next ((hjoin _).trans ?_),
        congrArg Host.Outcome.next ((hjoin _).trans ?_)⟩
      · rw [join_power]; rfl
      · rw [hwarm _ rfl, join_brown, join_brown]
      · rw [hwarm _ rfl, join_pin, join_pin]
    · exact congrArg Host.Outcome.next (if_neg (Bool.eq_false_iff.1 (restartNow_eq_false h)))
    · exact congrArg Host.Outcome.next (if_neg (Bool.eq_false_iff.1 (restartNow_eq_false h)))

end Sys2Proof.Machine
end

