-- ==== Sys2Proof/Proofs/IndexEntry.lean ====
section
/-! A head enters a map index: it closes the block it leaves, and reopens a block, claims one, goes STALLED or is cut (R76, R77,
R78, R82, R94, R95, R98, R99). -/

namespace Sys2Proof.Machine

/-! ### What a head's work leaves as it was -/

/-- From s to t a head works on layer x: the other layers and the other head stay, and of the rest only the pool, the memory
and the reports change. -/
structure HeadWorks (s t : State) (h : HeadId) (x : LayerId) : Prop where
  layer : ∀ y, y ≠ x → t.layer y = s.layer y
  head : ∀ j, j ≠ h → t.head j = s.head j
  same : t = { s with
    layers := t.layers, head0 := t.head0, head1 := t.head1, pool := t.pool, mem := t.mem, link := t.link }

section
variable {s t u : State} {h : HeadId} {x : LayerId}

theorem HeadWorks.refl (s : State) (h : HeadId) (x : LayerId) : HeadWorks s s h x := ⟨fun _ _ => rfl, fun _ _ => rfl, rfl⟩

theorem HeadWorks.trans (k : HeadWorks s t h x) (m : HeadWorks t u h x) : HeadWorks s u h x :=
  ⟨fun y hy => (m.layer y hy).trans (k.layer y hy), fun j hj => (m.head j hj).trans (k.head j hj),
    m.same.trans (by rw [k.same])⟩

/-- Whatever changes no layer and no head, and of the rest at most the pool, the memory and the reports, is a head's work. -/
theorem HeadWorks.of_same (e : t = { s with pool := t.pool, mem := t.mem, link := t.link }) : HeadWorks s t h x :=
  ⟨fun y _ => State.layer_congr (congrArg State.layers e) y,
    fun j _ => State.head_congr (congrArg State.head0 e) (congrArg State.head1 e) j, by rw [e]⟩

theorem HeadWorks.clock (k : HeadWorks s t h x) : t.clock = s.clock := (congrArg State.clock k.same :)
theorem HeadWorks.tracks (k : HeadWorks s t h x) : t.tracks = s.tracks := (congrArg State.tracks k.same :)
theorem HeadWorks.cues (k : HeadWorks s t h x) : t.cues = s.cues := (congrArg State.cues k.same :)
theorem HeadWorks.mix (k : HeadWorks s t h x) : t.mix = s.mix := (congrArg State.mix k.same :)
theorem HeadWorks.bounce (k : HeadWorks s t h x) : t.bounce = s.bounce := (congrArg State.bounce k.same :)
theorem HeadWorks.sup (k : HeadWorks s t h x) : t.sup = s.sup := (congrArg State.sup k.same :)
theorem HeadWorks.scenes (k : HeadWorks s t h x) : t.scenes = s.scenes := (congrArg State.scenes k.same :)
theorem HeadWorks.tones (k : HeadWorks s t h x) : t.tones = s.tones := (congrArg State.tones k.same :)

end

theorem setHead_works (s : State) (h : HeadId) (o : Option Recording) (x : LayerId) : HeadWorks s (s.setHead h o) h x :=
  ⟨fun y _ => State.layer_congr (State.setHead_layers ..) y, fun _ hj => State.head_setHead_other _ _ _ _ hj,
    by cases h <;> rfl⟩

theorem modLayer_works (s : State) (h : HeadId) (x : LayerId) (f : Layer → Layer) : HeadWorks s (s.modLayer x f) h x :=
  ⟨fun _ hy => State.layer_modLayer_other _ _ _ _ hy, fun j _ => State.head_congr rfl rfl j, rfl⟩

theorem closeOpen_works (s : State) (r : Recording) (h : HeadId) (x : LayerId) : HeadWorks s (s.closeOpen r) h x :=
  .of_same (by rw [closeOpen_eq])

/-! ### The pool's two tests (R98, R99) -/

theorem State.report_link_congr {s u : State} (r : Report) (p : List Byte) (hs : u.sup = s.sup) (hl : u.link = s.link)
    (hc : u.clock = s.clock) : (u.report r p).link = (s.report r p).link := by
  unfold State.report State.header
  rw [hc]
  exact reportWith_link_congr _ r p hs hl

/-- The POOL_LOW test disarms the report where the count is below 128. -/
theorem lowTest_pool (s : State) (c : Claimant) (x : LayerId) :
    (s.lowTest c x).pool = { s.pool with lowArmed := s.pool.lowArmed && decide (128 ≤ s.pool.claimable) } := by
  unfold State.lowTest
  split
  · next h => rw [State.report_pool, decide_eq_false (Nat.not_le.2 h.1), Bool.and_false]
  · next h =>
    cases ha : s.pool.lowArmed with
    | false => rw [Bool.false_and, ← ha]
    | true => rw [decide_eq_true (Nat.not_lt.1 fun hl => h ⟨hl, ha⟩), Bool.and_self, ← ha]

theorem lowTest_link (s : State) (c : Claimant) (x : LayerId) :
    (s.lowTest c x).link = if s.pool.claimable < 128 ∧ s.pool.lowArmed = true then
      (s.report .poolLow (le2 s.pool.claimable ++ [c.code, numByte x])).link else s.link := by
  unfold State.lowTest
  split
  · exact State.report_link_congr _ _ rfl rfl rfl
  · rfl

theorem lowTest_same (s : State) (c : Claimant) (x : LayerId) :
    s.lowTest c x = { s with pool := (s.lowTest c x).pool, link := (s.lowTest c x).link } := by
  unfold State.lowTest
  split
  · rw [State.report_eq]
  · rfl

/-- The POOL_EMPTY test disarms the report. -/
theorem emptyTest_pool (s : State) (h : HeadId) (t : TrackId) (x : LayerId) (k : Nat) (cut : Bool) :
    (s.emptyTest h t x k cut).pool = { s.pool with emptyArmed := false } := by
  unfold State.emptyTest
  split
  · exact State.report_pool ..
  · next ha => rw [← Bool.eq_false_iff.2 ha]

theorem emptyTest_link (s : State) (h : HeadId) (t : TrackId) (x : LayerId) (k : Nat) (cut : Bool) :
    (s.emptyTest h t x k cut).link = if s.pool.emptyArmed = true then
      (s.report .poolEmpty ([headCode h, numByte t, numByte x] ++ le2 k ++ [flagByte cut])).link else s.link := by
  unfold State.emptyTest
  split
  · exact State.report_link_congr _ _ rfl rfl rfl
  · rfl

theorem emptyTest_same (s : State) (h : HeadId) (t : TrackId) (x : LayerId) (k : Nat) (cut : Bool) :
    s.emptyTest h t x k cut
      = { s with pool := (s.emptyTest h t x k cut).pool, link := (s.emptyTest h t x k cut).link } := by
  unfold State.emptyTest
  split
  · rw [State.report_eq]
  · rfl

/-! ### A head's claim (R94, R97) -/

theorem claim_served {s : State} {b : BlockId} {rest : List BlockId} (h : HeadId) (x : LayerId) (k : Nat)
    (hf : s.pool.free = b :: rest) (hb : s.pool.behind.getD 0 ≤ rest.length) :
    s.claim (.head h) x k = some (b, s.allocate (.head h) x k b rest) := by
  have hclaimable : s.pool.claimable ≠ 0 := by
    unfold Pool.claimable
    rw [hf, List.length_cons]
    omega
  unfold State.claim
  rw [hf]
  exact if_neg (by simp [Pool.refuses, hclaimable])

theorem claim_refused {s : State} (h : HeadId) (x : LayerId) (k : Nat) (hb : s.pool.free.length ≤ s.pool.behind.getD 0) :
    s.claim (.head h) x k = none := by
  have hclaimable : s.pool.claimable = 0 := Nat.sub_eq_zero_of_le hb
  unfold State.claim
  split
  · rfl
  · exact if_pos (by simp [Pool.refuses, hclaimable])

theorem allocate_works (s : State) (c : Claimant) (x : LayerId) (k : Nat) (b : BlockId) (rest : List BlockId) (h : HeadId) :
    HeadWorks s (s.allocate c x k b rest) h x := by
  refine .trans ?_ (.of_same (by rw [State.allocate, lowTest_same]))
  exact .trans (.of_same rfl) (modLayer_works ..)

theorem claim_works {s t : State} {c : Claimant} {x : LayerId} {k : Nat} {b : BlockId} (h : HeadId)
    (e : s.claim c x k = some (b, t)) : HeadWorks s t h x := by
  unfold State.claim at e
  split at e
  · exact absurd e (by simp)
  · split at e
    · exact absurd e (by simp)
    · obtain ⟨-, rfl⟩ := Prod.mk.inj (Option.some.inj e)
      exact allocate_works ..

theorem allocate_layer {s : State} {x : LayerId} {l : Layer} (c : Claimant) (k : Nat) (b : BlockId) (rest : List BlockId)
    (hl : s.layer x = some l) :
    (s.allocate c x k b rest).layer x = some { l with map := nameEntry l.map k b } := by
  refine (State.layer_congr (congrArg State.layers (lowTest_same ..)) x).trans ?_
  refine (State.layer_modLayer_same ..).trans ?_
  exact congrArg (Option.map _) hl

/-- The pool behind an allocation: the head block is OWNED, and the POOL_LOW report is disarmed below 128 (R94, R98). -/
theorem allocate_pool (s : State) (c : Claimant) (x : LayerId) (k : Nat) (b : BlockId) (rest : List BlockId) :
    (s.allocate c x k b rest).pool = { s.pool with
      free := rest, owned := putOwned s.pool.owned b { owner := x, index := k, check := .none }
      lowArmed := s.pool.lowArmed && decide (128 ≤ rest.length - s.pool.behind.getD 0) } := lowTest_pool ..

theorem allocate_link (s : State) (c : Claimant) (x : LayerId) (k : Nat) (b : BlockId) (rest : List BlockId) :
    (s.allocate c x k b rest).link =
      if rest.length - s.pool.behind.getD 0 < 128 ∧ s.pool.lowArmed = true then
        (s.report .poolLow (le2 (rest.length - s.pool.behind.getD 0) ++ [c.code, numByte x])).link
      else s.link := by
  refine (lowTest_link ..).trans (if_congr Iff.rfl ?_ rfl)
  exact State.report_link_congr _ _ rfl rfl rfl

/-! ### Map entries -/

/-- An index whose entry is SILENT, or the one past the map's end, names no block. -/
theorem join_of_silent {map : List (Option BlockId)} {i : Nat} (h : map[i]? = some none ∨ map.length = i) :
    (map[i]?).join = none := by
  rcases h with h | h
  · rw [h]; rfl
  · rw [List.getElem?_eq_none h.le]; rfl

theorem nameEntry_eq {map : List (Option BlockId)} {i : Nat} (b : BlockId) (h : map[i]? = some none ∨ map.length = i) :
    nameEntry map i b = if map.length = i then map ++ [some b] else map.set i (some b) := by
  unfold nameEntry
  rcases h with h | h
  · have hi : i < map.length := (List.getElem?_eq_some_iff.1 h).1
    rw [if_pos hi, if_neg hi.ne']
  · rw [if_neg (by omega), if_pos h]

theorem nameEntry_getElem? {map : List (Option BlockId)} {i : Nat} (b : BlockId)
    (h : map[i]? = some none ∨ map.length = i) : (nameEntry map i b)[i]? = some (some b) := by
  unfold nameEntry
  rcases h with h | h
  · have hi : i < map.length := (List.getElem?_eq_some_iff.1 h).1
    rw [if_pos hi, List.getElem?_set_self hi]
  · rw [if_neg (by omega), ← h, List.getElem?_concat_length]

theorem mapEntry_of_layer {s : State} {x : LayerId} {l : Layer} (hl : s.layer x = some l) (i : Nat) :
    s.mapEntry x i = (l.map[i]?).join := by
  unfold State.mapEntry; rw [hl]

/-- Two places of a map that names each block once do not name the same one. -/
theorem index_of_namedOnce {map : List (Option BlockId)} (hn : (namedBlocks map).Nodup) {i j : Nat} {b : BlockId}
    (hi : map[i]? = some (some b)) (hj : map[j]? = some (some b)) : i = j := by
  have hp := List.pairwise_iff_getElem.1 (List.pairwise_filterMap.1 hn)
  obtain ⟨hi, ei⟩ := List.getElem?_eq_some_iff.1 hi
  obtain ⟨hj, ej⟩ := List.getElem?_eq_some_iff.1 hj
  rcases Nat.lt_trichotomy i j with h | h | h
  · exact absurd rfl (hp i j hi hj h b ei b ej)
  · exact h
  · exact absurd rfl (hp j i hj hi h b ej b ei)

/-- The block a head has open is not the one another index names. -/
theorem openBlock_ne {r : Recording} {map : List (Option BlockId)} {i : Nat} {b c : BlockId}
    (hn : (namedBlocks map).Nodup) (hi : r.index ≠ some i) (hb : map[i]? = some (some b))
    (hc : openBlock r map = some c) : b ≠ c := by
  rintro rfl
  unfold openBlock at hc
  split at hc
  · exact absurd hc (by simp)
  · obtain ⟨j, hj, e⟩ := Option.bind_eq_some_iff.1 hc
    exact hi (by rw [hj, index_of_namedOnce hn hb (Option.join_eq_some_iff.1 e)])

/-! ### The closed block behind what follows (R77, R101) -/

/-- A close changes the entry of the open block alone. -/
theorem closeOpen_entry {s : State} {r : Recording} {l : Layer} {b : BlockId} (hl : s.layer r.layer = some l)
    (hb : ∀ c, openBlock r l.map = some c → b ≠ c) : (s.closeOpen r).pool.entry b = s.pool.entry b := by
  cases h : openBlock r l.map with
  | none => rw [closeOpen_none hl h]
  | some c =>
    have hpool : (s.padded r c).pool = s.pool := by unfold State.padded; split <;> rfl
    rw [closeOpen_some hl h]
    refine (Pool.entry_setCheck_eq ..).trans ?_
    rw [hpool]
    cases s.pool.entry b with
    | none => rfl
    | some o => exact congrArg some (if_neg (hb c h))

/-- A close changes nothing of the pool but the table. -/
theorem closeOpen_pool (s : State) (r : Recording) :
    (s.closeOpen r).pool = { s.pool with owned := (s.closeOpen r).pool.owned } := by
  unfold State.closeOpen
  split
  · rfl
  · split
    · rfl
    · split <;> rfl

/-- The closed block stays closed where its entry and its bytes stay. -/
theorem openBlockChecked_of_same {s u t : State} {r : Recording} {map : List (Option BlockId)}
    (h : OpenBlockChecked s u r map) (hsame : ∀ b o, openBlock r map = some b → s.pool.entry b = some o →
      t.pool.entry b = u.pool.entry b ∧ t.mem.blockBytes b = u.mem.blockBytes b) : OpenBlockChecked s t r map := by
  intro b o hb ho
  obtain ⟨hentry, hbytes⟩ := hsame b o hb ho
  rw [hentry, hbytes]
  exact h b o hb ho

/-- Setting frames of a block to zero leaves the bytes of every other block. -/
theorem Memory.blockBytes_clearFrames {b c : BlockId} {n : Nat} (m : Memory) (h : c ≠ b) (hn : n ≤ 4096) :
    (m.clearFrames b 0 n).blockBytes c = m.blockBytes c := by
  have hcells : (m.clearFrames b 0 n).blockCells c = m.blockCells c := by
    have hne : c.val ≠ b.val := fun e => h (Fin.ext e)
    unfold Memory.clearFrames Memory.clearRange Memory.blockCells
    rw [List.filter_filter]
    refine List.filter_congr fun a _ => ?_
    rw [Bool.eq_iff_iff]
    simp only [Bool.and_eq_true, Bool.not_eq_true', Bool.and_eq_false_iff, decide_eq_true_eq, decide_eq_false_iff_not]
    omega
  unfold Memory.blockBytes
  rw [hcells]

/-! ### The outcomes of an entry (R76, R78, R82, R99) -/

theorem headPlace_eq (s : State) (r : Recording) :
    s.headPlace r = if r.mode = .defining then r.writeOffset else s.trackPos r.track := by
  unfold State.headPlace
  cases r.mode <;> rfl

/-- A head that stays in its index does nothing. -/
theorem enterHead_stays_in {s : State} {h : HeadId} {r : Recording} (hr : s.head h = some r)
    (hi : r.index = some (s.headPlace r / 4096)) : s.enterHead h = s := by
  unfold State.enterHead
  rw [hr]
  exact if_pos hi

theorem enterHead_enters {s : State} {h : HeadId} {r : Recording} (hr : s.head h = some r)
    (hi : r.index ≠ some (s.headPlace r / 4096)) :
    s.enterHead h = s.enterIndex h r (s.headPlace r / 4096) (s.headPlace r % 4096) := by
  unfold State.enterHead
  rw [hr]
  exact if_neg hi

/-- A head's record at the entry of an index. -/
def Recording.entered (r : Recording) (i f : Nat) (reopened : Bool) : Recording :=
  { r with stalled := false, index := some i, written := f, reopened := reopened }

/-- A head's record that has found no block for an index. -/
def Recording.stalledAt (r : Recording) (i : Nat) : Recording :=
  { r with stalled := true, index := some i, reopened := false }

section
variable {s : State} {h : HeadId} {r : Recording} {l : Layer} {i f : Nat} {b : BlockId} {rest : List BlockId}

theorem enterIndex_named (hl : s.layer r.layer = some l) (hb : l.map[i]? = some (some b)) :
    s.enterIndex h r i f = ((s.closeOpen r).reopenBlock b).setHead h (some (r.entered i f true)) := by
  have hentry : (s.closeOpen r).mapEntry r.layer i = some b := by
    rw [mapEntry_of_layer ((closeOpen_layer ..).trans hl), hb]; rfl
  unfold State.enterIndex
  dsimp only
  rw [hentry]
  rfl

theorem enterIndex_unnamed (hl : s.layer r.layer = some l) (hi : (l.map[i]?).join = none) :
    s.enterIndex h r i f = (s.closeOpen r).enterNew h r i f := by
  have hentry : (s.closeOpen r).mapEntry r.layer i = none := by
    rw [mapEntry_of_layer ((closeOpen_layer ..).trans hl), hi]
  unfold State.enterIndex
  dsimp only
  rw [hentry]

/-- From s to t head h has reopened block b at index i. -/
structure Reopens (s t : State) (h : HeadId) (r : Recording) (i f : Nat) (b : BlockId) : Prop where
  works : HeadWorks s t h r.layer
  head : t.head h = some (r.entered i f true)
  layers : t.layers = s.layers
  pool : t.pool = (s.closeOpen r).pool.setCheck b .none
  mem : t.mem = (s.closeOpen r).mem
  link : t.link = s.link

theorem enterIndex_reopens (hl : s.layer r.layer = some l) (hb : l.map[i]? = some (some b)) :
    Reopens s (s.enterIndex h r i f) h r i f b := by
  rw [enterIndex_named hl hb]
  exact
    { works := (closeOpen_works ..).trans (.trans (.of_same rfl) (setHead_works ..))
      head := State.head_setHead_same ..
      layers := (State.setHead_layers ..).trans (congrArg State.layers (closeOpen_eq s r) :)
      pool := State.setHead_pool ..
      mem := State.setHead_mem ..
      link := (State.setHead_link ..).trans (congrArg State.link (closeOpen_eq s r) :) }

/-- From s to t head h has claimed block b, the head of the free list, for index i. -/
structure Claims (s t : State) (h : HeadId) (r : Recording) (l : Layer) (i f : Nat) (b : BlockId) (rest : List BlockId) :
    Prop where
  works : HeadWorks s t h r.layer
  head : t.head h = some (r.entered i f false)
  layer : t.layer r.layer = some { l with map := nameEntry l.map i b }
  pool : t.pool = { s.pool with
    free := rest, owned := putOwned (s.closeOpen r).pool.owned b { owner := r.layer, index := i, check := .none }
    lowArmed := s.pool.lowArmed && decide (128 ≤ rest.length - s.pool.behind.getD 0) }
  mem : t.mem = (s.closeOpen r).mem.clearFrames b 0 f
  link : t.link = if rest.length - s.pool.behind.getD 0 < 128 ∧ s.pool.lowArmed = true then
      (s.report .poolLow (le2 (rest.length - s.pool.behind.getD 0) ++ [headCode h, numByte r.layer])).link
    else s.link

theorem enterIndex_claims (hl : s.layer r.layer = some l) (hi : (l.map[i]?).join = none)
    (hf : s.pool.free = b :: rest) (hb : s.pool.behind.getD 0 ≤ rest.length) :
    Claims s (s.enterIndex h r i f) h r l i f b rest := by
  have hp := closeOpen_pool s r
  have hbehind : (s.closeOpen r).pool.behind = s.pool.behind := by rw [hp]
  have hlow : (s.closeOpen r).pool.lowArmed = s.pool.lowArmed := by rw [hp]
  have hclaim : (s.closeOpen r).claim (.head h) r.layer i
      = some (b, (s.closeOpen r).allocate (.head h) r.layer i b rest) :=
    claim_served h r.layer i ((closeOpen_free s r).trans hf) (hbehind ▸ hb)
  rw [enterIndex_unnamed hl hi, State.enterNew, hclaim]
  exact
    { works := (closeOpen_works ..).trans ((allocate_works ..).trans (.trans (.of_same rfl) (setHead_works ..)))
      head := State.head_setHead_same ..
      layer := (State.layer_congr (State.setHead_layers ..) _).trans (allocate_layer _ i b rest ((closeOpen_layer ..).trans hl))
      pool := by
        refine (State.setHead_pool ..).trans ((allocate_pool ..).trans ?_)
        rw [hp]
      mem := (State.setHead_mem ..).trans (congrArg (Memory.clearFrames · b 0 f) (congrArg State.mem (lowTest_same ..) :))
      link := by
        refine (State.setHead_link ..).trans ((allocate_link ..).trans ?_)
        rw [hbehind, hlow]
        refine if_congr Iff.rfl (State.report_link_congr _ _ ?_ ?_ ?_) ?_ <;> rw [closeOpen_eq] }

/-- From s to t head h has found no block for index i and is STALLED, its layer gapped. -/
structure Stalls (s t : State) (h : HeadId) (r : Recording) (l : Layer) (i : Nat) : Prop where
  works : HeadWorks s t h r.layer
  head : t.head h = some (r.stalledAt i)
  layer : t.layer r.layer = some { l with gapped := true }
  pool : t.pool = { (s.closeOpen r).pool with emptyArmed := false }
  mem : t.mem = (s.closeOpen r).mem
  link : t.link = if s.pool.emptyArmed = true then
      (s.report .poolEmpty ([headCode h, numByte r.track, numByte r.layer] ++ le2 i ++ [0])).link
    else s.link

theorem enterIndex_fails (hl : s.layer r.layer = some l) (hi : (l.map[i]?).join = none)
    (hb : s.pool.free.length ≤ s.pool.behind.getD 0) :
    s.enterIndex h r i f = (s.closeOpen r).claimFails h r i := by
  have hclaim : (s.closeOpen r).claim (.head h) r.layer i = none :=
    claim_refused h r.layer i (by rw [closeOpen_pool]; exact hb)
  rw [enterIndex_unnamed hl hi, State.enterNew, hclaim]

theorem claimFails_defining (hm : r.mode = .defining) :
    s.claimFails h r i = (s.emptyTest h r.track r.layer i true).cutDefining h r s.framesSinceBar .pool := by
  unfold State.claimFails; rw [hm]

theorem claimFails_otherwise (hm : r.mode ≠ .defining) :
    s.claimFails h r i = ((s.modLayer r.layer fun l => { l with gapped := true }).setHead h
      (some (r.stalledAt i))).emptyTest h r.track r.layer i false := by
  unfold State.claimFails
  split
  · next e => exact absurd e hm
  · rfl

theorem emptyTest_works (s : State) (h : HeadId) (t : TrackId) (x : LayerId) (k : Nat) (cut : Bool) :
    HeadWorks s (s.emptyTest h t x k cut) h x := .of_same (by rw [emptyTest_same])

theorem enterIndex_stalls (hl : s.layer r.layer = some l) (hi : (l.map[i]?).join = none)
    (hb : s.pool.free.length ≤ s.pool.behind.getD 0) (hm : r.mode ≠ .defining) :
    Stalls s (s.enterIndex h r i f) h r l i := by
  rw [enterIndex_fails hl hi hb, claimFails_otherwise hm]
  have hempty : (s.closeOpen r).pool.emptyArmed = s.pool.emptyArmed := by rw [closeOpen_pool]
  have hsame := emptyTest_same (((s.closeOpen r).modLayer r.layer fun l => { l with gapped := true }).setHead h
    (some (r.stalledAt i))) h r.track r.layer i false
  exact
    { works := (closeOpen_works ..).trans ((modLayer_works ..).trans ((setHead_works ..).trans (emptyTest_works ..)))
      head := (State.head_congr (congrArg State.head0 hsame) (congrArg State.head1 hsame) h).trans
        (State.head_setHead_same ..)
      layer := by
        refine (State.layer_congr ((congrArg State.layers hsame).trans (State.setHead_layers ..)) _).trans ?_
        rw [State.layer_modLayer_same, closeOpen_layer, hl]
        rfl
      pool := (emptyTest_pool ..).trans (by rw [State.setHead_pool]; rfl)
      mem := (congrArg State.mem hsame).trans ((State.setHead_mem ..).trans (State.modLayer_mem ..))
      link := by
        refine (emptyTest_link ..).trans ?_
        rw [State.setHead_pool, State.modLayer_pool, hempty]
        refine if_congr Iff.rfl (State.report_link_congr _ _ ?_ ?_ ?_) ?_
        · rw [State.setHead_sup, State.modLayer_sup, closeOpen_eq]
        · rw [State.setHead_link, State.modLayer_link, closeOpen_eq]
        · rw [State.setHead_clock, State.modLayer_clock, closeOpen_eq]
        · rw [State.setHead_link, State.modLayer_link, closeOpen_eq] }

end

end Sys2Proof.Machine
end

