-- ==== Sys2Proof/Proofs/IndexOutcomes.lean ====
section
/-! What the outcomes of an entry leave: the blocks, the bytes and the check words behind it, and the cut of a DEFINING head that
finds no block (R76, R77, R82, R85, R99, R101). -/

namespace Sys2Proof.Machine

/-! ### A block reopened, a block claimed, a head STALLED -/

section
variable {s t : State} {h : HeadId} {r : Recording} {l : Layer} {i f : Nat} {b : BlockId} {rest : List BlockId}

theorem Reopens.checked (k : Reopens s t h r i f b) (hl : s.layer r.layer = some l) (hp : s.poolLegal)
    (hi : r.index ≠ some i) (hb : l.map[i]? = some (some b)) : OpenBlockChecked s t r l.map := by
  refine openBlockChecked_of_same (closeOpen_checked hl) fun c o hc ho => ⟨?_, by rw [k.mem]⟩
  have hne : c ≠ b := (openBlock_ne (hp.namedOnce _ _ hl) hi hb hc).symm
  rw [k.pool, Pool.entry_setCheck_eq]
  cases (s.closeOpen r).pool.entry c with
  | none => rfl
  | some o => exact congrArg some (if_neg hne)

theorem Reopens.entry (k : Reopens s t h r i f b) (hl : s.layer r.layer = some l) (hp : s.poolLegal)
    (hi : r.index ≠ some i) (hb : l.map[i]? = some (some b)) {o : Owned} (ho : s.pool.entry b = some o) :
    t.pool.entry b = some { o with check := .none } := by
  rw [k.pool, Pool.entry_setCheck_eq,
    closeOpen_entry hl fun c hc => openBlock_ne (hp.namedOnce _ _ hl) hi hb hc, ho, Option.map_some, if_pos rfl]

theorem Reopens.free (k : Reopens s t h r i f b) : t.pool.free = s.pool.free := by
  rw [k.pool]
  exact closeOpen_free ..

theorem Claims.entry (k : Claims s t h r l i f b rest) (c : BlockId) :
    t.pool.entry c = if c = b then some { owner := r.layer, index := i, check := .none }
      else (s.closeOpen r).pool.entry c := by
  rw [k.pool]
  unfold Pool.entry
  rw [find_putOwned]
  split <;> rfl

theorem Claims.checked (k : Claims s t h r l i f b rest) (hl : s.layer r.layer = some l) (hp : s.poolLegal)
    (hf : s.pool.free = b :: rest) (hn : f ≤ 4096) : OpenBlockChecked s t r l.map := by
  refine openBlockChecked_of_same (closeOpen_checked hl) fun c o _ ho => ?_
  have hne : c ≠ b := fun e => by
    have hfree : s.pool.entry b = none := (hp.freeIff b).1 (hf ▸ List.mem_cons_self)
    rw [e, hfree] at ho
    exact absurd ho (by simp)
  rw [k.entry, if_neg hne, k.mem]
  exact ⟨rfl, Memory.blockBytes_clearFrames _ hne hn⟩

/-- The frames of a claimed block before the head's own are zero (R76). -/
theorem Claims.read (k : Claims s t h r l i f b rest) (hl : s.layer r.layer = some l) (a : Nat) :
    t.mem.read a = if b.val * 8192 ≤ a ∧ a < b.val * 8192 + 2 * f then 0 else closedRead s r l.map a := by
  rw [k.mem, ← closeOpen_read hl]
  refine (Memory.read_clearRange ..).trans (if_congr ?_ rfl rfl)
  omega

theorem Stalls.checked (k : Stalls s t h r l i) (hl : s.layer r.layer = some l) : OpenBlockChecked s t r l.map :=
  openBlockChecked_of_same (closeOpen_checked hl) fun _ _ _ _ => ⟨by rw [k.pool]; rfl, by rw [k.mem]⟩

theorem Stalls.free (k : Stalls s t h r l i) : t.pool.free = s.pool.free := by
  rw [k.pool]
  exact closeOpen_free ..

end

/-! ### The cut for want of a block (R82, R85) -/

/-- The block that a cut map has open is the one the whole map has open. -/
theorem openBlock_take {r : Recording} {map : List (Option BlockId)} {n : Nat} {b : BlockId}
    (h : openBlock r (map.take n) = some b) : openBlock r map = some b := by
  unfold openBlock at h ⊢
  split at h
  · exact absurd h (by simp)
  · next hs =>
    rw [if_neg hs]
    obtain ⟨i, hi, e⟩ := Option.bind_eq_some_iff.1 h
    have htake := Option.join_eq_some_iff.1 e
    rw [List.getElem?_take] at htake
    split at htake
    · exact Option.bind_eq_some_iff.2 ⟨i, hi, Option.join_eq_some_iff.2 htake⟩
    · exact absurd htake (by simp)

/-- A second close, behind a cut of the map, reads as the first one. -/
theorem closedRead_take {s u : State} {r : Recording} {map : List (Option BlockId)} (n : Nat)
    (h : ∀ a, u.mem.read a = closedRead s r map a) (a : Nat) :
    closedRead u r (map.take n) a = closedRead s r map a := by
  cases hb : openBlock r (map.take n) with
  | none =>
    have hu : closedRead u r (map.take n) a = u.mem.read a := by unfold closedRead; rw [hb]
    rw [hu, h]
  | some b =>
    have hu : closedRead u r (map.take n) a =
        if r.reopened = false ∧ b.val * 8192 + 2 * r.written ≤ a ∧ a < b.val * 8192 + 8192 then 0 else u.mem.read a := by
      unfold closedRead; rw [hb]
    have hs : closedRead s r map a =
        if r.reopened = false ∧ b.val * 8192 + 2 * r.written ≤ a ∧ a < b.val * 8192 + 8192 then 0 else s.mem.read a := by
      unfold closedRead; rw [openBlock_take hb]
    rw [hu, h, hs]
    split <;> rfl

/-- The state in which a DEFINING head is cut for want of a block: its block closed, the POOL_EMPTY test made. -/
def State.wanting (s : State) (h : HeadId) (r : Recording) (i : Nat) : State :=
  (s.closeOpen r).emptyTest h r.track r.layer i true

theorem wanting_works (s : State) (h : HeadId) (r : Recording) (i : Nat) : HeadWorks s (s.wanting h r i) h r.layer :=
  (closeOpen_works ..).trans (emptyTest_works ..)

theorem wanting_poolLegal {s : State} (h : HeadId) (r : Recording) (i : Nat) (hp : s.poolLegal) :
    (s.wanting h r i).poolLegal := (emptyTest_keeps ..).pool ((closeOpen_keeps s r).pool hp)

theorem wanting_free (s : State) (h : HeadId) (r : Recording) (i : Nat) :
    (s.wanting h r i).pool.free = s.pool.free := by
  rw [State.wanting, emptyTest_pool]
  exact closeOpen_free ..

theorem wanting_read {s : State} {r : Recording} {l : Layer} (h : HeadId) (i : Nat) (hl : s.layer r.layer = some l)
    (a : Nat) : (s.wanting h r i).mem.read a = closedRead s r l.map a := by
  have hmem : (s.wanting h r i).mem = (s.closeOpen r).mem := (congrArg State.mem (emptyTest_same ..) :)
  rw [hmem]
  exact closeOpen_read hl a

theorem wanting_layer (s : State) (h : HeadId) (r : Recording) (i : Nat) (x : LayerId) :
    (s.wanting h r i).layer x = s.layer x :=
  (State.layer_congr (congrArg State.layers (emptyTest_same ..) :) x).trans (closeOpen_layer ..)

/-- A DEFINING head that finds no block is cut, at the loop position behind the last BAR boundary. -/
theorem enterIndex_cuts {s : State} {h : HeadId} {r : Recording} {l : Layer} {i f : Nat} (hl : s.layer r.layer = some l)
    (hi : (l.map[i]?).join = none) (hb : s.pool.free.length ≤ s.pool.behind.getD 0) (hm : r.mode = .defining) :
    s.enterIndex h r i f = (s.wanting h r i).cutDefining h r s.framesSinceBar .pool := by
  rw [enterIndex_fails hl hi hb, claimFails_defining hm]
  unfold State.framesSinceBar
  rw [(closeOpen_works s r h r.layer).clock]
  rfl

theorem wanting_wholeBars (s : State) (h : HeadId) (r : Recording) (i : Nat) :
    (s.wanting h r i).wholeBars r = s.wholeBars r := by
  unfold State.wholeBars
  rw [(wanting_works s h r i).clock]

/-- A DEFINING head cut for want of a block is IDLE, and the block it had open is closed. -/
structure WantCuts (s t : State) (h : HeadId) (r : Recording) (l : Layer) : Prop where
  read : ∀ a, t.mem.read a = closedRead s r l.map a
  head : t.head h = none

section
variable {s : State} {h : HeadId} {r : Recording} {l : Layer} {i f : Nat} (hl : s.layer r.layer = some l)
  (hi : (l.map[i]?).join = none) (hb : s.pool.free.length ≤ s.pool.behind.getD 0) (hm : r.mode = .defining)
include hl hi hb hm

/-- With no whole bar the layer is discarded (R85, R88). -/
theorem enterIndex_cuts_noBar (hk : s.wholeBars r = 0) :
    WantCuts s (s.enterIndex h r i f) h r l ∧ (s.enterIndex h r i f).layer r.layer = none
      ∧ (∀ x, x ≠ r.layer → (s.enterIndex h r i f).layer x = s.layer x)
      ∧ (s.enterIndex h r i f).pool.free = s.pool.free ++ namedBlocks l.map := by
  have hk' : (s.wanting h r i).wholeBars r = 0 := (wanting_wholeBars ..).trans hk
  rw [enterIndex_cuts hl hi hb hm, cutDefining_noBar hk']
  obtain ⟨hhead, hlayer, hothers, hfree, -, -, hmem, -⟩ :=
    discardRecording_leaves (h := h) .noBar ((wanting_layer s h r i _).trans hl)
  refine ⟨⟨fun a => ?_, hhead⟩, hlayer, fun x hx => (hothers x hx).trans (wanting_layer ..), ?_⟩
  · rw [hmem, wanting_read h i hl]
  · rw [hfree, wanting_free]

/-- With whole bars it seals with a map of that length, and L is theirs, up to the auto-fold check (R85, R87). -/
theorem enterIndex_cuts_bars (hp : s.poolLegal) (hk : s.wholeBars r ≠ 0) :
    WantCuts s (s.enterIndex h r i f) h r l ∧ ∃ w : State, s.enterIndex h r i f = w.autoFold r.track
      ∧ w.layer r.layer
        = some { l with state := .sealed, sealStamp := some s.clock.songBar, map := definingMap s r l }
      ∧ (∀ x, x ≠ r.layer → w.layer x = s.layer x)
      ∧ w.pool.free = s.pool.free ++ namedBlocks (l.map.drop (blocksFor (s.wholeBars r * s.clock.barFrames)))
      ∧ w.clock = { s.clock with loop := some (s.wholeBars r), bar := 0, loopPos := s.framesSinceBar }
      ∧ ∀ j, (w.track j).pass = 0 := by
  have hclock := (wanting_works s h r i).clock
  have hbars := wanting_wholeBars s h r i
  have hmap : definingMap (s.wanting h r i) r l = definingMap s r l := by unfold definingMap; rw [hbars, hclock]
  obtain ⟨w, hw, hends, hwclock, hpass⟩ := sealDefining_wholeBars h s.framesSinceBar .pool
    ((wanting_layer s h r i _).trans hl) (wanting_poolLegal h r i hp)
  obtain ⟨hhead, hlayer, hothers, -, -, hread, -⟩ := hends.layer
  have hpins := autoFold_pinsOnly w r.track
  have hk' : (s.wanting h r i).wholeBars r ≠ 0 := hbars.symm ▸ hk
  rw [enterIndex_cuts hl hi hb hm, cutDefining_bars hk', hw]
  refine ⟨⟨fun a => ?_, (hpins.head h).trans hhead⟩, w, rfl, ?_, fun x hx => (hothers x hx).trans (wanting_layer ..), ?_,
    ?_, hpass⟩
  · rw [hpins.mem, hread]
    exact closedRead_take _ (wanting_read h i hl) a
  · rw [hlayer, hmap, hclock]
  · rw [hends.free, hmap, wanting_free]
    exact congrArg (s.pool.free ++ namedBlocks ·) (drop_length_take ..)
  · rw [hwclock, hclock, hbars]

end

/-! ### What an entry can do, whatever the head holds -/

/-- A head that enters works on its layer and stays busy with it, or it is cut. -/
theorem enterHead_cases {s : State} {h : HeadId} {r : Recording} (hr : s.head h = some r) :
    (HeadWorks s (s.enterHead h) h r.layer
      ∧ ∃ v, (s.enterHead h).head h = some v ∧ v.layer = r.layer ∧ v.mask = r.mask)
    ∨ ∃ u pos, HeadWorks s u h r.layer ∧ s.enterHead h = u.cutDefining h r pos .pool := by
  by_cases hi : r.index = some (s.headPlace r / 4096)
  · rw [enterHead_stays_in hr hi]
    exact .inl ⟨.refl .., r, hr, rfl, rfl⟩
  rw [enterHead_enters hr hi]
  generalize s.headPlace r / 4096 = i
  generalize s.headPlace r % 4096 = f
  have hclose := closeOpen_works s r h r.layer
  unfold State.enterIndex
  dsimp only
  split
  · exact .inl ⟨hclose.trans (.trans (.of_same rfl) (setHead_works ..)), _, State.head_setHead_same .., rfl, rfl⟩
  · unfold State.enterNew
    split
    · by_cases hm : r.mode = .defining
      · rw [claimFails_defining hm]
        exact .inr ⟨_, _, hclose.trans (emptyTest_works ..), rfl⟩
      · rw [claimFails_otherwise hm]
        refine .inl ⟨hclose.trans ((modLayer_works ..).trans ((setHead_works ..).trans (emptyTest_works ..))),
          r.stalledAt i, ?_, rfl, rfl⟩
        have hsame := emptyTest_same (((s.closeOpen r).modLayer r.layer fun l => { l with gapped := true }).setHead h
          (some (r.stalledAt i))) h r.track r.layer i false
        exact (State.head_congr (congrArg State.head0 hsame) (congrArg State.head1 hsame) h).trans
          (State.head_setHead_same ..)
    · next hc =>
      exact .inl ⟨hclose.trans ((claim_works h hc).trans (.trans (.of_same rfl) (setHead_works ..))), _,
        State.head_setHead_same .., rfl, rfl⟩

theorem running_of_nil {s : State} (h : s.bounce.queue = []) : s.running = none := by
  unfold State.running; rw [headBounce_of_nil h]; rfl

/-- An entry that the auto-fold check puts into an empty queue does not run yet (R113). -/
theorem autoFold_running {s : State} (t : TrackId) (h : s.bounce.queue = []) : (s.autoFold t).running = none := by
  unfold State.autoFold
  dsimp only
  split
  · exact running_of_nil h
  · split
    · split
      · exact running_of_nil ((congrArg BounceEngine.queue (State.report_bounce ..)).trans h)
      · unfold State.running State.headBounce State.enqueueBounce
        simp [h]
    · exact running_of_nil h

theorem shortenMap_bounce (s : State) (x : LayerId) (k : Nat) : (s.shortenMap x k).bounce = s.bounce := by
  unfold State.shortenMap
  split <;> rfl

theorem definingReady_bounce (s : State) (r : Recording) (k pos : Nat) : (s.definingReady r k pos).bounce = s.bounce := by
  rw [State.definingReady, congrArg State.bounce (establish_voices ..), closeOpen_eq]
  exact shortenMap_bounce ..

/-- A cut with no bounce queued leaves none running. -/
theorem cutDefining_running {s : State} (h : HeadId) (r : Recording) (pos : Nat) (reason : SealReason)
    (hq : s.bounce.queue = []) : (s.cutDefining h r pos reason).running = none := by
  by_cases hk : s.wholeBars r = 0
  · rw [cutDefining_noBar hk]
    refine running_of_nil ((congrArg BounceEngine.queue ?_).trans hq)
    exact (discardLayer_freesOnly (s.setHead h none) ..).bounce.trans (State.setHead_bounce ..)
  · rw [cutDefining_bars hk, State.sealDefining, sealRecording_eq]
    refine autoFold_running _ ((congrArg BounceEngine.queue ?_).trans hq)
    refine (sealedUp_voicesOnly ..).bounce.trans ((State.setHead_bounce ..).trans ?_)
    exact (State.modLayer_bounce ..).trans (definingReady_bounce ..)

section
variable {s : State} {h : HeadId} {r : Recording} (hr : s.head h = some r)
include hr

theorem enterHead_running (hq : s.bounce.queue = []) : (s.enterHead h).running = none := by
  rcases enterHead_cases hr with ⟨k, -⟩ | ⟨u, pos, k, e⟩
  · exact running_of_nil (by rw [k.bounce, hq])
  · rw [e]
    exact cutDefining_running h r pos .pool (by rw [k.bounce, hq])

theorem enterHead_otherHead {j : HeadId} (hj : j ≠ h) : (s.enterHead h).head j = s.head j := by
  rcases enterHead_cases hr with ⟨k, -⟩ | ⟨u, pos, k, e⟩
  · exact k.head j hj
  · rw [e, (cutDefining_heads ..).head, head_setHead, if_neg hj]
    exact k.head j hj

theorem enterHead_keepsRecord {v : Recording} (hv : (s.enterHead h).head h = some v) :
    v.layer = r.layer ∧ v.mask = r.mask := by
  rcases enterHead_cases hr with ⟨-, w, hw, hsame⟩ | ⟨u, pos, -, e⟩
  · rw [hw] at hv
    obtain rfl := Option.some.inj hv
    exact hsame
  · rw [e, (cutDefining_heads ..).head, State.head_setHead_same] at hv
    exact absurd hv (by simp)

end

end Sys2Proof.Machine
end

