-- ==== Sys2Proof/Proofs/WritingHeads.lean ====
section
/-! The heads in AUDIO_FRAME: the sample written, the two heads in their order, and the claims named ahead of the frees (R75, R76,
R77, R78, R82, R94, R95, R97, R98, R99). -/

namespace Sys2Proof.Machine

/-! ### The advance by one frame (R75) -/

theorem stepHead_idle {s : State} {h : HeadId} (i f : Nat) (ins : Vector Sample 4) (e : s.head h = none) :
    s.stepHead h i f ins = s := by
  unfold State.stepHead; rw [e]

/-- A head's record behind its frame f. -/
def Recording.advanced (r : Recording) (f : Nat) : Recording :=
  { r with writeOffset := r.writeOffset + 1, written := f + 1 }

/-- A layer whose clip count has seen a frame's sum. -/
def Layer.clipped (l : Layer) (sum : Int) : Layer :=
  { l with clip := if (sum = -32768 ∨ sum = 32767) ∧ l.clip < 65535 then l.clip + 1 else l.clip }

theorem modHead_of_busy {s : State} {h : HeadId} {r : Recording} (g : Recording → Recording) (e : s.head h = some r) :
    s.modHead h g = s.setHead h (some (g r)) := by
  unfold State.modHead; rw [e]; rfl

theorem writeHead_works (s : State) (r : Recording) (h : HeadId) (i f : Nat) (x : Int) :
    HeadWorks s (s.writeHead r i f x) h r.layer := by
  unfold State.writeHead
  split
  · exact .refl ..
  · exact .trans (.of_same rfl) (modLayer_works ..)

section
variable {s : State} {h : HeadId} {r : Recording} (i f : Nat) (ins : Vector Sample 4) (hr : s.head h = some r)
include hr

theorem stepHead_stalled (hs : r.stalled = true) : s.stepHead h i f ins = s.setHead h (some (r.advanced f)) := by
  unfold State.stepHead
  rw [hr]
  dsimp only
  rw [if_pos hs, modHead_of_busy _ hr]
  rfl

theorem stepHead_writing (hs : r.stalled = false) :
    s.stepHead h i f ins = (s.writeHead r i f (inputSum r.mask ins)).setHead h (some (r.advanced f)) := by
  have hhead : (s.writeHead r i f (inputSum r.mask ins)).head h = some r := ((writeHead_heads ..).head h).trans hr
  unfold State.stepHead
  rw [hr]
  dsimp only
  rw [if_neg (by rw [hs]; decide), modHead_of_busy _ hhead]
  rfl

theorem stepHead_works : HeadWorks s (s.stepHead h i f ins) h r.layer := by
  cases hs : r.stalled with
  | true => rw [stepHead_stalled i f ins hr hs]; exact setHead_works ..
  | false => rw [stepHead_writing i f ins hr hs]; exact (writeHead_works ..).trans (setHead_works ..)

theorem stepHead_head : (s.stepHead h i f ins).head h = some (r.advanced f) := by
  cases hs : r.stalled with
  | true => rw [stepHead_stalled i f ins hr hs]; exact State.head_setHead_same ..
  | false => rw [stepHead_writing i f ins hr hs]; exact State.head_setHead_same ..

end

theorem stepHead_otherHead (s : State) {h j : HeadId} (i f : Nat) (ins : Vector Sample 4) (hj : j ≠ h) :
    (s.stepHead h i f ins).head j = s.head j := by
  cases hr : s.head h with
  | none => rw [stepHead_idle i f ins hr]
  | some r => exact (stepHead_works i f ins hr).head j hj

theorem stepHead_pool (s : State) (h : HeadId) (i f : Nat) (ins : Vector Sample 4) :
    (s.stepHead h i f ins).pool = s.pool := by
  unfold State.stepHead
  split
  · rfl
  · rw [State.modHead_pool]
    split
    · rfl
    · unfold State.writeHead
      split <;> rfl

theorem writeHead_named {s : State} {r : Recording} {l : Layer} {i : Nat} {b : BlockId} (f : Nat) (x : Int)
    (hl : s.layer r.layer = some l) (hb : l.map[i]? = some (some b)) :
    s.writeHead r i f x
      = State.setLayer { s with mem := s.mem.writeSample b f (toSample x) } r.layer (some (l.clipped x)) := by
  have hentry : s.mapEntry r.layer i = some b := by rw [mapEntry_of_layer hl, hb]; rfl
  have hmod : ∀ g : Layer → Layer,
      State.modLayer { s with mem := s.mem.writeSample b f (toSample x) } r.layer g
        = State.setLayer { s with mem := s.mem.writeSample b f (toSample x) } r.layer (some (g l)) := fun g =>
    congrArg (State.setLayer _ r.layer) (congrArg (Option.map g) hl)
  unfold State.writeHead
  rw [hentry]
  exact hmod _

/-- From u to t a WRITING head stores a frame's sum at frame f of block b, with the clip count of its layer x. -/
structure Stores (u t : State) (x : LayerId) (l : Layer) (b : BlockId) (f : Nat) (sum : Int) : Prop where
  mem : t.mem = u.mem.writeSample b f (toSample sum)
  layer : t.layer x = some (l.clipped sum)
  others : ∀ y, y ≠ x → t.layer y = u.layer y

theorem stepHead_stores {s : State} {h : HeadId} {r : Recording} {l : Layer} {i : Nat} {b : BlockId} (f : Nat)
    (ins : Vector Sample 4) (hr : s.head h = some r) (hs : r.stalled = false) (hl : s.layer r.layer = some l)
    (hb : l.map[i]? = some (some b)) :
    Stores s (s.stepHead h i f ins) r.layer l b f (inputSum r.mask ins) := by
  rw [stepHead_writing i f ins hr hs, writeHead_named f _ hl hb]
  refine ⟨State.setHead_mem .., ?_, fun y hy => ?_⟩ <;> rw [State.layer_congr (State.setHead_layers ..)]
  · exact State.layer_setLayer_same ..
  · exact State.layer_setLayer_other _ _ _ _ hy

theorem Stores.sample {u t : State} {x : LayerId} {l : Layer} {b : BlockId} {f : Nat} {sum : Int}
    (k : Stores u t x l b f sum) (hu : u.memoryLegal) : t.mem.sample b f = toSample sum := by
  rw [k.mem]
  exact Memory.sample_writeSample b f _ hu

theorem Stores.read {u t : State} {x : LayerId} {l : Layer} {b : BlockId} {f : Nat} {sum : Int}
    (k : Stores u t x l b f sum) (hu : u.memoryLegal) {a : Nat} (h0 : a ≠ sampleAddr b f) (h1 : a ≠ sampleAddr b f + 1) :
    t.mem.read a = u.mem.read a := by
  rw [k.mem]
  exact Memory.read_writeSample b f _ a hu ⟨h0, h1⟩

theorem advanceHead_busy {s : State} {h : HeadId} {r : Recording} (ins : Vector Sample 4) (hr : s.head h = some r) :
    s.advanceHead ins h = (s.enterHead h).stepHead h (s.headPlace r / 4096) (s.headPlace r % 4096) ins := by
  unfold State.advanceHead; rw [hr]

/-- An advance leaves the other head. -/
theorem advanceHead_otherHead {s : State} {h : HeadId} {r : Recording} (ins : Vector Sample 4) (hr : s.head h = some r)
    {j : HeadId} (hj : j ≠ h) : (s.advanceHead ins h).head j = s.head j := by
  rw [advanceHead_busy ins hr, stepHead_otherHead _ _ _ _ hj, enterHead_otherHead hr hj]

theorem advanceHead_running {s : State} {h : HeadId} {r : Recording} (ins : Vector Sample 4) (hr : s.head h = some r)
    (hq : s.bounce.queue = []) : (s.advanceHead ins h).running = none := by
  rw [advanceHead_busy ins hr, ← enterHead_running hr hq]
  cases hv : (s.enterHead h).head h with
  | none => rw [stepHead_idle _ _ ins hv]
  | some v =>
    unfold State.running State.headBounce
    rw [(stepHead_works _ _ ins hv).bounce]

/-! ### The frame behind the heads -/

/-- The heads' work in a frame, H0 before H1 (R95). -/
def State.headsAdvanced (s : State) (ins : Vector Sample 4) : State := (s.advanceHead ins .h0).advanceHead ins .h1

/-- With one head busy the heads' work is that head's. -/
theorem headsAdvanced_one {s : State} {h : HeadId} {r : Recording} (ins : Vector Sample 4) (hr : s.head h = some r)
    (hother : ∀ j, j ≠ h → s.head j = none) : s.headsAdvanced ins = s.advanceHead ins h := by
  unfold State.headsAdvanced
  cases h with
  | h0 =>
    exact advanceHead_of_none ins ((advanceHead_otherHead ins hr (by decide)).trans (hother .h1 (by decide)))
  | h1 => rw [advanceHead_of_none ins (hother .h0 (by decide))]

/-- From v, where the heads have advanced, to t the frame closes: the memory, the layers and the heads stay, and the frees
behind the claims are taken. -/
structure FrameCloses (v t : State) : Prop where
  same : t = { v with
    outputs := t.outputs, tracks := t.tracks, tones := t.tones, clock := t.clock, bnd := t.bnd, link := t.link
    bounce := t.bounce, mix := t.mix, pool := t.pool }
  pool : t.pool = freesTaken v.pool none

section
variable {v t : State} (k : FrameCloses v t)
include k

theorem FrameCloses.mem : t.mem = v.mem := (congrArg State.mem k.same :)
theorem FrameCloses.layers : t.layers = v.layers := (congrArg State.layers k.same :)
theorem FrameCloses.layer (x : LayerId) : t.layer x = v.layer x := State.layer_congr k.layers x
theorem FrameCloses.cues : t.cues = v.cues := (congrArg State.cues k.same :)
theorem FrameCloses.sup : t.sup = v.sup := (congrArg State.sup k.same :)
theorem FrameCloses.scenes : t.scenes = v.scenes := (congrArg State.scenes k.same :)
theorem FrameCloses.head (j : HeadId) : t.head j = v.head j :=
  State.head_congr (congrArg State.head0 k.same :) (congrArg State.head1 k.same :) j

theorem FrameCloses.free : t.pool.free = v.pool.free := by rw [k.pool]; rfl

theorem FrameCloses.mapEntry (x : LayerId) (i : Nat) : t.mapEntry x i = v.mapEntry x i := by
  unfold State.mapEntry; rw [k.layer]

end

/-- The frame's sample behind the close. -/
theorem FrameCloses.stored {u t : State} {h : HeadId} {v : Recording} {l : Layer} {i f : Nat} {b : BlockId}
    {ins : Vector Sample 4} (k : FrameCloses (u.stepHead h i f ins) t) (hu : u.memoryLegal) (hv : u.head h = some v)
    (hs : v.stalled = false) (hl : u.layer v.layer = some l) (hb : l.map[i]? = some (some b)) :
    t.mem.sample b f = toSample (inputSum v.mask ins)
      ∧ (∀ a, a ≠ sampleAddr b f → a ≠ sampleAddr b f + 1 → t.mem.read a = u.mem.read a)
      ∧ t.layer v.layer = some (l.clipped (inputSum v.mask ins))
      ∧ ∀ x, x ≠ v.layer → t.layer x = u.layer x := by
  have hstores := stepHead_stores f ins hv hs hl hb
  refine ⟨?_, fun a h0 h1 => ?_, (k.layer _).trans hstores.layer, fun x hx => (k.layer x).trans (hstores.others x hx)⟩
  · rw [k.mem, hstores.sample hu]
  · rw [k.mem, hstores.read hu h0 h1]

/-- A STALLED head stores nothing. -/
theorem FrameCloses.silent {u t : State} {h : HeadId} {v : Recording} {i f : Nat} {ins : Vector Sample 4}
    (k : FrameCloses (u.stepHead h i f ins) t) (hv : u.head h = some v) (hs : v.stalled = true) :
    t.mem = u.mem ∧ t.layers = u.layers := by
  rw [stepHead_stalled _ _ _ hv hs] at k
  exact ⟨k.mem.trans (State.setHead_mem ..), k.layers.trans (State.setHead_layers ..)⟩

theorem bounceFrame_idle {s : State} (h : s.running = none) : s.bounceFrame = s := by
  unfold State.bounceFrame
  split
  · rfl
  · next e he =>
    have hrun : e.run = none := by
      unfold State.running at h
      rwa [he] at h
    rw [hrun]

/-- The rest of a READY frame behind the one-shot counts: the tones, the bounce, the clock and the close. -/
def State.frameRest (s : State) : State :=
  let u := State.bounceFrame { s with tones := s.tones.frame }
  State.closeFrame { u with clock := u.clock.frame u.moving }

theorem readyFrame_moving {s : State} (ins : Vector Sample 4) (hm : s.moving = true) :
    s.readyFrame ins = ((List.finRange 8).foldl State.countOneShot
      { s.headsAdvanced ins with outputs := (s.headsAdvanced ins).mixFrame ins }).frameRest := by
  unfold State.readyFrame
  rw [if_pos hm]
  rfl

theorem beginIsDue_idle {s : State} (h : s.running = none) : s.beginIsDue = false := by
  unfold State.beginIsDue
  rw [h]
  simp

/-- With no bounce running, the rest of a frame closes it. -/
theorem frameRest_closes {s : State} (h : s.running = none) : FrameCloses s s.frameRest := by
  unfold State.frameRest
  rw [bounceFrame_idle (s := { s with tones := s.tones.frame }) h]
  unfold State.closeFrame
  dsimp only
  rw [beginIsDue_idle (s := { s with tones := s.tones.frame, clock := _ }) h]
  exact ⟨rfl, served_eq_freesTaken s.pool⟩

/-- With no bounce running, a READY frame closes behind the heads' work. -/
theorem readyFrame_closes {s : State} (ins : Vector Sample 4) (hm : s.moving = true)
    (hrun : (s.headsAdvanced ins).running = none) : FrameCloses (s.headsAdvanced ins) (s.readyFrame ins) := by
  rw [readyFrame_moving ins hm]
  generalize s.headsAdvanced ins = v at hrun ⊢
  obtain ⟨honly, -⟩ := foldl_countOneShot { v with outputs := v.mixFrame ins }
  generalize (List.finRange 8).foldl State.countOneShot _ = u at honly ⊢
  have hu : u.running = none := by rw [honly]; exact hrun
  obtain ⟨hsame, hpool⟩ := frameRest_closes hu
  exact ⟨hsame.trans (by rw [honly]), hpool.trans (by rw [honly])⟩

theorem exec_audioFrame_ready {s : State} (in0 in1 in2 in3 : Sample) (hs : s.sup.state = .ready)
    (ho : s.frameOwes = false) :
    exec (.audioFrame in0 in1 in2 in3) s = .next (s.readyFrame #v[in0, in1, in2, in3]) := by
  show execAudioFrame in0 in1 in2 in3 s = _
  unfold execAudioFrame
  rw [hs]
  dsimp only
  rw [ho]
  rfl

/-! ### A first index entered: a claim and its sample, or a stall -/

theorem Memory.sample_writeSample_other {m : Memory} {b c : BlockId} (f g : Nat) (x : Sample) (hm : m.wf) (h : c ≠ b) :
    (m.writeSample b f x).sample c g = m.sample c g := by
  have hne : c.val ≠ b.val := fun e => h (Fin.ext e)
  unfold Memory.sample
  rw [Memory.read_writeSample b f x _ hm (by unfold sampleAddr; omega),
    Memory.read_writeSample b f x _ hm (by unfold sampleAddr; omega)]

theorem Memory.sample_clearFrames_other {b c : BlockId} {n : Nat} (m : Memory) (g : Nat) (h : c ≠ b) (hn : n ≤ 4096) :
    (m.clearFrames b 0 n).sample c g = m.sample c g := by
  have hne : c.val ≠ b.val := fun e => h (Fin.ext e)
  have hread : ∀ a, (a = sampleAddr c g ∨ a = sampleAddr c g + 1) → (m.clearFrames b 0 n).read a = m.read a := fun a ha => by
    refine (Memory.read_clearRange ..).trans (if_neg ?_)
    unfold sampleAddr at ha
    omega
  unfold Memory.sample
  rw [hread _ (.inl rfl), hread _ (.inr rfl)]

/-- A head that has entered no index yet has no block to close. -/
theorem closeOpen_first {s : State} {r : Recording} (h : r.index = none) : s.closeOpen r = s := by
  unfold State.closeOpen
  rw [h]
  exact ite_self _

theorem HeadWorks.headPlace {s t : State} {h : HeadId} {x : LayerId} (k : HeadWorks s t h x) (r : Recording) :
    t.headPlace r = s.headPlace r := by
  unfold State.headPlace State.trackPos
  rw [k.clock, State.track_congr k.tracks]

theorem HeadWorks.mapEntry_other {s t : State} {h : HeadId} {x y : LayerId} (k : HeadWorks s t h x) (hy : y ≠ x)
    (i : Nat) : t.mapEntry y i = s.mapEntry y i := by
  unfold State.mapEntry
  rw [k.layer y hy]

/-- From s to t head h has claimed block b for its first index and stored its first sample there. -/
structure FirstStored (s t : State) (h : HeadId) (r : Recording) (b : BlockId) (rest : List BlockId) (sum : Int) : Prop where
  works : HeadWorks s t h r.layer
  free : t.pool.free = rest
  behind : t.pool.behind = s.pool.behind
  entry : t.mapEntry r.layer (s.headPlace r / 4096) = some b
  sample : t.mem.sample b (s.headPlace r % 4096) = toSample sum
  others : ∀ c g, c ≠ b → t.mem.sample c g = s.mem.sample c g

/-- From s to t head h has found no block for its first index and is STALLED. -/
structure FirstStalled (s t : State) (h : HeadId) (r : Recording) (l : Layer) : Prop where
  works : HeadWorks s t h r.layer
  free : t.pool.free = s.pool.free
  mem : t.mem = s.mem
  layer : t.layer r.layer = some { l with gapped := true }
  head : (t.head h).map (·.stalled) = some true

section
variable {s : State} {h : HeadId} {r : Recording} {l : Layer} (ins : Vector Sample 4) (hr : s.head h = some r)
  (hl : s.layer r.layer = some l) (hfirst : r.index = none)
  (hi : l.map[s.headPlace r / 4096]? = some none ∨ l.map.length = s.headPlace r / 4096)
include hr hl hfirst hi

theorem advanceHead_firstStored {b : BlockId} {rest : List BlockId} (hf : s.pool.free = b :: rest)
    (hb : s.pool.behind.getD 0 ≤ rest.length) (hmem : s.memoryLegal) :
    FirstStored s (s.advanceHead ins h) h r b rest (inputSum r.mask ins) := by
  have hclaims : Claims s (s.enterHead h) h r l (s.headPlace r / 4096) (s.headPlace r % 4096) b rest := by
    rw [enterHead_enters hr (by rw [hfirst]; simp)]
    exact enterIndex_claims hl (join_of_silent hi) hf hb
  have hlegal : (s.enterHead h).memoryLegal := (enterHead_keeps s h).memory hmem
  have hstores := stepHead_stores (s.headPlace r % 4096) ins hclaims.head rfl hclaims.layer (nameEntry_getElem? b hi)
  have hworks := stepHead_works (s.headPlace r / 4096) (s.headPlace r % 4096) ins hclaims.head
  rw [advanceHead_busy ins hr]
  exact
    { works := hclaims.works.trans hworks
      free := by rw [stepHead_pool, hclaims.pool]
      behind := by rw [stepHead_pool, hclaims.pool]
      entry := (mapEntry_of_layer hstores.layer _).trans (congrArg Option.join (nameEntry_getElem? b hi))
      sample := hstores.sample hlegal
      others := fun c g hc => by
        rw [hstores.mem, Memory.sample_writeSample_other _ _ _ hlegal hc, hclaims.mem,
          Memory.sample_clearFrames_other _ _ hc (Nat.mod_lt _ (by decide)).le, closeOpen_first hfirst] }

theorem advanceHead_firstStalled (hb : s.pool.free.length ≤ s.pool.behind.getD 0) (hm : r.mode ≠ .defining) :
    FirstStalled s (s.advanceHead ins h) h r l := by
  have hstalls : Stalls s (s.enterHead h) h r l (s.headPlace r / 4096) := by
    rw [enterHead_enters hr (by rw [hfirst]; simp)]
    exact enterIndex_stalls hl (join_of_silent hi) hb hm
  rw [advanceHead_busy ins hr, stepHead_stalled _ _ ins hstalls.head rfl]
  refine ⟨hstalls.works.trans (setHead_works ..), ?_, ?_, ?_, ?_⟩
  · rw [State.setHead_pool, hstalls.free]
  · rw [State.setHead_mem, hstalls.mem, closeOpen_first hfirst]
  · exact (State.layer_congr (State.setHead_layers ..) _).trans hstalls.layer
  · rw [State.head_setHead_same]; rfl

end

/-- What H1 finds behind H0's work: its record, its layer and its place. -/
theorem HeadWorks.behindH0 {s w : State} {x : LayerId} (k : HeadWorks s w .h0 x) {r : Recording} {l : Layer}
    (hr : s.head1 = some r) (hx : x ≠ r.layer) (hl : s.layer r.layer = some l) :
    w.head .h1 = some r ∧ w.layer r.layer = some l ∧ w.headPlace r = s.headPlace r :=
  ⟨(k.head .h1 (by decide)).trans hr, (k.layer _ hx.symm).trans hl, k.headPlace r⟩

section
variable {s : State} {r0 r1 : Recording} {l0 l1 : Layer} (ins : Vector Sample 4) (hr0 : s.head0 = some r0)
  (hr1 : s.head1 = some r1) (hne : r0.layer ≠ r1.layer) (hl0 : s.layer r0.layer = some l0)
  (hl1 : s.layer r1.layer = some l1) (hfirst0 : r0.index = none) (hfirst1 : r1.index = none)
  (hi0 : l0.map[s.headPlace r0 / 4096]? = some none ∨ l0.map.length = s.headPlace r0 / 4096)
  (hi1 : l1.map[s.headPlace r1 / 4096]? = some none ∨ l1.map.length = s.headPlace r1 / 4096) (hmem : s.memoryLegal)
include hr0 hr1 hne hl0 hl1 hfirst0 hfirst1 hi0 hi1 hmem

/-- With two blocks free to the heads, H0 claims the first and H1 the second (R95). -/
theorem headsAdvanced_bothStored {b0 b1 : BlockId} {rest : List BlockId} (hf : s.pool.free = b0 :: b1 :: rest)
    (hb : s.pool.behind.getD 0 ≤ rest.length) (hn : s.pool.free.Nodup) :
    (s.headsAdvanced ins).bounce = s.bounce ∧ (s.headsAdvanced ins).pool.free = rest
      ∧ (s.headsAdvanced ins).mapEntry r0.layer (s.headPlace r0 / 4096) = some b0
      ∧ (s.headsAdvanced ins).mapEntry r1.layer (s.headPlace r1 / 4096) = some b1
      ∧ (s.headsAdvanced ins).mem.sample b0 (s.headPlace r0 % 4096) = toSample (inputSum r0.mask ins)
      ∧ (s.headsAdvanced ins).mem.sample b1 (s.headPlace r1 % 4096) = toSample (inputSum r1.mask ins) := by
  have k0 := advanceHead_firstStored (h := .h0) ins hr0 hl0 hfirst0 hi0 hf (hb.trans (Nat.le_succ _)) hmem
  obtain ⟨hr, hl, hplace⟩ := k0.works.behindH0 hr1 hne hl1
  have k1 : FirstStored _ (s.headsAdvanced ins) .h1 r1 b1 rest _ := advanceHead_firstStored ins hr hl hfirst1 (hplace ▸ hi1)
    k0.free (k0.behind ▸ hb) ((advanceHead_keeps ..).memory hmem)
  have hb01 : b0 ≠ b1 := fun e => by
    rw [hf, e] at hn
    exact (List.nodup_cons.1 hn).1 List.mem_cons_self
  refine ⟨k1.works.bounce.trans k0.works.bounce, k1.free, (k1.works.mapEntry_other hne _).trans k0.entry, ?_,
    (k1.others b0 _ hb01).trans k0.sample, ?_⟩ <;> rw [← hplace]
  · exact k1.entry
  · exact k1.sample

/-- With one block free to the heads, H0 claims it and H1 is STALLED (R78, R95). -/
theorem headsAdvanced_storedStalled {b0 : BlockId} {rest : List BlockId} (hf : s.pool.free = b0 :: rest)
    (hb : s.pool.behind.getD 0 = rest.length) (hmode : r1.mode ≠ .defining) :
    (s.headsAdvanced ins).bounce = s.bounce ∧ (s.headsAdvanced ins).pool.free = rest
      ∧ (s.headsAdvanced ins).mapEntry r0.layer (s.headPlace r0 / 4096) = some b0
      ∧ (s.headsAdvanced ins).mem.sample b0 (s.headPlace r0 % 4096) = toSample (inputSum r0.mask ins)
      ∧ ((s.headsAdvanced ins).layer r1.layer).map (·.gapped) = some true
      ∧ ((s.headsAdvanced ins).head .h1).map (·.stalled) = some true := by
  have k0 := advanceHead_firstStored (h := .h0) ins hr0 hl0 hfirst0 hi0 hf hb.le hmem
  obtain ⟨hr, hl, hplace⟩ := k0.works.behindH0 hr1 hne hl1
  have k1 : FirstStalled _ (s.headsAdvanced ins) .h1 r1 l1 := advanceHead_firstStalled ins hr hl hfirst1 (hplace ▸ hi1)
    (by rw [k0.free, k0.behind, hb]) hmode
  refine ⟨k1.works.bounce.trans k0.works.bounce, k1.free.trans k0.free, (k1.works.mapEntry_other hne _).trans k0.entry, ?_,
    ?_, k1.head⟩
  · rw [k1.mem, k0.sample]
  · rw [k1.layer]
    rfl

end

/-! ### The statement's parts -/

theorem inputSum_eq (mask : BitVec 4) (in0 in1 in2 in3 : Sample) :
    inputSum mask #v[in0, in1, in2, in3] = satSum ((List.finRange 4).map fun k =>
      if mask.getLsbD k.val then (![in0.toInt, in1.toInt, in2.toInt, in3.toInt] : InputId → Int) k else 0) := by
  unfold inputSum
  congr 2
  funext k
  fin_cases k <;> rfl

theorem HeadWorks.stays {s t : State} {h : HeadId} {x : LayerId} (k : HeadWorks s t h x) :
    (∀ y, y ≠ x → t.layer y = s.layer y) ∧ (∀ j, j ≠ h → t.head j = s.head j) ∧ t.cues = s.cues ∧ t.mix = s.mix
      ∧ t.bounce = s.bounce ∧ t.sup = s.sup ∧ t.scenes = s.scenes ∧ t.tones = s.tones :=
  ⟨k.layer, k.head, k.cues, k.mix, k.bounce, k.sup, k.scenes, k.tones⟩

/-- The pool's frees, and the reports they arm unless they stand behind the claims of the frame (R97, R100). -/
theorem release_arms (p : Pool) (bs : List BlockId) :
    (p.release bs).lowArmed = (p.lowArmed || decide (bs ≠ [] ∧ p.behind = none ∧ 192 ≤ p.free.length + bs.length))
      ∧ (p.release bs).emptyArmed
        = (p.emptyArmed || decide (bs ≠ [] ∧ p.behind = none ∧ 192 ≤ p.free.length + bs.length)) := by
  have hon : (decide (bs ≠ []) && p.behind.isNone && decide (192 ≤ (p.free ++ bs).length))
      = decide (bs ≠ [] ∧ p.behind = none ∧ 192 ≤ p.free.length + bs.length) := by
    rw [Bool.eq_iff_iff]
    simp [and_assoc]
  exact ⟨congrArg (p.lowArmed || ·) hon, congrArg (p.emptyArmed || ·) hon⟩

section
variable {s : State} (in0 in1 in2 in3 : Sample) (hs : s.sup.state = .ready) (ho : s.frameOwes = false)
  (ht : s.clock.transport = .running) (hm : s.clock.startMark = .none) (hq : s.bounce.queue = [])
include hs ho ht hm

theorem exec_audioFrame_closes (hrun : (s.headsAdvanced #v[in0, in1, in2, in3]).running = none) :
    ∃ t, exec (.audioFrame in0 in1 in2 in3) s = .next t ∧ FrameCloses (s.headsAdvanced #v[in0, in1, in2, in3]) t :=
  ⟨_, exec_audioFrame_ready in0 in1 in2 in3 hs ho, readyFrame_closes _ (by simp [State.moving, ht, hm]) hrun⟩

include hq

/-- A frame with one head busy is that head's entry, its step, and the close. -/
theorem exec_audioFrame_oneHead {h : HeadId} {r : Recording} (hr : s.head h = some r)
    (hother : ∀ j, j ≠ h → s.head j = none) :
    ∃ t, exec (.audioFrame in0 in1 in2 in3) s = .next t
      ∧ FrameCloses ((s.enterHead h).stepHead h (s.headPlace r / 4096) (s.headPlace r % 4096) #v[in0, in1, in2, in3]) t := by
  have hadvanced := headsAdvanced_one #v[in0, in1, in2, in3] hr hother
  rw [← advanceHead_busy _ hr, ← hadvanced]
  exact exec_audioFrame_closes in0 in1 in2 in3 hs ho ht hm (hadvanced ▸ advanceHead_running _ hr hq)

end

/-- Settles O51: an entry is `enterIndex_reopens`, `enterIndex_claims`, `enterIndex_stalls`, `enterIndex_cuts_noBar` or
`enterIndex_cuts_bars`; a frame with one head busy is `exec_audioFrame_oneHead`, whose sample is `FrameCloses.stored`; two heads
that enter their first index are `headsAdvanced_bothStored` or `headsAdvanced_storedStalled`; the claims named in a frame that is
no boundary are `tickBoundary_later`. -/
theorem writingHeadStoresItsSample : Obligations.WritingHeadStoresItsSample := by
  refine ⟨fun s h r l hr hl hp => ?_, fun s in0 in1 in2 in3 hs ho ht hm hq hmem => ?_, fun w hs hd => ?_, fun p bs => ?_⟩
  · intro place i f t closes stays entered
    have hplace : s.headPlace r = place := headPlace_eq s r
    refine ⟨fun hi => enterHead_stays_in hr (hplace ▸ hi), fun hi => ?_⟩
    have henter : t = s.enterIndex h r i f := by
      show s.enterHead h = _
      rw [enterHead_enters hr (hplace.symm ▸ hi), hplace]
    clear_value t
    subst henter
    refine ⟨fun b hb => ?_, fun hsilent => ⟨fun b rest hf hb => ?_, fun hb hmode => ?_, fun hb hmode => ?_⟩⟩
    · have k : Reopens s (s.enterIndex h r i f) h r i f b := enterIndex_reopens hl hb
      exact ⟨⟨fun a => by rw [k.mem]; exact closeOpen_read hl a, k.checked hl hp hi hb⟩, k.works.stays, k.layers, k.head,
        k.free, k.works.clock, k.works.tracks, k.link, fun o ho => k.entry hl hp hi hb ho⟩
    · intro count
      have k : Claims s (s.enterIndex h r i f) h r l i f b rest := enterIndex_claims hl (join_of_silent hsilent) hf hb
      refine ⟨k.works.stays, k.head, ?_, ?_, ?_, k.read hl, ?_, ?_, k.link, k.works.clock, k.works.tracks⟩
      · rw [k.layer, nameEntry_eq b hsilent]
      · rw [k.pool]
      · rw [k.entry, if_pos rfl]
      · exact k.checked hl hp hf (Nat.mod_lt _ (by decide)).le
      · rw [k.pool]
    · have k : Stalls s (s.enterIndex h r i f) h r l i := enterIndex_stalls hl (join_of_silent hsilent) hb hmode
      exact ⟨⟨fun a => by rw [k.mem]; exact closeOpen_read hl a, k.checked hl⟩, k.works.stays, k.head, k.layer, k.free,
        by rw [k.pool], k.link, k.works.clock, k.works.tracks⟩
    · intro barFrames k n
      have hnone := join_of_silent hsilent
      by_cases hk : k = 0
      · obtain ⟨hcut, hlayer, hothers, hfree⟩ := enterIndex_cuts_noBar (h := h) (f := f) hl hnone hb hmode hk
        exact ⟨hcut.read, hcut.head, fun _ => ⟨hlayer, hothers, hfree⟩, fun e => absurd hk e⟩
      · obtain ⟨hcut, hsealed⟩ := enterIndex_cuts_bars (h := h) (f := f) hl hnone hb hmode hp hk
        exact ⟨hcut.read, hcut.head, fun e => absurd e hk, fun _ => hsealed⟩
  · intro ins placeOf sumOf
    have hplace : ∀ r, s.headPlace r = placeOf r := headPlace_eq s
    have hsum : ∀ r, inputSum r.mask #v[in0, in1, in2, in3] = sumOf r := fun r => inputSum_eq r.mask in0 in1 in2 in3
    refine ⟨fun h r hr hother => ?_, fun r0 r1 l0 l1 hr0 hr1 hne hl0 hl1 hfirst0 hfirst1 hp => ?_⟩
    · intro i f sum u
      obtain ⟨t, hexec, hcloses⟩ := exec_audioFrame_oneHead in0 in1 in2 in3 hs ho ht hm hq hr hother
      rw [hplace] at hcloses
      have hlegal : u.memoryLegal := (enterHead_keeps s h).memory hmem
      have hothers : ∀ j, j ≠ h → u.head j = none := fun j hj => (enterHead_otherHead hr hj).trans (hother j hj)
      refine ⟨t, hexec, by rw [hcloses.pool, stepHead_pool], ?_, ?_, ?_, fun j hj => ?_, fun hv => ?_, fun v hv => ?_⟩
      · exact hcloses.cues.trans ((stepHead_stays ..).cues.trans (enterHead_stays s h).cues)
      · exact hcloses.sup.trans ((stepHead_keeps ..).sup.trans (enterHead_keeps s h).sup)
      · exact hcloses.scenes.trans ((stepHead_stays ..).scenes.trans (enterHead_stays s h).scenes)
      · rw [hcloses.head, stepHead_otherHead _ _ _ _ hj, hothers j hj]
      · rw [stepHead_idle _ _ _ hv] at hcloses
        exact ⟨(hcloses.head h).trans hv, hcloses.mem, hcloses.layers⟩
      · refine ⟨(hcloses.head h).trans (stepHead_head _ _ _ hv), hcloses.silent hv, fun l b hwriting hl hb => ?_⟩
        obtain ⟨hlayer, hmask⟩ := enterHead_keepsRecord hr hv
        have hstored := hcloses.stored hlegal hv hwriting (hlayer ▸ hl) hb
        rw [hlayer, hmask, hsum] at hstored
        exact hstored
    · intro i0 i1 hsilent0 hsilent1
      have hi0 : i0 = s.headPlace r0 / 4096 := congrArg (· / 4096) (hplace r0).symm
      have hi1 : i1 = s.headPlace r1 / 4096 := congrArg (· / 4096) (hplace r1).symm
      clear_value i0 i1
      subst hi0 hi1
      rw [← hplace, ← hplace, ← hsum, ← hsum]
      refine ⟨fun b0 b1 rest hf hb => ?_, fun b0 rest hf hb hmode => ?_⟩
      · obtain ⟨hbounce, hfree, hentry0, hentry1, hsample0, hsample1⟩ := headsAdvanced_bothStored #v[in0, in1, in2, in3]
          hr0 hr1 hne hl0 hl1 hfirst0 hfirst1 hsilent0 hsilent1 hmem hf hb hp.freeOnce
        obtain ⟨t, hexec, hcloses⟩ :=
          exec_audioFrame_closes in0 in1 in2 in3 hs ho ht hm (running_of_nil (by rw [hbounce, hq]))
        refine ⟨t, hexec, hcloses.free.trans hfree, (hcloses.mapEntry ..).trans hentry0,
          (hcloses.mapEntry ..).trans hentry1, ?_⟩
        rw [hcloses.mem]
        exact ⟨hsample0, hsample1⟩
      · obtain ⟨hbounce, hfree, hentry0, hsample0, hgapped, hstalled⟩ := headsAdvanced_storedStalled #v[in0, in1, in2, in3]
          hr0 hr1 hne hl0 hl1 hfirst0 hfirst1 hsilent0 hsilent1 hmem hf hb hmode
        obtain ⟨t, hexec, hcloses⟩ :=
          exec_audioFrame_closes in0 in1 in2 in3 hs ho ht hm (running_of_nil (by rw [hbounce, hq]))
        refine ⟨t, hexec, hcloses.free.trans hfree, (hcloses.mapEntry ..).trans hentry0, ?_, ?_, ?_⟩
        · rw [hcloses.mem]
          exact hsample0
        · rw [hcloses.layer]
          exact hgapped
        · exact (congrArg _ (hcloses.head .h1)).trans hstalled
  · exact tickBoundary_later hs hd
  · exact ⟨rfl, rfl, (release_arms p bs).1, (release_arms p bs).2⟩

end Sys2Proof.Machine
end

