-- ==== Sys2Proof/Proofs/BlockStore.lean ====
section
/-! The sample memory's canonical form and the block partition, which every step keeps (R91, R93, R94, R100). The shared
operations keep both (`Keeps.memory`, `Keeps.pool`); here are the requests, the boundaries, the frame, the resets and the
verify scan. -/

namespace Sys2Proof.Machine

/-- From s to t the sample memory stays canonical and the block partition exact. -/
structure StoreKept (s t : State) : Prop where
  memory : s.memoryLegal → t.memoryLegal
  pool : s.poolLegal → t.poolLegal

theorem Keeps.store {s t : State} (h : Keeps s t) : StoreKept s t := ⟨h.memory, h.pool⟩

theorem StoreKept.refl (s : State) : StoreKept s s := ⟨id, id⟩

theorem StoreKept.trans {s t u : State} (h : StoreKept s t) (k : StoreKept t u) : StoreKept s u :=
  ⟨k.memory ∘ h.memory, k.pool ∘ h.pool⟩

theorem StoreKept.ite {c : Prop} [Decidable c] {s t u : State} (h : StoreKept s t) (k : StoreKept s u) :
    StoreKept s (if c then t else u) := by split <;> assumption

theorem StoreKept.foldl {α : Type} {f : State → α → State} (h : ∀ s x, StoreKept s (f s x)) (l : List α) (s : State) :
    StoreKept s (l.foldl f s) := by
  induction l generalizing s with
  | nil => exact StoreKept.refl s
  | cons x l ih => exact (h s x).trans (ih _)

/-- The memory, the block table, the free list and the layers are all that the two forms read. -/
theorem StoreKept.of_same {s t : State} (hmem : t.mem = s.mem) (hfree : t.pool.free = s.pool.free)
    (howned : t.pool.owned = s.pool.owned) (hlayers : t.layers = s.layers) : StoreKept s t := by
  refine ⟨fun h => ?_, State.poolLegal_congr hfree (fun b => ?_) fun x l' hx => Or.inr ⟨l', ?_, rfl⟩⟩
  · unfold State.memoryLegal
    rw [hmem]
    exact h
  · rw [Pool.entry_congr howned]
  · rw [← hx]
    exact (State.layer_congr hlayers x).symm

/-- An operation that keeps both, behind a change of what neither form reads. -/
theorem StoreKept.behind {s t u : State} (k : StoreKept t u) (hmem : t.mem = s.mem) (hfree : t.pool.free = s.pool.free)
    (howned : t.pool.owned = s.pool.owned) (hlayers : t.layers = s.layers) : StoreKept s u :=
  (StoreKept.of_same hmem hfree howned hlayers).trans k

theorem VoicesOnly.store {s u : State} (h : VoicesOnly s u) : StoreKept s u :=
  .of_same h.mem (congrArg Pool.free h.pool) (congrArg Pool.owned h.pool) h.layers

/-! ### The requests -/

theorem takeRequest_store (s : State) : StoreKept s s.takeRequest := by
  have harrive : StoreKept s s.arriveNow := by
    rw [arriveNow_fields]
    exact .of_same rfl rfl rfl rfl
  exact (harrive.trans (finishWalk_keeps _).store).trans (.of_same rfl rfl rfl rfl)

/-- A request's owner keeps the memory's form and the block partition. -/
def StoreOwner (owner : Owner) : Prop := ∀ u p, StoreKept u (owner u p).1

theorem serve_store {kind : Byte} {others : List Byte} {tag : Byte} {payload : List Byte} {owner : Owner} (s : State)
    (ho : StoreOwner owner) : StoreKept s (serve kind others tag payload owner s) := by
  unfold serve
  refine .ite (.refl s) (.ite ?_ ?_)
  · exact ((takeRequest_store s).trans (ho _ payload)).trans (.of_same rfl rfl rfl rfl)
  · exact (takeRequest_store s).trans (.of_same rfl rfl rfl rfl)

theorem ownSetTempo_store : StoreOwner ownSetTempo := fun u p => by
  unfold ownSetTempo
  split
  · split
    · exact .refl u
    · split
      · exact .refl u
      · next hr =>
        split
        · exact .refl u
        · exact (stageTempo_keeps u _ _ fun _ => tempoInRange_iff.1 (by simpa using hr)).store
  · exact .refl u

theorem ownTap_store : StoreOwner ownTap := fun u p => by
  have htaps : ∀ taps, StoreKept u (u.setTaps taps) := fun _ => .of_same rfl rfl rfl rfl
  unfold ownTap State.takeTap
  split
  · exact .refl u
  · split
    · exact .refl u
    · dsimp only
      split
      · exact htaps _
      · split
        · next hp => exact (htaps []).trans (stageTempo_keeps (u.setTaps []) _ _ fun h => ⟨hp, h.meter⟩).store
        · exact htaps []

theorem ownStart_store : StoreOwner ownStart := fun u p => by
  unfold ownStart
  split
  · split
    · exact .refl u
    · split
      · exact .refl u
      · split
        · exact .refl u
        · split
          · exact .refl u
          · exact (reportTransport_keeps ..).store.behind rfl rfl rfl rfl
  · exact .refl u


theorem ownStop_store : StoreOwner ownStop := fun u p => by
  unfold ownStop
  split
  · exact .refl u
  · exact (stopTransport_keeps ..).store

theorem ownStandby_store : StoreOwner ownStandby := fun u p => by
  have hflush := flushTones_keeps u .standby
  have hpool : (u.flushTones .standby).pool = u.pool := by
    unfold State.flushTones
    split
    · exact State.report_pool ..
    · rfl
  have hs : StoreKept u u.enterStandby :=
    hflush.store.trans (.of_same rfl (congrArg Pool.free hpool).symm (congrArg Pool.owned hpool).symm rfl)
  unfold ownStandby
  split
  · exact .refl u
  · split
    · exact .refl u
    · dsimp only [answer]
      split
      · exact hs
      · exact hs.trans (.of_same rfl rfl rfl rfl)

theorem haltEvent_store (s : State) (source : HaltSource) : StoreKept s (s.haltEvent source) := by
  cases hl : s.sup.latch with
  | true => rw [haltEvent_latched source hl]; exact .refl s
  | false => exact (haltEvent_keeps s source hl).store.behind rfl rfl rfl rfl

theorem haltFromMemory_store (s : State) (source : HaltSource) : StoreKept s (s.haltFromMemory source) :=
  .ite ((haltEvent_store ..).behind rfl rfl rfl rfl) (.refl s)

theorem ownHaltConfigWrite_store : StoreOwner ownHaltConfigWrite := fun u p => by
  unfold ownHaltConfigWrite
  split
  · split
    · exact .refl u
    · split
      · exact .refl u
      · split
        · exact .refl u
        · exact (haltFromMemory_store ..).behind rfl rfl rfl rfl
  · exact .refl u

theorem requestCue_store (u : State) (a : Action) (g : Grid) (delay : Nat) (replace : Bool) :
    StoreKept u (u.requestCue a g delay replace).1 := by
  have hremoved :
      StoreKept u (State.replaceRemove { u with cues := { u.cues with nextId := u.cues.nextId + 1 } } a replace) := by
    rw [replaceRemove_eq]
    exact .of_same rfl rfl rfl rfl
  unfold State.requestCue State.acceptCue
  split
  · exact .refl u
  · split
    · exact .refl u
    · dsimp only
      split
      · exact hremoved.trans (executeCue_keeps ..).store
      · exact hremoved.trans (.of_same rfl rfl rfl rfl)

theorem ownCue_store : StoreOwner ownCue := fun u p => by
  unfold ownCue
  split
  · split
    · exact .refl u
    · split
      · exact .refl u
      · exact requestCue_store ..
  · exact .refl u

theorem ownClearAll_store : StoreOwner ownClearAll := fun u p => by
  unfold ownClearAll
  split
  · exact .refl u
  · exact requestCue_store ..

theorem ownTrackConfig_store : StoreOwner ownTrackConfig := fun u p => by
  unfold ownTrackConfig
  split
  · split
    · exact .refl u
    · split
      · exact .refl u
      · split
        · exact .refl u
        · exact ((muteAction_voicesOnly ..).trans (oneShotAction_voicesOnly ..)).store.behind rfl rfl rfl rfl
  · exact .refl u

theorem ownSetLevel_store : StoreOwner ownSetLevel := fun u p => by
  unfold ownSetLevel
  split
  · split
    · exact .refl u
    · split
      · exact .refl u
      · split
        · exact .refl u
        · next x _ _ l hl =>
          refine (setLayer_keeps (u.hear (.layer x l.level)) x _ fun l' e => Or.inr ⟨l, hl, ?_⟩).store.behind rfl rfl rfl rfl
          rw [← Option.some.inj e]
  · exact .refl u

theorem ownBounce_store : StoreOwner ownBounce := fun u p => by
  unfold ownBounce
  split
  · split
    · exact .refl u
    · dsimp only
      split
      · exact .refl u
      · split
        · exact .refl u
        · split
          · exact .refl u
          · split
            · exact .refl u
            · exact (requestBounce_keeps ..).store
  · exact .refl u

theorem ownCancelBounceById_store : StoreOwner ownCancelBounceById := fun u p => by
  unfold ownCancelBounceById
  split
  · split
    · exact .refl u
    · split
      · exact .refl u
      · split
        · exact .refl u
        · exact (abortBounces_keeps ..).store
  · exact .refl u

theorem ownCancelBounceAll_store : StoreOwner ownCancelBounceAll := fun u p => by
  unfold ownCancelBounceAll
  split
  · exact .refl u
  · split
    · exact .refl u
    · exact (abortBounces_keeps ..).store

theorem ownToneFlush_store : StoreOwner ownToneFlush := fun u p => by
  unfold ownToneFlush
  split
  · exact .refl u
  · exact (flushTones_keeps ..).store.behind rfl rfl rfl rfl

/-! ### The boundaries and the frame -/

theorem takeRunning_store (s : State) (now : Receivers) : StoreKept s (s.takeRunning now) := by
  have hmarked : StoreKept s s.runningMarked := .of_same rfl rfl rfl rfl
  rw [takeRunning_reported]
  refine ((hmarked.trans (runningReported_voicesOnly s).store).trans ?_).trans (startWalk_keeps _).store
  exact (receive_keeps ..).store.behind rfl rfl rfl rfl

theorem takeCountIn_store (s : State) (now : Receivers) : StoreKept s (s.takeCountIn now) := by
  rw [takeCountIn_ticked]
  exact (receive_keeps ..).store.behind rfl rfl rfl rfl

theorem takeTick_store (s : State) (now : Receivers) : StoreKept s (s.takeTick now) := by
  unfold State.takeTick
  split
  · split
    · exact .refl s
    · split
      · exact (placeClaims_keeps ..).store.behind rfl rfl rfl rfl
      · exact .ite (.refl s) (takeCountIn_store s now)
      · exact takeRunning_store s now
  · exact .ite ((endBegunWalk_keeps s).trans (receive_keeps ..)).store (.refl s)

theorem countInBegins_store (s : State) (now : Receivers) : StoreKept s (s.countInBegins now) :=
  .ite ((receive_keeps ..).store.behind rfl rfl rfl rfl) (.refl s)

theorem startNow_store (s : State) (now : Receivers) : StoreKept s (s.startNow now) := by
  have hticked : StoreKept s s.startTicked := .of_same rfl rfl rfl rfl
  have hmarked : StoreKept s s.startMarked :=
    (hticked.trans (startArmed_voicesOnly s).store).trans (.of_same rfl rfl rfl rfl)
  rw [startNow_marked]
  exact hmarked.trans ((reportBar_keeps _).trans ((receive_keeps ..).trans (startWalk_keeps _))).store

theorem startsNow_store (s : State) (now : Receivers) : StoreKept s (s.startsNow now) :=
  .ite ((startNow_store ..).behind rfl rfl rfl rfl) (.refl s)

theorem countInOver_store (s : State) (now : Receivers) : StoreKept s (s.countInOver now) := by
  have hentered : StoreKept s s.enterRunning := by
    rw [enterRunning_eq]
    exact .of_same rfl rfl rfl rfl
  exact .ite (hentered.trans (startNow_store ..)) (.refl s)

theorem closeFrame_store (s : State) : StoreKept s s.closeFrame := by
  refine .of_same rfl ?_ ?_ rfl <;> exact (apply_ite _ _ _ _).trans (ite_self _)

theorem readyFrame_store (s : State) (ins : Vector Sample 4) : StoreKept s (s.readyFrame ins) := by
  have hadvanced : StoreKept s (if s.moving then (s.advanceHead ins .h0).advanceHead ins .h1 else s) :=
    .ite ((advanceHead_keeps ..).trans (advanceHead_keeps ..)).store (.refl s)
  unfold State.readyFrame
  dsimp only
  generalize (if s.moving then (s.advanceHead ins .h0).advanceHead ins .h1 else s) = s1 at hadvanced ⊢
  have hmixed : StoreKept s { s1 with outputs := s1.mixFrame ins } := hadvanced.trans (.of_same rfl rfl rfl rfl)
  have hcounted := hmixed.trans (foldl_countOneShot_keeps _).store
  generalize (List.finRange 8).foldl State.countOneShot _ = s3 at hcounted ⊢
  have htoned : StoreKept s { s3 with tones := s3.tones.frame } := hcounted.trans (.of_same rfl rfl rfl rfl)
  have hbounced := htoned.trans (bounceFrame_keeps _).store
  exact hbounced.trans ((closeFrame_store _).behind rfl rfl rfl rfl)

/-! ### The resets -/

theorem startReset_store (s : State) (cause : CauseSet) : StoreKept s (s.startReset cause) :=
  .ite (.of_same rfl rfl rfl rfl) ((finishWalk_keeps s).store.trans (.of_same rfl rfl rfl rfl))

/-- A cold reset leaves the memory empty and every block FREE (R107, R170). -/
theorem coldValues_store (s : State) (haltHigh : Bool) : StoreKept s (s.coldValues haltHigh).resetEndCheck.hello := by
  obtain ⟨hmem, -, -, hpool, -⟩ := resetStateIsLegal
  have hcold : StoreKept State.reset (s.coldValues haltHigh).resetEndCheck := .of_same rfl rfl rfl rfl
  have hhello := hcold.trans (hello_keeps _).store
  exact ⟨fun _ => hhello.memory hmem, fun _ => hhello.pool hpool⟩

/-- The free list rebuilt holds the blocks the block table does not, each once (R107). -/
theorem poolLegal_rebuilt {s t : State} (hpool : s.poolLegal) (hfree : t.pool.free = t.pool.rebuild.free)
    (howned : t.pool.owned = s.pool.owned)
    (hlayers : ∀ x l', t.layer x = some l' → ∃ l, s.layer x = some l ∧ l'.map = l.map) : t.poolLegal := by
  refine ⟨?_, fun b => ?_, fun x l' hx => ?_, fun x l' hx => ?_⟩
  · rw [hfree, Pool.rebuild_free]
    exact allBlocks_nodup.filter _
  · rw [hfree, Pool.rebuild_free, List.mem_filter, Option.isNone_iff_eq_none]
    exact and_iff_right (mem_allBlocks b)
  · obtain ⟨l, hl, hmap⟩ := hlayers x l' hx
    rw [hmap, Pool.entry_congr howned]
    exact hpool.named x l hl
  · obtain ⟨l, hl, hmap⟩ := hlayers x l' hx
    rw [hmap]
    exact hpool.namedOnce x l hl

theorem endWarm_store (s : State) : StoreKept s s.endWarm := by
  have hidle : StoreKept s { s with head0 := none, head1 := none } := .of_same rfl rfl rfl rfl
  have hunfilled : StoreKept s s.unfilled := hidle.trans (Keeps.foldl freeLayer_keeps _ _).store
  have hmem : s.endWarm.mem = s.unfilled.mem := by
    rw [(endWarm_ends s).same, cleanup_eq_cleaned, cleaned_same]
  have howned : s.endWarm.pool.owned = s.unfilled.pool.owned := by
    rw [(endWarm_ends s).pool, Pool.rebuild_owned, cleanup_eq_cleaned, cleaned_same]
  have hrebuilt : s.endWarm.pool.free = s.endWarm.pool.rebuild.free := by
    rw [Pool.rebuild_free, Pool.entry_congr (State.endWarm_pool_owned s), Pool.entry_congr (hello_pool_owned s),
      ← Pool.rebuild_free, (endWarm_ends s).pool]
  refine ⟨fun h => ?_, fun h => poolLegal_rebuilt (hunfilled.pool h) hrebuilt howned fun x l' hx => ?_⟩
  · unfold State.memoryLegal
    rw [hmem]
    exact hunfilled.memory h
  · rw [layer_endWarm] at hx
    obtain ⟨l, hl, rfl⟩ := Option.map_eq_some_iff.1 hx
    exact ⟨l, hl, rfl⟩

/-! ### The verify scan -/

theorem upset_store (b : BlockId) (s : State) (c : Host.Cell) : StoreKept s (State.upset b s c) := by
  unfold State.upset
  split
  · next hc =>
    refine (mem_keeps s _ fun h => Memory.write_wf _ ?_ h).store
    have hb := b.isLt
    unfold memorySize
    omega
  · exact .refl s

theorem markDamaged_keeps (s : State) (b : BlockId) : Keeps s (s.markDamaged b) := by
  unfold State.markDamaged
  split
  · exact modLayer_keeps _ _ _ fun _ => rfl
  · exact Keeps.refl s

theorem visit_keeps (s : State) (b : BlockId) : Keeps s (s.visit b) := by
  unfold State.visit
  split
  · exact Keeps.refl s
  · exact (setCheck_keeps ..).trans (markDamaged_keeps ..)

theorem reportReady_keeps (s : State) (freed checked : Nat) : Keeps s (s.reportReady freed checked) := report_keeps ..

theorem endScan_store (s : State) (freed checked : Nat) : StoreKept s (s.endScan freed checked) :=
  (reportReady_keeps ..).store.behind rfl rfl rfl rfl

theorem scanOn_store (s : State) (v : Scan) : StoreKept s (s.scanOn v) := by
  unfold State.scanOn
  split
  · exact .of_same rfl rfl rfl rfl
  · exact endScan_store ..

theorem visitEnd_store (s : State) (upsets : List Host.Cell) (v : Scan) :
    StoreKept s (((upsets.foldl (State.upset v.next) s).visit v.next).scanOn v) :=
  ((StoreKept.foldl (upset_store v.next) upsets s).trans (visit_keeps ..).store).trans (scanOn_store ..)

/-! ### The link's, the supply's and the halt line's events -/

theorem arrive_store (s : State) (f : Frame) : StoreKept s (s.arrive f) := by
  unfold State.arrive State.offer State.arriveWake State.arriveTimer
  repeat' split
  all_goals exact .of_same rfl rfl rfl rfl

theorem sendFirst_store (s : State) : StoreKept s s.sendFirst := by
  unfold State.sendFirst
  repeat' split
  all_goals exact .of_same rfl rfl rfl rfl

theorem silenceExpires_store (s : State) : StoreKept s s.silenceExpires := by
  by_cases ht : s.clock.transport = .stopped
  · rw [silenceExpires_stopped ht]
    exact (report_keeps ..).store.behind rfl rfl rfl rfl
  · rw [silenceExpires_moving ht, autopilotMoving_eq]
    exact (report_keeps ..).store.behind rfl rfl rfl rfl

theorem cross_store (s : State) (low : Bool) (vdd : Half) : StoreKept s (s.cross low vdd) :=
  (report_keeps ..).store.behind rfl rfl rfl rfl

theorem fallLow_store (s : State) (vdd : Half) : StoreKept s (s.fallLow vdd) :=
  .ite (.ite ((cross_store ..).trans (.of_same rfl rfl rfl rfl)) (cross_store ..)) (.refl s)

theorem riseNormal_store (s : State) (vdd : Half) : StoreKept s (s.riseNormal vdd) := .ite (cross_store ..) (.refl s)

theorem endWake_store (s : State) (w : Wake) (duration : Half) : StoreKept s (s.endWake w duration) := by
  have hwoken : StoreKept s (s.woken w duration) := (report_keeps ..).store.behind rfl rfl rfl rfl
  exact .ite (hwoken.trans (haltEvent_store ..)) hwoken

theorem edge_store (s : State) : StoreKept s s.edge := by
  have hrunning : StoreKept s (if s.sup.detection then s.finishWalk.haltEvent .edge
      else { s with sup := { s.sup with edgeMemory := true } }) :=
    .ite ((finishWalk_keeps s).store.trans (haltEvent_store ..)) (.of_same rfl rfl rfl rfl)
  unfold State.edge
  split
  · exact .refl s
  · exact hrunning
  · exact hrunning
  · exact .ite (.of_same rfl rfl rfl rfl) (.refl s)
  · exact .ite (.of_same rfl rfl rfl rfl) (.refl s)

/-! ### Every command -/

theorem storeKept_of_done {s u t : State} (h : done u = .next t) (k : StoreKept s u) : StoreKept s t := by
  cases h
  exact k

theorem exec_store {i : Instr} {s t : State} (h : exec i s = .next t) : StoreKept s t := by
  have hbegun : StoreKept s s.beginHead := (beginHead_keeps s).store
  have hsettled : StoreKept s s.settleWalk := (settleWalk_keeps s).store
  cases i with
  | getStatus | resetCauseRead | linkConfigRead | supplyConfigRead | haltConfigRead | getPosition | poolInfo
  | clickConfigRead | monitorConfigRead =>
    exact storeKept_of_done h (serve_store s fun _ _ => .of_same rfl rfl rfl rfl)
  | resetCauseReadAndClear | restartWarm | restartCold | linkConfigWrite | supplyConfigWrite | haltClear | listCues
  | trackInfo | layerInfo | layerMap | bounceInfo | foldConfig | sceneWrite | sceneRead | sceneNextSet | sceneNextEmpty
  | sceneStop | clickConfigWrite | monitorConfigWrite | cancelCueById | cancelCueByTrack | cancelCueAll | tones =>
    refine storeKept_of_done h (serve_store s fun u _ => ?_)
    simp only [ownResetCauseReadAndClear, ownRestart, ownLinkConfigWrite, ownSupplyConfigWrite, ownHaltClear, ownListCues,
      ownTrackInfo, ownLayerInfo, ownLayerMap, ownBounceInfo, ownFoldConfig, ownSceneWrite, ownSceneRead, ownSceneNextSet,
      ownSceneNextEmpty, ownSceneStop, ownClickConfigWrite, ownMonitorConfigWrite, ownCancelCueById, ownCancelCueByTrack,
      ownCancelCueAll, ownTones]
    repeat' split
    all_goals exact .of_same rfl rfl rfl rfl
  | cue => exact storeKept_of_done h (serve_store s ownCue_store)
  | clearAll => exact storeKept_of_done h (serve_store s ownClearAll_store)
  | setLevel => exact storeKept_of_done h (serve_store s ownSetLevel_store)
  | trackConfig => exact storeKept_of_done h (serve_store s ownTrackConfig_store)
  | bounce => exact storeKept_of_done h (serve_store s ownBounce_store)
  | cancelBounceById => exact storeKept_of_done h (serve_store s ownCancelBounceById_store)
  | cancelBounceAll => exact storeKept_of_done h (serve_store s ownCancelBounceAll_store)
  | toneFlush => exact storeKept_of_done h (serve_store s ownToneFlush_store)
  | setTempo => exact storeKept_of_done h (serve_store s ownSetTempo_store)
  | tap => exact storeKept_of_done h (serve_store s ownTap_store)
  | start => exact storeKept_of_done h (serve_store s ownStart_store)
  | stop => exact storeKept_of_done h (serve_store s ownStop_store)
  | standby => exact storeKept_of_done h (serve_store s ownStandby_store)
  | haltConfigWrite => exact storeKept_of_done h (serve_store s ownHaltConfigWrite_store)
  | unknownRequest =>
    change (if _ then _ else _ : Result) = _ at h
    split at h
    · exact storeKept_of_done h (.refl s)
    · exact storeKept_of_done h ((takeRequest_store s).trans (.of_same rfl rfl rfl rfl))
  | frameDiscard | byteGap => exact storeKept_of_done h (.of_same rfl rfl rfl rfl)
  | startByte => exact storeKept_of_done h (.ite (.refl s) (.of_same rfl rfl rfl rfl))
  | wellFormedFrame => exact storeKept_of_done h (hsettled.trans (arrive_store ..))
  | frameSent => exact storeKept_of_done h (hsettled.trans (sendFirst_store _))
  | linkSilenceExpiry =>
    exact storeKept_of_done h (.ite ((finishWalk_keeps s).store.trans (silenceExpires_store _)) (.refl s))
  | audioFrame =>
    refine storeKept_of_done h ?_
    split
    · exact .ite (.refl s) (readyFrame_store ..)
    · exact .ite (.refl s) (.of_same rfl rfl rfl rfl)
    · exact .refl s
  | tickBoundary now => exact storeKept_of_done h (hbegun.trans (takeTick_store _ now))
  | countInBegin now => exact storeKept_of_done h (hbegun.trans (countInBegins_store _ now))
  | countInEnd now => exact storeKept_of_done h (hbegun.trans (countInOver_store _ now))
  | startInstant now => exact storeKept_of_done h (hbegun.trans (startsNow_store _ now))
  | pendingTempoApply => exact storeKept_of_done h (hsettled.trans (applyDue_keeps _).store)
  | cueExecute => exact storeKept_of_done h (.ite (cueStep_keeps s).store (.refl s))
  | endPendingSeal => exact storeKept_of_done h (hsettled.trans (sealDue_keeps ..).store)
  | trackLengthEnd => exact storeKept_of_done h (hsettled.trans (lengthEndDue_keeps ..).store)
  | oneShotSelfMute => exact storeKept_of_done h (hsettled.trans (selfMute_keeps ..).store)
  | bounceStart => exact storeKept_of_done h (hsettled.trans (startHead_keeps _).store)
  | bounceIndexBegin => exact storeKept_of_done h hbegun
  | bounceIndexFinish => exact storeKept_of_done h (hsettled.trans (finishHead_keeps _).store)
  | sceneCountdownEnd | dueSceneApply => exact storeKept_of_done h (.ite (takeSceneStep_keeps s).store (.refl s))
  | clickEnd => exact storeKept_of_done h (.ite (.of_same rfl rfl rfl rfl) (.refl s))
  | toneLoad | waveformFlip =>
    refine storeKept_of_done h ?_
    repeat' split
    all_goals exact .of_same rfl rfl rfl rfl
  | toneEntryEnd => exact storeKept_of_done h (hsettled.trans (entryEnd_keeps _).store)
  | power | brown | pin => exact storeKept_of_done h (startReset_store ..)
  | requestWarm | requestCold => exact storeKept_of_done h (.ite (startReset_store ..) (.refl s))
  | coldResetEnd => exact storeKept_of_done h (.ite (coldValues_store ..) (.refl s))
  | warmResetEnd => exact storeKept_of_done h (.ite (endWarm_store s) (.refl s))
  | verifyVisitEnd =>
    refine storeKept_of_done h ?_
    split
    · exact .refl s
    · exact .ite (visitEnd_store ..) (.refl s)
  | supplyLow => exact storeKept_of_done h (hsettled.trans (fallLow_store ..))
  | supplyOk => exact storeKept_of_done h (hsettled.trans (riseNormal_store ..))
  | wakeEnd =>
    refine storeKept_of_done h ?_
    split
    · exact .refl s
    · exact .ite (endWake_store ..) (.refl s)
  | haltEdge => exact storeKept_of_done h (.ite (.refl s) ((edge_store _).behind rfl rfl rfl rfl))
  | haltLineInactive => exact storeKept_of_done h (.ite (.of_same rfl rfl rfl rfl) (.refl s))

theorem step_store {s t : State} (h : step s = .next t) : StoreKept s t := by
  unfold step at h
  split at h
  · cases h
    exact .refl s
  · next i rest _ =>
    have hrest : StoreKept s { s with pending := rest } := .of_same rfl rfl rfl rfl
    exact hrest.trans (exec_store h)

/-- Settles O5, by the command at the front of the queue. -/
theorem memoryFormIsKeptByEveryStep : Obligations.MemoryFormIsKeptByEveryStep :=
  fun _ _ hs h => (step_store h).memory hs

/-- Settles O8, by the command at the front of the queue. -/
theorem blockPartitionIsKeptByEveryStep : Obligations.BlockPartitionIsKeptByEveryStep :=
  fun _ _ hs h => (step_store h).pool hs

end Sys2Proof.Machine
end

