-- ==== Sys2Proof/Proofs/CheckWords.lean ====
section
/-! The check word, where a close and a verify visit use it, and the verify scan (R101, R102, R104, R105, R106). -/

namespace Sys2Proof.Machine

/-! ### The bytes of a block -/

theorem sampleAddr_eq (b : BlockId) {f : Nat} (hf : f < 4096) : sampleAddr b f = b.val * 8192 + 2 * f := by
  unfold sampleAddr
  rw [Nat.mod_eq_of_lt hf]
  omega

/-- The cells at some addresses alone read as the whole memory at those addresses. -/
theorem Memory.read_filter (m : Memory) {p : Nat → Bool} {a : Nat} (ha : p a = true) :
    Memory.read (m.filter fun c => p c.1) a = m.read a := by
  induction m with
  | nil => rfl
  | cons c m ih =>
    rw [List.filter_cons]
    by_cases hc : p c.1 = true
    · rw [if_pos hc, Memory.read, Memory.read, ih]
    · have hne : c.1 ≠ a := fun e => hc (e ▸ ha)
      rw [if_neg hc, ih, Memory.read, if_neg hne]

theorem Memory.length_blockBytes (m : Memory) (b : BlockId) : (m.blockBytes b).length = 8192 := by
  unfold Memory.blockBytes
  rw [List.length_map, List.length_range]

theorem Memory.blockBytes_getElem? (m : Memory) (b : BlockId) {i : Nat} (hi : i < 8192) :
    (m.blockBytes b)[i]? = some (m.read (b.val * 8192 + i)) := by
  unfold Memory.blockBytes
  rw [List.getElem?_map, List.getElem?_range hi, Option.map_some]
  exact congrArg some
    (m.read_filter (p := fun a => b.val * 8192 ≤ a && a < b.val * 8192 + 8192) (by simp [hi]))

/-- A sample's low byte and its high byte stand one behind the other. -/
theorem Memory.extract_sample (m : Memory) (b : BlockId) (f : Nat) :
    (m.sample b f).extractLsb' 0 8 = m.read (sampleAddr b f)
      ∧ (m.sample b f).extractLsb' 8 8 = m.read (sampleAddr b f + 1) := by
  unfold Memory.sample
  exact ⟨BitVec.extractLsb'_append_eq_right, BitVec.extractLsb'_append_eq_left⟩

/-! ### The close and the visit of a block -/

theorem crcBytes_append (l : List Byte) (b : Byte) : crcBytes (l ++ [b]) = crcByte (crcBytes l) b := by
  unfold crcBytes
  rw [List.foldl_append]
  rfl

theorem closeBlock_entry {s : State} {b : BlockId} {o : Owned} (ho : s.pool.entry b = some o) :
    (s.closeBlock b).pool.entry b = some { o with check := .valid (s.checkWord b) } := by
  refine (Pool.entry_setCheck_eq ..).trans ?_
  rw [ho, Option.map_some, if_pos rfl]

/-- What the visit of block b leaves, its owner's entry being o and the stored word w: the block's check state, and the owner's
damaged mark where the recomputed word is another (R105). -/
structure Visited (s t : State) (b : BlockId) (o : Owned) (w : Word) : Prop where
  same : t = { s with pool := s.pool.setCheck b (visitOutcome w (s.checkWord b)), layers := t.layers }
  layer : ∀ x, t.layer x
    = if x = o.owner then (s.layer x).map fun l => { l with damaged := l.damaged || !decide (s.checkWord b = w) }
      else s.layer x

section
variable {s t : State} {b : BlockId} {o : Owned} {w : Word}

/-- The visit's outcome where the word is the stored one, and where it is another. -/
theorem visitOutcome_eq (w now : Word) : visitOutcome w now = if now = w then .valid w else .bad w := by
  unfold visitOutcome
  simp only [eq_comm]

theorem visit_marks (ho : s.pool.entry b = some o) (hw : o.check.word = some w) :
    s.visit b = State.markDamaged { s with pool := s.pool.setCheck b (visitOutcome w (s.checkWord b)) } b := by
  have hword : ((s.pool.entry b).bind fun o => o.check.word) = some w := by rw [ho]; exact hw
  unfold State.visit
  rw [hword]

theorem setCheck_entry_same (k : Check) (ho : s.pool.entry b = some o) :
    (s.pool.setCheck b k).entry b = some { o with check := k } := by
  rw [Pool.entry_setCheck_eq, ho, Option.map_some, if_pos rfl]

theorem visit_visited (ho : s.pool.entry b = some o) (hw : o.check.word = some w) : Visited s (s.visit b) b o w := by
  rw [visit_marks ho hw, visitOutcome_eq]
  unfold State.markDamaged
  dsimp only
  rw [setCheck_entry_same _ ho]
  by_cases hgood : s.checkWord b = w
  · rw [if_pos hgood]
    refine ⟨by rw [visitOutcome_eq, if_pos hgood], fun x => ?_⟩
    rw [decide_eq_true hgood]
    simp only [Bool.not_true, Bool.or_false, Option.map_id', ite_self]
    rfl
  · rw [if_neg hgood]
    refine ⟨by rw [visitOutcome_eq, if_neg hgood]; rfl, fun x => ?_⟩
    rw [decide_eq_false hgood]
    simp only [Bool.not_false, Bool.or_true]
    refine (State.layer_modLayer ..).trans ?_
    split
    · next e => rw [e]; rfl
    · rfl

theorem Visited.entry (k : Visited s t b o w) (ho : s.pool.entry b = some o) :
    t.pool.entry b = some { o with check := if s.checkWord b = w then .valid w else .bad w } := by
  rw [k.same]
  dsimp only
  rw [setCheck_entry_same _ ho, visitOutcome_eq]

theorem Visited.mem (k : Visited s t b o w) : t.mem = s.mem := by rw [k.same]

theorem Visited.inUse (k : Visited s t b o w) : t.inUse = s.inUse := by
  unfold State.inUse
  refine List.filter_congr fun x _ => ?_
  rw [k.layer x]
  split
  · exact Option.isSome_map
  · rfl

end

/-- Settles O39: the register by unfolding, the bytes by `Memory.blockBytes_getElem?`, the close and the visit by their entry
laws. -/
theorem checkWordShiftsAndFolds : Obligations.CheckWordShiftsAndFolds := by
  refine ⟨rfl, crcBytes_append, fun _ _ => rfl, fun _ => rfl, fun m b => ⟨m.length_blockBytes b, fun f hf => ?_⟩,
    fun s b o ho => ⟨closeBlock_entry ho, fun w hw => (visit_visited ho hw).entry ho⟩, by simp [crcBytes, crcByte, crcShift]⟩
  obtain ⟨hlow, hhigh⟩ := m.extract_sample b f
  rw [hlow, hhigh, sampleAddr_eq b hf, Nat.add_assoc]
  exact ⟨m.blockBytes_getElem? b (by omega), m.blockBytes_getElem? b (by omega)⟩

/-! ### The scan -/

/-- Bytes upset under a block change the memory alone, and no byte outside the block. -/
structure UpsetUnder (b : BlockId) (s u : State) : Prop where
  same : u = { s with mem := u.mem }
  legal : u.memoryLegal
  read : ∀ a, (a < sampleAddr b 0 ∨ sampleAddr b 0 + 8192 ≤ a) → u.mem.read a = s.mem.read a

theorem upset_under {b : BlockId} {s u : State} (c : Host.Cell) (h : UpsetUnder b s u) :
    UpsetUnder b s (State.upset b u c) := by
  refine ⟨?_, (upset_store b u c).memory h.legal, fun a ha => ?_⟩
  · unfold State.upset
    split
    · rw [h.same]
    · exact h.same
  · rw [← h.read a ha]
    rw [sampleAddr_eq b (by decide)] at ha
    unfold State.upset
    split
    · refine (Memory.read_write _ _ _ h.legal.1).trans (if_neg ?_)
      omega
    · rfl

theorem foldl_upset_under {b : BlockId} {s : State} (upsets : List Host.Cell) (hm : s.memoryLegal) :
    UpsetUnder b s (upsets.foldl (State.upset b) s) :=
  foldl_invariant (I := UpsetUnder b s) (fun _ c h => upset_under c h) upsets s ⟨rfl, hm, fun _ _ => rfl⟩

/-- The next OWNED block does not depend on check states. -/
theorem nextOwned_setCheck (p : Pool) (b : BlockId) (k : Check) (n : Nat) :
    (p.setCheck b k).nextOwned (n + 1) = (p.owned.find? fun e => decide (n < e.1.val)).map (·.1) := by
  have hkey : ∀ e : BlockId × Owned, (if e.1 = b then (e.1, { e.2 with check := k }) else e).1 = e.1 := fun e => by
    split <;> rfl
  unfold Pool.nextOwned Pool.setCheck
  simp only [List.find?_map, Option.map_map, Function.comp_def, hkey]
  rfl

theorem scanOn_next {s : State} {v : Scan} {b : BlockId} (h : s.pool.nextOwned (v.next.val + 1) = some b) :
    s.scanOn v
      = { s with pool := { s.pool with scan := some { v with next := b, frames := 0, checked := v.checked + 1 } } } := by
  unfold State.scanOn
  rw [h]

theorem scanOn_over {s : State} {v : Scan} (h : s.pool.nextOwned (v.next.val + 1) = none) :
    s.scanOn v = s.endScan v.freed (v.checked + 1) := by
  unfold State.scanOn
  rw [h]

/-- A report of a part that is not in RESET depends on the link port and the header alone. -/
theorem report_link_running {s u : State} (r : Report) (p : List Byte) (hs : s.sup.state ≠ .reset)
    (hu : u.sup.state ≠ .reset) (hl : u.link = s.link) (hh : u.header = s.header) :
    (u.report r p).link = (s.report r p).link := by
  unfold State.report State.reportWith State.reportEnabled
  rw [if_neg hs, if_neg hu, hl, hh]
  split_ifs
  · exact hl
  · unfold State.send
    dsimp only
    rw [hl]
  · rfl

/-- The end of the scan: READY, with the divider loaded, and its report (R106). -/
structure ScanEnds (s t : State) (freed checked : Nat) : Prop where
  same : t = { s with
    sup := { s.sup with state := .ready }
    clock := { s.clock with divider := s.clock.p - 1, dividerSet := true }
    pool := { s.pool with scan := none }
    link := t.link }
  link : s.sup.state ≠ .reset → t.link = (s.report .ready
    ([byte s.inUse.length, byte (s.inUse.filter fun x => (s.layer x).map (·.damaged) = some true).length]
      ++ le2 freed ++ le2 checked ++ le2 s.pool.bad)).link

theorem endScan_ends (s : State) (freed checked : Nat) : ScanEnds s (s.endScan freed checked) freed checked := by
  unfold State.endScan State.reportReady State.becomeReady
  refine ⟨?_, fun hs => ?_⟩
  · rw [State.report_eq]
  · exact report_link_running .ready _ hs (by simp) rfl rfl

/-- The scan's next place or its end changes nothing of the tables. -/
theorem scanOn_same (s : State) (v : Scan) :
    s.scanOn v = { s with
      sup := (s.scanOn v).sup
      clock := (s.scanOn v).clock
      link := (s.scanOn v).link
      pool := { s.pool with scan := (s.scanOn v).pool.scan } } := by
  cases h : s.pool.nextOwned (v.next.val + 1) with
  | some b => rw [scanOn_next h]
  | none => rw [scanOn_over h, (endScan_ends ..).same]

section
variable {s : State} {upsets : List Host.Cell} {v : Scan}

theorem verifyVisitEnd_early (hscan : s.pool.scan = some v) (h : v.frames ≠ 32) :
    exec (.verifyVisitEnd upsets) s = .next s := by
  change done (match s.pool.scan with | none => s | some v => _) = _
  rw [hscan]
  exact congrArg Host.Outcome.next (if_neg fun k => h k.2)

theorem verifyVisitEnd_due (hs : s.sup.state = .verifying) (hscan : s.pool.scan = some v) (h : v.frames = 32) :
    exec (.verifyVisitEnd upsets) s = .next (((upsets.foldl (State.upset v.next) s).visit v.next).scanOn v) := by
  change done (match s.pool.scan with | none => s | some v => _) = _
  rw [hscan]
  exact congrArg Host.Outcome.next (if_pos ⟨hs, h⟩)

/-- The visit under the upset memory marks the owner by the word over the block as it reads now. -/
theorem visitEnd_visited {o : Owned} {w : Word} (hm : s.memoryLegal) (ho : s.pool.entry v.next = some o)
    (hw : o.check.word = some w) :
    UpsetUnder v.next s (upsets.foldl (State.upset v.next) s)
      ∧ Visited (upsets.foldl (State.upset v.next) s) ((upsets.foldl (State.upset v.next) s).visit v.next) v.next o w := by
  have hupset := foldl_upset_under (b := v.next) upsets hm
  exact ⟨hupset, visit_visited (by rw [hupset.same]; exact ho) hw⟩

end

/-- What VERIFY_VISIT_END leaves of the tables, whether the scan goes on or ends. -/
structure VisitLeaves (s t : State) (b : BlockId) (o : Owned) (w : Word) : Prop where
  mem : ∀ a, (a < sampleAddr b 0 ∨ sampleAddr b 0 + 8192 ≤ a) → t.mem.read a = s.mem.read a
  entry : t.pool.entry b
    = some { o with check := if decide (crcBytes (t.mem.blockBytes b) = w) then .valid w else .bad w }
  layer : ∀ x, t.layer x = if x = o.owner then
      (s.layer x).map fun l => { l with damaged := l.damaged || !decide (crcBytes (t.mem.blockBytes b) = w) }
    else s.layer x
  free : t.pool.free = s.pool.free
  tracks : t.tracks = s.tracks
  cues : t.cues = s.cues
  mix : t.mix = s.mix

theorem Visited.leaves {s u x t : State} {b : BlockId} {o : Owned} {w : Word} (hupset : UpsetUnder b s u)
    (k : Visited u x b o w) (ho : u.pool.entry b = some o)
    (hsame : t = { x with sup := t.sup, clock := t.clock, link := t.link, pool := { x.pool with scan := t.pool.scan } }) :
    VisitLeaves s t b o w := by
  have hmem : t.mem = u.mem := by rw [hsame]; exact k.mem
  have hlayers : t.layers = x.layers := by rw [hsame]
  have hentry : t.pool.entry b = x.pool.entry b := by rw [hsame]; rfl
  refine ⟨fun a ha => ?_, ?_, fun y => ?_, ?_, ?_, ?_, ?_⟩
  · rw [hmem]
    exact hupset.read a ha
  · rw [hentry, k.entry ho, hmem]
    simp only [decide_eq_true_eq]
    rfl
  · rw [State.layer_congr hlayers, k.layer, hmem, hupset.same]
    rfl
  · rw [hsame, k.same, hupset.same]
    rfl
  all_goals rw [hsame, k.same, hupset.same]

/-- Settles O58: the upset memory, the visit and the scan's next place, by `visitEnd_visited`, `scanOn_next` and
`endScan_ends`. -/
theorem verifyVisitSetsTheCheckState : Obligations.VerifyVisitSetsTheCheckState := by
  intro s upsets v hs hscan
  refine ⟨verifyVisitEnd_early hscan, fun o w hframes ho hw hm _ => ?_⟩
  obtain ⟨hupset, hvisit⟩ := visitEnd_visited (upsets := upsets) hm ho hw
  refine ⟨_, verifyVisitEnd_due hs hscan hframes, ?_⟩
  have hquiet : upsets = [] → upsets.foldl (State.upset v.next) s = s := fun e => by rw [e]; rfl
  generalize upsets.foldl (State.upset v.next) s = u at hupset hvisit hquiet ⊢
  have hou : u.pool.entry v.next = some o := by rw [hupset.same]; exact ho
  have hnext : (u.visit v.next).pool.nextOwned (v.next.val + 1)
      = (s.pool.owned.find? fun e => decide (v.next.val < e.1.val)).map (·.1) := by
    rw [hvisit.same, nextOwned_setCheck, hupset.same]
  generalize u.visit v.next = x at hvisit hnext ⊢
  have hx : x = { s with mem := x.mem, pool := x.pool, layers := x.layers } := by rw [hvisit.same, hupset.same]
  have hleaves := hvisit.leaves hupset hou (scanOn_same x v)
  refine ⟨hleaves.mem, fun e => ?_, ⟨hleaves.entry, fun l hl => ?_, fun y hy => ?_⟩, ?_, hleaves.free, hleaves.tracks,
    hleaves.cues, hleaves.mix⟩
  · rw [scanOn_same]
    exact hvisit.mem.trans (congrArg State.mem (hquiet e))
  · rw [hleaves.layer, if_pos rfl, hl, Option.map_some]
  · rw [hleaves.layer, if_neg hy]
  · cases hfind : s.pool.owned.find? fun e => decide (v.next.val < e.1.val) with
    | some e =>
      rw [hfind] at hnext
      rw [scanOn_next hnext]
      dsimp only
      rw [hx]
      exact ⟨rfl, rfl, rfl⟩
    | none =>
      rw [hfind] at hnext
      have hends := endScan_ends x v.freed (v.checked + 1)
      have hsup : x.sup = s.sup := by rw [hx]
      have hclock : x.clock = s.clock := by rw [hx]
      have hinUse : x.inUse = s.inUse := hvisit.inUse.trans (by rw [hupset.same]; rfl)
      rw [scanOn_over hnext]
      refine ⟨?_, ?_, ?_, ?_⟩
      · rw [hends.same, hsup]
      · rw [hends.same]
      · rw [hends.same, hclock]
      · rw [hends.link (by rw [hsup, hs]; decide), hinUse]
        have hlayer : ∀ y, (x.endScan v.freed (v.checked + 1)).layer y = x.layer y := fun y => by rw [hends.same]; rfl
        have hbad : (x.endScan v.freed (v.checked + 1)).pool.bad = x.pool.bad := by rw [hends.same]; rfl
        simp only [hlayer, hbad]
        exact State.report_link_congr .ready _ hsup (by rw [hx]) hclock

end Sys2Proof.Machine
end

