-- ==== Sys2Proof/Proofs/IndexBegin.lean ====
section
/-! BOUNCE_INDEX_BEGIN: a running index begins with its claim and its first four samples (R94, R96, R97, R114, R118). -/

namespace Sys2Proof.Machine

/-! ### Samples written one after another -/

section
variable {b : BlockId} {n : Nat} {g : Nat → Sample}

/-- Samples of a block written in a row change no byte outside them. -/
theorem Memory.read_foldl_writeSample (js : List Nat) {m : Memory} (hm : m.wf) {a : Nat}
    (ha : ∀ j ∈ js, a ≠ sampleAddr b (n + j) ∧ a ≠ sampleAddr b (n + j) + 1) :
    (js.foldl (fun m j => m.writeSample b (n + j) (g (n + j))) m).read a = m.read a := by
  induction js generalizing m with
  | nil => rfl
  | cons j js ih =>
    rw [List.foldl_cons, ih (Memory.writeSample_wf _ _ _ hm) fun i hi => ha i (List.mem_cons_of_mem _ hi)]
    exact Memory.read_writeSample _ _ _ _ hm (ha j List.mem_cons_self)

/-- Each of the samples written in a row reads back. -/
theorem Memory.sample_foldl_writeSample (js : List Nat) {m : Memory} (hm : m.wf) (hjs : ∀ j ∈ js, n + j < 4096) {i : Nat}
    (hi : i ∈ js) :
    (js.foldl (fun m j => m.writeSample b (n + j) (g (n + j))) m).sample b (n + i) = g (n + i) := by
  induction js generalizing m with
  | nil => exact absurd hi List.not_mem_nil
  | cons j js ih =>
    have hm' : (m.writeSample b (n + j) (g (n + j))).wf := Memory.writeSample_wf _ _ _ hm
    have hjs' : ∀ j ∈ js, n + j < 4096 := fun j hj => hjs j (List.mem_cons_of_mem _ hj)
    rw [List.foldl_cons]
    by_cases hmem : i ∈ js
    · exact ih hm' hjs' hmem
    · have hij : i = j := (List.mem_cons.1 hi).resolve_right hmem
      have hapart : ∀ k ∈ js, sampleAddr b (n + i) ≠ sampleAddr b (n + k)
          ∧ sampleAddr b (n + i) ≠ sampleAddr b (n + k) + 1 ∧ sampleAddr b (n + i) + 1 ≠ sampleAddr b (n + k)
          ∧ sampleAddr b (n + i) + 1 ≠ sampleAddr b (n + k) + 1 := fun k hk => by
        have hik : i ≠ k := fun e => hmem (e ▸ hk)
        rw [sampleAddr_eq b (hjs i hi), sampleAddr_eq b (hjs' k hk)]
        omega
      unfold Memory.sample
      rw [Memory.read_foldl_writeSample js hm' fun k hk => ⟨(hapart k hk).1, (hapart k hk).2.1⟩,
        Memory.read_foldl_writeSample js hm' fun k hk => (hapart k hk).2.2]
      rw [hij]
      exact Memory.sample_writeSample b (n + j) _ hm

end

/-! ### The engine's claim (R94, R96) -/

section
variable {s : State} {x : LayerId} {k : Nat} {b : BlockId} {rest : List BlockId}

theorem claim_bounce_served (hf : s.pool.free = b :: rest) (hb : 32 + s.pool.behind.getD 0 ≤ rest.length) :
    s.claim .bounce x k = some (b, s.allocate .bounce x k b rest) := by
  have hclaimable : 32 < s.pool.claimable := by
    unfold Pool.claimable
    rw [hf, List.length_cons]
    omega
  have hrefuses : s.pool.refuses .bounce = false := by
    unfold Pool.refuses
    simp
    omega
  unfold State.claim
  rw [hf]
  exact if_neg (by simp [hrefuses])

theorem claim_bounce_refused (hb : s.pool.free.length < 33 + s.pool.behind.getD 0) : s.claim .bounce x k = none := by
  have hclaimable : s.pool.claimable ≤ 32 := by
    unfold Pool.claimable
    omega
  unfold State.claim
  split
  · rfl
  · exact if_pos (by simp [Pool.refuses, hclaimable])

theorem allocate_mapEntry_other (c : Claimant) {y : LayerId} (hy : y ≠ x) (i : Nat) :
    (s.allocate c x k b rest).mapEntry y i = s.mapEntry y i := by
  unfold State.mapEntry
  rw [(allocate_works s c x k b rest .h0).layer y hy]

theorem allocate_mapEntry_same (c : Claimant) {l : Layer} (hl : s.layer x = some l) (hk : k < l.map.length) :
    (s.allocate c x k b rest).mapEntry x k = some b := by
  rw [mapEntry_of_layer (allocate_layer c k b rest hl)]
  unfold nameEntry
  rw [if_pos hk, List.getElem?_set_self hk]
  rfl

theorem entry_putOwned (p : Pool) (b : BlockId) (o : Owned) :
    ({ p with owned := putOwned p.owned b o } : Pool).entry b = some o := by
  unfold Pool.entry
  rw [find_putOwned, if_pos rfl]
  rfl

theorem allocate_mem (c : Claimant) : (s.allocate c x k b rest).mem = s.mem := by
  unfold State.allocate
  rw [lowTest_same]
  rfl

end

/-! ### An index begun -/

section
variable {s : State} {e : Bounce} {q : List Bounce} {r : Run}

theorem headBounce_of_cons (hq : s.bounce.queue = e :: q) : s.headBounce = some e := by
  unfold State.headBounce
  rw [hq]
  rfl

theorem beginHead_due (hs : s.sup.state = .ready) (hq : s.bounce.queue = e :: q) (hr : e.run = some r)
    (hp : r.phase = .beginDue) : s.beginHead = (s.beginIndex e r).claimsServed := by
  unfold State.beginHead
  rw [headBounce_of_cons hq]
  dsimp only
  rw [hr]
  exact if_pos ⟨by unfold State.isReady; rw [hs]; rfl, hp⟩

theorem allSilent_iff : s.allSilent e r = true ↔ ∀ x ∈ e.sources, s.mapEntry x r.progress = none := by
  unfold State.allSilent
  simp

theorem setRun_queue (hq : s.bounce.queue = e :: q) (r : Run) :
    (s.setRun r).bounce.queue = { e with run := some r } :: q := by
  unfold State.setRun
  rw [hq]

/-- A sample depends on the sources' entries and the memory. -/
theorem bounceSample_congr {u : State} (hmap : ∀ x ∈ e.sources, u.mapEntry x r.progress = s.mapEntry x r.progress)
    (hmem : u.mem = s.mem) (f : Nat) : u.bounceSample e r f = s.bounceSample e r f := by
  unfold State.bounceSample
  rw [hmem]
  congr 2
  refine List.map_congr_left fun p hp => ?_
  rw [hmap p.1 (List.of_mem_zip hp).1]

theorem fillFrame_named {b : BlockId} (hb : s.mapEntry r.product r.progress = some b) :
    s.fillFrame e r = { s with
      mem := [0, 1, 2, 3].foldl
        (fun m j => m.writeSample b (4 * r.frames + j) (s.bounceSample e r (4 * r.frames + j))) s.mem } := by
  unfold State.fillFrame
  rw [hb]

theorem fillFrame_same (s : State) (e : Bounce) (r : Run) : s.fillFrame e r = { s with mem := (s.fillFrame e r).mem } := by
  unfold State.fillFrame
  split <;> rfl

/-- The first frame's four samples, and every byte outside them. -/
theorem fillFrame_first {b : BlockId} (hm : s.mem.wf) (hb : s.mapEntry r.product r.progress = some b) (hf : r.frames = 0) :
    (∀ a, (a < sampleAddr b 0 ∨ sampleAddr b 0 + 8 ≤ a) → (s.fillFrame e r).mem.read a = s.mem.read a)
      ∧ ∀ j, j < 4 → (s.fillFrame e r).mem.sample b j = s.bounceSample e r j := by
  have hsmall : ∀ j ∈ [0, 1, 2, 3], j < 4 := by decide
  rw [fillFrame_named hb, hf]
  refine ⟨fun a ha => Memory.read_foldl_writeSample _ hm fun j hj => ?_, fun j hj => ?_⟩
  · have hj4 := hsmall j hj
    rw [sampleAddr_eq b (by decide)] at ha
    rw [sampleAddr_eq b (by omega)]
    omega
  · have hsum := Memory.sample_foldl_writeSample (b := b) (n := 4 * 0) (g := s.bounceSample e r) [0, 1, 2, 3] hm
      (i := j) (fun i hi => by have := hsmall i hi; omega) (by simp; omega)
    rw [Nat.mul_zero, Nat.zero_add] at hsum
    exact hsum

theorem beginIndex_silent (h : ∀ x ∈ e.sources, s.mapEntry x r.progress = none) :
    s.beginIndex e r = s.setRun { r with phase := .filling, frames := 1 } := by
  unfold State.beginIndex
  rw [if_pos (allSilent_iff.2 h)]

theorem beginIndex_claims {b : BlockId} {t : State} (h : ¬∀ x ∈ e.sources, s.mapEntry x r.progress = none)
    (hc : s.claim .bounce r.product r.progress = some (b, t)) :
    s.beginIndex e r = (t.fillFrame e r).setRun { r with phase := .filling, frames := 1, blocks := r.blocks + 1 } := by
  unfold State.beginIndex
  rw [if_neg (mt allSilent_iff.1 h), hc]

theorem beginIndex_refused (h : ¬∀ x ∈ e.sources, s.mapEntry x r.progress = none)
    (hc : s.claim .bounce r.product r.progress = none) :
    s.beginIndex e r = (s.abortBounce 0 .noBlocks).unfreshHead := by
  unfold State.beginIndex
  rw [if_neg (mt allSilent_iff.1 h), hc]

end

/-! ### The head of the queue aborted (R118) -/

theorem unreserve_same (s : State) (e : Bounce) : s.unreserve e = { s with tracks := (s.unreserve e).tracks } := by
  unfold State.unreserve
  split
  · rfl
  · rfl

theorem setPins_layer (s : State) (pin : Option Byte) (xs : List LayerId) (y : LayerId) :
    (s.setPins pin xs).layer y
      = if y ∈ xs then (s.layer y).map (fun l => { l with pin := pin }) else s.layer y := foldl_setPin_layer pin xs s y

theorem setPins_same (s : State) (pin : Option Byte) (xs : List LayerId) :
    s.setPins pin xs = { s with layers := (s.setPins pin xs).layers } := foldl_setPin_same pin xs s

/-- An abort of the queue's head takes it from the queue and frees its product, and leaves the memory. -/
structure HeadAborted (s t : State) (q : List Bounce) (product : LayerId) : Prop where
  queue : t.bounce.queue = q
  mem : t.mem = s.mem
  layer : t.layer product = none

theorem abortBounce_head {s : State} {e : Bounce} {q : List Bounce} {r : Run} (hq : s.bounce.queue = e :: q)
    (hr : e.run = some r) (cause : AbortCause) : HeadAborted s (s.abortBounce 0 cause) q r.product := by
  have habort : s.abortBounce 0 cause
      = (((((s.freeLayer r.product).setPins none e.sources).unreserve e).removeBounce 0).reportAbort e cause
        (s.productBlocks e)) := by
    unfold State.abortBounce State.freeProduct
    rw [hq, List.getElem?_cons_zero]
    dsimp only
    rw [hr]
  rw [habort, State.reportAbort, State.report_eq, unreserve_same, setPins_same]
  refine ⟨?_, ?_, ?_⟩
  · change (s.freeLayer r.product).bounce.queue.eraseIdx 0 = q
    rw [(freeLayer_freesOnly s r.product).bounce, hq]
    rfl
  · exact (freeLayer_freesOnly s r.product).mem
  · change ((s.freeLayer r.product).setPins none e.sources).layer r.product = none
    rw [setPins_layer, layer_freeLayer, if_pos rfl]
    exact ite_self _

/-- Settles O37: the claim by `claim_bounce_served` and `claim_bounce_refused`, the samples by the two laws of samples written
in a row, the abort by `abortBounce_head`. -/
theorem bounceIndexBeginsWithItsClaim : Obligations.BounceIndexBeginsWithItsClaim := by
  intro s
  refine ⟨fun h => congrArg Host.Outcome.next (beginHead_idle h), fun e q r hs hq hr hphase => ?_⟩
  have hexec : exec .bounceIndexBegin s = .next (s.beginIndex e r).claimsServed :=
    congrArg Host.Outcome.next (beginHead_due hs hq hr hphase)
  refine ⟨fun hsilent => ⟨_, hexec, ?_⟩, fun hsound => ⟨fun b rest l hf hb hl hk hproduct hframes hm => ⟨_, hexec, ?_⟩,
    fun hshort => ⟨_, hexec, ?_⟩⟩⟩
  · rw [beginIndex_silent hsilent]
    exact ⟨setRun_queue hq _, rfl, served_eq_freesTaken s.pool, rfl⟩
  · rw [beginIndex_claims hsound (claim_bounce_served hf hb)]
    generalize ht : s.allocate .bounce r.product r.progress b rest = t
    have hpool : t.pool = _ := ht ▸ allocate_pool s .bounce r.product r.progress b rest
    have hmem : t.mem = s.mem := ht ▸ allocate_mem .bounce
    have hnamed : t.mapEntry r.product r.progress = some b := ht ▸ allocate_mapEntry_same .bounce hl hk
    have hqueue : t.bounce.queue = e :: q := by
      rw [← ht, (allocate_works s .bounce r.product r.progress b rest .h0).bounce, hq]
    have hsample : ∀ f, t.bounceSample e r f = s.bounceSample e r f := bounceSample_congr
      (fun x hx => ht ▸ allocate_mapEntry_other .bounce (fun hxp : x = r.product => hproduct (hxp ▸ hx)) _) hmem
    obtain ⟨hread, hwritten⟩ := fillFrame_first (e := e) (show t.mem.wf from hmem ▸ hm) hnamed hframes
    have hfill := fillFrame_same t e r
    have hfilled : (t.fillFrame e r).pool = t.pool := (congrArg State.pool hfill :)
    have hbounce : (t.fillFrame e r).bounce = t.bounce := (congrArg State.bounce hfill :)
    have hkept : (t.fillFrame e r).mapEntry r.product r.progress = some b :=
      (congrArg (fun u : State => u.mapEntry r.product r.progress) hfill).trans hnamed
    refine ⟨setRun_queue (by rw [hbounce, hqueue]) _, ?_, rfl, ?_, hkept, fun a ha => ?_, fun j hj => ?_⟩
    · exact (congrArg Pool.free hfilled).trans (congrArg Pool.free hpool)
    · change (t.fillFrame e r).pool.entry b = _
      rw [hfilled, hpool]
      exact entry_putOwned ..
    · exact (hread a ha).trans (by rw [hmem])
    · exact (hwritten j hj).trans (hsample j)
  · rw [beginIndex_refused hsound (claim_bounce_refused hshort)]
    have hgone := abortBounce_head hq hr .noBlocks
    refine ⟨hgone.queue, ?_, hgone.layer, hgone.mem, rfl⟩
    exact congrArg (fun l : List Bounce => l.head?.any (·.joined)) hgone.queue

end Sys2Proof.Machine
end

