-- ==== Sys2Proof/Proofs/IndexFinish.lean ====
section
/-! BOUNCE_INDEX_FINISH up to a completion: the index's block is closed, and the run moves on (R101, R114). -/

namespace Sys2Proof.Machine

/-- The run at the index behind the one that is over. -/
def Run.following (r : Run) : Run := { r with progress := r.progress + 1, frames := 0, phase := .toBegin }

/-- The state with the run's block of this index closed and the run at the next one. -/
def State.indexOver (s : State) (r : Run) : State :=
  State.setRun (match s.mapEntry r.product r.progress with
    | some b => s.closeBlock b
    | none => s) r.following

section
variable {s u : State} {e : Bounce} {q : List Bounce} {r : Run}

theorem finishIndex_eq (s : State) (e : Bounce) (r : Run) :
    s.finishIndex e r = if r.progress + 1 < e.mapLen then s.indexOver r
      else if e.fold then (s.indexOver r).completeFold e r.following else (s.indexOver r).completeCopy e r.following := rfl

theorem finishHead_due (hs : s.sup.state = .ready) (hq : s.bounce.queue = e :: q) (hr : e.run = some r)
    (hp : r.phase = .filling) (hf : r.frames = 1024) : s.finishHead = s.finishIndex e r := by
  unfold State.finishHead
  rw [headBounce_of_cons hq]
  dsimp only
  rw [hr]
  exact if_pos ⟨by unfold State.isReady; rw [hs]; rfl, hp, hf⟩

/-- The block that the run's index names, if it names one, is closed with the check word over its bytes. -/
def IndexClosed (s t : State) (r : Run) : Prop :=
  ∀ b o, s.mapEntry r.product r.progress = some b → s.pool.entry b = some o →
    t.pool.entry b = some { o with check := .valid (crcBytes (s.mem.blockBytes b)) }

theorem IndexClosed.congr {t : State} (h : IndexClosed s u r) (hp : t.pool = u.pool) : IndexClosed s t r :=
  fun b o hb ho => by rw [hp]; exact h b o hb ho

/-- What the end of an index leaves: its block's check state and the run alone are others. -/
structure IndexOver (s u : State) (e : Bounce) (q : List Bounce) (r : Run) : Prop where
  same : u = { s with pool := u.pool, bounce := { s.bounce with queue := { e with run := some r.following } :: q } }
  free : u.pool.free = s.pool.free
  closed : IndexClosed s u r

theorem indexOver_over (hq : s.bounce.queue = e :: q) : IndexOver s (s.indexOver r) e q r := by
  cases hb : s.mapEntry r.product r.progress with
  | none =>
    have hu : s.indexOver r = s.setRun r.following := by unfold State.indexOver; rw [hb]
    rw [hu]
    unfold State.setRun
    rw [hq]
    exact ⟨rfl, rfl, fun b o h => absurd (hb.symm.trans h) (by simp)⟩
  | some b =>
    have hu : s.indexOver r = (s.closeBlock b).setRun r.following := by unfold State.indexOver; rw [hb]
    rw [hu]
    unfold State.setRun
    rw [show (s.closeBlock b).bounce.queue = e :: q from hq]
    refine ⟨rfl, rfl, fun c o hc ho => ?_⟩
    obtain rfl : b = c := Option.some.inj (hb.symm.trans hc)
    exact closeBlock_entry ho

theorem IndexOver.layer (k : IndexOver s u e q r) (x : LayerId) : u.layer x = s.layer x :=
  State.layer_congr (congrArg State.layers k.same) x

theorem IndexOver.track (k : IndexOver s u e q r) (t : TrackId) : u.track t = s.track t :=
  State.track_congr (congrArg State.tracks k.same) t

theorem IndexOver.mem (k : IndexOver s u e q r) : u.mem = s.mem := (congrArg State.mem k.same :)
theorem IndexOver.mix (k : IndexOver s u e q r) : u.mix = s.mix := (congrArg State.mix k.same :)
theorem IndexOver.clock (k : IndexOver s u e q r) : u.clock = s.clock := (congrArg State.clock k.same :)
theorem IndexOver.queue (k : IndexOver s u e q r) : u.bounce.queue = { e with run := some r.following } :: q :=
  (congrArg (fun v : State => v.bounce.queue) k.same :)

/-! ### The blocks of other layers freed -/

/-- A block that a layer's map names is in no other layer's map. -/
theorem State.poolLegal.apart (h : s.poolLegal) {x y : LayerId} {i : Nat} {b : BlockId} {l : Layer}
    (hb : s.mapEntry x i = some b) (hy : s.layer y = some l) (hne : y ≠ x) : b ∉ namedBlocks l.map := by
  intro hmem
  cases hx : s.layer x with
  | none => unfold State.mapEntry at hb; rw [hx] at hb; exact absurd hb (by simp)
  | some p =>
    rw [mapEntry_of_layer hx] at hb
    have hbp : b ∈ namedBlocks p.map :=
      List.mem_filterMap.2 ⟨some b, List.mem_of_getElem? (Option.join_eq_some_iff.1 hb), rfl⟩
    exact hne (Option.some.inj ((h.named y l hy b hmem).symm.trans (h.named x p hx b hbp)))

/-- The entry of a block that no freed layer names stays. -/
theorem FreesEach.foldl_entry {f : State → LayerId → State} (hf : FreesEach f) {b : BlockId} (l : List LayerId) (s : State)
    (h : ∀ x ∈ l, ∀ m, s.layer x = some m → b ∉ namedBlocks m.map) :
    (l.foldl f s).pool.entry b = s.pool.entry b := by
  induction l generalizing s with
  | nil => rfl
  | cons x l ih =>
    have hstep : (f s x).pool.entry b = s.pool.entry b := by
      rw [hf.pool]
      cases hx : s.layer x with
      | none => rw [freeLayer_none hx]
      | some m => rw [pool_freeLayer hx, Pool.entry_release, if_neg (h x List.mem_cons_self m hx)]
    rw [List.foldl_cons, ih, hstep]
    intro y hy m hm
    rw [hf.layer] at hm
    split at hm
    · exact absurd hm (by simp)
    · exact h y (List.mem_cons_of_mem _ hy) m hm

/-- The closed block stays closed where other layers are freed. -/
theorem IndexClosed.frees {f : State → LayerId → State} (hf : FreesEach f) {v : State} {l : List LayerId}
    (h : IndexClosed s u r) (hs : s.poolLegal) (hl : r.product ∉ l) (hv : ∀ x ∈ l, v.layer x = s.layer x)
    (hp : v.pool = u.pool) : IndexClosed s (l.foldl f v) r := by
  intro b o hb ho
  rw [hf.foldl_entry l v fun x hx m hm => ?_, hp]
  · exact h b o hb ho
  · exact hs.apart hb ((hv x hx).symm.trans hm) fun e => hl (e ▸ hx)

/-! ### The entry leaves the queue -/

/-- A completed entry leaves the queue, and the next one may start at once (R113, R121). -/
theorem leaveQueue_eq {v : State} {a : Bounce} (hq : v.bounce.queue = a :: q) (e : Bounce) (r : Run) (n : Nat) (c : Bool) :
    ((v.removeBounce 0).reportDone e r n c).unfreshHead = { v with
      bounce := { v.bounce with queue := q, headFresh := q.head?.any (·.joined) }
      link := (((v.removeBounce 0).reportDone e r n c).unfreshHead).link } := by
  have hqueue : (v.removeBounce 0).bounce.queue = q := by
    change v.bounce.queue.eraseIdx 0 = q
    rw [hq]
    rfl
  unfold State.reportDone
  rw [State.report_eq]
  unfold State.unfreshHead
  dsimp only
  rw [hqueue, ← hqueue]
  rfl

/-! ### A claim at the end of a frame -/

theorem claimAtEnd_voicesOnly (s : State) (t : TrackId) (p : LayerId) : VoicesOnly s (s.claimAtEnd t p) :=
  (claimVoice_voicesOnly s t p).trans (mix_voicesOnly _ _ rfl)

theorem claimAtEnd_mute (s : State) (t k : TrackId) (p : LayerId) :
    ((s.claimAtEnd t p).track k).mute = (s.track k).mute := s.claimVoice_mute t k p

end

end Sys2Proof.Machine
end

