-- ==== Sys2Proof/Proofs/FoldCompletes.lean ====
section
/-! The completion of a FOLD: its product's place, its voice, and its sources freed (R115, R132, R133, R134). -/

namespace Sys2Proof.Machine

/-! ### The voice of the lower source handed over -/

/-- The mix with a layer's voice handed to another, or the layer's place on the wait list given up. -/
def Mix.handed (m : Mix) (x p : LayerId) : Mix :=
  match m.voiceOf x with
  | some v => m.hand v x p
  | none => m.drop x

theorem handVoice_eq (s : State) (x p : LayerId) : s.handVoice x p = { s with mix := s.mix.handed x p } := by
  unfold State.handVoice Mix.handed
  cases s.mix.voiceOf x <;> rfl

section
variable {m : Mix} {x p : LayerId} {v : VoiceId}

theorem Mix.voices_hand (m : Mix) (v i : VoiceId) (x p : LayerId) :
    (m.hand v x p).voices.get i = if i = v then some p else m.voices.get i := by
  refine (Vector.getElem_set v.isLt i.isLt).trans (if_congr ?_ rfl rfl)
  rw [Fin.ext_iff, eq_comm]

theorem Mix.voiceOf_hand (m : Mix) (v : VoiceId) (x p : LayerId) : (m.hand v x p).voiceOf p ≠ none := fun h =>
  Mix.voiceOf_eq_none.1 h v (by rw [Mix.voices_hand, if_pos rfl])

theorem Mix.voiceOf_hand_alone (v : VoiceId) (x : LayerId) (h : ∀ i, m.voices.get i ≠ some p) :
    (m.hand v x p).voiceOf p = some v := by
  unfold Mix.voiceOf
  rw [find?_finRange_eq_some]
  refine ⟨by simp [Mix.voices_hand], fun i hi => ?_⟩
  rw [Mix.voices_hand, if_neg (ne_of_lt hi)]
  simpa using h i

theorem Mix.handed_some (p : LayerId) (h : m.voiceOf x = some v) : m.handed x p = m.hand v x p := by
  unfold Mix.handed
  rw [h]

theorem Mix.handed_fresh (m : Mix) (x p : LayerId) :
    (m.handed x p).fresh = if (m.voiceOf x).isSome then m.fresh.map fun z => if z = x then p else z else m.fresh := by
  unfold Mix.handed
  cases m.voiceOf x <;> rfl

/-- A voice handed over stays with its layer while others are dropped. -/
theorem Mix.voiceOf_handed_drops {y : LayerId} (hx : p ≠ x) (hy : p ≠ y) (h : m.voiceOf x = some v) :
    (((m.handed x p).drop x).drop y).voiceOf p = (m.hand v x p).voiceOf p := by
  rw [Mix.voiceOf_drop_other hy, Mix.voiceOf_drop_other hx, Mix.handed_some p h]

/-! ### A claim leaves the other layers silent -/

theorem Mix.Silent.give (h : m.Silent x) (hne : x ≠ p) (v : VoiceId) : (m.give v p).Silent x := by
  refine ⟨Mix.voiceOf_eq_none.2 fun i => ?_, h.2⟩
  have hget : (m.give v p).voices.get i = if v.val = i.val then some p else m.voices.get i := Vector.getElem_set v.isLt i.isLt
  rw [hget]
  split
  · exact fun e => hne (Option.some.inj e).symm
  · exact Mix.voiceOf_eq_none.1 h.1 i

end

theorem joinWait_keeps_silent {s : State} {x p : LayerId} (h : s.mix.Silent x) (hne : x ≠ p) :
    (s.joinWait p).mix.Silent x := by
  refine ⟨h.1, Mix.waits_eq_false.2 fun w hw => ?_⟩
  rcases State.mem_joinWait.1 hw with hw | rfl
  · exact Mix.waits_eq_false.1 h.2 w hw
  · exact hne.symm

theorem claimVoice_keeps_silent {s : State} {x p : LayerId} (t : TrackId) (h : s.mix.Silent x) (hne : x ≠ p) :
    (s.claimVoice t p).mix.Silent x := by
  unfold State.claimVoice
  split_ifs
  · exact h
  · exact joinWait_keeps_silent h hne
  · split
    · rw [State.armOneShot_mix]
      exact h.give hne _
    · rw [State.reportWait, State.report_mix]
      exact joinWait_keeps_silent h hne

theorem claimAtEnd_keeps_silent {s : State} {x p : LayerId} (t : TrackId) (h : s.mix.Silent x) (hne : x ≠ p) :
    (s.claimAtEnd t p).mix.Silent x := claimVoice_keeps_silent t h hne

theorem claimAtEnd_voiced {s : State} {p : LayerId} (t : TrackId) (h : s.mix.voiceOf p ≠ none) :
    s.claimAtEnd t p = s := by
  unfold State.claimAtEnd
  rw [State.claimVoice_idle (Or.inr (Or.inl (Option.isSome_iff_ne_none.2 h)))]

/-! ### The two sources and the product -/

/-- Whatever their order in the request, the pair is the lower source and the upper one. -/
theorem foldPair_eq {s : State} {e : Bounce} {x y : LayerId} (h : e.sources = [x, y] ∨ e.sources = [y, x])
    (hpos : s.stackPos e.dest x < s.stackPos e.dest y) : s.foldPair e = some (x, y) := by
  unfold State.foldPair
  rcases h with h | h
  · rw [h]
    exact if_pos hpos
  · rw [h]
    exact if_neg (Nat.lt_asymm hpos)

/-- The state with the product in the lower source's place, its voice handed over, and both sources freed. -/
def State.folded (s : State) (t : TrackId) (x y p : LayerId) : State :=
  [x, y].foldl State.freeLayer ((s.placeFold t x y p).handVoice x p)

theorem completeFold_eq {s : State} {e : Bounce} {r : Run} {x y : LayerId} (h : s.foldPair e = some (x, y)) :
    s.completeFold e r = ((((((s.folded e.dest x y r.product).claimAtEnd e.dest r.product).armOneShot e.dest).removeBounce 0
      ).reportDone e r 2 (s.mix.voiceOf x).isSome).unfreshHead) := by
  unfold State.completeFold
  rw [h]
  rfl

section
variable {s : State} {t : TrackId} {x y p : LayerId} {l : Layer}

theorem placeFold_layer (s : State) (t : TrackId) (x y p z : LayerId) : (s.placeFold t x y p).layer z
    = if z = p then (s.layer p).map fun l => { l with state := .sealed, sealStamp := some s.clock.songBar }
      else s.layer z := State.layer_modLayer ..

theorem placeFold_stack (s : State) (t : TrackId) (x y p : LayerId) : ((s.placeFold t x y p).track t).stack
    = ((s.track t).stack.map fun z => if z = x then p else z).filter (· ≠ y) :=
  congrArg Track.stack (State.track_modTrack_same s t fun r =>
    { r with stack := (r.stack.map fun z => if z = x then p else z).filter (· ≠ y) })

/-- The stack a FOLD leaves has neither source on it. -/
theorem not_mem_folded (st : List LayerId) (hx : p ≠ x) (z : LayerId) (hz : z = x ∨ z = y) :
    z ∉ (st.map fun w => if w = x then p else w).filter (· ≠ y) := by
  rw [List.mem_filter]
  rintro ⟨hmem, hny⟩
  rcases hz with rfl | rfl
  · obtain ⟨w, -, hw⟩ := List.mem_map.1 hmem
    split at hw
    · exact hx hw
    · next h => exact h hw
  · simp at hny

/-- A free leaves a stack that the layer is not on. -/
theorem stack_freeLayer_of_not_mem {k : TrackId} (h : x ∉ (s.track k).stack) :
    ((s.freeLayer x).track k).stack = (s.track k).stack := by
  rw [(trackFreed_freeLayer s x k).stack]
  refine List.filter_eq_self.2 fun z hz => ?_
  have hne : z ≠ x := fun e => h (e ▸ hz)
  simp [State.freesOf, hne]

/-- What a FOLD leaves before the product claims a voice. -/
structure Folded (s u : State) (t : TrackId) (x y p : LayerId) : Prop where
  mem : u.mem = s.mem
  bounce : u.bounce = s.bounce
  layer : ∀ z, u.layer z = if z = x ∨ z = y then none else (s.placeFold t x y p).layer z
  stack : (u.track t).stack = ((s.track t).stack.map fun z => if z = x then p else z).filter (· ≠ y)
  mix : u.mix = ((s.mix.handed x p).drop x).drop y

theorem folded_folded (hxy : x ≠ y) (hx : p ≠ x) (hy : p ≠ y) (hlx : s.layer x ≠ none) (hly : s.layer y ≠ none) :
    Folded s (s.folded t x y p) t x y p := by
  have hfrees : FreesOnly ((s.placeFold t x y p).handVoice x p) (s.folded t x y p) :=
    FreesOnly.foldl freeLayer_freesOnly _ _
  have hfold := freesEach_freeLayer.foldl_layer [x, y] ((s.placeFold t x y p).handVoice x p)
  unfold State.folded at hfrees ⊢
  rw [handVoice_eq] at hfrees hfold ⊢
  obtain ⟨lx, hlx⟩ := Option.ne_none_iff_exists'.1 hlx
  obtain ⟨ly, hly⟩ := Option.ne_none_iff_exists'.1 hly
  set v : State := { s.placeFold t x y p with mix := (s.placeFold t x y p).mix.handed x p } with hv
  have hvlayer : ∀ z, v.layer z = (s.placeFold t x y p).layer z := fun _ => rfl
  have hvx : v.layer x = some lx := by rw [hvlayer, placeFold_layer, if_neg hx.symm, hlx]
  have hvy : (v.freeLayer x).layer y = some ly := by
    rw [layer_freeLayer, if_neg hxy.symm, hvlayer, placeFold_layer, if_neg hy.symm, hly]
  have hvstack : (v.track t).stack = ((s.track t).stack.map fun z => if z = x then p else z).filter (· ≠ y) :=
    placeFold_stack s t x y p
  have hstack : ((v.freeLayer x).track t).stack = (v.track t).stack :=
    stack_freeLayer_of_not_mem (by rw [hvstack]; exact not_mem_folded _ hx x (Or.inl rfl))
  refine ⟨hfrees.mem, hfrees.bounce, fun z => ?_, ?_, ?_⟩
  · refine (hfold z).trans (if_congr (by simp) rfl rfl)
  · refine (stack_freeLayer_of_not_mem ?_).trans (hstack.trans hvstack)
    rw [hstack, hvstack]
    exact not_mem_folded _ hx y (Or.inr rfl)
  · change ((v.freeLayer x).freeLayer y).mix = _
    rw [mix_freeLayer hvy, mix_freeLayer hvx]
    rfl

end

/-- What a completed FOLD of x and y leaves, x being the lower source (R115). -/
structure FoldLeaves (s t : State) (e : Bounce) (q : List Bounce) (r : Run) (p : Layer) (x y : LayerId) : Prop where
  queue : t.bounce.queue = q
  headFresh : t.bounce.headFresh = q.head?.any (·.joined)
  mem : t.mem = s.mem
  closed : IndexClosed s t r
  stack : (t.track e.dest).stack
    = ((s.track e.dest).stack.map fun z => if z = x then r.product else z).filter (· ≠ y)
  lower : t.layer x = none
  upper : t.layer y = none
  product : t.layer r.product = some { p with state := .sealed, sealStamp := some s.clock.songBar }
  voice : ∀ v, s.mix.voiceOf x = some v → t.mix.voiceOf r.product ≠ none
    ∧ ((∀ i, s.mix.voices.get i ≠ some r.product) → t.mix.voiceOf r.product = some v)
  fresh : t.mix.fresh = if (s.mix.voiceOf x).isSome then s.mix.fresh.map fun z => if z = x then r.product else z
    else s.mix.fresh
  silent : t.mix.Silent x ∧ t.mix.Silent y

theorem completeFold_leaves {s u : State} {e : Bounce} {q : List Bounce} {r : Run} {p : Layer} {x y : LayerId}
    (hover : IndexOver s u e q r) (hp : s.layer r.product = some p) (hlegal : s.poolLegal)
    (hsources : e.sources = [x, y] ∨ e.sources = [y, x]) (hxy : x ≠ y) (hx : r.product ≠ x) (hy : r.product ≠ y)
    (hlx : s.layer x ≠ none) (hly : s.layer y ≠ none) (hpos : s.stackPos e.dest x < s.stackPos e.dest y) :
    FoldLeaves s (u.completeFold e r.following) e q r p x y := by
  have hupos : u.stackPos e.dest x < u.stackPos e.dest y := by
    unfold State.stackPos at hpos ⊢
    rwa [hover.track]
  have hpair : u.foldPair e = some (x, y) := foldPair_eq hsources hupos
  have hfolded : Folded u (u.folded e.dest x y r.product) e.dest x y r.product := folded_folded hxy hx hy
    (by rwa [hover.layer]) (by rwa [hover.layer])
  have hclosed : IndexClosed s (u.folded e.dest x y r.product) r := by
    refine hover.closed.frees freesEach_freeLayer hlegal (by simp [hx, hy]) (fun z hz => ?_) ?_
    · have hzp : z ≠ r.product := by
        rcases List.mem_pair.1 hz with rfl | rfl
        · exact hx.symm
        · exact hy.symm
      rw [handVoice_eq]
      exact (placeFold_layer ..).trans ((if_neg hzp).trans (hover.layer z))
    · rw [handVoice_eq]
      rfl
  have hproduct : r.following.product = r.product := rfl
  rw [completeFold_eq hpair, hproduct]
  generalize u.folded e.dest x y r.product = w at hfolded hclosed ⊢
  have hmix : w.mix = ((s.mix.handed x r.product).drop x).drop y := by rw [hfolded.mix, hover.mix]
  have hvoices : VoicesOnly w ((w.claimAtEnd e.dest r.product).armOneShot e.dest) :=
    (claimAtEnd_voicesOnly ..).trans (armOneShot_voicesOnly ..)
  have hclaimed : ((w.claimAtEnd e.dest r.product).armOneShot e.dest).mix = (w.claimAtEnd e.dest r.product).mix :=
    State.armOneShot_mix ..
  generalize (w.claimAtEnd e.dest r.product).armOneShot e.dest = z at hvoices hclaimed ⊢
  have hqueue : z.bounce.queue = { e with run := some r.following } :: q := by
    rw [hvoices.bounce, hfolded.bounce, hover.queue]
  rw [leaveQueue_eq hqueue]
  refine ⟨rfl, rfl, ?_, hclosed.congr hvoices.pool, ?_, ?_, ?_, ?_, fun v hv => ?_, ?_, ?_⟩
  · exact hvoices.mem.trans (hfolded.mem.trans hover.mem)
  · exact (hvoices.stack _).trans (hfolded.stack.trans (by rw [hover.track]))
  · exact (hvoices.layer x).trans ((hfolded.layer x).trans (if_pos (Or.inl rfl)))
  · exact (hvoices.layer y).trans ((hfolded.layer y).trans (if_pos (Or.inr rfl)))
  · refine (hvoices.layer _).trans ((hfolded.layer _).trans ((if_neg (by simp [hx, hy])).trans ?_))
    rw [placeFold_layer, if_pos rfl, hover.layer, hp, hover.clock]
    rfl
  · have hvoiced : w.mix.voiceOf r.product = (s.mix.hand v x r.product).voiceOf r.product := by
      rw [hmix, Mix.voiceOf_handed_drops hx hy hv]
    have hkept : z.mix = w.mix := by
      rw [hclaimed, claimAtEnd_voiced _ (by rw [hvoiced]; exact s.mix.voiceOf_hand v x _)]
    change z.mix.voiceOf r.product ≠ none ∧ (_ → z.mix.voiceOf r.product = some v)
    rw [hkept, hvoiced]
    exact ⟨s.mix.voiceOf_hand v x _, Mix.voiceOf_hand_alone v x⟩
  · refine (congrArg Mix.fresh hclaimed).trans (Eq.trans ?_ (s.mix.handed_fresh x r.product))
    exact (congrArg Mix.fresh hmix :)
  · have hx' : w.mix.Silent x := hmix ▸ (Mix.silent_drop_same ..).drop y
    have hy' : w.mix.Silent y := hmix ▸ Mix.silent_drop_same ..
    change z.mix.Silent x ∧ z.mix.Silent y
    rw [hclaimed]
    exact ⟨claimAtEnd_keeps_silent _ hx' hx.symm, claimAtEnd_keeps_silent _ hy' hy.symm⟩

end Sys2Proof.Machine
end

