-- ==== Sys2Proof/Proofs/CopyCompletes.lean ====
section
/-! The completion of a COPY: the redo list it discards, its product's place, and the tracks it mutes (R116, R117). -/

namespace Sys2Proof.Machine

/-! ### The redo list discarded -/

/-- A track behind frees of layers of its redo list: the stack stays, and of the redo list what is not freed. -/
structure RedoFreed (s u : State) (d : TrackId) : Prop where
  layer : ∀ z, u.layer z = none ∨ u.layer z = s.layer z
  stack : (u.track d).stack = (s.track d).stack
  redo : ∀ z ∈ (u.track d).redo, z ∈ (s.track d).redo ∧ u.layer z = s.layer z
  rest : u.track d = { s.track d with
    redo := (u.track d).redo, span := (u.track d).span, pass := (u.track d).pass, passSet := (u.track d).passSet }

theorem RedoFreed.refl (s : State) (d : TrackId) : RedoFreed s s d :=
  ⟨fun _ => Or.inr rfl, rfl, fun _ hz => ⟨hz, rfl⟩, rfl⟩

section
variable {s u : State} {d : TrackId} {f : State → LayerId → State}

/-- One more layer of the redo list is freed. -/
theorem RedoFreed.step (hf : FreesEach f) (h : RedoFreed s u d) {x : LayerId}
    (hx : (s.layer x).map (·.track) = some d) (hoff : x ∉ (s.track d).stack) : RedoFreed s (f u x) d := by
  have htrack : (f u x).track d = (u.freeLayer x).track d := State.track_congr (hf.tracks u x) d
  have hfreed := trackFreed_freeLayer u x d
  have hstack : ((u.freeLayer x).track d).stack = (s.track d).stack :=
    (stack_freeLayer_of_not_mem (by rwa [h.stack])).trans h.stack
  refine ⟨fun z => ?_, ?_, fun z hz => ?_, ?_⟩
  · rw [hf.layer]
    split
    · exact Or.inl rfl
    · exact h.layer z
  · rw [htrack, hstack]
  · rw [htrack, hfreed.redo, List.mem_filter] at hz
    obtain ⟨hmem, hnot⟩ := hz
    obtain ⟨hz, hlayer⟩ := h.redo z hmem
    have hne : z ≠ x := by
      rintro rfl
      simp [State.freesOf, hlayer, hx] at hnot
    rw [hf.layer, if_neg hne]
    exact ⟨hz, hlayer⟩
  · rw [htrack]
    exact hfreed.rest.trans (by rw [hstack, h.rest])

theorem RedoFreed.foldl (hf : FreesEach f) (l : List LayerId) (h : RedoFreed s u d)
    (hl : ∀ z ∈ l, (s.layer z).map (·.track) = some d ∧ z ∉ (s.track d).stack) : RedoFreed s (l.foldl f u) d := by
  induction l generalizing u with
  | nil => exact h
  | cons x l ih =>
    obtain ⟨hx, hoff⟩ := hl x List.mem_cons_self
    exact ih (h.step hf hx hoff) fun z hz => hl z (List.mem_cons_of_mem _ hz)

/-- The discard of a redo list whose layers are the track's and not on its stack. -/
structure RedoDiscarded (s u : State) (d : TrackId) : Prop where
  frees : FreesOnly s u
  layer : ∀ z, u.layer z = if z ∈ (s.track d).redo then none else s.layer z
  track : u.track d = { s.track d with
    redo := [], span := (u.track d).span, pass := (u.track d).pass, passSet := (u.track d).passSet }
  other : ∀ k, k ≠ d → u.track k = s.track k

theorem discardRedo_discarded
    (h : ∀ z ∈ (s.track d).redo, (s.layer z).map (·.track) = some d ∧ z ∉ (s.track d).stack) :
    RedoDiscarded s (s.discardRedo d) d := by
  have hf := freesEach_discardLayer d .redoDropped
  have hlayer := hf.foldl_layer (s.track d).redo s
  have hfreed := (RedoFreed.refl s d).foldl hf _ h
  have hempty : ((s.discardRedo d).track d).redo = [] := by
    refine List.eq_nil_iff_forall_not_mem.2 fun z hz => ?_
    obtain ⟨hmem, hsame⟩ := hfreed.redo z hz
    rw [hlayer, if_pos hmem] at hsame
    have htrack := (h z hmem).1
    rw [← hsame] at htrack
    exact absurd htrack (by simp)
  refine ⟨FreesOnly.foldl (fun s x => discardLayer_freesOnly s d x _) _ s, hlayer, ?_, fun k hk => ?_⟩
  · exact hfreed.rest.trans (by rw [← hempty]; rfl)
  · refine hf.foldl_track_other _ s fun z hz e => hk ?_
    exact Option.some.inj (e.symm.trans (h z hz).1)

end

/-! ### The product placed -/

/-- A stack with the product on top, or below the overdub that is still recording. -/
def placedOn (st : List LayerId) (dub : Bool) (p : LayerId) : List LayerId :=
  if dub then st.dropLast ++ [p] ++ st.getLast?.toList else st ++ [p]

/-- The state of a track depends on its stack and on what lies on top of it. -/
theorem trackState_congr {s u : State} {k : TrackId} (hstack : (u.track k).stack = (s.track k).stack)
    (hlayer : ∀ x ∈ (s.track k).stack, u.layer x = s.layer x) : u.trackState k = s.trackState k := by
  unfold State.trackState
  rw [hstack]
  cases h : (s.track k).stack.getLast? with
  | none => rfl
  | some x =>
    have hx : u.layer x = s.layer x := hlayer x (List.mem_of_getLast? h)
    dsimp only
    unfold State.filling
    rw [hx]

theorem placeCopy_layer (s : State) (d : TrackId) (p z : LayerId) : (s.placeCopy d p).layer z
    = if z = p then (s.layer p).map fun l => { l with state := .sealed, sealStamp := some s.clock.songBar }
      else s.layer z := State.layer_modLayer ..

theorem placeCopy_track (s : State) (d k : TrackId) (p : LayerId) : (s.placeCopy d p).track k
    = if k = d then
        { s.track d with
          stack := placedOn (s.track d).stack (decide (s.trackState d = .dub)) p
          reservations := (s.track d).reservations - 1 }
      else s.track k := by
  refine (State.track_modTrack s d k fun r =>
    { r with
      stack := if s.trackState d = .dub then r.stack.dropLast ++ [p] ++ r.stack.getLast?.toList else r.stack ++ [p]
      reservations := r.reservations - 1 }).trans (if_congr Iff.rfl ?_ rfl)
  simp only [placedOn, decide_eq_true_eq]

/-- A seal and a pin leave the track of each layer. -/
theorem placeCopy_owner (s : State) (d : TrackId) (p z : LayerId) :
    ((s.placeCopy d p).layer z).map (·.track) = (s.layer z).map (·.track) := by
  rw [placeCopy_layer]
  split
  · next hz => rw [hz, Option.map_map]; rfl
  · rfl

theorem setPins_owner (s : State) (pin : Option Byte) (xs : List LayerId) (z : LayerId) :
    ((s.setPins pin xs).layer z).map (·.track) = (s.layer z).map (·.track) := by
  rw [setPins_layer]
  split
  · rw [Option.map_map]; rfl
  · rfl

/-- The state with the redo list discarded, the product placed and the sources' pins cleared. -/
def State.copied (s : State) (e : Bounce) (p : LayerId) : State :=
  ((s.discardRedo e.dest).placeCopy e.dest p).setPins none e.sources

theorem copied_same (s : State) (e : Bounce) (p : LayerId) : s.copied e p = { s.discardRedo e.dest with
    tracks := ((s.discardRedo e.dest).placeCopy e.dest p).tracks, layers := (s.copied e p).layers } :=
  (setPins_same ..).trans rfl

/-- What a COPY leaves before it mutes its sources' tracks. -/
structure Copied (s u : State) (e : Bounce) (p : LayerId) (l : Layer) : Prop where
  mem : u.mem = s.mem
  bounce : u.bounce = s.bounce
  fresh : u.mix.fresh = s.mix.fresh
  pool : u.pool = (s.discardRedo e.dest).pool
  freed : ∀ z ∈ (s.track e.dest).redo, u.layer z = none
  product : u.layer p = some { l with state := .sealed, sealStamp := some s.clock.songBar }
  unpinned : ∀ x ∈ e.sources, ∀ m, u.layer x = some m → m.pin = none
  owner : ∀ z, (u.layer z).map (·.track) = if z ∈ (s.track e.dest).redo then none else (s.layer z).map (·.track)
  dest : (u.track e.dest).stack = placedOn (s.track e.dest).stack (decide (s.trackState e.dest = .dub)) p
    ∧ (u.track e.dest).redo = [] ∧ (u.track e.dest).reservations = (s.track e.dest).reservations - 1
  mute : ∀ k, (u.track k).mute = (s.track k).mute

theorem copied_copied {s : State} {e : Bounce} {p : LayerId} {l : Layer} (hl : s.layer p = some l) (hpin : l.pin = none)
    (hp : p ∉ (s.track e.dest).redo)
    (h : ∀ z ∈ (s.track e.dest).redo, (s.layer z).map (·.track) = some e.dest ∧ z ∉ (s.track e.dest).stack) :
    Copied s (s.copied e p) e p l := by
  have hdiscard := discardRedo_discarded h
  have hstate : (s.discardRedo e.dest).trackState e.dest = s.trackState e.dest := by
    refine trackState_congr (by rw [hdiscard.track]) fun x hx => ?_
    rw [hdiscard.layer, if_neg fun hr => (h x hr).2 hx]
  have hbar : (s.discardRedo e.dest).clock.songBar = s.clock.songBar := congrArg (·.songBar) hdiscard.frees.clock
  have hlayer : ∀ z, (s.copied e p).layer z
      = if z ∈ e.sources then (((s.discardRedo e.dest).placeCopy e.dest p).layer z).map fun m => { m with pin := none }
        else ((s.discardRedo e.dest).placeCopy e.dest p).layer z := fun z => setPins_layer ..
  have htracks : (s.copied e p).tracks = ((s.discardRedo e.dest).placeCopy e.dest p).tracks :=
    (congrArg State.tracks (copied_same ..) :)
  have htrack := fun k => (State.track_congr htracks k).trans (placeCopy_track ..)
  have hunfreed := hdiscard.layer
  refine ⟨?_, ?_, ?_, ?_, fun z hz => ?_, ?_, fun x hx m hm => ?_, fun z => ?_, ?_, fun k => ?_⟩
  · exact (congrArg State.mem (copied_same ..)).trans hdiscard.frees.mem
  · exact (congrArg State.bounce (copied_same ..)).trans hdiscard.frees.bounce
  · exact (congrArg (·.mix.fresh) (copied_same ..)).trans (congrArg Mix.fresh hdiscard.frees.mix :)
  · exact (congrArg State.pool (copied_same ..) :)
  · have hzp : z ≠ p := fun e => hp (e ▸ hz)
    rw [hlayer, placeCopy_layer, if_neg hzp, hunfreed, if_pos hz]
    exact ite_self _
  · rw [hlayer, placeCopy_layer, if_pos rfl, hunfreed, if_neg hp, hl, hbar]
    split
    · simp [hpin]
    · rfl
  · rw [hlayer, if_pos hx] at hm
    obtain ⟨m', -, rfl⟩ := Option.map_eq_some_iff.1 hm
    rfl
  · rw [State.copied, setPins_owner, placeCopy_owner, hunfreed]
    split <;> rfl
  · rw [htrack, if_pos rfl, hdiscard.track, hstate]
    exact ⟨rfl, rfl, rfl⟩
  · rw [htrack]
    split
    · next hk => rw [hk, hdiscard.track]
    · next hk => rw [hdiscard.other k hk]

/-! ### The sources' tracks muted -/

theorem foldl_muteTrack_mute (l : List TrackId) (s : State) (k : TrackId) :
    ((l.foldl State.muteTrack s).track k).mute = ((s.track k).mute || decide (k ∈ l)) := by
  induction l generalizing s with
  | nil => simp
  | cons j l ih =>
    rw [List.foldl_cons, ih]
    by_cases hk : k = j
    · subst hk
      simp [State.muteTrack_mute]
    · simp [State.track_muteTrack_other hk, hk]

theorem muteTrack_fresh (s : State) (t : TrackId) : (s.muteTrack t).mix.fresh = s.mix.fresh := by
  by_cases h : (s.track t).mute = true
  · rw [State.muteTrack_muted h]
  · rw [State.muteTrack_eq (by simpa using h), Mix.foldl_drop_heard]

theorem muteSourceTracks_voicesOnly (s : State) (e : Bounce) : VoicesOnly s (s.muteSourceTracks e) :=
  VoicesOnly.ite (VoicesOnly.foldl muteTrack_voicesOnly _ s) (VoicesOnly.refl s)

theorem muteSourceTracks_fresh (s : State) (e : Bounce) : (s.muteSourceTracks e).mix.fresh = s.mix.fresh := by
  unfold State.muteSourceTracks
  split
  · exact foldl_leaves (·.mix.fresh) (fun s t => muteTrack_fresh s t) _ s
  · rfl

theorem muteSourceTracks_mute (s : State) (e : Bounce) (k : TrackId) :
    ((s.muteSourceTracks e).track k).mute
      = ((s.track k).mute || (e.muteSources && decide (k ≠ e.dest) && s.hasSourceOn k e)) := by
  unfold State.muteSourceTracks
  cases e.muteSources with
  | false => simp
  | true =>
    rw [if_pos rfl, foldl_muteTrack_mute]
    simp

/-! ### The completion -/

/-- The state in which a completed COPY's auto-fold check is made. -/
def State.copyDone (s : State) (e : Bounce) (r : Run) : State :=
  (((((((s.copied e r.product).muteSourceTracks e).claimAtEnd e.dest r.product).armOneShot e.dest).removeBounce 0).reportDone e r
    (s.track e.dest).redo.length false).unfreshHead)

theorem completeCopy_eq (s : State) (e : Bounce) (r : Run) :
    s.completeCopy e r = (s.copyDone e r).autoFoldAtEnd e.dest := rfl

/-- What a completed COPY leaves before the auto-fold check (R116, R117). -/
structure CopyLeaves (s t : State) (e : Bounce) (q : List Bounce) (r : Run) (p : Layer) : Prop where
  queue : t.bounce.queue = q
  headFresh : t.bounce.headFresh = q.head?.any (·.joined)
  mem : t.mem = s.mem
  closed : IndexClosed s t r
  stack : (t.track e.dest).stack = placedOn (s.track e.dest).stack (decide (s.trackState e.dest = .dub)) r.product
  redo : (t.track e.dest).redo = []
  freed : ∀ z ∈ (s.track e.dest).redo, t.layer z = none
  reservations : (t.track e.dest).reservations = (s.track e.dest).reservations - 1
  product : t.layer r.product = some { p with state := .sealed, sealStamp := some s.clock.songBar }
  fresh : t.mix.fresh = s.mix.fresh
  unpinned : ∀ x ∈ e.sources, ∀ l, t.layer x = some l → l.pin = none
  mute : ∀ k, (t.track k).mute = ((s.track k).mute
    || (e.muteSources && decide (k ≠ e.dest) && e.sources.any fun x =>
      decide (x ∉ (s.track e.dest).redo) && decide ((s.layer x).map (·.track) = some k)))

theorem copyDone_leaves {s u : State} {e : Bounce} {q : List Bounce} {r : Run} {p : Layer} (hover : IndexOver s u e q r)
    (hp : s.layer r.product = some p) (hpin : p.pin = none) (hlegal : s.poolLegal)
    (hproduct : r.product ∉ (s.track e.dest).redo)
    (hredo : ∀ z ∈ (s.track e.dest).redo, (s.layer z).map (·.track) = some e.dest ∧ z ∉ (s.track e.dest).stack) :
    CopyLeaves s (u.copyDone e r.following) e q r p := by
  have hdest : u.track e.dest = s.track e.dest := hover.track _
  have hcopied : Copied u (u.copied e r.product) e r.product p := copied_copied (by rw [hover.layer, hp]) hpin
    (by rwa [hdest]) (by simpa only [hdest, hover.layer] using hredo)
  have hstate : u.trackState e.dest = s.trackState e.dest := trackState_congr (by rw [hdest]) fun x _ => hover.layer x
  have hclosed : IndexClosed s (u.copied e r.product) r := by
    refine IndexClosed.congr (hover.closed.frees (freesEach_discardLayer e.dest .redoDropped) hlegal hproduct
      (fun z _ => hover.layer z) rfl) (hcopied.pool.trans ?_)
    rw [State.discardRedo, hdest]
  unfold State.copyDone
  have hfollowing : r.following.product = r.product := rfl
  rw [hfollowing]
  generalize u.copied e r.product = w at hcopied hclosed ⊢
  have hvoices : VoicesOnly w (((w.muteSourceTracks e).claimAtEnd e.dest r.product).armOneShot e.dest) :=
    (muteSourceTracks_voicesOnly w e).trans ((claimAtEnd_voicesOnly ..).trans (armOneShot_voicesOnly ..))
  have hmute : ∀ k, ((((w.muteSourceTracks e).claimAtEnd e.dest r.product).armOneShot e.dest).track k).mute
      = ((w.track k).mute || (e.muteSources && decide (k ≠ e.dest) && w.hasSourceOn k e)) := fun k => by
    rw [State.armOneShot_mute, claimAtEnd_mute, muteSourceTracks_mute]
  have hfresh : (((w.muteSourceTracks e).claimAtEnd e.dest r.product).armOneShot e.dest).mix.fresh = w.mix.fresh := by
    rw [State.armOneShot_mix]
    exact muteSourceTracks_fresh w e
  generalize ((w.muteSourceTracks e).claimAtEnd e.dest r.product).armOneShot e.dest = z at hvoices hmute hfresh ⊢
  have hqueue : z.bounce.queue = { e with run := some r.following } :: q := by
    rw [hvoices.bounce, hcopied.bounce, hover.queue]
  obtain ⟨hstack, hempty, hreserved⟩ := hcopied.dest
  rw [hdest] at hstack hreserved
  rw [hstate] at hstack
  rw [leaveQueue_eq hqueue]
  refine ⟨rfl, rfl, ?_, hclosed.congr hvoices.pool, ?_, ?_, fun x hx => ?_, ?_, ?_, ?_, fun x hx l hl => ?_, fun k => ?_⟩
  · exact hvoices.mem.trans (hcopied.mem.trans hover.mem)
  · exact (hvoices.stack _).trans hstack
  · exact (hvoices.redo _).trans hempty
  · exact (hvoices.layer x).trans (hcopied.freed x (by rwa [hdest]))
  · exact (congrArg Track.reservations (hvoices.track e.dest)).trans hreserved
  · exact (hvoices.layer _).trans (hcopied.product.trans (by rw [hover.clock]))
  · exact hfresh.trans (hcopied.fresh.trans (by rw [hover.mix]))
  · exact hcopied.unpinned x hx l ((hvoices.layer x).symm.trans hl)
  · refine (hmute k).trans ?_
    rw [hcopied.mute, hover.track]
    unfold State.hasSourceOn
    congr 3
    funext x
    rw [hcopied.owner, hdest, hover.layer]
    split
    · next hx => simp [hx]
    · next hx => simp [hx]

/-! ### BOUNCE_INDEX_FINISH -/

/-- Settles O38: the close by `indexOver_over`, a COPY by `copyDone_leaves` and a FOLD by `completeFold_leaves`. -/
theorem bounceIndexFinishes : Obligations.BounceIndexFinishes := by
  intro w e q r p s hs hq hr hphase hframes hp hpin hlegal
  have hover : IndexOver s (s.indexOver r) e q r := indexOver_over hq
  have hexec : exec .bounceIndexFinish w = .next (s.finishIndex e r) :=
    congrArg Host.Outcome.next (finishHead_due hs hq hr hphase hframes)
  rw [finishIndex_eq] at hexec
  refine ⟨fun hmore => ?_, fun hlast hcopy hproduct hredo => ?_,
    fun x y hlast hfold hsources hxy hx hy hlx hly hpos => ?_⟩
  · rw [if_pos hmore] at hexec
    exact ⟨_, hexec, hover.queue, hover.closed, hover.mem, (congrArg State.layers hover.same :), hover.free⟩
  · rw [if_neg (Nat.not_lt.2 hlast), if_neg (by simp [hcopy]), completeCopy_eq] at hexec
    obtain ⟨hqueue, hfresh, hmem, hclosed, hstack, hempty, hfreed, hreserved, hsealed, hsounds, hpins, hmute⟩ :=
      copyDone_leaves hover hp hpin hlegal hproduct hredo
    refine ⟨_, hexec, hqueue, hfresh, hmem, hclosed, hstack.trans ?_, hempty, hfreed, hreserved, hsealed, hsounds, hpins,
      hmute⟩
    simp only [placedOn, decide_eq_true_eq]
  · rw [if_neg (Nat.not_lt.2 hlast), if_pos hfold] at hexec
    obtain ⟨hqueue, hfresh, hmem, hclosed, hstack, hlower, hupper, hsealed, hvoice, hsounds, hsilent⟩ :=
      completeFold_leaves hover hp hlegal hsources hxy hx hy hlx hly hpos
    obtain ⟨⟨hxvoice, hxwait⟩, hyvoice, hywait⟩ := hsilent
    exact ⟨_, hexec, hqueue, hfresh, hmem, hclosed, hstack, hlower, hupper, hsealed, hvoice, hsounds, hxvoice, hxwait,
      hyvoice, hywait⟩

end Sys2Proof.Machine
end

