-- ==== Sys2Proof/Proofs/BounceAborts.lean ====
section
/-! Bounces aborted: what one abort leaves, the aborts of all entries of a kind, and CANCEL_BOUNCE (R118, R119, R125). -/

namespace Sys2Proof.Machine

/-! ### The first entry of a kind -/

theorem findIdx?_append_cons {α : Type} {p : α → Bool} {before : List α} {x : α} (after : List α)
    (hb : ∀ y ∈ before, p y = false) (hx : p x = true) : (before ++ x :: after).findIdx? p = some before.length := by
  induction before with
  | nil => rw [List.nil_append, List.findIdx?_cons, hx]; rfl
  | cons y before ih =>
    rw [List.cons_append, List.findIdx?_cons, hb y List.mem_cons_self, ih fun z hz => hb z (List.mem_cons_of_mem _ hz)]
    rfl

/-- A list has no entry of a kind, or a first one. -/
theorem forall_not_or_first {α : Type} (p : α → Bool) (l : List α) :
    (∀ x ∈ l, p x = false) ∨ ∃ before x after, l = before ++ x :: after ∧ (∀ y ∈ before, p y = false) ∧ p x = true := by
  cases h : l.find? p with
  | none => exact .inl fun x hx => by simpa using List.find?_eq_none.1 h x hx
  | some x =>
    obtain ⟨hx, before, after, hl, hb⟩ := List.find?_eq_some_iff_append.1 h
    exact .inr ⟨before, x, after, hl, fun y hy => by simpa using hb y hy, hx⟩

/-! ### What aborts leave of the tables (R118) -/

/-- The entry runs, and this is its product. -/
def Bounce.produces (e : Bounce) (x : LayerId) : Bool := e.run.any fun r => r.product == x

/-- The entry is a COPY to this track, and holds a reservation there. -/
def Bounce.reserves (e : Bounce) (k : TrackId) : Bool := !e.fold && decide (e.dest = k)

/-- What is left of a layer record once some entries are aborted: a product is FREE, a source has no pin. -/
def afterAborts (gone : List Bounce) (x : LayerId) (o : Option Layer) : Option Layer :=
  if gone.any (·.produces x) then none
  else if gone.any fun e => e.sources.contains x then o.map fun l => { l with pin := none } else o

/-- From s to t these entries are aborted, the queue and the reports aside. -/
structure AbortsLeave (s t : State) (gone : List Bounce) : Prop where
  layer : ∀ x, t.layer x = afterAborts gone x (s.layer x)
  reservations : ∀ k, (t.track k).reservations = (s.track k).reservations - (gone.filter (·.reserves k)).length
  mem : t.mem = s.mem
  cues : t.cues = s.cues
  head0 : t.head0 = s.head0
  head1 : t.head1 = s.head1
  sup : t.sup = s.sup

theorem afterAborts_append (as bs : List Bounce) (x : LayerId) (o : Option Layer) :
    afterAborts bs x (afterAborts as x o) = afterAborts (as ++ bs) x o := by
  unfold afterAborts
  rw [List.any_append, List.any_append]
  by_cases hp : as.any (·.produces x) = true
  · simp [hp]
  · by_cases hs : (as.any fun e => e.sources.contains x) = true
    · rw [if_neg hp, if_pos hs, hs, Bool.eq_false_of_not_eq_true hp]
      cases o <;> simp
    · rw [if_neg hp, if_neg hs, Bool.eq_false_of_not_eq_true hp, Bool.eq_false_of_not_eq_true hs]
      rfl

theorem AbortsLeave.refl (s : State) : AbortsLeave s s [] :=
  ⟨fun _ => rfl, fun _ => rfl, rfl, rfl, rfl, rfl, rfl⟩

theorem AbortsLeave.trans {s t u : State} {as bs : List Bounce} (h : AbortsLeave s t as) (k : AbortsLeave t u bs) :
    AbortsLeave s u (as ++ bs) where
  layer x := by rw [k.layer, h.layer, afterAborts_append]
  reservations j := by rw [k.reservations, h.reservations, List.filter_append, List.length_append, Nat.sub_sub]
  mem := k.mem.trans h.mem
  cues := k.cues.trans h.cues
  head0 := k.head0.trans h.head0
  head1 := k.head1.trans h.head1
  sup := k.sup.trans h.sup

section
variable {s t : State} {gone : List Bounce} (h : AbortsLeave s t gone)
include h

theorem AbortsLeave.product {e : Bounce} {r : Run} (he : e ∈ gone) (hr : e.run = some r) : t.layer r.product = none := by
  have hp : gone.any (·.produces r.product) = true :=
    List.any_eq_true.2 ⟨e, he, by unfold Bounce.produces; rw [hr]; exact beq_self_eq_true r.product⟩
  rw [h.layer, afterAborts, if_pos hp]

theorem AbortsLeave.unpinned {e : Bounce} {x : LayerId} {l : Layer} (he : e ∈ gone) (hx : x ∈ e.sources)
    (hl : t.layer x = some l) : l.pin = none := by
  have hs : (gone.any fun e => e.sources.contains x) = true :=
    List.any_eq_true.2 ⟨e, he, List.contains_iff_mem.2 hx⟩
  rw [h.layer, afterAborts, if_pos hs] at hl
  split at hl
  · exact absurd hl (by simp)
  · obtain ⟨m, -, rfl⟩ := Option.map_eq_some_iff.1 hl
    rfl

theorem AbortsLeave.other {x : LayerId} (hx : ∀ e ∈ gone, x ∉ e.sources ∧ ∀ r, e.run = some r → r.product ≠ x) :
    t.layer x = s.layer x := by
  have hp : ¬gone.any (·.produces x) = true := fun hany => by
    obtain ⟨e, he, hr⟩ := List.any_eq_true.1 hany
    obtain ⟨r, hr, hrx⟩ := (Option.any_eq_true _ _).1 hr
    exact (hx e he).2 r hr (beq_iff_eq.1 hrx)
  have hs : ¬(gone.any fun e => e.sources.contains x) = true := fun hany => by
    obtain ⟨e, he, hex⟩ := List.any_eq_true.1 hany
    exact (hx e he).1 (List.contains_iff_mem.1 hex)
  rw [h.layer, afterAborts, if_neg hp, if_neg hs]

end

/-! ### One abort -/

section
variable {s : State} {e : Bounce} {i : Nat}

theorem abortBounce_eq (h : s.bounce.queue[i]? = some e) (cause : AbortCause) :
    s.abortBounce i cause
      = ((((s.freeProduct e).setPins none e.sources).unreserve e).removeBounce i).reportAbort e cause (s.productBlocks e) := by
  unfold State.abortBounce
  rw [h]

theorem freeProduct_freesOnly (s : State) (e : Bounce) : FreesOnly s (s.freeProduct e) := by
  unfold State.freeProduct
  split
  · exact freeLayer_freesOnly ..
  · exact FreesOnly.refl s

theorem freeProduct_layer (s : State) (e : Bounce) (x : LayerId) :
    (s.freeProduct e).layer x = if e.produces x then none else s.layer x := by
  unfold State.freeProduct Bounce.produces
  cases e.run with
  | none => rfl
  | some r =>
    refine (layer_freeLayer s r.product x).trans (if_congr ?_ rfl rfl)
    rw [Option.any_some, beq_iff_eq, eq_comm]

theorem Track.trimmed_reservations (r : Track) : r.trimmed.reservations = r.reservations := by
  unfold Track.trimmed
  split <;> rfl

theorem freeLayer_reservations (s : State) (x : LayerId) (k : TrackId) :
    ((s.freeLayer x).track k).reservations = (s.track k).reservations := by
  cases h : s.layer x with
  | none => rw [freeLayer_none h]
  | some l =>
    rw [track_freeLayer h]
    split
    · exact Track.trimmed_reservations _
    · rfl

theorem freeProduct_reservations (s : State) (e : Bounce) (k : TrackId) :
    ((s.freeProduct e).track k).reservations = (s.track k).reservations := by
  unfold State.freeProduct
  split
  · exact freeLayer_reservations ..
  · rfl

theorem unreserve_reservations (s : State) (e : Bounce) (k : TrackId) :
    ((s.unreserve e).track k).reservations = (s.track k).reservations - ([e].filter (·.reserves k)).length := by
  have hfilter : ([e].filter (·.reserves k)).length = if e.reserves k then 1 else 0 := by
    rw [List.filter_cons]
    split <;> rfl
  rw [hfilter]
  unfold State.unreserve Bounce.reserves
  cases e.fold with
  | true => rfl
  | false =>
    rw [if_neg Bool.false_ne_true]
    refine (congrArg Track.reservations (State.track_modTrack _ e.dest k Track.trimmed)).trans ?_
    by_cases hk : k = e.dest
    · rw [if_pos hk, Track.trimmed_reservations, State.track_modTrack_same, hk]
      simp
    · rw [if_neg hk, State.track_modTrack_other _ _ _ _ hk]
      simp [Ne.symm hk]

/-- An abort writes the tables as its three steps do, and the queue. -/
theorem abortBounce_same (h : s.bounce.queue[i]? = some e) (cause : AbortCause) :
    s.abortBounce i cause
      = { ((s.freeProduct e).setPins none e.sources).unreserve e with
          bounce := (s.removeBounce i).bounce, link := (s.abortBounce i cause).link } := by
  rw [abortBounce_eq h, State.reportAbort, State.report_eq]
  unfold State.removeBounce
  rw [unreserve_same, setPins_same, (freeProduct_freesOnly s e).bounce]

theorem abortBounce_queue (h : s.bounce.queue[i]? = some e) (cause : AbortCause) :
    (s.abortBounce i cause).bounce.queue = s.bounce.queue.eraseIdx i := by
  rw [abortBounce_same h]
  rfl

theorem abortBounce_leaves (h : s.bounce.queue[i]? = some e) (cause : AbortCause) :
    AbortsLeave s (s.abortBounce i cause) [e] where
  layer x := by
    rw [abortBounce_same h, unreserve_same]
    change ((s.freeProduct e).setPins none e.sources).layer x = _
    rw [setPins_layer, freeProduct_layer]
    unfold afterAborts
    simp only [List.any_cons, List.any_nil, Bool.or_false, List.contains_iff_mem]
    cases e.produces x <;> simp
  reservations k := by
    rw [abortBounce_same h]
    change ((((s.freeProduct e).setPins none e.sources).unreserve e).track k).reservations = _
    rw [unreserve_reservations, setPins_same]
    exact congrArg (· - _) (freeProduct_reservations s e k)
  mem := by
    rw [abortBounce_same h, unreserve_same, setPins_same]
    exact (freeProduct_freesOnly s e).mem
  cues := (abortBounce_stays s i cause).cues
  head0 := (abortBounce_heads s i cause).head0
  head1 := (abortBounce_heads s i cause).head1
  sup := (abortBounce_keeps s i cause).sup

end

/-! ### The aborts of all entries of a kind (R119) -/

section
variable {p : Bounce → Bool} {cause : AbortCause}

/-- The first entry of the kind is aborted first. -/
theorem abortWhere_first {s : State} {before after : List Bounce} {e : Bounce} (n : Nat)
    (hq : s.bounce.queue = before ++ e :: after) (hb : ∀ a ∈ before, p a = false) (he : p e = true) :
    State.abortWhere (fun _ e => if p e then some cause else none) (n + 1) s
      = State.abortWhere (fun _ e => if p e then some cause else none) n (s.abortBounce before.length cause) := by
  have hfirst : (s.bounce.queue.findIdx? fun e => (if p e then some cause else none).isSome) = some before.length := by
    rw [hq]
    exact findIdx?_append_cons after (fun a ha => by simp [hb a ha]) (by simp [he])
  have hentry : s.bounce.queue[before.length]? = some e := by rw [hq]; simp
  rw [State.abortWhere, hfirst]
  simp only [hentry, Option.bind_some, he, if_true]

/-- With no entry of the kind nothing is aborted. -/
theorem abortWhere_none {s : State} (n : Nat) (hq : ∀ e ∈ s.bounce.queue, p e = false) :
    State.abortWhere (fun _ e => if p e then some cause else none) n s = s := by
  cases n with
  | zero => rfl
  | succ n =>
    have hnone : (s.bounce.queue.findIdx? fun e => (if p e then some cause else none).isSome) = none :=
      List.findIdx?_eq_none_iff.2 fun e he => by simp [hq e he]
    rw [State.abortWhere, hnone]

/-- At most as many aborts as the queue has entries abort all of the kind, in the order of the queue. -/
theorem abortWhere_leaves (n : Nat) (s : State) (hn : s.bounce.queue.length ≤ n) :
    let t := State.abortWhere (fun _ e => if p e then some cause else none) n s
    t.bounce.queue = s.bounce.queue.filter (fun e => !p e) ∧ AbortsLeave s t (s.bounce.queue.filter p) := by
  induction n generalizing s with
  | zero =>
    rw [List.length_eq_zero_iff.1 (Nat.le_zero.1 hn)]
    exact ⟨List.length_eq_zero_iff.1 (Nat.le_zero.1 hn), AbortsLeave.refl s⟩
  | succ n ih =>
    intro t
    rcases forall_not_or_first p s.bounce.queue with hnone | ⟨before, e, after, hq, hb, he⟩
    · have ht : t = s := abortWhere_none _ hnone
      rw [ht, List.filter_eq_self.2 fun a ha => by rw [hnone a ha]; rfl,
        List.filter_eq_nil_iff.2 fun a ha => by rw [hnone a ha]; exact Bool.false_ne_true]
      exact ⟨rfl, AbortsLeave.refl s⟩
    · have ht : t = _ := abortWhere_first n hq hb he
      have hentry : s.bounce.queue[before.length]? = some e := by rw [hq]; simp
      have hrest : (s.abortBounce before.length cause).bounce.queue = before ++ after := by
        rw [abortBounce_queue hentry, hq, List.eraseIdx_append_of_length_le (Nat.le_refl _)]
        simp
      have hgone : s.bounce.queue.filter p = [e] ++ (before ++ after).filter p := by
        rw [hq, List.filter_append, List.filter_append, List.filter_eq_nil_iff.2 fun a ha => by simp [hb a ha]]
        simp [he]
      have hstay : s.bounce.queue.filter (fun e => !p e) = (before ++ after).filter fun e => !p e := by
        rw [hq]
        simp [he]
      have hlength : (before ++ after).length ≤ n := by
        rw [hq] at hn
        simp only [List.length_append, List.length_cons] at hn ⊢
        omega
      obtain ⟨hqueue, hleaves⟩ := ih (s.abortBounce before.length cause) (by rw [hrest]; exact hlength)
      rw [hrest] at hqueue hleaves
      rw [ht, hgone, hstay]
      exact ⟨hqueue, (abortBounce_leaves hentry cause).trans hleaves⟩

end

/-! ### CANCEL_BOUNCE (R125) -/

theorem exec_cancelBounceById {s : State} {tag id : Byte}
    (h : s.canTake { kind := 0x29, tag := tag, payload := [0, id] } = true) :
    exec (.cancelBounceById tag [0, id]) s = .next
      ((ownCancelBounceById s.takeRequest [0, id]).1.reply 0x29 tag (ownCancelBounceById s.takeRequest [0, id]).2) :=
  congrArg Host.Outcome.next (serve_taken h rfl rfl)

theorem exec_cancelBounceAll {s : State} {tag id : Byte}
    (h : s.canTake { kind := 0x29, tag := tag, payload := [1, id] } = true) :
    exec (.cancelBounceAll tag [1, id]) s = .next
      ((ownCancelBounceAll s.takeRequest [1, id]).1.reply 0x29 tag (ownCancelBounceAll s.takeRequest [1, id]).2) :=
  congrArg Host.Outcome.next (serve_taken h rfl rfl)

theorem ownCancelBounceById_none {u : State} {id : Byte} (hu : u.isReady = true)
    (h : u.bounce.queue.filter (fun e => e.id = id) = []) : ownCancelBounceById u [0, id] = (u, [10, 0]) := by
  have hall : u.bounce.queue.all (fun e => e.id ≠ id) = true :=
    List.all_eq_true.2 fun e he => by simpa using List.filter_eq_nil_iff.1 h e he
  simp only [ownCancelBounceById, hu, hall]
  rfl

theorem ownCancelBounceById_some {u : State} {id : Byte} (hu : u.isReady = true)
    (h : u.bounce.queue.filter (fun e => e.id = id) ≠ []) :
    ownCancelBounceById u [0, id] = u.cancelBounces fun e => e.id = id := by
  have hall : ¬u.bounce.queue.all (fun e => e.id ≠ id) = true := fun hall =>
    h (List.filter_eq_nil_iff.2 fun e he => by simpa using List.all_eq_true.1 hall e he)
  simp only [ownCancelBounceById, hu, if_neg hall]
  rfl

theorem ownCancelBounceAll_ready {u : State} {id : Byte} (hu : u.isReady = true) :
    ownCancelBounceAll u [1, id] = u.cancelBounces fun _ => true := by
  simp only [ownCancelBounceAll, hu]
  rfl

theorem cancelBounces_leaves (u : State) (f : Bounce → Bool) :
    (u.cancelBounces f).1.bounce.queue = u.bounce.queue.filter (fun e => !f e)
      ∧ AbortsLeave u (u.cancelBounces f).1 (u.bounce.queue.filter f) :=
  abortWhere_leaves _ u (Nat.le_refl _)

theorem cancelBounces_answer (u : State) (f : Bounce → Bool) :
    (u.cancelBounces f).2 = [0, byte (u.bounce.queue.filter f).length] := rfl

/-- Settles O34: both modes abort the entries of a kind, which `abortWhere_leaves` follows through the queue. -/
theorem cancelBounceAbortsTheEntriesOfItsMode : Obligations.CancelBounceAbortsTheEntriesOfItsMode := by
  intro s tag id hs u leaves
  have hu : u.isReady = true := isReady_of_ready hs
  have hleaves : ∀ t gone, AbortsLeave u t gone → leaves t gone := fun t gone h =>
    ⟨fun _ he _ hr => h.product he hr, fun _ he _ hx _ hl => h.unpinned he hx hl, fun _ hx => h.other hx,
      h.reservations, h.mem, h.cues, h.head0, h.head1, h.sup⟩
  refine ⟨fun h => ⟨fun hnone => ?_, fun hsome => ?_⟩, fun h => ?_⟩
  · rw [exec_cancelBounceById h, ownCancelBounceById_none hu hnone]
  · obtain ⟨hqueue, hgone⟩ := cancelBounces_leaves u fun e => e.id = id
    refine ⟨(u.cancelBounces fun e => e.id = id).1, ?_, hqueue.trans ?_, hleaves _ _ hgone⟩
    · rw [exec_cancelBounceById h, ownCancelBounceById_some hu hsome, cancelBounces_answer]
    · simp only [decide_not]
  · obtain ⟨hqueue, hgone⟩ := cancelBounces_leaves u fun _ => true
    have hall : u.bounce.queue.filter (fun _ => true) = u.bounce.queue := List.filter_eq_self.2 fun _ _ => rfl
    rw [hall] at hgone
    refine ⟨(u.cancelBounces fun _ => true).1, ?_, hqueue.trans (List.filter_eq_nil_iff.2 fun _ _ => by simp),
      hleaves _ _ hgone⟩
    rw [exec_cancelBounceAll h, ownCancelBounceAll_ready hu, cancelBounces_answer, hall]

end Sys2Proof.Machine
end

