-- ==== Sys2Proof/Proofs/BounceChecks.lean ====
section
/-! FOLD_CONFIG, and the checks of a Bounce request in their order (R110, R111, R124). -/

namespace Sys2Proof.Machine

/-! ### FOLD_CONFIG (R124) -/

theorem isReady_iff {s : State} : s.isReady = true ↔ s.sup.state = .ready := by
  unfold State.isReady
  exact decide_eq_true_iff

theorem ownFoldConfig_eq (u : State) (a : Byte) :
    ownFoldConfig u [a] =
      if ¬u.isReady = true then (u, [7, 0])
      else if a = 1 ∨ a = 2 ∨ 6 < a.toNat then (u, [3, 0])
      else ({ u with bounce := { u.bounce with threshold := a.toNat } }, [0, byte u.bounce.threshold]) := by
  have hone : a = 1 ↔ a.toNat = 1 := BitVec.toNat_eq
  have htwo : a = 2 ↔ a.toNat = 2 := BitVec.toNat_eq
  unfold ownFoldConfig
  refine if_congr ?_ rfl (if_congr ?_ rfl rfl)
  · rw [Bool.not_eq_true, Bool.not_eq_true']
  · rw [hone, htwo]

/-- Settles O35: the owner's three answers, each under its own condition. -/
theorem foldConfigSetsTheThreshold : Obligations.FoldConfigSetsTheThreshold := by
  intro s tag a h u
  have hexec : exec (.foldConfig tag [a]) s
      = .next ((ownFoldConfig u [a]).1.reply 0x2B tag (ownFoldConfig u [a]).2) :=
    congrArg Host.Outcome.next (serve_taken h rfl rfl)
  have hready : ¬u.isReady = true ↔ s.sup.state ≠ .ready := by rw [takeRequest_isReady, isReady_iff]
  rw [hexec, ownFoldConfig_eq, if_congr hready rfl rfl]
  split
  · rfl
  · split <;> rfl

/-! ### The fields of a Bounce request (R110, steps 1 and 2) -/

theorem exec_bounce {s : State} {tag m d o c x0 x1 x2 x3 : Byte}
    (h : s.canTake { kind := 0x28, tag := tag, payload := [m, d, o, c, x0, x1, x2, x3] } = true) :
    exec (.bounce tag [m, d, o, c, x0, x1, x2, x3]) s
      = .next ((ownBounce s.takeRequest [m, d, o, c, x0, x1, x2, x3]).1.reply 0x28 tag
          (ownBounce s.takeRequest [m, d, o, c, x0, x1, x2, x3]).2) :=
  congrArg Host.Outcome.next (serve_taken h rfl rfl)

@[simp] theorem layerOf_byte (x : LayerId) : layerOf (byte x.val) = some x := by
  have hx : (byte x.val).toNat = x.val := Nat.mod_eq_of_lt (by omega)
  have hlt : (byte x.val).toNat < 56 := by omega
  rw [layerOf_of_lt hlt]
  exact congrArg some (Fin.ext hx)

theorem layersOf_bytes (xs : List LayerId) : layersOf (xs.map fun x => byte x.val) = some xs := by
  unfold layersOf
  induction xs with
  | nil => rfl
  | cons x xs ih => rw [List.map_cons, List.mapM_cons, layerOf_byte, ih]; rfl

/-- A source above 55 is no layer number. -/
theorem layersOf_none {bs : List Byte} {b : Byte} (hb : b ∈ bs) (hgt : 55 < b.toNat) : layersOf bs = none := by
  unfold layersOf
  induction bs with
  | nil => exact absurd hb List.not_mem_nil
  | cons c bs ih =>
    rw [List.mapM_cons]
    rcases List.mem_cons.1 hb with rfl | hb
    · rw [layerOf_of_gt hgt]; rfl
    · rw [ih hb]
      cases layerOf c <;> rfl

theorem badSource_append_cons {before : List Byte} {b : Byte} (after : List Byte) (hb : ∀ y ∈ before, y.toNat ≤ 55)
    (hgt : 55 < b.toNat) : badSource (before ++ b :: after) = byte before.length := by
  have hfirst : (before ++ b :: after).findIdx? (fun b => (layerOf b).isNone) = some before.length :=
    findIdx?_append_cons after
      (fun y hy => by
        have hy55 := hb y hy
        rw [layerOf_of_lt (b := y) (by omega)]
        rfl)
      (by rw [layerOf_of_gt hgt]; rfl)
  unfold badSource
  rw [List.findIdx_eq_getD_findIdx?, hfirst]
  rfl

/-- The mode, the options or the count of a Bounce request is out of its range (R110, step 2). -/
def bounceFormBad (m o c : Byte) : Prop :=
  1 < m.toNat ∨ 3 < o.toNat ∨ c.toNat = 0 ∨ 4 < c.toNat ∨ (m = 1 ∧ c.toNat ≠ 2)

section
variable {u : State} {m d o c x0 x1 x2 x3 : Byte} (hu : u.isReady = true)
include hu

theorem ownBounce_of_gt (hd : 7 < d.toNat) :
    ownBounce u [m, d, o, c, x0, x1, x2, x3] = bounceRefused u .badValue 0xFF := by
  simp only [ownBounce, hu, trackOf_of_gt hd]
  rfl

theorem ownBounce_form (hform : bounceFormBad m o c) :
    ownBounce u [m, d, o, c, x0, x1, x2, x3] = bounceRefused u .badValue 0xFF := by
  unfold bounceFormBad at hform
  simp only [ownBounce, hu, if_pos hform]
  cases trackOf d <;> rfl

variable (hform : ¬bounceFormBad m o c)
include hform

theorem ownBounce_badSource (hd : d.toNat < 8) (hl : layersOf ([x0, x1, x2, x3].take c.toNat) = none) :
    ownBounce u [m, d, o, c, x0, x1, x2, x3]
      = bounceRefused u .badValue (badSource ([x0, x1, x2, x3].take c.toNat)) := by
  unfold bounceFormBad at hform
  simp only [ownBounce, hu, trackOf_of_lt hd, if_neg hform, hl]
  rfl

theorem ownBounce_listed (hd : d.toNat < 8) {xs : List LayerId}
    (hl : [x0, x1, x2, x3].take c.toNat = xs.map fun x => byte x.val) :
    ownBounce u [m, d, o, c, x0, x1, x2, x3] = if xs.Nodup then
        u.requestBounce (decide (m = 1)) ⟨d.toNat, hd⟩ xs (o.getLsbD 0) (o.getLsbD 1)
      else bounceRefused u .badValue 0xFF := by
  unfold bounceFormBad at hform
  simp only [ownBounce, hu, trackOf_of_lt hd, if_neg hform, hl, layersOf_bytes]
  by_cases hx : xs.Nodup
  · simp [hx]
  · simp [hx]

end

/-! ### The sources of a Bounce request (R110, steps 4 and 5) -/

theorem sourceRefusal_byte (s : State) (x : LayerId) : (s.sourceRefusal x).map Code.byte = sourceCode (s.layer x) := by
  unfold State.sourceRefusal sourceCode
  cases s.layer x with
  | none => rfl
  | some l =>
    dsimp only
    rw [apply_ite (Option.map Code.byte), apply_ite (Option.map Code.byte), apply_ite (Option.map Code.byte)]
    refine if_congr Iff.rfl rfl (if_congr Iff.rfl rfl (if_congr ?_ rfl rfl))
    exact Option.isSome_iff_ne_none

theorem sourceRefusal_eq_none {s : State} {x : LayerId} : s.sourceRefusal x = none ↔ sourceCode (s.layer x) = none := by
  rw [← sourceRefusal_byte, Option.map_eq_none_iff]

theorem sourceRefusal_of_code {s : State} {x : LayerId} {code : Byte} (h : sourceCode (s.layer x) = some code) :
    ∃ c, s.sourceRefusal x = some c ∧ c.byte = code := by
  rw [← sourceRefusal_byte] at h
  exact Option.map_eq_some_iff.1 h

theorem firstRefusal_none {s : State} {xs : List LayerId} (h : ∀ y ∈ xs, sourceCode (s.layer y) = none) :
    s.firstRefusal xs = none := by
  unfold State.firstRefusal
  refine List.findSome?_eq_none_iff.2 fun p hp => ?_
  rw [sourceRefusal_eq_none.2 (h p.1 (List.fst_mem_of_mem_zipIdx hp))]
  rfl

theorem firstRefusal_first {s : State} {before : List LayerId} {x : LayerId} (after : List LayerId) {c : Code}
    (hb : ∀ y ∈ before, sourceCode (s.layer y) = none) (hx : s.sourceRefusal x = some c) :
    s.firstRefusal (before ++ x :: after) = some (before.length, c) := by
  have hnone := firstRefusal_none hb
  unfold State.firstRefusal at hnone ⊢
  rw [List.zipIdx_append, List.findSome?_append, hnone, List.zipIdx_cons, List.findSome?_cons, hx, Nat.zero_add]
  rfl

theorem mapLen_eq (s : State) (x : LayerId) : s.mapLen x = ((s.layer x).map fun l => l.map.length).getD 0 := by
  unfold State.mapLen
  cases s.layer x <;> rfl

/-- Sources of one length: each is as long as the first. -/
theorem mapLen_head {s : State} {xs : List LayerId} {y : LayerId} (hy : y ∈ xs)
    (h : ∀ y ∈ xs, ∀ z ∈ xs, s.mapLen y = s.mapLen z) : (xs.head?.map s.mapLen).getD 0 = s.mapLen y := by
  cases xs with
  | nil => exact absurd hy List.not_mem_nil
  | cons x xs => exact h x List.mem_cons_self y hy

theorem sameLength_any {s : State} {xs : List LayerId} (h : ∀ y ∈ xs, ∀ z ∈ xs, s.mapLen y = s.mapLen z) :
    (xs.any fun x => decide (s.mapLen x ≠ (xs.head?.map s.mapLen).getD 0)) = false :=
  List.any_eq_false.2 fun y hy => by simp [mapLen_head hy h]

theorem otherLength_any {s : State} {xs : List LayerId} (h : ∃ y ∈ xs, ∃ z ∈ xs, s.mapLen y ≠ s.mapLen z) :
    (xs.any fun x => decide (s.mapLen x ≠ (xs.head?.map s.mapLen).getD 0)) = true := by
  obtain ⟨y, hy, z, hz, hyz⟩ := h
  rw [List.any_eq_true]
  by_cases hlen : s.mapLen y = (xs.head?.map s.mapLen).getD 0
  · exact ⟨z, hz, by simpa [← hlen] using Ne.symm hyz⟩
  · exact ⟨y, hy, by simpa using hlen⟩

/-! ### A Bounce request's checks from the queue on (R110, R111) -/

section
variable {u : State} {fold : Bool} {d : TrackId} {xs : List LayerId} {levels mute : Bool}

theorem requestBounce_full (hq : u.bounce.queue.length = 4) :
    u.requestBounce fold d xs levels mute = bounceRefused u .full 0xFF := by
  unfold State.requestBounce
  exact if_pos hq

variable (hq : u.bounce.queue.length ≠ 4)
include hq

theorem requestBounce_source {i : Nat} {c : Code} (hf : u.firstRefusal xs = some (i, c)) :
    u.requestBounce fold d xs levels mute = bounceRefused u c (byte i) := by
  unfold State.requestBounce
  simp only [if_neg hq, hf]

variable (hsources : ∀ y ∈ xs, sourceCode (u.layer y) = none)
include hsources

theorem requestBounce_lengths (hlen : ∃ y ∈ xs, ∃ z ∈ xs, u.mapLen y ≠ u.mapLen z) :
    u.requestBounce fold d xs levels mute = bounceRefused u .badValue 0xFF := by
  unfold State.requestBounce
  simp only [if_neg hq, firstRefusal_none hsources]
  exact if_pos (otherLength_any hlen)

variable (hlen : ∀ y ∈ xs, ∀ z ∈ xs, u.mapLen y = u.mapLen z)
include hlen

theorem requestBounce_fold_off {i : Nat} (hoff : (xs.findIdx? fun x => !(u.track d).stack.contains x) = some i) :
    u.requestBounce true d xs levels mute = bounceRefused u .badValue (byte i) := by
  unfold State.requestBounce
  simp only [if_neg hq, firstRefusal_none hsources, sameLength_any hlen, hoff, Bool.false_eq_true, if_false, if_true]

theorem requestBounce_fold_accepted (hon : ∀ x ∈ xs, x ∈ (u.track d).stack) :
    u.requestBounce true d xs levels mute
      = u.acceptBounce true d xs levels mute ((xs.head?.map u.mapLen).getD 0) := by
  have hnone : (xs.findIdx? fun x => !(u.track d).stack.contains x) = none :=
    List.findIdx?_eq_none_iff.2 fun x hx => by simpa using hon x hx
  unfold State.requestBounce
  simp only [if_neg hq, firstRefusal_none hsources, sameLength_any hlen, hnone, Bool.false_eq_true, if_false, if_true]

theorem requestBounce_copy_refused {c : Code} (hc : u.copyRefusal d ((xs.head?.map u.mapLen).getD 0) = some c) :
    u.requestBounce false d xs levels mute = bounceRefused u c 0xFF := by
  unfold State.requestBounce
  simp only [if_neg hq, firstRefusal_none hsources, sameLength_any hlen, hc, Bool.false_eq_true, if_false]

theorem requestBounce_copy_accepted (hc : u.copyRefusal d ((xs.head?.map u.mapLen).getD 0) = none) :
    u.requestBounce false d xs levels mute
      = u.acceptBounce false d xs levels mute ((xs.head?.map u.mapLen).getD 0) := by
  unfold State.requestBounce
  simp only [if_neg hq, firstRefusal_none hsources, sameLength_any hlen, hc, Bool.false_eq_true, if_false]

end

/-! ### The destination of a COPY (R111) -/

theorem spanFor_none {c : Clock} {n : Nat} : c.spanFor n = none ↔ ∀ span, c.mapLength span ≠ n := by
  unfold Clock.spanFor
  rw [List.find?_eq_none]
  refine ⟨fun h span => by simpa using h span (by cases span <;> decide), fun h span _ => by simpa using h span⟩

theorem spanFor_some {c : Clock} {n : Nat} (h : ∃ span, c.mapLength span = n) :
    ∃ span, c.spanFor n = some span ∧ c.mapLength span = n := by
  cases hs : c.spanFor n with
  | none => obtain ⟨span, hspan⟩ := h; exact absurd hspan (spanFor_none.1 hs span)
  | some span => exact ⟨span, rfl, by simpa using List.find?_some hs⟩

section
variable {u : State} {d : TrackId} {n : Nat}

theorem copyRefusal_recording (h : u.trackState d = .recording) : u.copyRefusal d n = some .wrongState := if_pos h

variable (hstate : u.trackState d ≠ .recording)
include hstate

theorem copyRefusal_crowded (hp : (u.track d).stack.length + (u.track d).reservations = 6) :
    u.copyRefusal d n = some .stackFull := (if_neg hstate).trans (if_pos hp)

variable (hp : (u.track d).stack.length + (u.track d).reservations ≠ 6)
include hp

theorem copyRefusal_span {span : Span} (hs : (u.track d).span = some span) :
    u.copyRefusal d n = if u.clock.mapLength span ≠ n then some .badValue else none := by
  refine (if_neg hstate).trans ((if_neg hp).trans ?_)
  rw [hs]

theorem copyRefusal_no_span (hs : (u.track d).span = none) :
    u.copyRefusal d n = if (u.clock.spanFor n).isNone then some .badValue else none := by
  refine (if_neg hstate).trans ((if_neg hp).trans ?_)
  rw [hs]

end

/-! ### BOUNCE refused -/

/-- Settles O32: each clause is one check of the owner, the checks ahead of it being passed. -/
theorem bounceIsRefused : Obligations.BounceIsRefused := by
  intro s tag m d o c x0 x1 x2 x3 xs h hs u answers lengthOf
  have hu : u.isReady = true := isReady_of_ready hs
  have hanswers : ∀ code place, ownBounce u [m, d, o, c, x0, x1, x2, x3] = bounceRefused u code place →
      answers code.byte place := fun code place hown => by
    show exec _ s = _
    rw [exec_bounce h, hown]
    rfl
  have hlength : lengthOf = u.mapLen := funext fun x => (mapLen_eq u x).symm
  have hzero : c = 0 ↔ c.toNat = 0 := BitVec.toNat_eq
  have htwo : c = 2 ↔ c.toNat = 2 := BitVec.toNat_eq
  rw [hlength]
  refine ⟨fun hbad => hanswers .badValue _ ?_, fun hm hd ho hc1 hc4 hcount => ?_⟩
  · by_cases hd : 7 < d.toNat
    · exact ownBounce_of_gt hu hd
    · refine ownBounce_form hu ?_
      unfold bounceFormBad
      rw [hzero, Ne, htwo] at hbad
      tauto
  · have hform : ¬bounceFormBad m o c := by
      unfold bounceFormBad
      rw [htwo] at hcount
      rintro (h | h | h | h | ⟨h, hne⟩)
      · omega
      · omega
      · omega
      · omega
      · exact hne (hcount h)
    refine ⟨fun before b after hlisted hbefore hgt => hanswers .badValue _ ?_,
      fun hlisted => ?_⟩
    · rw [ownBounce_badSource hu hform hd (layersOf_none (by rw [hlisted]; simp) hgt), hlisted,
        badSource_append_cons after hbefore hgt]
    · have hown := ownBounce_listed hu hform hd hlisted
      refine ⟨fun hdup => hanswers .badValue _ (hown.trans (if_neg hdup)), fun hnodup => ?_⟩
      rw [if_pos hnodup] at hown
      refine ⟨fun hq => hanswers .full _ (hown.trans (requestBounce_full hq)), fun hq => ⟨?_, fun hsources => ⟨?_, ?_⟩⟩⟩
      · intro before x after code hxs hbefore hx
        obtain ⟨e, he, hcode⟩ := sourceRefusal_of_code hx
        rw [← hcode]
        exact hanswers e _ (hown.trans (requestBounce_source hq (hxs ▸ firstRefusal_first after hbefore he)))
      · exact fun hlen => hanswers .badValue _ (hown.trans (requestBounce_lengths hq hsources hlen))
      · refine fun hlen => ⟨fun hm1 before x after hxs hon hoff => ?_, fun hm0 => ?_⟩
        · rw [decide_eq_true hm1] at hown
          refine hanswers .badValue _ (hown.trans (requestBounce_fold_off hq hsources hlen ?_))
          rw [hxs]
          exact findIdx?_append_cons after (fun y hy => by simpa using hon y hy) (by simpa using hoff)
        · have hcopy : ∀ e, u.copyRefusal ⟨d.toNat, hd⟩ ((xs.head?.map u.mapLen).getD 0) = some e → answers e.byte 0xFF :=
            fun e he => by
              rw [decide_eq_false (show ¬m = 1 by rw [hm0]; decide)] at hown
              exact hanswers e _ (hown.trans (requestBounce_copy_refused hq hsources hlen he))
          refine ⟨fun hrec => hcopy _ (copyRefusal_recording hrec), fun hrec => ⟨fun hp => ?_, fun hp y hy => ?_⟩⟩
          · exact hcopy _ (copyRefusal_crowded hrec hp)
          · rw [mapLen_head hy hlen] at hcopy
            refine ⟨fun span hspan hne => ?_, fun hspan hne => ?_⟩
            · exact hcopy .badValue ((copyRefusal_span hrec hp hspan).trans (if_pos hne))
            · refine hcopy .badValue ((copyRefusal_no_span hrec hp hspan).trans (if_pos ?_))
              rw [spanFor_none.2 hne]
              rfl

end Sys2Proof.Machine
end

