-- ==== Sys2Proof/Proofs/BounceJoins.lean ====
section
/-! A bounce joins the queue: by an accepted request, or by the auto-fold check (R108, R112, R122, R123). -/

namespace Sys2Proof.Machine

/-! ### An entry joins the queue (R108, R112) -/

section
variable {s : State} {fold auto : Bool} {xs : List LayerId} {d : TrackId} {levels mute : Bool}

theorem enqueueBounce_same (s : State) (fold auto : Bool) (xs : List LayerId) (d : TrackId) (levels mute : Bool) :
    s.enqueueBounce fold auto xs d levels mute = { s with
      layers := (s.enqueueBounce fold auto xs d levels mute).layers
      tracks := (s.enqueueBounce fold auto xs d levels mute).tracks
      bounce := (s.enqueueBounce fold auto xs d levels mute).bounce } := by
  have hpins := setPins_same s (some s.bounce.nextId) xs
  unfold State.enqueueBounce
  dsimp only
  generalize s.setPins (some s.bounce.nextId) xs = v at hpins ⊢
  rw [hpins]
  cases fold <;> rfl

theorem enqueueBounce_bounce (x : LayerId) (ys : List LayerId) :
    (s.enqueueBounce fold auto (x :: ys) d levels mute).bounce = { s.bounce with
      queue := s.bounce.queue ++
        [{ id := s.bounce.nextId, fold := fold, auto := auto, sources := x :: ys, dest := d, levels := levels
           muteSources := mute, mapLen := s.mapLen x, run := none, joined := true }]
      nextId := s.bounce.nextId + 1
      headFresh := s.bounce.headFresh || s.bounce.queue.isEmpty } := by
  unfold State.enqueueBounce
  cases fold <;> simp

theorem enqueueBounce_layer (x : LayerId) :
    (s.enqueueBounce fold auto xs d levels mute).layer x
      = if x ∈ xs then (s.layer x).map (fun l => { l with pin := some s.bounce.nextId }) else s.layer x := by
  rw [← setPins_layer]
  unfold State.enqueueBounce
  cases fold <;> rfl

theorem enqueueFold_tracks : (s.enqueueBounce true auto xs d levels mute).tracks = s.tracks := by
  exact (congrArg State.tracks (setPins_same s (some s.bounce.nextId) xs) :)

theorem enqueueCopy_track (k : TrackId) :
    (s.enqueueBounce false auto xs d levels mute).track k
      = if k = d then { s.track d with reservations := (s.track d).reservations + 1 } else s.track k := by
  have hpins : ∀ j, (s.setPins (some s.bounce.nextId) xs).track j = s.track j :=
    State.track_congr (congrArg State.tracks (setPins_same s (some s.bounce.nextId) xs) :)
  refine (State.track_modTrack (s.setPins (some s.bounce.nextId) xs) d k
    fun r => { r with reservations := r.reservations + 1 }).trans ?_
  rw [hpins, hpins]

end

/-! ### The span that a COPY gives its destination (R9, R10, R112) -/

section
variable {u : State} {d : TrackId} {xs : List LayerId} {n : Nat}

theorem copySpan_same (u : State) (d : TrackId) (xs : List LayerId) (n : Nat) :
    u.copySpan d xs n = { u with tracks := (u.copySpan d xs n).tracks } := by
  unfold State.copySpan
  split <;> rfl

/-- The destination's span has map length n, or, where it has none, some span has (R111). -/
def SpanFits (u : State) (d : TrackId) (n : Nat) : Prop :=
  (∀ span, (u.track d).span = some span → u.clock.mapLength span = n)
    ∧ ((u.track d).span = none → ∃ span, u.clock.mapLength span = n)

/-- The destination has the sources' span, and keeps its layers and its reservations; the other tracks stay. -/
structure SpanGiven (u v : State) (d : TrackId) (n : Nat) : Prop where
  other : ∀ k, k ≠ d → v.track k = u.track k
  stack : (v.track d).stack = (u.track d).stack
  reservations : (v.track d).reservations = (u.track d).reservations
  span : ∃ span, (v.track d).span = some span ∧ u.clock.mapLength span = n

theorem copySpan_given (hfits : SpanFits u d n) : SpanGiven u (u.copySpan d xs n) d n := by
  obtain ⟨hspan, hnone⟩ := hfits
  cases hs : (u.track d).span with
  | some span =>
    have hsame : u.copySpan d xs n = u := by unfold State.copySpan; rw [hs]
    rw [hsame]
    exact ⟨fun _ _ => rfl, rfl, rfl, span, hs, hspan span hs⟩
  | none =>
    obtain ⟨span, hfor, hlength⟩ := spanFor_some (hnone hs)
    have hgain : u.copySpan d xs n = u.gainSpan d span (u.sourcePass xs) := by unfold State.copySpan; rw [hs, hfor]
    have hdest : (u.gainSpan d span (u.sourcePass xs)).track d
        = { u.track d with span := some span, pass := u.sourcePass xs, passSet := u.loopAhead } :=
      State.track_modTrack_same ..
    rw [hgain]
    exact ⟨fun k hk => State.track_modTrack_other _ _ _ _ hk, by rw [hdest], by rw [hdest], span, by rw [hdest], hlength⟩

theorem copyRefusal_none (hstate : u.trackState d ≠ .recording)
    (hp : (u.track d).stack.length + (u.track d).reservations ≠ 6) (hfits : SpanFits u d n) :
    u.copyRefusal d n = none := by
  obtain ⟨hspan, hnone⟩ := hfits
  cases hs : (u.track d).span with
  | some span => rw [copyRefusal_span hstate hp hs, if_neg (not_not.2 (hspan span hs))]
  | none =>
    obtain ⟨span, hfor, -⟩ := spanFor_some (hnone hs)
    rw [copyRefusal_no_span hstate hp hs, hfor]
    rfl

end

/-! ### BOUNCE accepted (R112) -/

/-- What an accepted Bounce leaves, its reply aside (R108, R112). -/
structure BounceJoined (u t : State) (fold : Bool) (d : TrackId) (xs : List LayerId) (levels mute : Bool) (n : Nat) :
    Prop where
  queue : t.bounce.queue = u.bounce.queue ++
    [{ id := u.bounce.nextId, fold := fold, auto := false, sources := xs, dest := d, levels := levels
       muteSources := mute, mapLen := n, run := none, joined := true }]
  nextId : t.bounce.nextId = u.bounce.nextId + 1
  layer : ∀ x, t.layer x
    = if x ∈ xs then (u.layer x).map (fun l => { l with pin := some u.bounce.nextId }) else u.layer x
  reservations : (t.track d).reservations = (u.track d).reservations + (if fold then 0 else 1)
  span : fold = false → ∃ span, (t.track d).span = some span ∧ u.clock.mapLength span = n
  other : ∀ k, k ≠ d → t.track k = u.track k
  stack : (t.track d).stack = (u.track d).stack
  same : t = { u with layers := t.layers, tracks := t.tracks, bounce := t.bounce }

section
variable {u : State} {d : TrackId} {xs : List LayerId} {levels mute : Bool} {n : Nat}
variable (hx : xs ≠ []) (hn : ∀ x ∈ xs, u.mapLen x = n)
include hx hn

theorem enqueueFold_joined : BounceJoined u (u.enqueueBounce true false xs d levels mute) true d xs levels mute n := by
  have htrack : ∀ k, (u.enqueueBounce true false xs d levels mute).track k = u.track k :=
    State.track_congr enqueueFold_tracks
  obtain ⟨x, ys, rfl⟩ := List.exists_cons_of_ne_nil hx
  have hbounce := enqueueBounce_bounce (s := u) (fold := true) (auto := false) (d := d) (levels := levels) (mute := mute)
    x ys
  rw [hn x List.mem_cons_self] at hbounce
  refine ⟨by rw [hbounce], by rw [hbounce], fun x => enqueueBounce_layer x, ?_, fun h => absurd h (by decide),
    fun k _ => htrack k, by rw [htrack], enqueueBounce_same ..⟩
  rw [htrack]
  rfl

theorem enqueueCopy_joined (hfits : SpanFits u d n) :
    BounceJoined u ((u.copySpan d xs n).enqueueBounce false false xs d levels mute) false d xs levels mute n := by
  have hgiven : SpanGiven u (u.copySpan d xs n) d n := copySpan_given hfits
  have hsame := copySpan_same u d xs n
  obtain ⟨x, ys, rfl⟩ := List.exists_cons_of_ne_nil hx
  generalize u.copySpan d (x :: ys) n = v at hgiven hsame ⊢
  have hv : v.bounce = u.bounce := (congrArg State.bounce hsame :)
  have hlayer : ∀ x, v.layer x = u.layer x := State.layer_congr (congrArg State.layers hsame :)
  have hmap : v.mapLen x = n := by rw [mapLen_eq, hlayer, ← mapLen_eq, hn x List.mem_cons_self]
  have hbounce := enqueueBounce_bounce (s := v) (fold := false) (auto := false) (d := d) (levels := levels) (mute := mute)
    x ys
  rw [hmap, hv] at hbounce
  refine ⟨by rw [hbounce], by rw [hbounce], fun x => ?_, ?_, fun _ => ?_, fun k hk => ?_, ?_, ?_⟩
  · rw [enqueueBounce_layer, hv, hlayer]
  · rw [enqueueCopy_track, if_pos rfl, hgiven.reservations]
    rfl
  · rw [enqueueCopy_track, if_pos rfl]
    exact hgiven.span
  · rw [enqueueCopy_track, if_neg hk, hgiven.other k hk]
  · rw [enqueueCopy_track, if_pos rfl]
    exact hgiven.stack
  · refine (enqueueBounce_same ..).trans ?_
    rw [hsame]

end

theorem trackOf_byte (d : TrackId) : ∃ h : (byte d.val).toNat < 8, (⟨(byte d.val).toNat, h⟩ : TrackId) = d := by
  have hd : (byte d.val).toNat = d.val := Nat.mod_eq_of_lt (by omega)
  exact ⟨by omega, Fin.ext hd⟩

theorem flagByte_eq_one (b : Bool) : decide (flagByte b = 1) = b := by cases b <;> rfl

/-- A request whose fields are in range is not refused for them. -/
theorem bounceFormGood {fold : Bool} {o : Byte} {xs : List LayerId} (ho : o.toNat ≤ 3) (hx : xs ≠ [])
    (hlen : xs.length ≤ 4) (hfold : fold = true → xs.length = 2) : ¬bounceFormBad (flagByte fold) o (byte xs.length) := by
  have hcount : (byte xs.length).toNat = xs.length := Nat.mod_eq_of_lt (by omega)
  have hmode : (flagByte fold).toNat ≤ 1 := by cases fold <;> decide
  have hpos : 0 < xs.length := List.length_pos_iff.2 hx
  unfold bounceFormBad
  rw [hcount]
  rintro (h | h | h | h | ⟨h, hne⟩)
  · omega
  · omega
  · omega
  · omega
  · exact hne (hfold ((flagByte_eq_one fold).symm.trans (decide_eq_true h)))

/-! ### The auto-fold check (R122, R123) -/

section
variable {s : State} {k : TrackId}

/-- The auto-fold check finds nothing to do, whatever lies on the track (R122). -/
def State.noFoldDue (s : State) (k : TrackId) : Prop :=
  s.bounce.threshold = 0 ∨ (s.track k).stack.length < s.bounce.threshold ∨ s.foldQueued k = true

theorem eligible_iff {x : LayerId} :
    s.eligible x = true ↔ ∃ l, s.layer x = some l ∧ l.state = .sealed ∧ l.pin = none ∧ l.damaged = false := by
  unfold State.eligible
  cases s.layer x with
  | none => simp
  | some l => simp [and_assoc]

theorem foldQueued_iff : s.foldQueued k = true ↔ ∃ e ∈ s.bounce.queue, e.fold = true ∧ e.dest = k := by
  unfold State.foldQueued
  simp

theorem autoFold_off (h : s.noFoldDue k) : s.autoFold k = s := by
  unfold State.autoFold
  exact if_pos h

variable (hon : ¬s.noFoldDue k)
include hon

/-- With one layer to fold at most nothing is folded. -/
theorem autoFold_few (h : ((s.track k).stack.filter s.eligible).length ≤ 1) : s.autoFold k = s := by
  unfold State.noFoldDue at hon
  unfold State.autoFold
  rw [if_neg hon]
  split
  · next hxy => rw [hxy] at h; simp at h
  · rfl

theorem autoFold_pair {x y : LayerId} {rest : List LayerId} (h : (s.track k).stack.filter s.eligible = x :: y :: rest) :
    s.autoFold k = if s.bounce.queue.length = 4 then
        s.report .foldSkipped [byte k.val, byte (s.track k).stack.length, byte s.bounce.threshold, 4]
      else s.enqueueBounce true true [x, y] k true false := by
  unfold State.noFoldDue at hon
  unfold State.autoFold
  rw [if_neg hon, h]
  rfl

end

/-- The two lowest entries of a kind. -/
theorem filter_two {α : Type} {p : α → Bool} {before mid after : List α} {x y : α} (hx : p x = true) (hy : p y = true)
    (hnone : ∀ z ∈ before ++ mid, ¬p z = true) :
    (before ++ x :: (mid ++ y :: after)).filter p = x :: y :: after.filter p := by
  have hbefore : before.filter p = [] := List.filter_eq_nil_iff.2 fun z hz => hnone z (List.mem_append_left _ hz)
  have hmid : mid.filter p = [] := List.filter_eq_nil_iff.2 fun z hz => hnone z (List.mem_append_right _ hz)
  rw [List.filter_append, hbefore, List.nil_append, List.filter_cons_of_pos hx, List.filter_append, hmid, List.nil_append,
    List.filter_cons_of_pos hy]

/-- At most one entry of a kind: none above any of the kind. -/
theorem length_filter_le_one {α : Type} {p : α → Bool} {l : List α}
    (h : ∀ before x after, l = before ++ x :: after → p x = true → ∀ y ∈ after, ¬p y = true) :
    (l.filter p).length ≤ 1 := by
  rcases forall_not_or_first p l with hnone | ⟨before, x, after, hl, hb, hx⟩
  · rw [List.filter_eq_nil_iff.2 fun a ha => by rw [hnone a ha]; exact Bool.false_ne_true]
    exact Nat.zero_le 1
  · have hbefore : before.filter p = [] :=
      List.filter_eq_nil_iff.2 fun a ha => by rw [hb a ha]; exact Bool.false_ne_true
    rw [hl, List.filter_append, hbefore, List.nil_append, List.filter_cons_of_pos hx,
      List.filter_eq_nil_iff.2 (h before x after hl hx)]
    exact Nat.le_refl 1

/-- A request whose sources and destination pass their checks is accepted (R110, R111, R112). -/
theorem requestBounce_joins {u : State} {fold : Bool} {d : TrackId} {xs : List LayerId} {levels mute : Bool} {n : Nat}
    (hq : u.bounce.queue.length ≠ 4) (hx : xs ≠ []) (hsources : ∀ x ∈ xs, sourceCode (u.layer x) = none)
    (hn : ∀ x ∈ xs, u.mapLen x = n) (hfold : fold = true → ∀ x ∈ xs, x ∈ (u.track d).stack)
    (hcopy : fold = false → u.trackState d ≠ .recording ∧ (u.track d).stack.length + (u.track d).reservations ≠ 6
      ∧ SpanFits u d n) :
    ∃ t, BounceJoined u t fold d xs levels mute n
      ∧ u.requestBounce fold d xs levels mute = (t, [0, u.bounce.nextId, byte u.bounce.queue.length, 0xFF]) := by
  have hlen : ∀ y ∈ xs, ∀ z ∈ xs, u.mapLen y = u.mapLen z := fun y hy z hz => (hn y hy).trans (hn z hz).symm
  have hhead : (xs.head?.map u.mapLen).getD 0 = n := by
    obtain ⟨x, hxs⟩ := List.exists_mem_of_ne_nil xs hx
    exact (mapLen_head hxs hlen).trans (hn x hxs)
  cases fold with
  | true =>
    refine ⟨u.enqueueBounce true false xs d levels mute, enqueueFold_joined hx hn, ?_⟩
    rw [requestBounce_fold_accepted hq hsources hlen (hfold rfl)]
    rfl
  | false =>
    obtain ⟨hstate, hp, hfits⟩ := hcopy rfl
    refine ⟨(u.copySpan d xs n).enqueueBounce false false xs d levels mute, enqueueCopy_joined hx hn hfits, ?_⟩
    rw [requestBounce_copy_accepted hq hsources hlen (by rw [hhead]; exact copyRefusal_none hstate hp hfits), hhead]
    rfl

/-- Settles O33: a request by `requestBounce_joins`, and the auto-fold check by its outcomes `autoFold_off`, `autoFold_few` and
`autoFold_pair`. -/
theorem bounceJoinsTheQueue : Obligations.BounceJoinsTheQueue := by
  refine ⟨?_, ?_⟩
  · intro s tag o x0 x1 x2 x3 fold d xs n h hs ho hx hlen hlisted hnodup u hq hsources hmaps hfold hcopy
    have hn : ∀ x ∈ xs, u.mapLen x = n := fun x hxs => by rw [mapLen_eq, hmaps x hxs]; rfl
    have hcount : (byte xs.length).toNat = xs.length := Nat.mod_eq_of_lt (by omega)
    obtain ⟨hd, hdest⟩ := trackOf_byte d
    obtain ⟨t, hjoined, hrequest⟩ := requestBounce_joins (levels := o.getLsbD 0) (mute := o.getLsbD 1) hq hx hsources hn
      (fun h => (hfold h).2) hcopy
    have hown := ownBounce_listed (isReady_of_ready hs) (bounceFormGood ho hx hlen fun h => (hfold h).1) hd
      (by rw [hcount]; exact hlisted)
    rw [if_pos hnodup, flagByte_eq_one, hdest, hrequest] at hown
    have hsame := hjoined.same
    refine ⟨t, ?_, hjoined.queue, hjoined.nextId, fun x hxs => ?_, fun x hxs => ?_, hjoined.reservations, hjoined.span,
      hjoined.other, hjoined.stack, (congrArg State.mem hsame :), (congrArg State.pool hsame :),
      (congrArg State.clock hsame :), (congrArg State.cues hsame :), (congrArg State.mix hsame :),
      (congrArg State.sup hsame :)⟩
    · rw [exec_bounce h, hown]
    · rw [hjoined.layer, if_pos hxs]
    · rw [hjoined.layer, if_neg hxs]
  · intro s k stack able
    have hable : ∀ x, able x ↔ s.eligible x = true := fun x => eligible_iff.symm
    refine ⟨fun hoff => autoFold_off ?_, fun hthreshold hlong hfolds => ?_⟩
    · unfold State.noFoldDue
      rwa [foldQueued_iff]
    · have hon : ¬s.noFoldDue k := by
        unfold State.noFoldDue
        rw [foldQueued_iff]
        rintro (h | h | ⟨e, he, hfold, hdest⟩)
        · exact hthreshold h
        · exact absurd hlong (Nat.not_le.2 h)
        · rw [hfolds e he hdest] at hfold
          exact absurd hfold (by decide)
      refine ⟨fun hfew => autoFold_few hon (length_filter_le_one fun before x after hl hx y hy => ?_),
        fun before x mid y after hl hx hy hnone => ?_⟩
      · rw [← hable]
        exact hfew before x after hl ((hable x).2 hx) y hy
      · have hpair : (s.track k).stack.filter s.eligible = x :: y :: after.filter s.eligible := by
          have hstack : (s.track k).stack = before ++ x :: (mid ++ y :: after) := hl
          rw [hstack]
          exact filter_two ((hable x).1 hx) ((hable y).1 hy) fun z hz => by rw [← hable]; exact hnone z hz
        have hfold := autoFold_pair hon hpair
        refine ⟨fun hq => hfold.trans (if_pos hq), fun hq => ?_⟩
        rw [if_neg hq] at hfold
        have hsame := enqueueBounce_same s true true [x, y] k true false
        intro t
        have ht : t = s.enqueueBounce true true [x, y] k true false := hfold
        rw [ht]
        refine ⟨?_, fun z => ?_, enqueueFold_tracks, (congrArg State.mem hsame :), (congrArg State.pool hsame :),
          (congrArg State.link hsame :), (congrArg State.clock hsame :), (congrArg State.mix hsame :),
          (congrArg State.head0 hsame :), (congrArg State.head1 hsame :), (congrArg State.sup hsame :)⟩
        · rw [enqueueBounce_bounce, mapLen_eq]
        · rw [enqueueBounce_layer]
          exact if_congr (by simp) rfl rfl

end Sys2Proof.Machine
end

