-- ==== Sys2Proof/Proofs/BounceRuns.lean ====
section
/-! A bounce starts, and its work in a frame: BOUNCE_START, and AUDIO_FRAME with idle heads (R113, R114, R118). -/

namespace Sys2Proof.Machine

/-! ### BOUNCE_START (R113) -/

section
variable {s : State} {e : Bounce} {q : List Bounce}

theorem bounceStartDue_queued (hs : s.sup.state = .ready) (hq : s.bounce.queue = e :: q) (hr : e.run = none) :
    s.bounceStartDue = !s.bounce.headFresh := by
  unfold State.bounceStartDue State.running
  rw [hs, headBounce_of_cons hq]
  simp [hr]

theorem startHead_not_due (h : s.bounceStartDue = false) : s.startHead = s := by
  unfold State.startHead
  exact if_neg (by rw [h]; exact Bool.false_ne_true)

theorem startHead_due (h : s.bounceStartDue = true) (hq : s.bounce.queue = e :: q) : s.startHead = s.startBounce e := by
  unfold State.startHead
  rw [if_pos h, headBounce_of_cons hq]

theorem startBounce_record {x : LayerId} (hx : TakesRecord s x) (hq : s.bounce.queue = e :: q) :
    s.startBounce e = { s.setLayer x
        (some
          { state := .filling, track := e.dest, origin := .bounce, map := List.replicate e.mapLen none, level := 128
            startStamp := s.songBarNow, sealStamp := none, mask := none, parents := e.sources, clip := 0
            gapped := false, damaged := false, pin := none })
      with
      bounce := { s.bounce with
        queue :=
          { e with
            run := some
              { snapshot := e.sources.map fun y => ((s.layer y).map (·.level)).getD 0
                product := x, progress := 0, frames := 0, blocks := 0, phase := .toBegin } } :: q } } := by
  unfold State.startBounce
  rw [State.freeRecord_eq_some.2 hx]
  unfold State.takeRecord State.setRun State.snapshot
  dsimp only [State.setLayer_bounce]
  rw [hq]

theorem startBounce_no_record (h : ∀ x, s.layer x ≠ none) : s.startBounce e = s.abortBounce 0 .noLayer := by
  unfold State.startBounce
  rw [State.freeRecord_eq_none.2 h]

/-- An abort of an entry without a product frees no block. -/
theorem abortBounce_pool_queued {i : Nat} (h : s.bounce.queue[i]? = some e) (hr : e.run = none) (cause : AbortCause) :
    (s.abortBounce i cause).pool = s.pool := by
  have hproduct : s.freeProduct e = s := by unfold State.freeProduct; rw [hr]
  rw [abortBounce_same h, unreserve_same, setPins_same, hproduct]

end

/-! ### Four samples of an index (R114) -/

section
variable {s : State} {e : Bounce} {r : Run}

/-- A source that is SILENT at the index adds nothing, whatever its level. -/
theorem applyLevel_zero (v : Byte) : applyLevel v 0 = 0 := by
  unfold applyLevel
  rw [Int.zero_mul, Int.zero_tdiv]
  rfl

theorem bounceSample_eq (s : State) (e : Bounce) (r : Run) (f : Nat) :
    s.bounceSample e r f = toSample (satSum ((e.sources.zip r.snapshot).map fun p =>
      if e.levels then applyLevel p.2 (((s.mapEntry p.1 r.progress).map fun c => (s.mem.sample c f).toInt).getD 0)
      else ((s.mapEntry p.1 r.progress).map fun c => (s.mem.sample c f).toInt).getD 0)) := by
  unfold State.bounceSample
  congr 2
  refine List.map_congr_left fun p _ => ?_
  cases s.mapEntry p.1 r.progress with
  | none => simp [applyLevel_zero]
  | some c => rfl

theorem fillFrame_unnamed (hb : s.mapEntry r.product r.progress = none) : s.fillFrame e r = s := by
  unfold State.fillFrame
  rw [hb]

/-- A frame's four samples, and every byte outside them. -/
theorem fillFrame_writes {b : BlockId} (hm : s.mem.wf) (hb : s.mapEntry r.product r.progress = some b)
    (hf : r.frames < 1024) :
    (∀ a, (a < sampleAddr b (4 * r.frames) ∨ sampleAddr b (4 * r.frames) + 8 ≤ a) →
        (s.fillFrame e r).mem.read a = s.mem.read a)
      ∧ ∀ j, j < 4 → (s.fillFrame e r).mem.sample b (4 * r.frames + j) = s.bounceSample e r (4 * r.frames + j) := by
  have hsmall : ∀ j ∈ [0, 1, 2, 3], j < 4 := by decide
  rw [fillFrame_named hb]
  refine ⟨fun a ha => Memory.read_foldl_writeSample _ hm fun j hj => ?_, fun j hj => ?_⟩
  · have hj4 := hsmall j hj
    rw [sampleAddr_eq b (by omega)] at ha
    rw [sampleAddr_eq b (by omega)]
    omega
  · exact Memory.sample_foldl_writeSample (g := s.bounceSample e r) [0, 1, 2, 3] hm
      (fun i hi => by have := hsmall i hi; omega) (by simp; omega)

end

/-! ### The bounce engine's work in a frame (R114) -/

section
variable {s : State} {e : Bounce} {q : List Bounce} {r : Run}

theorem beginIsDue_of_cons (hs : s.sup.state = .ready) (hq : s.bounce.queue = e :: q) (hr : e.run = some r) :
    s.beginIsDue = decide (r.phase = .beginDue) := by
  unfold State.beginIsDue State.running State.isReady
  rw [hs, headBounce_of_cons hq]
  simp [hr]

theorem bounceFrame_toBegin (hq : s.bounce.queue = e :: q) (hr : e.run = some r) (hp : r.phase = .toBegin) :
    s.bounceFrame = s.setRun { r with phase := .beginDue } := by
  unfold State.bounceFrame
  rw [headBounce_of_cons hq]
  dsimp only
  rw [hr]
  dsimp only
  rw [hp]

theorem bounceFrame_filling (hq : s.bounce.queue = e :: q) (hr : e.run = some r) (hp : r.phase = .filling)
    (hf : r.frames < 1024) : s.bounceFrame = (s.fillFrame e r).setRun { r with frames := r.frames + 1 } := by
  unfold State.bounceFrame
  rw [headBounce_of_cons hq]
  dsimp only
  rw [hr]
  dsimp only
  rw [hp]
  exact if_pos hf

/-- The bounce engine's work writes samples and the run alone. -/
theorem bounceFrame_same (s : State) : s.bounceFrame = { s with mem := s.bounceFrame.mem, bounce := s.bounceFrame.bounce } := by
  have hfill : ∀ e r v, (s.fillFrame e r).setRun v
      = { s with mem := ((s.fillFrame e r).setRun v).mem, bounce := ((s.fillFrame e r).setRun v).bounce } := fun e r v => by
    rw [fillFrame_same]
    rfl
  unfold State.bounceFrame
  split
  · rfl
  · split
    · rfl
    · split
      · rfl
      · rfl
      · split
        · exact hfill ..
        · rfl

/-- The entries of the queue in the next frame, its head running so. -/
theorem nextFrame_queue {b : BounceEngine} (hq : b.queue = e :: q) :
    b.nextFrame.queue = { e with joined := false } :: q.map fun x => { x with joined := false } := by
  unfold BounceEngine.nextFrame
  rw [hq]
  rfl

end

/-! ### AUDIO_FRAME with idle heads (R114) -/

/-- The mix, the one-shots and the tones of a frame have been at work, and nothing else. -/
def MixedOnly (s v : State) : Prop := v = { s with outputs := v.outputs, tracks := v.tracks, tones := v.tones }

/-- With idle heads the bounce engine comes to work behind the mix, the one-shots and the tones alone. -/
theorem readyFrame_idle {s : State} (ins : Vector Sample 4) (h0 : s.head0 = none) (h1 : s.head1 = none) :
    ∃ v, MixedOnly s v
      ∧ s.readyFrame ins
        = State.closeFrame { v.bounceFrame with clock := v.bounceFrame.clock.frame v.bounceFrame.moving } := by
  have hs : (if s.moving then (s.advanceHead ins .h0).advanceHead ins .h1 else s) = s := by
    rw [advanceHead_of_none (h := .h0) ins h0, advanceHead_of_none (h := .h1) ins h1, ite_self]
  obtain ⟨honly, -⟩ := foldl_countOneShot { s with outputs := s.mixFrame ins }
  unfold State.readyFrame
  dsimp only
  rw [hs]
  generalize (List.finRange 8).foldl State.countOneShot _ = u at honly ⊢
  refine ⟨{ u with tones := u.tones.frame }, ?_, rfl⟩
  unfold MixedOnly
  rw [honly]

theorem exec_audioFrame {s : State} (in0 in1 in2 in3 : Sample) (hs : s.sup.state = .ready) (ho : s.frameOwes = false) :
    exec (.audioFrame in0 in1 in2 in3) s = .next (s.readyFrame #v[in0, in1, in2, in3]) := by
  show execAudioFrame in0 in1 in2 in3 s = _
  unfold execAudioFrame
  rw [hs]
  dsimp only
  rw [ho]
  rfl

/-- What a READY frame with idle heads leaves, `f` being the state behind the bounce engine's work. -/
structure FrameClosed (s f t : State) : Prop where
  layers : t.layers = s.layers
  cues : t.cues = s.cues
  sup : t.sup = s.sup
  mem : t.mem = f.mem
  bounce : t.bounce = f.bounce.nextFrame
  pool : t.pool = if f.beginIsDue then s.pool else freesTaken s.pool none

theorem readyFrame_closed {s : State} (ins : Vector Sample 4) (h0 : s.head0 = none) (h1 : s.head1 = none) :
    ∃ v, MixedOnly s v
      ∧ FrameClosed s v.bounceFrame (s.readyFrame ins) := by
  obtain ⟨v, hv, hframe⟩ := readyFrame_idle ins h0 h1
  have hwork := bounceFrame_same v
  have hpool : v.bounceFrame.pool = s.pool := (congrArg State.pool hwork :).trans (congrArg State.pool hv :)
  rw [hframe]
  refine ⟨v, hv, ?_, ?_, ?_, rfl, rfl, ?_⟩
  · exact (congrArg State.layers hwork :).trans (congrArg State.layers hv :)
  · exact (congrArg State.cues hwork :).trans (congrArg State.cues hv :)
  · exact (congrArg State.sup hwork :).trans (congrArg State.sup hv :)
  · rw [← hpool, ← served_eq_freesTaken]
    rfl

section
variable {s v t : State} {e : Bounce} {q : List Bounce} {r : Run}
variable (hv : MixedOnly s v) (hclosed : FrameClosed s v.bounceFrame t) (hs : s.sup.state = .ready)
variable (hq : s.bounce.queue = e :: q) (hr : e.run = some r)

theorem MixedOnly.queue (hv : MixedOnly s v) : v.bounce.queue = s.bounce.queue :=
  (congrArg (fun u : State => u.bounce.queue) hv :)

theorem MixedOnly.mem (hv : MixedOnly s v) : v.mem = s.mem := (congrArg State.mem hv :)

theorem MixedOnly.mapEntry (hv : MixedOnly s v) (x : LayerId) (i : Nat) : v.mapEntry x i = s.mapEntry x i :=
  (congrArg (fun u : State => u.mapEntry x i) hv :)

theorem MixedOnly.ready (hv : MixedOnly s v) (hs : s.sup.state = .ready) : v.bounceFrame.sup.state = .ready :=
  ((congrArg (fun u : State => u.sup.state) (bounceFrame_same v) :).trans (congrArg (fun u : State => u.sup.state) hv :)).trans
    hs

include hv hclosed hs hq hr

/-- An index that is to begin: its begin is due behind the frame, and the place of the frame's claims stays. -/
theorem frame_toBegin (hp : r.phase = .toBegin) :
    t.bounce.queue = { e with run := some { r with phase := .beginDue }, joined := false }
        :: q.map (fun x => { x with joined := false })
      ∧ t.mem = s.mem ∧ t.pool = s.pool := by
  have hvq : v.bounce.queue = e :: q := hv.queue.trans hq
  have hwork := bounceFrame_toBegin hvq hr hp
  have hqueue : v.bounceFrame.bounce.queue = { e with run := some { r with phase := .beginDue } } :: q := by
    rw [hwork]
    exact setRun_queue hvq _
  refine ⟨(congrArg BounceEngine.queue hclosed.bounce).trans (nextFrame_queue hqueue), ?_, ?_⟩
  · rw [hclosed.mem, hwork]
    exact hv.mem
  · rw [hclosed.pool, beginIsDue_of_cons (hv.ready hs) hqueue rfl]
    rfl

/-- An index that is being filled: a frame more, and its samples. -/
theorem frame_filling (hp : r.phase = .filling) (hf : r.frames < 1024) :
    t.bounce.queue = { e with run := some { r with frames := r.frames + 1 }, joined := false }
        :: q.map (fun x => { x with joined := false })
      ∧ t.pool = freesTaken s.pool none ∧ t.mem = (v.fillFrame e r).mem := by
  have hvq : v.bounce.queue = e :: q := hv.queue.trans hq
  have hwork := bounceFrame_filling hvq hr hp hf
  have hfill : (v.fillFrame e r).bounce.queue = e :: q :=
    (congrArg (fun u : State => u.bounce.queue) (fillFrame_same v e r) :).trans hvq
  have hqueue : v.bounceFrame.bounce.queue = { e with run := some { r with frames := r.frames + 1 } } :: q := by
    rw [hwork]
    exact setRun_queue hfill _
  refine ⟨(congrArg BounceEngine.queue hclosed.bounce).trans (nextFrame_queue hqueue), ?_, ?_⟩
  · rw [hclosed.pool, beginIsDue_of_cons (hv.ready hs) hqueue rfl, hp]
    rfl
  · rw [hclosed.mem, hwork]
    rfl

end

/-- Settles O36: the start by `startBounce_record` and the abort of an entry without a product, the frame by
`readyFrame_closed` and the two works of the bounce engine. -/
theorem bounceStartsItsHead : Obligations.BounceStartsItsHead := by
  refine ⟨fun w e q => ?_, fun s in0 in1 in2 in3 e q r hs ho h0 h1 hq hr hm => ?_⟩
  · intro s hs hq hr
    have hdue := bounceStartDue_queued hs hq hr
    refine ⟨fun hfresh => ?_, fun hfresh => ?_⟩
    · rw [hfresh] at hdue
      exact congrArg Host.Outcome.next (startHead_not_due hdue)
    · rw [hfresh] at hdue
      have hexec : exec .bounceStart w = .next (s.startBounce e) :=
        congrArg Host.Outcome.next (startHead_due hdue hq)
      have hhead : s.bounce.queue[0]? = some e := by rw [hq]; rfl
      refine ⟨fun x hx hlow => ?_, fun hfull => ⟨s.startBounce e, hexec, ?_⟩⟩
      · rw [hexec, startBounce_record ⟨hx, hlow⟩ hq]
      · have hgone := abortBounce_leaves hhead .noLayer
        rw [startBounce_no_record hfull]
        refine ⟨?_, hgone.mem, ?_, fun y l hl hy => hgone.unpinned List.mem_cons_self hy hl, fun y hy => hgone.other ?_⟩
        · rw [abortBounce_queue hhead, hq]
          rfl
        · rw [abortBounce_pool_queued hhead hr]
        · intro a ha
          rw [List.mem_singleton.1 ha, hr]
          exact ⟨hy, fun r hr => absurd hr (by simp)⟩
  · intro queue
    obtain ⟨v, hv, hclosed⟩ := readyFrame_closed #v[in0, in1, in2, in3] h0 h1
    refine ⟨_, exec_audioFrame in0 in1 in2 in3 hs ho, hclosed.layers, hclosed.cues, hclosed.sup,
      frame_toBegin hv hclosed hs hq hr, fun hphase hframes => ?_⟩
    obtain ⟨hqueue, hpool, hmem⟩ := frame_filling hv hclosed hs hq hr hphase hframes
    refine ⟨hqueue, hpool, fun hb => ?_, fun b hb => ?_⟩
    · rw [hmem, fillFrame_unnamed ((hv.mapEntry _ _).trans hb), hv.mem]
    · obtain ⟨hread, hwritten⟩ :=
        fillFrame_writes (e := e) (show v.mem.wf from hv.mem ▸ hm) ((hv.mapEntry _ _).trans hb) hframes
      rw [hmem]
      refine ⟨fun a ha => (hread a ha).trans (by rw [hv.mem]), fun j hj => (hwritten j hj).trans ?_⟩
      rw [bounceSample_congr (fun x _ => hv.mapEntry x r.progress) hv.mem, bounceSample_eq]
      refine congrArg (fun l => toSample (satSum l)) (List.map_congr_left fun p _ => ?_)
      cases s.mapEntry p.1 r.progress <;> rfl

end Sys2Proof.Machine
end

