-- ==== Sys2Proof/Proofs/ClickMonitor.lean ====
section
/-! CLICK_CONFIG_READ, CLICK_CONFIG_WRITE, MONITOR_CONFIG_READ and MONITOR_CONFIG_WRITE (R143, R160). -/

namespace Sys2Proof.Machine

/-! ### The rows -/

/-- An action above 1 spells neither of a request's two rows. -/
theorem spellsOther_of_gt {a b : Byte} (rest : List Byte) (ha : 1 < a.toNat) (hb : b.toNat ≤ 1) :
    spellsOther [b] (a :: rest) = false := by
  have hne : a ≠ b := fun e => by rw [e] at ha; omega
  simp [spellsOther, firstByteNot, hne]

/-- The state in which a request taken outside READY is carried out is not READY either. -/
theorem isReady_of_not_ready {s : State} (h : s.sup.state ≠ .ready) : s.takeRequest.isReady = false := by
  rw [takeRequest_isReady]; exact decide_eq_false h

theorem exec_clickConfigRead {s : State} {tag a b1 b2 b3 b4 : Byte}
    (h : s.canTake { kind := 0x38, tag := tag, payload := [a, b1, b2, b3, b4] } = true)
    (ha : spellsOther [1] [a, b1, b2, b3, b4] = false) :
    exec (.clickConfigRead tag [a, b1, b2, b3, b4]) s
      = .next ((ownClickConfigRead s.takeRequest [a, b1, b2, b3, b4]).1.reply 0x38 tag
          (ownClickConfigRead s.takeRequest [a, b1, b2, b3, b4]).2) :=
  congrArg Host.Outcome.next (serve_taken h ha rfl)

theorem exec_clickConfigWrite {s : State} {tag a b1 b2 b3 b4 : Byte}
    (h : s.canTake { kind := 0x38, tag := tag, payload := [a, b1, b2, b3, b4] } = true)
    (ha : spellsOther [0] [a, b1, b2, b3, b4] = false) :
    exec (.clickConfigWrite tag [a, b1, b2, b3, b4]) s
      = .next ((ownClickConfigWrite s.takeRequest [a, b1, b2, b3, b4]).1.reply 0x38 tag
          (ownClickConfigWrite s.takeRequest [a, b1, b2, b3, b4]).2) :=
  congrArg Host.Outcome.next (serve_taken h ha rfl)

theorem exec_monitorConfigRead {s : State} {tag a b1 b2 b3 b4 b5 b6 b7 : Byte}
    (h : s.canTake { kind := 0x3B, tag := tag, payload := [a, b1, b2, b3, b4, b5, b6, b7] } = true)
    (ha : spellsOther [1] [a, b1, b2, b3, b4, b5, b6, b7] = false) :
    exec (.monitorConfigRead tag [a, b1, b2, b3, b4, b5, b6, b7]) s
      = .next ((ownMonitorConfigRead s.takeRequest [a, b1, b2, b3, b4, b5, b6, b7]).1.reply 0x3B tag
          (ownMonitorConfigRead s.takeRequest [a, b1, b2, b3, b4, b5, b6, b7]).2) :=
  congrArg Host.Outcome.next (serve_taken h ha rfl)

theorem exec_monitorConfigWrite {s : State} {tag a b1 b2 b3 b4 b5 b6 b7 : Byte}
    (h : s.canTake { kind := 0x3B, tag := tag, payload := [a, b1, b2, b3, b4, b5, b6, b7] } = true)
    (ha : spellsOther [0] [a, b1, b2, b3, b4, b5, b6, b7] = false) :
    exec (.monitorConfigWrite tag [a, b1, b2, b3, b4, b5, b6, b7]) s
      = .next ((ownMonitorConfigWrite s.takeRequest [a, b1, b2, b3, b4, b5, b6, b7]).1.reply 0x3B tag
          (ownMonitorConfigWrite s.takeRequest [a, b1, b2, b3, b4, b5, b6, b7]).2) :=
  congrArg Host.Outcome.next (serve_taken h ha rfl)

/-! ### The click's settings (R160) -/

theorem ownClickConfigRead_badAction {a : Byte} (u : State) (rest : List Byte) (ha : 1 < a.toNat) :
    ownClickConfigRead u (a :: rest) = (u, 3 :: u.clickBytes) := by
  have hbad : badAction (a :: rest) = true := decide_eq_true ha
  unfold ownClickConfigRead
  rw [hbad]; rfl

/-- A click mode is one of the codes 0 to 3. -/
theorem clickModeOf_eq (b : Byte) :
    clickModeOf b = if 3 < b.toNat then none
      else some (if b = 0 then .off else if b = 1 then .countIn else if b = 2 then .recording else .always) := by
  revert b; decide

/-- A click mode in range is read back as the byte that set it. -/
theorem clickMode_code {b : Byte} {m : ClickMode} (h : clickModeOf b = some m) : m.code = b := by
  revert b m; decide

section
variable {u : State} {a mode beat accent len : Byte}

theorem ownClickConfigWrite_badAction (ha : 1 < a.toNat) :
    ownClickConfigWrite u [a, mode, beat, accent, len] = (u, 3 :: u.clickBytes) := if_pos ha

theorem ownClickConfigWrite_notReady (hr : u.isReady = false) :
    ownClickConfigWrite u [1, mode, beat, accent, len] = (u, 7 :: u.clickBytes) := by
  unfold ownClickConfigWrite
  dsimp only
  rw [if_neg (by decide), if_pos (by simp [hr])]; rfl

theorem ownClickConfigWrite_outOfRange (hr : u.isReady = true)
    (hbad : 3 < mode.toNat ∨ beat = 0 ∨ accent = 0 ∨ len = 0 ∨ 12 < len.toNat) :
    ownClickConfigWrite u [1, mode, beat, accent, len] = (u, 3 :: u.clickBytes) := by
  unfold ownClickConfigWrite
  dsimp only
  rw [if_neg (by decide), if_neg (by simp [hr])]
  cases hm : clickModeOf mode with
  | none => rfl
  | some m =>
    have hmode : ¬3 < mode.toNat := fun h => absurd ((clickModeOf_eq mode).trans (if_pos h)) (by simp [hm])
    exact if_pos (hbad.resolve_left hmode)

theorem ownClickConfigWrite_accepted {m : ClickMode} (hr : u.isReady = true) (hm : clickModeOf mode = some m)
    (hb : ¬(beat = 0 ∨ accent = 0 ∨ len = 0 ∨ 12 < len.toNat)) :
    ownClickConfigWrite u [1, mode, beat, accent, len]
      = ({ u with tones := { u.tones with mode := m, beatPitch := beat, accentPitch := accent, clickLen := len.toNat } },
          [0, mode, beat, accent, len, flagByte u.tones.click.isSome]) := by
  unfold ownClickConfigWrite
  dsimp only
  rw [if_neg (by decide), if_neg (by simp [hr]), hm]
  dsimp only
  rw [if_neg hb]
  simp only [answer, State.clickBytes, clickMode_code hm, byte_toNat]; rfl

end

/-! ### The monitor's levels (R143) -/

theorem ownMonitorConfigRead_badAction {a : Byte} (u : State) (rest : List Byte) (ha : 1 < a.toNat) :
    ownMonitorConfigRead u (a :: rest) = (u, 3 :: u.monitorBytes) := by
  have hbad : badAction (a :: rest) = true := decide_eq_true ha
  unfold ownMonitorConfigRead
  rw [hbad]; rfl

section
variable {u : State} {a l0 l1 l2 l3 main click prompt : Byte}

theorem ownMonitorConfigWrite_badAction (ha : 1 < a.toNat) :
    ownMonitorConfigWrite u [a, l0, l1, l2, l3, main, click, prompt] = (u, 3 :: u.monitorBytes) := if_pos ha

theorem ownMonitorConfigWrite_notReady (hr : u.isReady = false) :
    ownMonitorConfigWrite u [1, l0, l1, l2, l3, main, click, prompt] = (u, 7 :: u.monitorBytes) := by
  unfold ownMonitorConfigWrite
  dsimp only
  rw [if_neg (by decide), if_pos (by simp [hr])]; rfl

theorem ownMonitorConfigWrite_accepted (hr : u.isReady = true) :
    ownMonitorConfigWrite u [1, l0, l1, l2, l3, main, click, prompt]
      = ({ u with
            mix := { u.mix with
              inputLevels := #v[l0, l1, l2, l3], mainLevel := main, clickLevel := click, promptLevel := prompt
              heard := .monitor u.mix.inputLevels u.mix.mainLevel u.mix.clickLevel u.mix.promptLevel } },
          [0, l0, l1, l2, l3, main, click, prompt]) := by
  unfold ownMonitorConfigWrite
  dsimp only
  rw [if_neg (by decide), if_neg (by simp [hr])]; rfl

end

/-- Settles O43: each row is its owner's answer, a WRITE's checks being taken in their order. -/
theorem clickAndMonitorConfigReadAndWrite : Obligations.ClickAndMonitorConfigReadAndWrite := by
  intro s tag b1 b2 b3 b4 b5 b6 b7 u click levels
  refine ⟨fun a ha => ⟨fun h => ⟨?_, ?_⟩, fun h => ⟨?_, ?_⟩⟩, fun h => exec_clickConfigRead h rfl, fun h => ?_,
    fun h => exec_monitorConfigRead h rfl, fun h => ?_⟩
  · rw [exec_clickConfigRead h (spellsOther_of_gt _ ha (by decide)), ownClickConfigRead_badAction _ _ ha]; rfl
  · rw [exec_clickConfigWrite h (spellsOther_of_gt _ ha (by decide)), ownClickConfigWrite_badAction ha]; rfl
  · rw [exec_monitorConfigRead h (spellsOther_of_gt _ ha (by decide)), ownMonitorConfigRead_badAction _ _ ha]; rfl
  · rw [exec_monitorConfigWrite h (spellsOther_of_gt _ ha (by decide)), ownMonitorConfigWrite_badAction ha]; rfl
  · rw [exec_clickConfigWrite h rfl]
    by_cases hr : s.sup.state = .ready
    · have hready : u.isReady = true := isReady_of_ready hr
      rw [if_neg (not_not.2 hr)]
      by_cases hbad : 3 < b1.toNat ∨ b2 = 0 ∨ b3 = 0 ∨ b4 = 0 ∨ 12 < b4.toNat
      · rw [ownClickConfigWrite_outOfRange hready hbad, if_pos hbad]; rfl
      · obtain ⟨hmode, hrest⟩ := not_or.1 hbad
        rw [ownClickConfigWrite_accepted hready ((clickModeOf_eq b1).trans (if_neg hmode)) hrest, if_neg hbad]
    · rw [ownClickConfigWrite_notReady (isReady_of_not_ready hr), if_pos hr]; rfl
  · rw [exec_monitorConfigWrite h rfl]
    by_cases hr : s.sup.state = .ready
    · rw [ownMonitorConfigWrite_accepted (isReady_of_ready hr), if_neg (not_not.2 hr)]
    · rw [ownMonitorConfigWrite_notReady (isReady_of_not_ready hr), if_pos hr]; rfl

end Sys2Proof.Machine
end

