-- ==== Sys2Proof/Proofs/Levels.lean ====
section
/-! Levels and saturating sums (R139). -/

namespace Sys2Proof.Machine

/-- A sample is within the range, so that saturation leaves it as it is. -/
theorem clamp_toInt (x : Sample) : clamp x.toInt = x.toInt := by
  have hlow : ¬x.toInt < -32768 := not_lt.2 x.le_toInt
  have hhigh : ¬32767 < x.toInt := not_lt.2 (Int.le_of_lt_add_one x.toInt_lt)
  unfold clamp
  rw [if_neg hlow, if_neg hhigh]

theorem applyLevel_unity (x : Sample) : applyLevel 128 x.toInt = x.toInt := by
  have hdiv : (x.toInt * (128 : Byte).toNat).tdiv 128 = x.toInt := Int.mul_tdiv_cancel x.toInt (by decide)
  unfold applyLevel
  rw [hdiv, clamp_toInt]

theorem applyLevel_mute (x : Int) : applyLevel 0 x = 0 := by
  have hdiv : (x * (0 : Byte).toNat).tdiv 128 = 0 := by
    rw [show ((0 : Byte).toNat : Int) = 0 from rfl, Int.mul_zero, Int.zero_tdiv]
  unfold applyLevel
  rw [hdiv]; rfl

/-- Settles O49: level and sum are `clamp` of the exact value, and a sample is within the range. -/
theorem levelsAndSumsSaturate : Obligations.LevelsAndSumsSaturate :=
  ⟨fun _ _ => rfl, fun _ => rfl, fun x => ⟨applyLevel_unity x, applyLevel_mute x.toInt, BitVec.ofInt_toInt⟩⟩

end Sys2Proof.Machine
end

