-- ==== Sys2Proof/Proofs/SceneRequests.lean ====
section
/-! SCENE_WRITE, SCENE_NEXT_SET, SCENE_NEXT_EMPTY and SCENE_STOP (R150, R152, R153). -/

namespace Sys2Proof.Machine

/-! ### The rows -/

theorem exec_sceneWrite {s : State} {tag n valid a0 a1 a2 a3 a4 a5 a6 a7 length next tie : Byte}
    (h : s.canTake { kind := 0x30, tag := tag,
                     payload := [n, valid, a0, a1, a2, a3, a4, a5, a6, a7, length, next, tie] } = true) :
    exec (.sceneWrite tag [n, valid, a0, a1, a2, a3, a4, a5, a6, a7, length, next, tie]) s
      = .next ((ownSceneWrite s.takeRequest [n, valid, a0, a1, a2, a3, a4, a5, a6, a7, length, next, tie]).1.reply 0x30 tag
          (ownSceneWrite s.takeRequest [n, valid, a0, a1, a2, a3, a4, a5, a6, a7, length, next, tie]).2) :=
  congrArg Host.Outcome.next (serve_taken h rfl rfl)

theorem exec_sceneNextSet {s : State} {tag n : Byte}
    (h : s.canTake { kind := 0x32, tag := tag, payload := [0, n] } = true) :
    exec (.sceneNextSet tag [0, n]) s
      = .next ((ownSceneNextSet s.takeRequest [0, n]).1.reply 0x32 tag (ownSceneNextSet s.takeRequest [0, n]).2) :=
  congrArg Host.Outcome.next (serve_taken h rfl rfl)

theorem exec_sceneNextEmpty {s : State} {tag n : Byte}
    (h : s.canTake { kind := 0x32, tag := tag, payload := [1, n] } = true) :
    exec (.sceneNextEmpty tag [1, n]) s
      = .next ((ownSceneNextEmpty s.takeRequest [1, n]).1.reply 0x32 tag (ownSceneNextEmpty s.takeRequest [1, n]).2) :=
  congrArg Host.Outcome.next (serve_taken h rfl rfl)

theorem exec_sceneStop {s : State} {tag : Byte} (h : s.canTake { kind := 0x33, tag := tag, payload := [] } = true) :
    exec (.sceneStop tag []) s
      = .next ((ownSceneStop s.takeRequest []).1.reply 0x33 tag (ownSceneStop s.takeRequest []).2) :=
  congrArg Host.Outcome.next (serve_taken h rfl rfl)

/-! ### The fields of a scene record (R150) -/

/-- The action that an action byte in range names. -/
def sceneActNamed (b : Byte) : SceneAct := if b = 0 then .leave else if b = 1 then .play else .mute

theorem sceneActOf_eq (b : Byte) : sceneActOf b = if 2 < b.toNat then none else some (sceneActNamed b) := by
  revert b; decide

theorem sceneActOf_eq_some {b : Byte} {a : SceneAct} : sceneActOf b = some a ↔ b.toNat ≤ 2 ∧ sceneActNamed b = a := by
  rw [sceneActOf_eq]
  split_ifs with h
  · simp [h]
  · simp [Nat.not_lt.1 h]

/-- The next field: 255 is NONE, else it is a scene's number. -/
theorem sceneNextOf_eq_some {b : Byte} {o : Option SceneId} :
    sceneNextOf b = some o ↔ ¬(15 < b.toNat ∧ b ≠ 255) ∧ o.map (·.val) = if b = 255 then none else some b.toNat := by
  unfold sceneNextOf
  by_cases hnone : b = 255
  · rw [if_pos (show b.toNat = 255 by rw [hnone]; rfl), if_pos hnone]
    simp [hnone, eq_comm]
  · have hne : b.toNat ≠ 255 := fun e => hnone (BitVec.eq_of_toNat_eq e)
    rw [if_neg hne, if_neg hnone]
    by_cases hgt : 15 < b.toNat
    · rw [sceneOf_of_gt hgt]
      exact iff_of_false (by simp) fun h => h.1 ⟨hgt, hnone⟩
    · rw [sceneOf_of_lt (by omega)]
      cases o <;> simp [hgt, Fin.ext_iff, eq_comm]

section
variable {valid a0 a1 a2 a3 a4 a5 a6 a7 length next tie : Byte}

/-- A record is formed exactly from fields in range, and takes every value of them. -/
theorem sceneRecord_eq_some {r : Scene} :
    sceneRecord [valid, a0, a1, a2, a3, a4, a5, a6, a7, length, next, tie] = some r ↔
      ((∀ a ∈ [a0, a1, a2, a3, a4, a5, a6, a7], a.toNat ≤ 2) ∧ ¬(15 < next.toNat ∧ next ≠ 255)
        ∧ valid.toNat ≤ 1 ∧ tie.toNat ≤ 1)
      ∧ r.valid = decide (valid = 1)
      ∧ r.actions = #v[sceneActNamed a0, sceneActNamed a1, sceneActNamed a2, sceneActNamed a3, sceneActNamed a4,
          sceneActNamed a5, sceneActNamed a6, sceneActNamed a7]
      ∧ r.length = length ∧ r.next.map (·.val) = (if next = 255 then none else some next.toNat)
      ∧ r.tie = decide (tie = 1) := by
  obtain ⟨rvalid, ractions, rlength, rnext, rtie⟩ := r
  simp only [sceneRecord, Option.bind_eq_bind, Option.bind_eq_some_iff, sceneActOf_eq_some, sceneNextOf_eq_some,
    Option.ite_none_right_eq_some, Option.some.injEq, Scene.mk.injEq]
  constructor
  · rintro ⟨_, ⟨h0, rfl⟩, _, ⟨h1, rfl⟩, _, ⟨h2, rfl⟩, _, ⟨h3, rfl⟩, _, ⟨h4, rfl⟩, _, ⟨h5, rfl⟩, _, ⟨h6, rfl⟩,
      _, ⟨h7, rfl⟩, _, ⟨hnext, hval⟩, ⟨hvalid, htie⟩, rfl, rfl, rfl, rfl, rfl⟩
    exact ⟨⟨by simp [h0, h1, h2, h3, h4, h5, h6, h7], hnext, hvalid, htie⟩, rfl, rfl, rfl, hval, rfl⟩
  · rintro ⟨⟨hacts, hnext, hvalid, htie⟩, rfl, rfl, rfl, hval, rfl⟩
    simp only [List.forall_mem_cons] at hacts
    obtain ⟨h0, h1, h2, h3, h4, h5, h6, h7, -⟩ := hacts
    exact ⟨_, ⟨h0, rfl⟩, _, ⟨h1, rfl⟩, _, ⟨h2, rfl⟩, _, ⟨h3, rfl⟩, _, ⟨h4, rfl⟩, _, ⟨h5, rfl⟩, _, ⟨h6, rfl⟩,
      _, ⟨h7, rfl⟩, _, ⟨hnext, hval⟩, ⟨hvalid, htie⟩, rfl, rfl, rfl, rfl, rfl⟩

theorem sceneRecord_eq_none (h : 1 < valid.toNat ∨ 1 < tie.toNat ∨ (∃ a ∈ [a0, a1, a2, a3, a4, a5, a6, a7], 2 < a.toNat)
      ∨ (15 < next.toNat ∧ next ≠ 255)) :
    sceneRecord [valid, a0, a1, a2, a3, a4, a5, a6, a7, length, next, tie] = none := by
  refine Option.eq_none_iff_forall_ne_some.2 fun r hrec => ?_
  obtain ⟨⟨hacts, hnext, hvalid, htie⟩, -⟩ := sceneRecord_eq_some.1 hrec
  rcases h with h | h | ⟨a, ha, h⟩ | h
  · exact absurd hvalid (Nat.not_le.2 h)
  · exact absurd htie (Nat.not_le.2 h)
  · exact absurd (hacts a ha) (Nat.not_le.2 h)
  · exact hnext h

/-- Fields in range form a record: the next field is then a scene or NONE. -/
theorem sceneRecord_isSome (hacts : ∀ a ∈ [a0, a1, a2, a3, a4, a5, a6, a7], a.toNat ≤ 2)
    (hnext : ¬(15 < next.toNat ∧ next ≠ 255)) (hvalid : valid.toNat ≤ 1) (htie : tie.toNat ≤ 1) :
    ∃ r, sceneRecord [valid, a0, a1, a2, a3, a4, a5, a6, a7, length, next, tie] = some r := by
  have hval : ∃ o : Option SceneId, o.map (·.val) = if next = 255 then none else some next.toNat := by
    by_cases hnone : next = 255
    · exact ⟨none, (if_pos hnone).symm⟩
    · have hlt : next.toNat < 16 := Nat.lt_succ_of_le (Nat.not_lt.1 fun h => hnext ⟨h, hnone⟩)
      exact ⟨some ⟨next.toNat, hlt⟩, (if_neg hnone).symm⟩
  obtain ⟨o, ho⟩ := hval
  exact ⟨⟨_, _, _, o, _⟩, sceneRecord_eq_some.2 ⟨⟨hacts, hnext, hvalid, htie⟩, rfl, rfl, rfl, ho, rfl⟩⟩

end

/-! ### What the owners answer -/

section
variable {u : State} {n : Byte}

theorem ownSceneWrite_noScene {rest : List Byte} (hr : u.isReady = true) (hn : 15 < n.toNat) :
    ownSceneWrite u (n :: rest) = (u, [3]) := by
  simp only [ownSceneWrite, hr, sceneOf_of_gt hn]; rfl

theorem ownSceneWrite_noRecord {rest : List Byte} (hr : u.isReady = true) (hrec : sceneRecord rest = none) :
    ownSceneWrite u (n :: rest) = (u, [3]) := by
  simp only [ownSceneWrite, hr, hrec]
  cases sceneOf n <;> rfl

theorem ownSceneWrite_accepted {rest : List Byte} {r : Scene} (hr : u.isReady = true) (hn : n.toNat < 16)
    (hrec : sceneRecord rest = some r) : ownSceneWrite u (n :: rest) = (u.setScene ⟨n.toNat, hn⟩ r, [0]) := by
  simp only [ownSceneWrite, hr, sceneOf_of_lt hn, hrec]; rfl

theorem ownSceneNextSet_noScene (hr : u.isReady = true) (hn : 15 < n.toNat) :
    ownSceneNextSet u [0, n] = (u, [3, optNumByte u.scenes.slot]) := by
  simp only [ownSceneNextSet, hr, sceneOf_of_gt hn]; rfl

theorem ownSceneNextSet_scene (hr : u.isReady = true) (hn : n.toNat < 16) :
    ownSceneNextSet u [0, n]
      = if (u.scenes.table.get ⟨n.toNat, hn⟩).valid = true then
          (u.setSlot (some ⟨n.toNat, hn⟩), [0, optNumByte u.scenes.slot])
        else (u, [3, optNumByte u.scenes.slot]) := by
  simp only [ownSceneNextSet, hr, sceneOf_of_lt hn]; rfl

theorem ownSceneNextEmpty_ready (hr : u.isReady = true) :
    ownSceneNextEmpty u [1, n] = (u.setSlot none, [0, optNumByte u.scenes.slot]) := by
  simp only [ownSceneNextEmpty, hr]; rfl

theorem ownSceneStop_ready (hr : u.isReady = true) :
    ownSceneStop u [] = (u.scenesIdle, [0, optNumByte u.scenes.current]) := by
  simp only [ownSceneStop, hr]; rfl

theorem ownSceneStop_notReady (hr : u.isReady = false) : ownSceneStop u [] = (u, [7, optNumByte u.scenes.current]) := by
  simp only [ownSceneStop, hr]; rfl

end

/-! ### The statements -/

/-- Settles O40: each row is its owner's answer; SCENE_WRITE forms a record exactly from fields in range. -/
theorem sceneWriteAndSceneNext : Obligations.SceneWriteAndSceneNext := by
  refine ⟨?_, ?_⟩
  · intro s tag n valid a0 a1 a2 a3 a4 a5 a6 a7 length next tie p h hready u bad act
    have hr : u.isReady = true := isReady_of_ready hready
    rw [exec_sceneWrite h]
    refine ⟨fun hbad => ?_, fun hn hgood => ?_⟩
    · rcases hbad with hn | hfields
      · rw [ownSceneWrite_noScene hr hn]
      · rw [ownSceneWrite_noRecord hr (sceneRecord_eq_none hfields)]
    · simp only [bad, not_or, not_exists] at hgood
      obtain ⟨-, hvalid, htie, hacts, hnext⟩ := hgood
      obtain ⟨r, hrec⟩ := sceneRecord_isSome (length := length) (fun a ha => Nat.not_lt.1 fun h => hacts a ⟨ha, h⟩) hnext
        (Nat.not_lt.1 hvalid) (Nat.not_lt.1 htie)
      rw [ownSceneWrite_accepted hr hn hrec]
      exact ⟨r, rfl, (sceneRecord_eq_some.1 hrec).2⟩
  · intro s tag n hready u before
    have hr : u.isReady = true := isReady_of_ready hready
    refine ⟨fun h => ⟨fun hn => ?_, fun hn => ?_⟩, fun h => ?_⟩
    · rw [exec_sceneNextSet h, ownSceneNextSet_noScene hr hn]; rfl
    · rw [exec_sceneNextSet h, ownSceneNextSet_scene hr hn]
      split_ifs <;> rfl
    · rw [exec_sceneNextEmpty h, ownSceneNextEmpty_ready hr]; rfl

/-- Settles O41: READY decides between the refusal and `scenesIdle`. -/
theorem sceneStopSetsTheSequencerIdle : Obligations.SceneStopSetsTheSequencerIdle := by
  intro s tag h u before
  rw [exec_sceneStop h]
  by_cases hready : s.sup.state = .ready
  · rw [ownSceneStop_ready (isReady_of_ready hready), if_pos hready]; rfl
  · rw [ownSceneStop_notReady (isReady_of_not_ready hready), if_neg hready]; rfl

end Sys2Proof.Machine
end

