-- ==== Sys2Proof/Proofs/PromptTones.lean ====
section
/-! TONES, TONE_FLUSH, and the click generator's event rows CLICK_END, TONE_LOAD, TONE_ENTRY_END and WAVEFORM_FLIP (R157,
R159, R161 to R166). -/

namespace Sys2Proof.Machine

/-! ### The rows -/

theorem exec_tones {s : State} {tag n : Byte} {rest : List Byte} (hlen : rest.length = 12)
    (h : s.canTake { kind := 0x39, tag := tag, payload := n :: rest } = true) :
    exec (.tones tag (n :: rest)) s
      = .next ((ownTones s.takeRequest (n :: rest)).1.reply 0x39 tag (ownTones s.takeRequest (n :: rest)).2) :=
  congrArg Host.Outcome.next (serve_taken h rfl (congrArg some (by rw [List.length_cons, hlen])))

theorem exec_toneFlush {s : State} {tag : Byte} (h : s.canTake { kind := 0x3A, tag := tag, payload := [] } = true) :
    exec (.toneFlush tag []) s
      = .next ((ownToneFlush s.takeRequest []).1.reply 0x3A tag (ownToneFlush s.takeRequest []).2) :=
  congrArg Host.Outcome.next (serve_taken h rfl rfl)

/-! ### The entries of a Tones request (R161, R165) -/

/-- The entry that the i-th three bytes spell, if they are in range. -/
def toneEntryAt (l : List Byte) (i : Nat) : Option ToneEntry :=
  toneEntryOf (l.getD (3 * i) 0) (l.getD (3 * i + 1) 0) (l.getD (3 * i + 2) 0)

theorem toneEntryOf_eq_none {pitch code flags : Byte} :
    toneEntryOf pitch code flags = none
      ↔ 6 < code.toNat ∨ 3 < flags.toNat ∨ (pitch = 0 ∧ flags.getLsbD 0 = false) := by
  have hpitch : pitch.toNat = 0 ↔ pitch = 0 := BitVec.toNat_inj (y := 0)
  unfold toneEntryOf
  split_ifs with hcode hrange
  · obtain ⟨hflags, hrest⟩ := hrange
    refine iff_of_false (by simp) ?_
    rintro (h | h | ⟨h, hoff⟩)
    · omega
    · omega
    · rw [hrest (hpitch.2 h)] at hoff
      exact absurd hoff (by decide)
  · refine iff_of_true rfl (.inr ?_)
    by_cases hflags : flags.toNat ≤ 3
    · obtain ⟨hzero, hoff⟩ := Classical.not_imp.1 fun hrest => hrange ⟨hflags, hrest⟩
      exact .inr ⟨hpitch.1 hzero, Bool.eq_false_iff.2 hoff⟩
    · exact .inl (Nat.not_le.1 hflags)
  · exact iff_of_true rfl (.inl (by omega))

theorem toneEntryOf_fields {pitch code flags : Byte} {e : ToneEntry} (h : toneEntryOf pitch code flags = some e) :
    e.pitch = pitch ∧ e.code.val = code.toNat ∧ e.rest = flags.getLsbD 0 ∧ e.tie = flags.getLsbD 1 := by
  unfold toneEntryOf at h
  split_ifs at h
  obtain rfl := Option.some.inj h
  exact ⟨rfl, rfl, rfl, rfl⟩

/-- Three bytes in front move every entry one place on. -/
theorem toneEntryAt_succ (pitch code flags : Byte) (l : List Byte) (i : Nat) :
    toneEntryAt (pitch :: code :: flags :: l) (i + 1) = toneEntryAt l i := rfl

/-- The first n entries are formed exactly if each of them is, one by one. -/
theorem toneEntries_take_eq_some {n : Nat} {l : List Byte} {es : List ToneEntry} (hlen : 3 * n ≤ l.length) :
    toneEntries (l.take (3 * n)) = some es ↔ (List.range n).map (toneEntryAt l) = es.map some := by
  induction n generalizing l es with
  | zero =>
    change some [] = some es ↔ [] = es.map some
    cases es <;> simp
  | succ n ih =>
    match l, hlen with
    | pitch :: code :: flags :: l, hlen =>
      have htail : 3 * n ≤ l.length := by simp only [List.length_cons] at hlen; omega
      have hshift : toneEntryAt (pitch :: code :: flags :: l) ∘ Nat.succ = toneEntryAt l :=
        funext (toneEntryAt_succ pitch code flags l)
      have htake : (pitch :: code :: flags :: l).take (3 * (n + 1)) = pitch :: code :: flags :: l.take (3 * n) := rfl
      rw [htake, List.range_succ_eq_map, List.map_cons, List.map_map, hshift]
      simp only [toneEntries, Option.bind_eq_bind, Option.bind_eq_some_iff, Option.some.injEq, ih htail]
      constructor
      · rintro ⟨e, he, es', hes, rfl⟩
        exact congrArg₂ List.cons he hes
      · intro h
        match es, h with
        | e :: es', h =>
          obtain ⟨he, hes⟩ := List.cons.inj h
          exact ⟨e, he, es', hes, rfl⟩

section
variable {n : Nat} {l : List Byte}

theorem toneEntries_take_eq_none (hlen : 3 * n ≤ l.length) {i : Nat} (hi : i < n) (hbad : toneEntryAt l i = none) :
    toneEntries (l.take (3 * n)) = none := by
  refine Option.eq_none_iff_forall_ne_some.2 fun es hes => ?_
  have hmem : none ∈ es.map some := by
    rw [← (toneEntries_take_eq_some hlen).1 hes, ← hbad]
    exact List.mem_map_of_mem (List.mem_range.2 hi)
  simp at hmem

theorem toneEntries_take_isSome (hlen : 3 * n ≤ l.length) (hgood : ∀ i, i < n → toneEntryAt l i ≠ none) :
    ∃ es, toneEntries (l.take (3 * n)) = some es ∧ es.length = n
      ∧ ∀ i e, es[i]? = some e → toneEntryAt l i = some e := by
  have hformed : (List.range n).map (toneEntryAt l) ∈ Set.range (List.map (some : ToneEntry → _)) := by
    rw [Set.range_list_map]
    intro o ho
    obtain ⟨i, hi, rfl⟩ := List.mem_map.1 ho
    exact Option.ne_none_iff_exists.1 (hgood i (List.mem_range.1 hi))
  obtain ⟨es, hes⟩ := hformed
  have hcount : es.length = n := by simpa using congrArg List.length hes
  refine ⟨es, (toneEntries_take_eq_some hlen).2 hes.symm, hcount, fun i e hi => ?_⟩
  have hlt : i < n := hcount ▸ (List.getElem?_eq_some_iff.1 hi).1
  have hentry := congrArg (·[i]?) hes
  simpa [hi, hlt, eq_comm] using hentry

end

/-! ### What the owners answer -/

section
variable {u : State} {n : Byte} {rest : List Byte}

theorem ownTones_badCount (hr : u.isReady = true) (hn : n = 0 ∨ 4 < n.toNat) :
    ownTones u (n :: rest) = (u, 3 :: u.toneBytes) := by
  simp only [ownTones, hr, if_pos hn]; rfl

theorem ownTones_badEntry (hr : u.isReady = true) (hn : ¬(n = 0 ∨ 4 < n.toNat))
    (hes : toneEntries (rest.take (3 * n.toNat)) = none) : ownTones u (n :: rest) = (u, 3 :: u.toneBytes) := by
  simp only [ownTones, hr, if_neg hn, hes]; rfl

theorem ownTones_full {es : List ToneEntry} (hr : u.isReady = true) (hn : ¬(n = 0 ∨ 4 < n.toNat))
    (hes : toneEntries (rest.take (3 * n.toNat)) = some es) (hroom : 4 < u.tones.queue.length + n.toNat) :
    ownTones u (n :: rest) = (u, 4 :: u.toneBytes) := by
  simp only [ownTones, hr, if_neg hn, hes, if_pos hroom]; rfl

theorem ownTones_joins {es : List ToneEntry} (hr : u.isReady = true) (hn : ¬(n = 0 ∨ 4 < n.toNat))
    (hes : toneEntries (rest.take (3 * n.toNat)) = some es) (hroom : u.tones.queue.length + n.toNat ≤ 4) :
    ownTones u (n :: rest)
      = ({ u with tones := u.tones.append es }, 0 :: State.toneBytes { u with tones := u.tones.append es }) := by
  simp only [ownTones, hr, if_neg hn, hes, if_neg (Nat.not_lt.2 hroom)]; rfl

theorem ownToneFlush_ready (hr : u.isReady = true) :
    ownToneFlush u [] = ((u.hear (.prompt u.tones.lastSample)).flushTones .flushed, [0, byte u.tones.entries]) := by
  simp only [ownToneFlush, hr]; rfl

end

/-! ### The slot and its waveform (R157, R162, R163) -/

/-- The level that sounds behind a flip that is due is the other one (R157). -/
theorem Wave.settle_sample (w : Wave) : w.settle.sample = if w.high ≠ w.flipDue then 8192 else -8192 := by
  obtain ⟨high, count, flipDue⟩ := w
  cases high <;> cases flipDue <;> rfl

theorem Wave.settle_due {w : Wave} (h : w.flipDue = true) : w.settle = w.flip := if_pos h

theorem Slot.sounds_iff {sl : Slot} : sl.sounds = true ↔ sl.entry.rest = false ∧ sl.lastSilent = false := by
  unfold Slot.sounds
  rw [Bool.and_eq_true, Bool.not_eq_true', Bool.not_eq_true']

theorem Tones.lastSample_none {t : Tones} (h : t.slot = none) : t.lastSample = 0 := by
  unfold Tones.lastSample
  rw [h]

theorem Tones.lastSample_some {t : Tones} {sl : Slot} (h : t.slot = some sl) :
    t.lastSample = if sl.entry.rest = false ∧ sl.lastSilent = false then
      (if sl.wave.high ≠ sl.wave.flipDue then 8192 else -8192) else 0 := by
  unfold Tones.lastSample
  rw [h]
  dsimp only
  rw [Wave.settle_sample]
  exact if_congr Slot.sounds_iff rfl rfl

/-- TONES_DONE is sent exactly if the slot held an entry (R166). -/
theorem flushTones_eq (s : State) (cause : TonesEnd) :
    s.flushTones cause
      = if s.tones.slot.isSome then
          State.report { s with tones := s.tones.flushed } .tonesDone
            [cause.code, byte s.tones.sounded, byte s.tones.entries]
        else { s with tones := s.tones.flushed } := rfl

theorem Tones.entries_eq (t : Tones) : t.entries = t.queue.length + if t.slot.isSome then 1 else 0 := by
  unfold Tones.entries
  cases t.slot <;> rfl

/-! ### The requests -/

/-- Settles O44: each row is its owner's answer; a Tones' entries are formed exactly if each three bytes are in range. -/
theorem tonesJoinAndAreFlushed : Obligations.TonesJoinAndAreFlushed := by
  refine ⟨?_, ?_⟩
  · intro s tag n rest hrest h hready u answers badEntry
    have hr : u.isReady = true := isReady_of_ready hready
    have hanswer : ∀ {t : State} {code : Byte}, ownTones u (n :: rest) = (t, code :: t.toneBytes) → answers t code :=
      fun e => (exec_tones hrest h).trans (by rw [e]; rfl)
    have hbad : ∀ i, toneEntryAt rest i = none ↔ badEntry i := fun i => toneEntryOf_eq_none
    refine ⟨fun hn => hanswer (ownTones_badCount hr hn), fun hlow hhigh => ?_⟩
    have hn : ¬(n = 0 ∨ 4 < n.toNat) := by
      rintro (rfl | hgt)
      · exact absurd hlow (by decide)
      · exact absurd hhigh (Nat.not_le.2 hgt)
    have hlen : 3 * n.toNat ≤ rest.length := by omega
    refine ⟨fun ⟨i, hi, hout⟩ => ?_, fun hgood => ?_⟩
    · exact hanswer (ownTones_badEntry hr hn (toneEntries_take_eq_none hlen hi ((hbad i).2 hout)))
    · obtain ⟨es, hes, hcount, hentry⟩ :=
        toneEntries_take_isSome hlen fun i hi hnone => hgood i hi ((hbad i).1 hnone)
      refine ⟨fun hroom => hanswer (ownTones_full hr hn hes hroom), fun hroom => ?_⟩
      exact ⟨es, hcount, fun i e hi => toneEntryOf_fields (hentry i e hi), hanswer (ownTones_joins hr hn hes hroom)⟩
  · intro s tag h hready u removed sample t
    have hr : u.isReady = true := isReady_of_ready hready
    have hsample : u.tones.lastSample = sample := by
      dsimp only [sample]
      cases hslot : u.tones.slot with
      | none => exact Tones.lastSample_none hslot
      | some sl => exact Tones.lastSample_some hslot
    have hremoved : byte u.tones.entries = removed := congrArg byte u.tones.entries_eq
    rw [exec_toneFlush h, ownToneFlush_ready hr, flushTones_eq, State.hear_tones, hsample, hremoved]; rfl

/-! ### The event rows, where they are due -/

section
variable {s : State}

theorem exec_clickEnd_due {c : Click} (hr : s.isReady = true) (hc : s.tones.click = some c) (ht : c.ticks = 0) :
    exec .clickEnd s = .next { s with tones := { s.tones with click := none } } :=
  congrArg Host.Outcome.next (if_pos ⟨hr, by rw [hc, ← ht]; rfl⟩)

theorem exec_toneLoad_due {e : ToneEntry} {q : List ToneEntry} (hb : s.bnd.toneLoad = true)
    (hp : s.tones.loadPending = true) (hq : s.tones.queue = e :: q) :
    exec .toneLoad s = .next { s with tones := s.tones.load e q Wave.fresh } := by
  have hdue : s.toneLoadDue = true := Bool.and_eq_true_iff.2 ⟨hb, hp⟩
  refine congrArg Host.Outcome.next ((if_pos hdue).trans ?_)
  rw [hq]

theorem exec_waveformFlip_click (hr : s.isReady = true) :
    exec (.waveformFlip .click) s = .next
      { s with tones := { s.tones with click := s.tones.click.map fun c => { c with wave := c.wave.settle } } } :=
  congrArg Host.Outcome.next (if_neg (by rw [hr]; decide))

theorem exec_waveformFlip_prompt (hr : s.isReady = true) :
    exec (.waveformFlip .prompt) s = .next
      { s with tones := { s.tones with slot := s.tones.slot.map fun sl => { sl with wave := sl.wave.settle } } } :=
  congrArg Host.Outcome.next (if_neg (by rw [hr]; decide))

theorem exec_waveformFlip_off (tone : Tone) (hr : s.isReady = false) : exec (.waveformFlip tone) s = .next s :=
  congrArg Host.Outcome.next (if_pos hr)

theorem entryEnd_due {sl : Slot} (hr : s.isReady = true) (hs : s.tones.slot = some sl) (ht : sl.ticks = 0) :
    s.entryEnd = s.endEntry sl := by
  unfold State.entryEnd
  rw [hs]
  exact if_pos ⟨hr, ht⟩

/-- The count of the entries that have sounded, with the one that ends (R164). -/
def Tones.soundedNext (t : Tones) : Nat := if t.sounded < 255 then t.sounded + 1 else t.sounded

theorem endEntry_last (sl : Slot) (hq : s.tones.queue = []) :
    s.endEntry sl
      = State.reportTones { s with tones := { s.tones with slot := none, sounded := 0 } } .ended s.tones.soundedNext 0 := by
  unfold State.endEntry
  rw [hq]; rfl

theorem endEntry_handsOver {e : ToneEntry} {q : List ToneEntry} (sl : Slot) (hq : s.tones.queue = e :: q) :
    s.endEntry sl
      = { s with tones := { s.tones.load e q sl.handed with sounded := s.tones.soundedNext } } := by
  unfold State.endEntry
  rw [hq]; rfl

end

/-- Settles O45: each event where it is due; an entry that ends hands its waveform over by `endEntry_handsOver`. -/
theorem tonesAndClicksGoOn : Obligations.TonesAndClicksGoOn := by
  refine ⟨fun s => ⟨fun hs c hc ht => ?_, fun e q hb hp hq => ?_, fun c hs hc hd => ?_, fun sl hs hsl hd => ?_,
    fun hs tone => ?_⟩, fun w => ?_⟩
  · exact exec_clickEnd_due (isReady_iff.2 hs) hc ht
  · exact exec_toneLoad_due hb hp hq
  · rw [exec_waveformFlip_click (isReady_iff.2 hs), hc, Option.map_some, Wave.settle_due hd]; rfl
  · rw [exec_waveformFlip_prompt (isReady_iff.2 hs), hsl, Option.map_some, Wave.settle_due hd]; rfl
  · exact exec_waveformFlip_off tone (Bool.eq_false_iff.2 (mt isReady_iff.1 hs))
  · intro s hs sl hsl ht sounded
    have hends : exec .toneEntryEnd w = .next (s.endEntry sl) :=
      congrArg Host.Outcome.next (entryEnd_due (isReady_iff.2 hs) hsl ht)
    refine ⟨fun hq => ?_, fun e q hq => ?_⟩
    · rw [hends, endEntry_last sl hq]; rfl
    · rw [hends, endEntry_handsOver sl hq]; rfl

end Sys2Proof.Machine
end

