-- ==== Sys2Proof/Proofs/NotReady.lean ====
section
/-! The rows that need READY, outside it (R172, R184). -/

namespace Sys2Proof.Machine

/-- Outside READY the owner refuses this payload NOT_READY, and leaves the state as it is. -/
def RefusesNotReady (owner : Owner) (p : List Byte) : Prop :=
  ∀ u : State, u.isReady = false → ∃ fields, owner u p = (u, 7 :: fields)

/-- What an owner does whose first check is that of READY, with these fields in its refusal. -/
theorem notReady_checked {u : State} {fields : List Byte} {served : State × List Byte} (hu : u.isReady = false) :
    ∃ l, (if (!u.isReady) = true then answer u .notReady fields else served) = (u, 7 :: l) :=
  ⟨fields, if_pos (by rw [hu]; rfl)⟩

theorem firstByteNot_nil (p : List Byte) : firstByteNot [] p = true := by
  cases p <;> rfl

/-- A row whose owner refuses the payload outside READY is refused there, and only its taking happens. -/
theorem serve_notReady {kind tag : Byte} {others p : List Byte} {owner : Owner} {s : State}
    (hc : s.canTake { kind := kind, tag := tag, payload := p } = true) (hs : firstByteNot others p = true)
    (hl : catalogueLength kind = some p.length) (hr : s.sup.state ≠ .ready) (ho : RefusesNotReady owner p) :
    ∃ fields, serve kind others tag p owner s = s.takeRequest.reply kind tag (7 :: fields) := by
  obtain ⟨fields, hfields⟩ := ho _ (isReady_of_not_ready hr)
  have hspell : spellsOther others p = false := by unfold spellsOther; rw [hs]; rfl
  exact ⟨fields, by rw [serve_taken hc hspell hl, hfields]⟩

/-! ### The owners that check for READY behind the action's byte -/

theorem ownSupplyConfigWrite_notReady {u : State} {w d g : Byte} (vdd : Half) (hr : u.isReady = false) :
    ownSupplyConfigWrite vdd u [1, w, d, g] = (u, 7 :: u.supplyConfigBytes vdd) := by
  unfold ownSupplyConfigWrite
  dsimp only
  rw [if_neg (by decide), if_pos (by simp [hr])]; rfl

theorem ownHaltConfigWrite_notReady {u : State} {d h c : Byte} (hr : u.isReady = false) :
    ownHaltConfigWrite u [1, d, h, c] = (u, 7 :: u.haltConfigBytes) := by
  unfold ownHaltConfigWrite
  dsimp only
  rw [if_neg (by decide), if_pos (by simp [hr])]; rfl

/-! ### The obligation -/

/-- Settles O13: each row's owner makes the check for READY first, a WRITE behind its action's byte. -/
theorem requestsAreRefusedNotReady : Obligations.RequestsAreRefusedNotReady := by
  intro i f s hf hu hw hc hl hr
  have refused : ∀ {kind tag : Byte} {p others : List Byte} {owner : Owner}, some ⟨kind, tag, p⟩ = some f →
      firstByteNot others p = true → (catalogueLength kind = some p.length → RefusesNotReady owner p) →
      ∃ fields, Host.Outcome.next (serve kind others tag p owner s)
        = (.next (s.takeRequest.reply f.kind f.tag (7 :: fields)) : Result) := by
    rintro kind tag p others owner ⟨⟩ hs ho
    obtain ⟨fields, h⟩ := serve_notReady hc hs hl hr (ho hl)
    exact ⟨fields, congrArg Host.Outcome.next h⟩
  cases i with
  | standby _ p | haltClear _ p | tap _ p | stop _ p | clearAll _ p | sceneStop _ p | toneFlush _ p =>
    exact refused hf (firstByteNot_nil p) fun _ _ hn => notReady_checked hn
  | cancelCueAll _ p | cancelBounceAll _ p | sceneNextEmpty _ p =>
    exact refused hf (Bool.and_eq_true_iff.1 hw).2 fun _ _ hn => notReady_checked hn
  | start _ p | foldConfig _ p =>
    exact refused hf (firstByteNot_nil p) fun hl => match p, hl with | [_], _ => fun _ hn => notReady_checked hn
  | setLevel _ p =>
    exact refused hf (firstByteNot_nil p) fun hl => match p, hl with | [_, _], _ => fun _ hn => notReady_checked hn
  | cancelCueById _ p | cancelCueByTrack _ p | cancelBounceById _ p | sceneNextSet _ p =>
    exact refused hf (Bool.and_eq_true_iff.1 hw).2 fun hl =>
      match p, hl with | [_, _], _ => fun _ hn => notReady_checked hn
  | setTempo _ p =>
    exact refused hf (firstByteNot_nil p) fun hl => match p, hl with | [_, _, _], _ => fun _ hn => notReady_checked hn
  | trackConfig _ p =>
    exact refused hf (firstByteNot_nil p) fun hl =>
      match p, hl with | [_, _, _, _, _, _], _ => fun _ hn => notReady_checked hn
  | cue _ p =>
    exact refused hf (firstByteNot_nil p) fun hl =>
      match p, hl with | [_, _, _, _, _, _, _], _ => fun _ hn => notReady_checked hn
  | bounce _ p =>
    exact refused hf (firstByteNot_nil p) fun hl =>
      match p, hl with | [_, _, _, _, _, _, _, _], _ => fun _ hn => notReady_checked hn
  | tones _ p | sceneWrite _ p =>
    exact refused hf (firstByteNot_nil p) fun hl => match p, hl with | _ :: _, _ => fun _ hn => notReady_checked hn
  | clickConfigWrite _ p =>
    obtain ⟨rest, rfl⟩ := List.head?_eq_some_iff.1 (of_decide_eq_true hu)
    exact refused hf (Bool.and_eq_true_iff.1 hw).2 fun hl =>
      match rest, hl with | [_, _, _, _], _ => fun _ hn => ⟨_, ownClickConfigWrite_notReady hn⟩
  | monitorConfigWrite _ p =>
    obtain ⟨rest, rfl⟩ := List.head?_eq_some_iff.1 (of_decide_eq_true hu)
    exact refused hf (Bool.and_eq_true_iff.1 hw).2 fun hl =>
      match rest, hl with | [_, _, _, _, _, _, _], _ => fun _ hn => ⟨_, ownMonitorConfigWrite_notReady hn⟩
  | supplyConfigWrite _ p vdd =>
    obtain ⟨rest, rfl⟩ := List.head?_eq_some_iff.1 (of_decide_eq_true hu)
    exact refused hf (Bool.and_eq_true_iff.1 hw).2 fun hl =>
      match rest, hl with | [_, _, _], _ => fun _ hn => ⟨_, ownSupplyConfigWrite_notReady vdd hn⟩
  | haltConfigWrite _ p =>
    obtain ⟨rest, rfl⟩ := List.head?_eq_some_iff.1 (of_decide_eq_true hu)
    exact refused hf (Bool.and_eq_true_iff.1 hw).2 fun hl =>
      match rest, hl with | [_, _, _], _ => fun _ hn => ⟨_, ownHaltConfigWrite_notReady hn⟩
  | _ => exact absurd hu Bool.false_ne_true

end Sys2Proof.Machine
end

