-- ==== Sys2Proof/Proofs/LinkPort.lean ====
section
/-! WELL_FORMED_FRAME, FRAME_DISCARD, BYTE_GAP, START_BYTE and FRAME_SENT, and a frame's bytes on the line (R168, R173, R177,
R182, R183, R185, R186, R188). -/

namespace Sys2Proof.Machine

/-! ### The arrival of a frame -/

/-- The reply places in use are the requests that wait and the replies in the transmit queue (R185). -/
theorem Link.replyPlaces_eq (l : Link) :
    l.replyPlaces = l.requests.length + (l.tx.filter fun f => 0x80 ≤ f.kind.toNat).length := by
  have hreply : (fun f : Frame => !(f.kind.toNat < 0x80)) = fun f => decide (0x80 ≤ f.kind.toNat) := by
    funext f
    rw [← decide_not, decide_eq_decide.2 Nat.not_lt]
  unfold Link.replyPlaces
  rw [hreply]

theorem arrive_reset {s : State} (f : Frame) (h : s.sup.state = .reset) : s.arrive f = s := if_pos h

/-- Outside RESET a frame that a host may send leaves the receiver hunting, restarts the timer, wakes the part and is offered
to the request queue (R177, R183, R185, R188). -/
theorem arrive_offered {s : State} {f : Frame} (h : s.sup.state ≠ .reset) (hk : f.kind.toNat < 0x80)
    (hp : f.payload.length ≤ 56) : s.arrive f = s.hunt.arriveTimer.arriveWake.offer f := by
  have hfits : ¬(hostKind f.kind = false ∨ payloadFits f.payload = false) := by
    simp [hostKind, payloadFits, hk, hp]
  unfold State.arrive
  rw [if_neg h, if_neg hfits]

/-- The timer restarts while requests are taken (R188). -/
theorem arriveTimer_eq (s : State) :
    s.arriveTimer = { s with
      link := { s.link with
        timer := if s.sup.state = .ready ∨ s.sup.state = .verifying then decide (s.link.timeout ≠ 0)
          else s.link.timer } } := by
  unfold State.arriveTimer
  rw [if_congr takesRequests_iff rfl rfl]
  split_ifs <;> rfl

/-- A part in STANDBY begins WAKING (R177). -/
theorem arriveWake_eq (s : State) :
    s.arriveWake = { s with
      sup := { s.sup with
        state := if s.sup.state = .standby then .waking else s.sup.state
        wake := if s.sup.state = .standby then some { cause := .link, haltHeld := false } else s.sup.wake } } := by
  unfold State.arriveWake
  split_ifs <;> rfl

/-- What becomes of a frame that is offered (R173, R185). -/
theorem offer_eq (s : State) (f : Frame) :
    s.offer f =
      if 8 ≤ s.link.requests.length + (s.link.tx.filter fun f => 0x80 ≤ f.kind.toNat).length then s
      else if s.link.requests.length < 4 then { s with link := { s.link with requests := s.link.requests ++ [f] } }
      else if s.sup.restart ≠ none then s
      else s.reply f.kind f.tag [4] := by
  unfold State.offer
  rw [Link.replyPlaces_eq]
  simp only [Option.isSome_iff_ne_none]
  rfl

/-- Settles O46: in RESET by `arrive_reset`, else by `arrive_offered` with an equation for each step of the arrival. -/
theorem wellFormedFramesAreOfferedToTheQueue : Obligations.WellFormedFramesAreOfferedToTheQueue := by
  intro w kind tag p s
  refine ⟨fun h => congrArg Host.Outcome.next (arrive_reset _ h), fun hk hp h => ?_⟩
  intro arrived places
  have harrived : s.hunt.arriveTimer.arriveWake = arrived := by
    rw [arriveWake_eq, arriveTimer_eq]
    rfl
  have hoffered : exec (.wellFormedFrame kind tag p) w
      = .next (arrived.offer { kind := kind, tag := tag, payload := p }) :=
    congrArg Host.Outcome.next ((arrive_offered h hk hp).trans (by rw [harrived]))
  rw [hoffered, offer_eq]

/-! ### The sender -/

section
variable {s : State}

theorem sendFirst_empty (h : s.link.tx = []) : s.sendFirst = s := by
  unfold State.sendFirst
  rw [h]

/-- Between a Restart's reply and its reset nothing leaves (R173). -/
theorem sendFirst_restartDue (h : s.sup.restartDue = true) : s.sendFirst = s := by
  unfold State.sendFirst
  split
  · rfl
  · exact if_pos h

theorem sendFirst_cons {f : Frame} {rest : List Frame} (h : s.link.tx = f :: rest) (hr : s.sup.restartDue = false) :
    s.sendFirst = { s with link := { s.link with tx := rest, line := frameWire f }, sup := s.sup.frameLeft } := by
  unfold State.sendFirst
  rw [h]
  exact if_neg (by simp [hr])

end

theorem Sup.restartDue_iff {u : Sup} : u.restartDue = true ↔ ∃ r, u.restart = some r ∧ r.ahead = 0 := by
  unfold Sup.restartDue
  cases u.restart <;> simp

/-! ### A frame's bytes (R182) -/

theorem byteSum_cons (b : Byte) (l : List Byte) : byteSum (b :: l) = b + byteSum l := rfl

theorem byteSum_append (l m : List Byte) : byteSum (l ++ m) = byteSum l + byteSum m := by
  induction l with
  | nil => exact (BitVec.zero_add _).symm
  | cons b l ih => rw [List.cons_append, byteSum_cons, byteSum_cons, ih, BitVec.add_assoc]

/-- The sum modulo 256 is the byte of the sum. -/
theorem byteSum_eq (l : List Byte) : byteSum l = byte (l.map (·.toNat)).sum := by
  induction l with
  | nil => rfl
  | cons b l ih =>
    rw [byteSum_cons, ih, List.map_cons, List.sum_cons]
    unfold byte
    rw [BitVec.ofNat_add, BitVec.ofNat_toNat, BitVec.setWidth_eq]

theorem byteSum_concat (l : List Byte) (b : Byte) : byteSum (l ++ [b]) = byteSum l + b :=
  (byteSum_append l [b]).trans (congrArg (byteSum l + ·) (BitVec.add_zero b))

/-- The check byte is the one that makes the sum 0 (R182). -/
theorem byteSum_concat_eq_zero {l : List Byte} {b : Byte} : byteSum (l ++ [b]) = 0 ↔ b = -byteSum l := by
  rw [byteSum_concat, eq_neg_iff_add_eq_zero, add_comm]

theorem frameBody_sum (f : Frame) : byteSum (frameBody f ++ [frameCheck f]) = 0 := byteSum_concat_eq_zero.2 rfl

theorem eq_toNat_iff_eq_byte {n : Nat} {len : Byte} (h : n ≤ 56) : n = len.toNat ↔ len = byte n := by
  unfold byte
  constructor
  · rintro rfl
    simp
  · rintro rfl
    rw [BitVec.toNat_ofNat, Nat.mod_eq_of_lt (by omega)]

/-- What a start byte, LEN, KIND, TAG, a payload and a CHECK spell (R182, R183). -/
theorem frameOf_concat {start len kind tag check : Byte} {p : List Byte} {f : Frame} :
    frameOf (start :: len :: kind :: tag :: (p ++ [check])) = some f
      ↔ p.length ≤ 56 ∧ start = 0xB7 ∧ len = byte p.length ∧ { kind := kind, tag := tag, payload := p } = f
        ∧ check = frameCheck f := by
  have hsum : byteSum (len :: kind :: tag :: (p ++ [check])) = 0 ↔ check = -byteSum (len :: kind :: tag :: p) :=
    byteSum_concat_eq_zero (l := len :: kind :: tag :: p)
  unfold frameOf
  dsimp only
  rw [List.dropLast_concat, Option.ite_none_right_eq_some, Option.some.injEq, hsum, List.length_append,
    List.length_singleton, Nat.add_right_cancel_iff, payloadFits, decide_eq_true_iff]
  constructor
  · rintro ⟨⟨hstart, hfits, hlen, hcheck⟩, rfl⟩
    obtain rfl := (eq_toNat_iff_eq_byte hfits).1 hlen
    exact ⟨hfits, hstart, rfl, rfl, hcheck⟩
  · rintro ⟨hfits, hstart, rfl, rfl, hcheck⟩
    exact ⟨⟨hstart, hfits, (eq_toNat_iff_eq_byte hfits).2 rfl, hcheck⟩, rfl⟩

/-- Bytes that spell a frame hold at least LEN, KIND, TAG and CHECK behind the start byte. -/
theorem frameOf_form {bytes : List Byte} {f : Frame} (h : frameOf bytes = some f) :
    ∃ start len kind tag p check, bytes = start :: len :: kind :: tag :: (p ++ [check]) := by
  unfold frameOf at h
  split at h
  case h_2 => cases h
  case h_1 start len kind tag rest =>
    obtain ⟨⟨-, -, hlength, -⟩, -⟩ := Option.ite_none_right_eq_some.1 h
    obtain rfl | ⟨p, check, rfl⟩ := List.eq_nil_or_concat' rest
    · cases hlength
    · exact ⟨start, len, kind, tag, p, check, rfl⟩

/-- Bytes spell a frame exactly if they are its bytes (R182, R183). -/
theorem frameOf_eq_some {bytes : List Byte} {f : Frame} :
    frameOf bytes = some f ↔ f.payload.length ≤ 56 ∧ frameWire f = bytes := by
  constructor
  · intro h
    obtain ⟨start, len, kind, tag, p, check, rfl⟩ := frameOf_form h
    obtain ⟨hfits, rfl, rfl, rfl, rfl⟩ := frameOf_concat.1 h
    exact ⟨hfits, rfl⟩
  · rintro ⟨hfits, rfl⟩
    exact frameOf_concat.2 ⟨hfits, rfl, rfl, rfl, rfl⟩

/-- Settles O47: the receiver's rows are one update each, the sender's `sendFirst_cons`, and a frame's bytes
`frameOf_eq_some`. -/
theorem receiverAndSenderGoOn : Obligations.ReceiverAndSenderGoOn := by
  refine ⟨fun s c => ⟨rfl, rfl, fun h => ?_, fun h => ?_⟩, fun w => ?_, fun f hf => ?_, fun bytes f => frameOf_eq_some.1⟩
  · exact congrArg Host.Outcome.next (if_neg h)
  · exact congrArg Host.Outcome.next (if_pos h)
  · intro s
    refine ⟨fun h => ?_, fun r hr ha => ?_, fun f rest htx hr => ?_⟩
    · exact congrArg Host.Outcome.next (sendFirst_empty h)
    · exact congrArg Host.Outcome.next (sendFirst_restartDue (Sup.restartDue_iff.2 ⟨r, hr, ha⟩))
    · have hdue : s.sup.restartDue = false :=
        Bool.eq_false_iff.2 fun e => by
          obtain ⟨r, hsome, ha⟩ := Sup.restartDue_iff.1 e
          exact hr r hsome ha
      exact congrArg Host.Outcome.next (sendFirst_cons htx hdue)
  · refine ⟨frameCheck f, rfl, ?_, frameOf_eq_some.2 ⟨hf, rfl⟩⟩
    rw [← byteSum_eq]
    exact frameBody_sum f

end Sys2Proof.Machine
end

