-- ==== Sys2Proof/Proofs/SupervisorRequests.lean ====
section
/-! STANDBY, LINK_CONFIG_READ and WRITE, SUPPLY_CONFIG_READ and WRITE, HALT_CONFIG_READ and WRITE, and HALT_CLEAR (R175, R176,
R180, R181, R187, R188). -/

namespace Sys2Proof.Machine

/-! ### STANDBY (R176) -/

theorem exec_standby {s : State} {tag : Byte} (h : s.canTake { kind := 0x04, tag := tag, payload := [] } = true) :
    exec (.standby tag []) s
      = .next ((ownStandby s.takeRequest []).1.reply 0x04 tag (ownStandby s.takeRequest []).2) :=
  congrArg Host.Outcome.next (serve_taken h rfl rfl)

theorem standbyBusy_iff {s : State} :
    s.standbyBusy = true ↔
      s.clock.transport ≠ .stopped ∨ s.head0 ≠ none ∨ s.head1 ≠ none ∨ s.bounce.queue ≠ [] ∨ s.cues.list ≠ [] := by
  unfold State.standbyBusy
  simp only [Bool.or_eq_true, decide_eq_true_iff, headsBusy_ne_zero, or_assoc]

section
variable {u : State}

theorem ownStandby_busy (hr : u.isReady = true) (hb : u.standbyBusy = true) : ownStandby u [] = (u, [5]) := by
  unfold ownStandby
  rw [hr, hb]; rfl

theorem ownStandby_entered (hr : u.isReady = true) (hb : u.standbyBusy = false) :
    ownStandby u [] = (if u.enterStandby.link.requests = [] then u.enterStandby else u.enterStandby.wake .link, [0]) := by
  unfold ownStandby
  rw [hr, hb]; rfl

end

/-- A flush stops the tones, and may report it (R166). -/
theorem flushTones_fields (s : State) (cause : TonesEnd) :
    s.flushTones cause = { s with tones := s.tones.flushed, link := (s.flushTones cause).link } := by
  rw [flushTones_eq]
  split_ifs
  · exact State.report_eq ..
  · rfl

theorem flushTones_requests (s : State) (cause : TonesEnd) : (s.flushTones cause).link.requests = s.link.requests := by
  rw [(flushTones_keeps s cause).link]

/-- Settles O16: the tones flushed by `flushTones_fields`, and the wake that a waiting request brings. -/
theorem standbyIsEnteredOrRefusedBusy : Obligations.StandbyIsEnteredOrRefusedBusy := by
  refine ⟨fun s tag h hready hb => ?_, fun s tag h hready => ?_⟩
  · intro u
    have hsup : u.sup = s.sup := (flushTones_keeps ..).sup.trans (takeRequest_sup s)
    have hpool : u.pool = s.takeRequest.pool := by
      dsimp only [u]
      rw [flushTones_fields]
    have hrequests : s.takeRequest.enterStandby.link.requests = s.link.requests.tail :=
      (flushTones_requests s.takeRequest .standby).trans (congrArg Link.requests (takeRequest_link s))
    rw [exec_standby h, ownStandby_entered (isReady_of_ready hready) hb, hrequests, hpool, ← hsup]
    by_cases hq : s.link.requests.tail = []
    · rw [if_pos hq, if_pos hq]; rfl
    · rw [if_neg hq, if_neg hq]; rfl
  · intro u hbusy
    rw [exec_standby h, ownStandby_busy (isReady_of_ready hready) (standbyBusy_iff.2 hbusy)]

/-! ### LINK_CONFIG (R187, R188) -/

section
variable {s u : State} {tag n e0 e1 e2 e3 : Byte}

theorem exec_linkConfigRead (h : s.canTake { kind := 0x05, tag := tag, payload := [0, n, e0, e1, e2, e3] } = true) :
    exec (.linkConfigRead tag [0, n, e0, e1, e2, e3]) s
      = .next (s.takeRequest.reply 0x05 tag (0 :: s.takeRequest.linkConfigBytes)) :=
  congrArg Host.Outcome.next (serve_taken h rfl rfl)

theorem exec_linkConfigWrite (h : s.canTake { kind := 0x05, tag := tag, payload := [1, n, e0, e1, e2, e3] } = true) :
    exec (.linkConfigWrite tag [1, n, e0, e1, e2, e3]) s
      = .next ((ownLinkConfigWrite s.takeRequest [1, n, e0, e1, e2, e3]).1.reply 0x05 tag
          (ownLinkConfigWrite s.takeRequest [1, n, e0, e1, e2, e3]).2) :=
  congrArg Host.Outcome.next (serve_taken h rfl rfl)

theorem ownLinkConfigWrite_above (hn : 50 < n.toNat) :
    ownLinkConfigWrite u [1, n, e0, e1, e2, e3] = (u, 3 :: u.linkConfigBytes) := if_pos (.inr hn)

theorem ownLinkConfigWrite_set (hn : n.toNat ≤ 50) :
    ownLinkConfigWrite u [1, n, e0, e1, e2, e3] =
      ({ u with
          link := { u.link with
            timeout := n.toNat, enables := BitVec.ofNat 24 (fromLe3 e0 e1 e2), timer := decide (n ≠ 0) } },
        0 :: n :: le4 (BitVec.ofNat 24 (fromLe3 e0 e1 e2) ||| 1).toNat) := by
  have hin : ¬(1 < (1 : Byte).toNat ∨ 50 < n.toNat) := by
    rintro (h | h)
    · exact absurd h (by decide)
    · exact absurd hn (Nat.not_le.2 h)
  have htimer : decide (n.toNat ≠ 0) = decide (n ≠ 0) := decide_eq_decide.2 (not_congr (BitVec.toNat_inj (y := 0)))
  unfold ownLinkConfigWrite
  dsimp only
  rw [if_neg hin]
  simp only [answer, Link.restartTimer, State.linkConfigBytes, byte_toNat, htimer]; rfl

end

/-- The taking of a request leaves the port's settings. -/
theorem takeRequest_linkConfigBytes (s : State) :
    s.takeRequest.linkConfigBytes = byte s.link.timeout :: le4 (s.link.enables ||| 1).toNat := by
  unfold State.linkConfigBytes
  rw [takeRequest_link]

/-! ### SUPPLY_CONFIG (R175) -/

theorem supplyCodeOf_of_lt {b : Byte} (h : b.toNat < 4) : supplyCodeOf b = some ⟨b.toNat, h⟩ := dif_pos h

theorem supplyCodeOf_of_le {b : Byte} (h : 4 ≤ b.toNat) : supplyCodeOf b = none := dif_neg (Nat.not_lt.2 h)

/-- A flag in range is read back as the byte that set it. -/
theorem flagByte_decide_eq_one {b : Byte} (h : b.toNat ≤ 1) : flagByte (decide (b = 1)) = b := by
  revert b; decide

section
variable {s u : State} {tag w d g : Byte} (vdd : Half)

theorem exec_supplyConfigRead (h : s.canTake { kind := 0x06, tag := tag, payload := [0, w, d, g] } = true) :
    exec (.supplyConfigRead tag [0, w, d, g] vdd) s
      = .next (s.takeRequest.reply 0x06 tag (0 :: s.takeRequest.supplyConfigBytes vdd)) :=
  congrArg Host.Outcome.next (serve_taken h rfl rfl)

theorem exec_supplyConfigWrite (h : s.canTake { kind := 0x06, tag := tag, payload := [1, w, d, g] } = true) :
    exec (.supplyConfigWrite tag [1, w, d, g] vdd) s
      = .next ((ownSupplyConfigWrite vdd s.takeRequest [1, w, d, g]).1.reply 0x06 tag
          (ownSupplyConfigWrite vdd s.takeRequest [1, w, d, g]).2) :=
  congrArg Host.Outcome.next (serve_taken h rfl rfl)

theorem ownSupplyConfigWrite_set (hr : u.isReady = true) (hw : w.toNat < 4) (hd : d.toNat < 4) (hg : g.toNat ≤ 1) :
    ownSupplyConfigWrite vdd u [1, w, d, g] =
      ({ u with sup := { u.sup with warnCode := ⟨w.toNat, hw⟩, delayCode := ⟨d.toNat, hd⟩, guard := decide (g = 1) } },
        [0, w, d, g, flagByte u.sup.low] ++ le2 vdd.toNat) := by
  unfold ownSupplyConfigWrite
  dsimp only
  rw [if_neg (by decide), if_neg (by simp [hr]), supplyCodeOf_of_lt hw, supplyCodeOf_of_lt hd]
  dsimp only
  rw [if_neg (Nat.not_lt.2 hg)]
  simp only [answer, State.supplyConfigBytes, byte_toNat, flagByte_decide_eq_one hg]; rfl

theorem ownSupplyConfigWrite_outOfRange (hr : u.isReady = true) (h : 4 ≤ w.toNat ∨ 4 ≤ d.toNat ∨ 2 ≤ g.toNat) :
    ownSupplyConfigWrite vdd u [1, w, d, g] = (u, 3 :: u.supplyConfigBytes vdd) := by
  unfold ownSupplyConfigWrite
  dsimp only
  rw [if_neg (by decide), if_neg (by simp [hr])]
  by_cases hw : w.toNat < 4
  · by_cases hd : d.toNat < 4
    · have hg : 1 < g.toNat := by omega
      rw [supplyCodeOf_of_lt hw, supplyCodeOf_of_lt hd]
      exact if_pos hg
    · rw [supplyCodeOf_of_lt hw, supplyCodeOf_of_le (Nat.not_lt.1 hd)]; rfl
  · rw [supplyCodeOf_of_le (Nat.not_lt.1 hw)]; rfl

end

/-- Settles O17: each row is its owner's answer, a WRITE's ranges being checked in their order. -/
theorem linkAndSupplyConfigReadAndWrite : Obligations.LinkAndSupplyConfigReadAndWrite := by
  refine ⟨fun s tag n e0 e1 e2 e3 => ⟨fun h => ?_, fun h => ?_⟩,
    fun s tag w d g vdd => ⟨fun h => ?_, fun h hready => ⟨fun hw hd hg => ?_, fun hbad => ?_⟩⟩⟩
  · rw [exec_linkConfigRead h, takeRequest_linkConfigBytes]
  · rw [exec_linkConfigWrite h]
    by_cases hn : n.toNat ≤ 50
    · rw [ownLinkConfigWrite_set hn, if_pos hn]
    · rw [ownLinkConfigWrite_above (Nat.not_le.1 hn), takeRequest_linkConfigBytes, if_neg hn]
  · rw [exec_supplyConfigRead vdd h, State.supplyConfigBytes, takeRequest_sup]; rfl
  · rw [exec_supplyConfigWrite vdd h, ownSupplyConfigWrite_set vdd (isReady_of_ready hready) hw hd hg, takeRequest_sup]
  · rw [exec_supplyConfigWrite vdd h, ownSupplyConfigWrite_outOfRange vdd (isReady_of_ready hready) hbad,
      State.supplyConfigBytes, takeRequest_sup]; rfl

/-! ### HALT_CONFIG and HALT_CLEAR (R180, R181) -/

section
variable {s u : State} {tag b1 b2 b3 : Byte}

theorem exec_haltConfigRead (h : s.canTake { kind := 0x07, tag := tag, payload := [0, b1, b2, b3] } = true) :
    exec (.haltConfigRead tag [0, b1, b2, b3]) s
      = .next (s.takeRequest.reply 0x07 tag (0 :: s.takeRequest.haltConfigBytes)) :=
  congrArg Host.Outcome.next (serve_taken h rfl rfl)

theorem exec_haltClear (h : s.canTake { kind := 0x08, tag := tag, payload := [] } = true) :
    exec (.haltClear tag []) s
      = .next ((ownHaltClear s.takeRequest []).1.reply 0x08 tag (ownHaltClear s.takeRequest []).2) :=
  congrArg Host.Outcome.next (serve_taken h rfl rfl)

/-- The memory, the level and detection are set, and with no halt event due nothing else happens (R178, R180). -/
theorem writeHaltConfig_quiet {d c : Bool} (high : Bool) (h : (d && u.sup.edgeMemory && !c) = false) :
    u.writeHaltConfig d high c =
      { u with sup := { u.sup with edgeMemory := u.sup.edgeMemory && !c, activeHigh := high, detection := d } } := by
  unfold State.writeHaltConfig State.haltFromMemory
  dsimp only
  rw [← Bool.and_assoc, h]; rfl

/-- A WRITE whose three settings are flags is accepted in READY (R180). -/
theorem ownHaltConfigWrite_flags (hr : u.isReady = true) (d high c : Bool) :
    ownHaltConfigWrite u [1, flagByte d, flagByte high, flagByte c]
      = (u.writeHaltConfig d high c, 0 :: (u.writeHaltConfig d high c).haltConfigBytes) := by
  have hflag : ∀ b : Bool, ¬1 < (flagByte b).toNat := by decide
  unfold ownHaltConfigWrite
  dsimp only
  rw [if_neg (by decide), if_neg (by simp [hr]), if_neg (by simp only [hflag, or_self, not_false_eq_true])]
  simp only [flagByte_eq_one]; rfl

/-- The latch is cleared unless the line is active (R181). -/
theorem ownHaltClear_ready (hr : u.isReady = true) :
    ownHaltClear u [] =
      if u.sup.lineHigh = u.sup.activeHigh then (u, [11, flagByte u.sup.latch])
      else ({ u with sup := { u.sup with latch := false } }, [0, 0]) := by
  unfold ownHaltClear Sup.lineActive
  rw [hr]
  simp only [decide_eq_true_iff]; rfl

end

/-- Settles O18: `ownHaltConfigWrite_flags` where no halt event is due, and `ownHaltClear_ready`. -/
theorem haltConfigAndHaltClear : Obligations.HaltConfigAndHaltClear := by
  refine ⟨fun s tag d high c => ⟨fun b1 b2 b3 h => ?_, fun h hready hquiet => ?_⟩, fun s tag h hready => ?_⟩
  · rw [exec_haltConfigRead h, State.haltConfigBytes, takeRequest_sup]; rfl
  · have hdue : (d && s.takeRequest.sup.edgeMemory && !c) = false := by rw [takeRequest_sup]; exact hquiet
    rw [exec_haltConfigWrite h, ownHaltConfigWrite_flags (isReady_of_ready hready), writeHaltConfig_quiet high hdue,
      takeRequest_sup]; rfl
  · rw [exec_haltClear h, ownHaltClear_ready (isReady_of_ready hready), takeRequest_sup]
    split_ifs <;> rfl

end Sys2Proof.Machine
end

