-- ==== Sys2Proof/Proofs/LinkQueues.lean ====
section
/-! The link port's queues: what the taking of a request, an owner and a reply do to them (R184, R185, R186), and the owners of
the request rows, each of which adds nothing but reports. -/

namespace Sys2Proof.Machine

/-! ### Reports alone -/

/-- From s to t nothing joins the link's queues but reports, within their 16 places (R186), and the commands that wait stay. -/
structure ReportsOnly (s t : State) : Prop where
  pending : t.pending = s.pending
  requests : t.link.requests = s.link.requests
  replies : t.link.replies = s.link.replies
  reports : s.link.reportsQueued ≤ 16 → t.link.reportsQueued ≤ 16

theorem Keeps.reportsOnly {s t : State} (h : Keeps s t) : ReportsOnly s t :=
  ⟨h.pending, by rw [h.link], h.replies, h.reports⟩

theorem ReportsOnly.refl (s : State) : ReportsOnly s s := ⟨rfl, rfl, rfl, id⟩

theorem ReportsOnly.trans {s t u : State} (h : ReportsOnly s t) (k : ReportsOnly t u) : ReportsOnly s u :=
  ⟨k.pending.trans h.pending, k.requests.trans h.requests, k.replies.trans h.replies, k.reports ∘ h.reports⟩

theorem ReportsOnly.ite {c : Prop} [Decidable c] {s t u : State} (h : ReportsOnly s t) (k : ReportsOnly s u) :
    ReportsOnly s (if c then t else u) := by split <;> assumption

/-- The request queue, the transmit queue and the commands that wait are all that is read. -/
theorem ReportsOnly.of_same {s t : State} (hpending : t.pending = s.pending)
    (hrequests : t.link.requests = s.link.requests) (htx : t.link.tx = s.link.tx) : ReportsOnly s t := by
  refine ⟨hpending, hrequests, ?_, ?_⟩
  · unfold Link.replies
    rw [htx]
  · unfold Link.reportsQueued
    rw [htx]
    exact id

/-- An operation that adds reports alone, behind a change of what is not read. -/
theorem ReportsOnly.behind {s t u : State} (k : ReportsOnly t u) (hpending : t.pending = s.pending)
    (hrequests : t.link.requests = s.link.requests) (htx : t.link.tx = s.link.tx) : ReportsOnly s u :=
  (ReportsOnly.of_same hpending hrequests htx).trans k

theorem ReportsOnly.linkLegal {s t : State} (h : ReportsOnly s t) (k : s.linkLegal) : t.linkLegal := by
  obtain ⟨hwaiting, hqueued, hplaces⟩ := k
  refine ⟨h.requests ▸ hwaiting, h.reports hqueued, ?_⟩
  change t.link.requests.length + t.link.replies.length ≤ 8
  rw [h.requests, h.replies]
  exact hplaces

/-! ### The limits from one command to the next -/

/-- From s to t the link port stays within its limits, and the commands that wait stay. -/
structure PortKept (s t : State) : Prop where
  pending : t.pending = s.pending
  limits : s.linkLegal → t.linkLegal

theorem ReportsOnly.port {s t : State} (h : ReportsOnly s t) : PortKept s t := ⟨h.pending, h.linkLegal⟩

theorem PortKept.refl (s : State) : PortKept s s := ⟨rfl, id⟩

theorem PortKept.trans {s t u : State} (h : PortKept s t) (k : PortKept t u) : PortKept s u :=
  ⟨k.pending.trans h.pending, k.limits ∘ h.limits⟩

theorem PortKept.ite {c : Prop} [Decidable c] {s t u : State} (h : PortKept s t) (k : PortKept s u) :
    PortKept s (if c then t else u) := by split <;> assumption

/-- Empty queues are within the limits. -/
theorem linkLegal_of_empty {s : State} (hrequests : s.link.requests = []) (htx : s.link.tx = []) : s.linkLegal := by
  unfold State.linkLegal Link.replyPlaces Link.reportsQueued
  rw [hrequests, htx]
  exact ⟨Nat.zero_le _, Nat.zero_le _, Nat.zero_le _⟩

/-! ### A reply (R184) -/

/-- The reply to a host's KIND has a KIND of 0x80 or more. -/
theorem not_replyKind_lt {kind : Byte} (h : hostKind kind = true) : ¬(kind + 0x80).toNat < 0x80 := by
  have hkind : kind.toNat < 0x80 := of_decide_eq_true h
  bv_omega

section
variable {s : State} {kind : Byte} (tag : Byte) (p : List Byte)

theorem reply_replies (h : hostKind kind = true) :
    (s.reply kind tag p).link.replies = s.link.replies ++ [{ kind := kind + 0x80, tag := tag, payload := p }] := by
  change List.filter _ (s.link.tx ++ [_]) = _
  rw [List.filter_append, List.filter_singleton]
  simp only [not_replyKind_lt h, decide_false, Bool.not_false]
  rfl

theorem reply_reportsQueued (h : hostKind kind = true) :
    (s.reply kind tag p).link.reportsQueued = s.link.reportsQueued := by
  change (List.filter _ (s.link.tx ++ [_])).length = _
  rw [List.filter_append, List.filter_singleton]
  simp only [not_replyKind_lt h, decide_false, cond_false, List.append_nil]
  rfl

end

/-! ### The taking of a request (R185) -/

/-- A payload whose first byte is none of the others' spells no other row. -/
theorem spellsOther_eq_false {others p : List Byte} (h : firstByteNot others p = true) : spellsOther others p = false := by
  unfold spellsOther
  rw [h]
  rfl

theorem takeRequest_requests (s : State) : s.takeRequest.link.requests = s.link.requests.tail := by
  rw [takeRequest_link]

theorem takeRequest_replies (s : State) : s.takeRequest.link.replies = s.link.replies := by
  refine (finishWalk_keeps s.arriveNow).replies.trans ?_
  rw [arriveNow_fields]
  rfl

theorem takeRequest_reportsQueued {s : State} (h : s.link.reportsQueued ≤ 16) :
    s.takeRequest.link.reportsQueued ≤ 16 := by
  refine (finishWalk_keeps s.arriveNow).reports ?_
  rw [arriveNow_fields]
  exact h

/-- A request that can be taken leaves a reply place for its reply: its own, or, where it arrives as it is taken, a free one. -/
theorem places_of_canTake {s : State} {f : Frame} (h : s.canTake f = true) (hplaces : s.link.replyPlaces ≤ 8) :
    s.link.requests.tail.length + s.link.replies.length < 8 := by
  change s.link.requests.length + s.link.replies.length ≤ 8 at hplaces
  have hroom := (Bool.and_eq_true_iff.1 h).2
  cases hq : s.link.requests with
  | nil =>
    rw [hq] at hroom
    have hfree : s.link.requests.length + s.link.replies.length < 8 := of_decide_eq_true hroom
    rw [hq] at hfree
    exact hfree
  | cons g rest =>
    rw [hq, List.length_cons] at hplaces
    rw [List.tail_cons]
    omega

/-- A request taken, carried out with reports alone, and answered. -/
theorem answered_port {s u : State} {f : Frame} {kind : Byte} (tag : Byte) (p : List Byte) (hc : s.canTake f = true)
    (hk : hostKind kind = true) (hu : ReportsOnly s.takeRequest u) : PortKept s (u.reply kind tag p) := by
  refine ⟨hu.pending.trans (takeRequest_pending s), fun ⟨hwaiting, hqueued, hplaces⟩ => ⟨?_, ?_, ?_⟩⟩
  · change u.link.requests.length ≤ 4
    rw [hu.requests, takeRequest_requests, List.length_tail]
    omega
  · rw [reply_reportsQueued tag p hk]
    exact hu.reports (takeRequest_reportsQueued hqueued)
  · have hroom := places_of_canTake hc hplaces
    change u.link.requests.length + (u.reply kind tag p).link.replies.length ≤ 8
    rw [reply_replies tag p hk, hu.requests, hu.replies, takeRequest_requests, takeRequest_replies, List.length_append,
      List.length_singleton]
    omega

/-- A request's owner adds reports alone. -/
def ReportingOwner (owner : Owner) : Prop := ∀ u p, ReportsOnly u (owner u p).1

theorem serve_port {kind : Byte} {others : List Byte} {tag : Byte} {payload : List Byte} {owner : Owner} (s : State)
    (hk : hostKind kind = true) (ho : ReportingOwner owner) : PortKept s (serve kind others tag payload owner s) := by
  by_cases hc : s.canTake { kind := kind, tag := tag, payload := payload } = false ∨ spellsOther others payload = true
  · rw [serve_idle hc]
    exact .refl s
  · obtain ⟨htake, hspell⟩ := not_or.1 hc
    rw [Bool.not_eq_false] at htake
    rw [Bool.not_eq_true] at hspell
    by_cases hl : catalogueLength kind = some payload.length
    · rw [serve_taken htake hspell hl]
      exact answered_port _ _ htake hk (ho _ _)
    · rw [serve_badLength htake hspell hl]
      exact answered_port _ _ htake hk (.refl _)

/-! ### The owners that set fields alone -/

/-- An owner that leaves the link's queues and the commands that wait. -/
theorem ReportingOwner.of_same {owner : Owner}
    (h : ∀ u p, (owner u p).1.pending = u.pending ∧ (owner u p).1.link.requests = u.link.requests
      ∧ (owner u p).1.link.tx = u.link.tx) : ReportingOwner owner := fun u p => by
  obtain ⟨hpending, hrequests, htx⟩ := h u p
  exact .of_same hpending hrequests htx

/-! ### The owners that act -/

theorem ownSetTempo_reporting : ReportingOwner ownSetTempo := fun u p => by
  unfold ownSetTempo
  split
  · split
    · exact .refl u
    · split
      · exact .refl u
      · next hr =>
        split
        · exact .refl u
        · exact (stageTempo_keeps u _ _ fun _ => tempoInRange_iff.1 (by simpa using hr)).reportsOnly
  · exact .refl u

theorem ownTap_reporting : ReportingOwner ownTap := fun u p => by
  have htaps : ∀ taps, ReportsOnly u (u.setTaps taps) := fun _ => .of_same rfl rfl rfl
  unfold ownTap State.takeTap
  split
  · exact .refl u
  · split
    · exact .refl u
    · dsimp only
      split
      · exact htaps _
      · split
        · next hp => exact (htaps []).trans (stageTempo_keeps (u.setTaps []) _ _ fun h => ⟨hp, h.meter⟩).reportsOnly
        · exact htaps []

theorem ownStart_reporting : ReportingOwner ownStart := fun u p => by
  unfold ownStart
  split
  · split
    · exact .refl u
    · split
      · exact .refl u
      · split
        · exact .refl u
        · split
          · exact .refl u
          · exact (reportTransport_keeps ..).reportsOnly.behind rfl rfl rfl
  · exact .refl u

theorem ownStop_reporting : ReportingOwner ownStop := fun u p => by
  unfold ownStop
  split
  · exact .refl u
  · exact (stopTransport_keeps ..).reportsOnly

/-- STANDBY flushes the prompt tones, and a wake by a waiting request leaves that request where it is (R176). -/
theorem ownStandby_reporting : ReportingOwner ownStandby := fun u p => by
  have hentered : ReportsOnly u u.enterStandby := (flushTones_keeps u .standby).reportsOnly.trans (.of_same rfl rfl rfl)
  unfold ownStandby
  split
  · exact .refl u
  · split
    · exact .refl u
    · dsimp only [answer]
      split
      · exact hentered
      · exact hentered.trans (.of_same rfl rfl rfl)

theorem haltEvent_reportsOnly (s : State) (source : HaltSource) : ReportsOnly s (s.haltEvent source) := by
  cases hl : s.sup.latch with
  | true => rw [haltEvent_latched source hl]; exact .refl s
  | false => exact (haltEvent_keeps s source hl).reportsOnly.behind rfl rfl rfl

theorem haltFromMemory_reportsOnly (s : State) (source : HaltSource) : ReportsOnly s (s.haltFromMemory source) :=
  .ite ((haltEvent_reportsOnly ..).behind rfl rfl rfl) (.refl s)

theorem ownHaltConfigWrite_reporting : ReportingOwner ownHaltConfigWrite := fun u p => by
  unfold ownHaltConfigWrite
  split
  · split
    · exact .refl u
    · split
      · exact .refl u
      · split
        · exact .refl u
        · exact (haltFromMemory_reportsOnly ..).behind rfl rfl rfl
  · exact .refl u

theorem requestCue_reportsOnly (u : State) (a : Action) (g : Grid) (delay : Nat) (replace : Bool) :
    ReportsOnly u (u.requestCue a g delay replace).1 := by
  have hremoved :
      ReportsOnly u (State.replaceRemove { u with cues := { u.cues with nextId := u.cues.nextId + 1 } } a replace) := by
    rw [replaceRemove_eq]
    exact .of_same rfl rfl rfl
  unfold State.requestCue State.acceptCue
  split
  · exact .refl u
  · split
    · exact .refl u
    · dsimp only
      split
      · exact hremoved.trans (executeCue_keeps ..).reportsOnly
      · exact hremoved.trans (.of_same rfl rfl rfl)

theorem ownCue_reporting : ReportingOwner ownCue := fun u p => by
  unfold ownCue
  split
  · split
    · exact .refl u
    · split
      · exact .refl u
      · exact requestCue_reportsOnly ..
  · exact .refl u

theorem ownClearAll_reporting : ReportingOwner ownClearAll := fun u p => by
  unfold ownClearAll
  split
  · exact .refl u
  · exact requestCue_reportsOnly ..

theorem muteAction_keeps (s : State) (t : TrackId) (act : Byte) : Keeps s (s.muteAction t act) :=
  .ite (muteTrack_keeps ..) (.ite (unmuteTrack_keeps ..) (.refl s))

theorem oneShotAction_keeps (s : State) (t : TrackId) (act : Byte) : Keeps s (s.oneShotAction t act) := by
  have hset : Keeps s (s.setOneShot t) :=
    .ite (.refl s) (.ite ((modTrack_keeps ..).trans (armOneShot_keeps ..)) (modTrack_keeps ..))
  exact .ite hset (.ite (modTrack_keeps ..) (.refl s))

theorem ownTrackConfig_reporting : ReportingOwner ownTrackConfig := fun u p => by
  unfold ownTrackConfig
  split
  · split
    · exact .refl u
    · split
      · exact .refl u
      · split
        · exact .refl u
        · exact ((muteAction_keeps ..).trans (oneShotAction_keeps ..)).reportsOnly.behind rfl rfl rfl
  · exact .refl u

theorem ownBounce_reporting : ReportingOwner ownBounce := fun u p => by
  unfold ownBounce
  split
  · split
    · exact .refl u
    · dsimp only
      split
      · exact .refl u
      · split
        · exact .refl u
        · split
          · exact .refl u
          · split
            · exact .refl u
            · exact (requestBounce_keeps ..).reportsOnly
  · exact .refl u

theorem ownCancelBounceById_reporting : ReportingOwner ownCancelBounceById := fun u p => by
  unfold ownCancelBounceById
  split
  · split
    · exact .refl u
    · split
      · exact .refl u
      · split
        · exact .refl u
        · exact (abortBounces_keeps ..).reportsOnly
  · exact .refl u

theorem ownCancelBounceAll_reporting : ReportingOwner ownCancelBounceAll := fun u p => by
  unfold ownCancelBounceAll
  split
  · exact .refl u
  · split
    · exact .refl u
    · exact (abortBounces_keeps ..).reportsOnly

theorem ownToneFlush_reporting : ReportingOwner ownToneFlush := fun u p => by
  unfold ownToneFlush
  split
  · exact .refl u
  · exact (flushTones_keeps ..).reportsOnly.behind rfl rfl rfl

end Sys2Proof.Machine
end

