-- ==== Sys2Proof/Proofs/ReplyLengths.lean ====
section
/-! The payloads that the owners answer have the catalogue's reply length, whether the request is carried out or refused (R184,
R189, R192). -/

namespace Sys2Proof.Machine

/-- An owner answers a request of the catalogue's length with a payload of the catalogue's reply length. -/
def AnswersLength (kind : Byte) (owner : Owner) : Prop :=
  ∀ u p, catalogueLength kind = some p.length → (owner u p).2.length = replyLength kind

/-! ### Fields of a fixed length -/

theorem length_answer (u : State) (c : Code) (fields : List Byte) : (answer u c fields).2.length = fields.length + 1 := rfl

@[simp] theorem length_padTo (n : Nat) (fill : Byte) (l : List Byte) : (padTo n fill l).length = n := by
  simp [padTo]

@[simp] theorem length_zeros (n : Nat) : (zeros n).length = n := List.length_replicate

@[simp] theorem length_le2 (n : Nat) : (le2 n).length = 2 := rfl

@[simp] theorem length_le4 (n : Nat) : (le4 n).length = 4 := rfl

theorem length_trackBytes (u : State) (t : TrackId) : (u.trackBytes t).length = 28 := by
  simp [State.trackBytes]

theorem length_layerBytes (l : Layer) : l.bytes.length = 20 := by
  simp [Layer.bytes]

theorem length_optBlockBytes (b : Option BlockId) : (optBlockBytes b).length = 2 := by
  cases b <;> rfl

theorem length_poolBytes (u : State) : u.poolBytes.length = 14 := by
  simp [State.poolBytes, length_optBlockBytes]

theorem length_bounceBytes (e : Bounce) : e.bytes.length = 23 := by
  unfold Bounce.bytes
  cases e.run <;> simp

theorem length_sceneBytes (u : State) (n : SceneId) : (u.sceneBytes n).length = 18 := by
  simp [State.sceneBytes]

theorem length_monitorBytes (u : State) : u.monitorBytes.length = 7 := by
  simp [State.monitorBytes]

/-! ### The status and supervisor requests -/

theorem ownGetStatus_length (autopilot : Bool) : AnswersLength 0x01 (ownGetStatus autopilot) := fun _ _ _ => rfl

theorem ownResetCauseRead_length : AnswersLength 0x02 ownResetCauseRead := fun _ _ _ => rfl

theorem ownResetCauseReadAndClear_length : AnswersLength 0x02 ownResetCauseReadAndClear := fun _ _ _ => by
  unfold ownResetCauseReadAndClear
  split <;> rfl

theorem ownRestart_length (cold : Bool) : AnswersLength 0x03 (ownRestart cold) := fun _ _ _ => by
  unfold ownRestart
  split <;> rfl

theorem ownStandby_length : AnswersLength 0x04 ownStandby := fun _ _ _ => by
  unfold ownStandby
  split
  · rfl
  · split <;> rfl

theorem ownLinkConfigRead_length : AnswersLength 0x05 ownLinkConfigRead := fun _ _ _ => rfl

theorem ownLinkConfigWrite_length : AnswersLength 0x05 ownLinkConfigWrite
  | _, [_, _, _, _, _, _], _ => by
    unfold ownLinkConfigWrite
    dsimp only
    split <;> rfl

theorem ownSupplyConfigRead_length (vdd : Half) : AnswersLength 0x06 (ownSupplyConfigRead vdd) := fun _ _ _ => rfl

theorem ownSupplyConfigWrite_length (vdd : Half) : AnswersLength 0x06 (ownSupplyConfigWrite vdd)
  | _, [_, _, _, _], _ => by
    unfold ownSupplyConfigWrite
    dsimp only
    repeat' split
    all_goals rfl

theorem ownHaltConfigRead_length : AnswersLength 0x07 ownHaltConfigRead := fun _ _ _ => rfl

theorem ownHaltConfigWrite_length : AnswersLength 0x07 ownHaltConfigWrite
  | _, [_, _, _, _], _ => by
    unfold ownHaltConfigWrite
    dsimp only
    repeat' split
    all_goals rfl

theorem ownHaltClear_length : AnswersLength 0x08 ownHaltClear := fun _ _ _ => by
  unfold ownHaltClear
  repeat' split
  all_goals rfl

/-! ### Tempo and transport -/

theorem ownSetTempo_length : AnswersLength 0x10 ownSetTempo
  | _, [_, _, _], _ => by
    unfold ownSetTempo
    dsimp only
    repeat' split
    all_goals rfl

theorem ownTap_length : AnswersLength 0x11 ownTap := fun _ _ _ => by
  unfold ownTap State.takeTap
  dsimp only
  repeat' split
  all_goals rfl

theorem ownStart_length : AnswersLength 0x12 ownStart
  | _, [_], _ => by
    unfold ownStart
    dsimp only
    repeat' split
    all_goals rfl

theorem ownStop_length : AnswersLength 0x13 ownStop := fun _ _ _ => by
  unfold ownStop
  split <;> rfl

theorem ownGetPosition_length : AnswersLength 0x14 ownGetPosition := fun _ _ _ => rfl

/-! ### Cues -/

theorem length_requestCue (u : State) (a : Action) (g : Grid) (delay : Nat) (replace : Bool) :
    (u.requestCue a g delay replace).2.length = 5 := by
  unfold State.requestCue State.acceptCue
  dsimp only
  repeat' split
  all_goals rfl

theorem ownCue_length : AnswersLength 0x18 ownCue
  | u, [_, _, _, _, _, _, _], _ => by
    unfold ownCue
    dsimp only
    split
    · rfl
    · split
      · rfl
      · exact length_requestCue ..

theorem ownCancelCueById_length : AnswersLength 0x19 ownCancelCueById
  | _, [_, _], _ => by
    unfold ownCancelCueById
    dsimp only
    repeat' split
    all_goals rfl

theorem ownCancelCueByTrack_length : AnswersLength 0x19 ownCancelCueByTrack
  | _, [_, _], _ => by
    unfold ownCancelCueByTrack
    dsimp only
    repeat' split
    all_goals rfl

theorem ownCancelCueAll_length : AnswersLength 0x19 ownCancelCueAll := fun _ _ _ => by
  unfold ownCancelCueAll
  repeat' split
  all_goals rfl

theorem ownListCues_length : AnswersLength 0x1A ownListCues
  | _, [_], _ => by
    unfold ownListCues
    dsimp only
    split
    · rfl
    · simp only [length_answer, List.length_append, length_padTo]
      rfl

theorem ownClearAll_length : AnswersLength 0x26 ownClearAll := fun _ _ _ => by
  unfold ownClearAll
  split
  · rfl
  · exact length_requestCue ..

/-! ### Tracks, layers and the pool -/

theorem ownTrackConfig_length : AnswersLength 0x20 ownTrackConfig
  | _, [_, _, _, _, _, _], _ => by
    unfold ownTrackConfig
    dsimp only
    repeat' split
    all_goals rfl

theorem ownTrackInfo_length : AnswersLength 0x21 ownTrackInfo
  | _, [_], _ => by
    unfold ownTrackInfo
    dsimp only
    split
    · rfl
    · rw [length_answer, length_trackBytes]
      rfl

theorem ownLayerInfo_length : AnswersLength 0x22 ownLayerInfo
  | u, [b], _ => by
    unfold ownLayerInfo
    dsimp only
    split
    · rfl
    · next x _ =>
      rw [length_answer, List.length_cons]
      cases u.layer x with
      | none => rfl
      | some l =>
        rw [Option.map_some, Option.getD_some, length_layerBytes]
        rfl

theorem ownLayerMap_length : AnswersLength 0x23 ownLayerMap
  | _, [_, _, _], _ => by
    unfold ownLayerMap
    dsimp only
    split
    · rfl
    · split
      · rfl
      · split
        · rfl
        · simp only [length_answer, List.length_append, length_padTo]
          rfl

theorem ownSetLevel_length : AnswersLength 0x24 ownSetLevel
  | _, [_, _], _ => by
    unfold ownSetLevel
    dsimp only
    repeat' split
    all_goals rfl

theorem ownPoolInfo_length : AnswersLength 0x25 ownPoolInfo := fun u _ _ => by
  unfold ownPoolInfo
  rw [length_answer, length_poolBytes]
  rfl

/-! ### Bounces -/

theorem length_requestBounce (u : State) (fold : Bool) (d : TrackId) (xs : List LayerId) (levels muteSources : Bool) :
    (u.requestBounce fold d xs levels muteSources).2.length = 4 := by
  unfold State.requestBounce
  dsimp only
  repeat' split
  all_goals rfl

theorem ownBounce_length : AnswersLength 0x28 ownBounce
  | u, [_, _, _, _, _, _, _, _], _ => by
    unfold ownBounce
    dsimp only
    split
    · rfl
    · split
      · rfl
      · split
        · rfl
        · split
          · rfl
          · split
            · rfl
            · exact length_requestBounce ..

theorem ownCancelBounceById_length : AnswersLength 0x29 ownCancelBounceById
  | _, [_, _], _ => by
    unfold ownCancelBounceById
    dsimp only
    repeat' split
    all_goals rfl

theorem ownCancelBounceAll_length : AnswersLength 0x29 ownCancelBounceAll := fun _ _ _ => by
  unfold ownCancelBounceAll
  repeat' split
  all_goals rfl

theorem ownBounceInfo_length : AnswersLength 0x2A ownBounceInfo
  | u, [b], _ => by
    unfold ownBounceInfo
    dsimp only
    split
    · rfl
    · rw [length_answer, List.length_append, List.length_append]
      cases u.bounce.queue[b.toNat]? with
      | none => rfl
      | some e =>
        rw [Option.map_some, Option.getD_some, length_bounceBytes]
        rfl

theorem ownFoldConfig_length : AnswersLength 0x2B ownFoldConfig
  | _, [_], _ => by
    unfold ownFoldConfig
    dsimp only
    repeat' split
    all_goals rfl

/-! ### Scenes -/

theorem ownSceneWrite_length : AnswersLength 0x30 ownSceneWrite
  | _, _ :: _, _ => by
    unfold ownSceneWrite
    dsimp only
    repeat' split
    all_goals rfl

theorem ownSceneRead_length : AnswersLength 0x31 ownSceneRead
  | _, [_], _ => by
    unfold ownSceneRead
    dsimp only
    split
    · rfl
    · rw [length_answer, length_sceneBytes]
      rfl

theorem ownSceneNextSet_length : AnswersLength 0x32 ownSceneNextSet
  | _, [_, _], _ => by
    unfold ownSceneNextSet
    dsimp only
    repeat' split
    all_goals rfl

theorem ownSceneNextEmpty_length : AnswersLength 0x32 ownSceneNextEmpty := fun _ _ _ => by
  unfold ownSceneNextEmpty
  repeat' split
  all_goals rfl

theorem ownSceneStop_length : AnswersLength 0x33 ownSceneStop := fun _ _ _ => by
  unfold ownSceneStop
  split <;> rfl

/-! ### Click, prompt and monitor -/

theorem ownClickConfigRead_length : AnswersLength 0x38 ownClickConfigRead := fun _ _ _ => rfl

theorem ownClickConfigWrite_length : AnswersLength 0x38 ownClickConfigWrite
  | _, [_, _, _, _, _], _ => by
    unfold ownClickConfigWrite
    dsimp only
    repeat' split
    all_goals rfl

theorem ownTones_length : AnswersLength 0x39 ownTones
  | _, _ :: _, _ => by
    unfold ownTones
    dsimp only
    repeat' split
    all_goals rfl

theorem ownToneFlush_length : AnswersLength 0x3A ownToneFlush := fun _ _ _ => by
  unfold ownToneFlush
  split <;> rfl

theorem ownMonitorConfigRead_length : AnswersLength 0x3B ownMonitorConfigRead := fun u _ _ => by
  unfold ownMonitorConfigRead
  rw [length_answer, length_monitorBytes]
  rfl

theorem ownMonitorConfigWrite_length : AnswersLength 0x3B ownMonitorConfigWrite
  | _, [_, _, _, _, _, _, _, _], _ => by
    unfold ownMonitorConfigWrite
    dsimp only
    repeat' split
    all_goals
      rw [length_answer, length_monitorBytes]
      rfl

end Sys2Proof.Machine
end

