-- ==== Sys2Proof/Proofs/LinkLimits.lean ====
section
/-! Every command runs, leaves the commands that wait, and keeps the link port's limits (R168, R173, R185, R186): the request
rows by their owners, the event rows one by one. -/

namespace Sys2Proof.Machine

/-! ### The request rows -/

/-- The row serves the frame f by this owner, the bytes `others` spelling the other rows of its request. -/
structure Serves (i : Instr) (f : Frame) (s : State) (others : List Byte) (owner : Owner) : Prop where
  runs : exec i s = .next (serve f.kind others f.tag f.payload owner s)
  spelled : i.wellFormed = true → spellsOther others f.payload = false
  kind : hostKind f.kind = true
  reporting : ReportingOwner owner

/-- Every request row serves its frame by an owner that adds reports alone. -/
theorem requestRow_serves {i : Instr} {f : Frame} (hf : requestFrame i = some f) (s : State) :
    ∃ others owner, Serves i f s others owner := by
  have alone : ∀ {kind tag : Byte} {p : List Byte} {owner : Owner}, some ⟨kind, tag, p⟩ = some f →
      exec i s = .next (serve kind [] tag p owner s) → hostKind kind = true → ReportingOwner owner →
      ∃ others owner, Serves i f s others owner := by
    rintro kind tag p owner ⟨⟩ hruns hk ho
    exact ⟨[], owner, hruns, fun _ => spellsOther_eq_false (firstByteNot_nil p), hk, ho⟩
  have among : ∀ {kind tag : Byte} {p others : List Byte} {owner : Owner}, some ⟨kind, tag, p⟩ = some f →
      exec i s = .next (serve kind others tag p owner s) → i.wellFormed = (payloadFits p && firstByteNot others p) →
      hostKind kind = true → ReportingOwner owner → ∃ others owner, Serves i f s others owner := by
    rintro kind tag p others owner ⟨⟩ hruns hw hk ho
    refine ⟨others, owner, hruns, fun h => spellsOther_eq_false ?_, hk, ho⟩
    rw [hw] at h
    exact (Bool.and_eq_true_iff.1 h).2
  cases i with
  | getStatus | getPosition | poolInfo => exact alone hf rfl rfl (.of_same fun _ _ => ⟨rfl, rfl, rfl⟩)
  | resetCauseRead | linkConfigRead | supplyConfigRead | haltConfigRead | clickConfigRead | monitorConfigRead =>
    exact among hf rfl rfl rfl (.of_same fun _ _ => ⟨rfl, rfl, rfl⟩)
  | haltClear | listCues | trackInfo | layerInfo | layerMap | setLevel | bounceInfo | foldConfig | sceneWrite | sceneRead
  | sceneStop | tones =>
    refine alone hf rfl rfl (.of_same fun _ _ => ?_)
    simp only [ownHaltClear, ownListCues, ownTrackInfo, ownLayerInfo, ownLayerMap, ownSetLevel, ownBounceInfo,
      ownFoldConfig, ownSceneWrite, ownSceneRead, ownSceneStop, ownTones]
    repeat' split
    all_goals exact ⟨rfl, rfl, rfl⟩
  | resetCauseReadAndClear | restartWarm | restartCold | linkConfigWrite | supplyConfigWrite | cancelCueById
  | cancelCueByTrack | cancelCueAll | sceneNextSet | sceneNextEmpty | clickConfigWrite | monitorConfigWrite =>
    refine among hf rfl rfl rfl (.of_same fun _ _ => ?_)
    simp only [ownResetCauseReadAndClear, ownRestart, ownLinkConfigWrite, ownSupplyConfigWrite, ownCancelCueById,
      ownCancelCueByTrack, ownCancelCueAll, ownSceneNextSet, ownSceneNextEmpty, ownClickConfigWrite, ownMonitorConfigWrite]
    repeat' split
    all_goals exact ⟨rfl, rfl, rfl⟩
  | standby => exact alone hf rfl rfl ownStandby_reporting
  | setTempo => exact alone hf rfl rfl ownSetTempo_reporting
  | tap => exact alone hf rfl rfl ownTap_reporting
  | start => exact alone hf rfl rfl ownStart_reporting
  | stop => exact alone hf rfl rfl ownStop_reporting
  | cue => exact alone hf rfl rfl ownCue_reporting
  | clearAll => exact alone hf rfl rfl ownClearAll_reporting
  | trackConfig => exact alone hf rfl rfl ownTrackConfig_reporting
  | bounce => exact alone hf rfl rfl ownBounce_reporting
  | toneFlush => exact alone hf rfl rfl ownToneFlush_reporting
  | haltConfigWrite => exact among hf rfl rfl rfl ownHaltConfigWrite_reporting
  | cancelBounceById => exact among hf rfl rfl rfl ownCancelBounceById_reporting
  | cancelBounceAll => exact among hf rfl rfl rfl ownCancelBounceAll_reporting
  | _ => cases hf

theorem requestRow_port {i : Instr} {f : Frame} (hf : requestFrame i = some f) (s : State) :
    ∃ t, exec i s = .next t ∧ PortKept s t := by
  obtain ⟨others, owner, h⟩ := requestRow_serves hf s
  exact ⟨_, h.runs, serve_port s h.kind h.reporting⟩

theorem unknownRequest_port (kind tag : Byte) (p : List Byte) (s : State) :
    ∃ t, exec (.unknownRequest kind tag p) s = .next t ∧ PortKept s t := by
  change ∃ t, execUnknownRequest kind tag p s = .next t ∧ PortKept s t
  unfold execUnknownRequest
  split
  · exact ⟨s, rfl, .refl s⟩
  · next h =>
    obtain ⟨hc, hk, -⟩ := not_or.1 h |>.imp_right not_or.1
    exact ⟨_, rfl, answered_port _ _ (Bool.not_eq_false _ ▸ hc) (Bool.not_eq_false _ ▸ hk) (.refl _)⟩

/-! ### The link's own events -/

/-- A frame that is offered joins the queue in a reserved reply place, or is answered FULL in a free one (R185). -/
theorem offer_port (s : State) {f : Frame} (hk : hostKind f.kind = true) : PortKept s (s.offer f) := by
  unfold State.offer
  split
  · exact .refl s
  · next hroom =>
    have hplaces : s.link.requests.length + s.link.replies.length < 8 := Nat.lt_of_not_le hroom
    split
    · next hlen =>
      refine ⟨rfl, fun ⟨_, hqueued, _⟩ => ⟨?_, hqueued, ?_⟩⟩
      · change (s.link.requests ++ [f]).length ≤ 4
        rw [List.length_append, List.length_singleton]
        omega
      · change (s.link.requests ++ [f]).length + s.link.replies.length ≤ 8
        rw [List.length_append, List.length_singleton]
        omega
    · refine .ite (.refl s) ⟨rfl, fun ⟨hwaiting, hqueued, _⟩ => ⟨hwaiting, ?_, ?_⟩⟩
      · rw [reply_reportsQueued _ _ hk]
        exact hqueued
      · change s.link.requests.length + (s.reply f.kind f.tag _).link.replies.length ≤ 8
        rw [reply_replies _ _ hk, List.length_append, List.length_singleton]
        omega

theorem arrive_port (s : State) (f : Frame) : PortKept s (s.arrive f) := by
  have hhunt : ReportsOnly s s.hunt := .of_same rfl rfl rfl
  have htimer : ReportsOnly s.hunt s.hunt.arriveTimer := .ite (.of_same rfl rfl rfl) (.refl _)
  have hwake : ReportsOnly s.hunt.arriveTimer s.hunt.arriveTimer.arriveWake := .ite (.of_same rfl rfl rfl) (.refl _)
  unfold State.arrive
  split
  · exact .refl s
  · split
    · exact hhunt.port
    · next h =>
      exact ((hhunt.trans htimer).trans hwake).port.trans (offer_port _ (Bool.not_eq_false _ ▸ (not_or.1 h).1))

/-- A frame that has left frees its place (R186). -/
theorem sendFirst_port (s : State) : PortKept s s.sendFirst := by
  unfold State.sendFirst
  split
  · exact .refl s
  · next f rest htx =>
    refine .ite (.refl s) ⟨rfl, fun ⟨hwaiting, hqueued, hplaces⟩ => ?_⟩
    refine ⟨hwaiting, le_trans ?_ hqueued, le_trans ?_ hplaces⟩
    · unfold Link.reportsQueued
      rw [htx]
      exact ((List.sublist_cons_self f rest).filter _).length_le
    · unfold Link.replyPlaces
      rw [htx]
      exact Nat.add_le_add_left ((List.sublist_cons_self f rest).filter _).length_le _

theorem silenceExpires_reportsOnly (s : State) : ReportsOnly s s.silenceExpires := by
  by_cases ht : s.clock.transport = .stopped
  · rw [silenceExpires_stopped ht]
    exact (report_keeps ..).reportsOnly.behind rfl rfl rfl
  · rw [silenceExpires_moving ht, autopilotMoving_eq]
    exact (report_keeps ..).reportsOnly.behind rfl rfl rfl

/-! ### The boundaries and the frame -/

theorem takeRunning_reportsOnly (s : State) (now : Receivers) : ReportsOnly s (s.takeRunning now) := by
  have hmarked : ReportsOnly s s.runningMarked := .of_same rfl rfl rfl
  have hreported : ReportsOnly s.runningMarked s.runningReported :=
    .ite (.ite (.refl _) (reportBar_keeps _).reportsOnly) (.refl _)
  rw [takeRunning_reported]
  refine ((hmarked.trans hreported).trans ?_).trans (startWalk_keeps _).reportsOnly
  exact (receive_keeps ..).reportsOnly.behind rfl rfl rfl

theorem takeTick_reportsOnly (s : State) (now : Receivers) : ReportsOnly s (s.takeTick now) := by
  unfold State.takeTick
  split
  · split
    · exact .refl s
    · split
      · exact (placeClaims_keeps ..).reportsOnly.behind rfl rfl rfl
      · refine .ite (.refl s) ?_
        rw [takeCountIn_ticked]
        exact (receive_keeps ..).reportsOnly.behind rfl rfl rfl
      · exact takeRunning_reportsOnly s now
  · exact .ite ((endBegunWalk_keeps s).trans (receive_keeps ..)).reportsOnly (.refl s)

theorem countInBegins_reportsOnly (s : State) (now : Receivers) : ReportsOnly s (s.countInBegins now) :=
  .ite ((receive_keeps ..).reportsOnly.behind rfl rfl rfl) (.refl s)

theorem startMarked_reportsOnly (s : State) : ReportsOnly s s.startMarked := by
  have hticked : ReportsOnly s s.startTicked := .of_same rfl rfl rfl
  have hjoined : ReportsOnly s.startTicked s.startJoined := by
    rw [(startJoined_joins s).same]
    exact .of_same rfl rfl rfl
  have harmed : ReportsOnly s.startJoined s.startArmed := by
    unfold State.startArmed
    exact (Keeps.foldl (fun u t => Keeps.ite (armOneShot_keeps u t) (.refl u)) _ _).reportsOnly
  exact (hticked.trans (hjoined.trans harmed)).trans (.of_same rfl rfl rfl)

theorem startNow_reportsOnly (s : State) (now : Receivers) : ReportsOnly s (s.startNow now) := by
  rw [startNow_marked]
  exact (startMarked_reportsOnly s).trans
    ((reportBar_keeps _).trans ((receive_keeps ..).trans (startWalk_keeps _))).reportsOnly

theorem startsNow_reportsOnly (s : State) (now : Receivers) : ReportsOnly s (s.startsNow now) :=
  .ite ((startNow_reportsOnly ..).behind rfl rfl rfl) (.refl s)

theorem countInOver_reportsOnly (s : State) (now : Receivers) : ReportsOnly s (s.countInOver now) := by
  have hentered : ReportsOnly s s.enterRunning := (reportTransport_keeps ..).reportsOnly.behind rfl rfl rfl
  exact .ite (hentered.trans (startNow_reportsOnly ..)) (.refl s)

theorem readyFrame_reportsOnly (s : State) (ins : Vector Sample 4) : ReportsOnly s (s.readyFrame ins) := by
  have hadvanced : ReportsOnly s (if s.moving then (s.advanceHead ins .h0).advanceHead ins .h1 else s) :=
    .ite ((advanceHead_keeps ..).trans (advanceHead_keeps ..)).reportsOnly (.refl s)
  unfold State.readyFrame
  dsimp only
  generalize (if s.moving then (s.advanceHead ins .h0).advanceHead ins .h1 else s) = s1 at hadvanced ⊢
  have hmixed : ReportsOnly s { s1 with outputs := s1.mixFrame ins } := hadvanced.trans (.of_same rfl rfl rfl)
  have hcounted := hmixed.trans (foldl_countOneShot_keeps _).reportsOnly
  generalize (List.finRange 8).foldl State.countOneShot _ = s3 at hcounted ⊢
  have htoned : ReportsOnly s { s3 with tones := s3.tones.frame } := hcounted.trans (.of_same rfl rfl rfl)
  exact (htoned.trans (bounceFrame_keeps _).reportsOnly).trans (.of_same rfl rfl rfl)

/-! ### The resets, the verify scan, the supply and the halt line -/

/-- A reset empties the link's queues as it starts, and in RESET they stay as they are (R168). -/
theorem startReset_port (s : State) (cause : CauseSet) : PortKept s (s.startReset cause) := by
  unfold State.startReset
  split
  · exact ⟨rfl, id⟩
  · exact ⟨(finishWalk_keeps s).pending, fun _ => linkLegal_of_empty rfl rfl⟩

theorem coldValues_port (s : State) (haltHigh : Bool) : PortKept s (s.coldValues haltHigh).resetEndCheck.hello := by
  have hello : ReportsOnly (s.coldValues haltHigh).resetEndCheck (s.coldValues haltHigh).resetEndCheck.hello :=
    (hello_keeps _).reportsOnly
  exact ⟨hello.pending, fun _ => hello.linkLegal (linkLegal_of_empty rfl rfl)⟩

theorem reportReady_reportsOnly (s : State) (freed checked : Nat) : ReportsOnly s (s.reportReady freed checked) :=
  (reportReady_keeps ..).reportsOnly

theorem endScan_reportsOnly (s : State) (freed checked : Nat) : ReportsOnly s (s.endScan freed checked) :=
  (reportReady_reportsOnly ..).behind rfl rfl rfl

theorem startScan_reportsOnly (s : State) (freed : Nat) : ReportsOnly s (s.startScan freed) := by
  unfold State.startScan
  split
  · exact endScan_reportsOnly ..
  · exact .of_same rfl rfl rfl

theorem cleanup_pending (s : State) : s.cleanup.pending = s.pending := by
  have hfreed : s.unfilled.pending = s.pending :=
    (Keeps.foldl freeLayer_keeps s.fillingLayers { s with head0 := none, head1 := none }).pending
  rw [cleanup_eq_cleaned, cleaned_same]
  exact hfreed

/-- Behind a warm reset's cleanup nothing is queued, and what follows adds reports alone (R171, R193). -/
theorem endWarm_port (s : State) : PortKept s s.endWarm := by
  have hleft : s.warmLeft.pending = s.pending ∧ s.warmLeft.link.requests = [] ∧ s.warmLeft.link.tx = [] := by
    obtain ⟨_, _, h⟩ := warmLeft_eq s
    rw [h]
    exact ⟨cleanup_pending s, rfl, rfl⟩
  have hended : ReportsOnly s.warmLeft s.endWarm := by
    rw [endWarm_eq]
    exact (hello_keeps _).reportsOnly.trans
      (.ite ((reportReady_reportsOnly ..).trans (haltFromMemory_reportsOnly ..))
        ((haltFromMemory_reportsOnly ..).trans (startScan_reportsOnly ..)))
  obtain ⟨hpending, hrequests, htx⟩ := hleft
  exact ⟨hended.pending.trans hpending, fun _ => hended.linkLegal (linkLegal_of_empty hrequests htx)⟩

theorem visitEnd_reportsOnly (s : State) (upsets : List Host.Cell) (v : Scan) :
    ReportsOnly s (((upsets.foldl (State.upset v.next) s).visit v.next).scanOn v) := by
  have hupset : ReportsOnly s (upsets.foldl (State.upset v.next) s) :=
    foldl_invariant (I := ReportsOnly s)
      (fun u c h => h.trans (by unfold State.upset; exact .ite (.of_same rfl rfl rfl) (.refl u))) upsets s (.refl s)
  refine (hupset.trans (visit_keeps _ v.next).reportsOnly).trans ?_
  unfold State.scanOn
  split
  · exact .of_same rfl rfl rfl
  · exact endScan_reportsOnly ..

theorem cross_reportsOnly (s : State) (low : Bool) (vdd : Half) : ReportsOnly s (s.cross low vdd) :=
  (report_keeps ..).reportsOnly.behind rfl rfl rfl

theorem fallLow_reportsOnly (s : State) (vdd : Half) : ReportsOnly s (s.fallLow vdd) :=
  .ite (.ite ((cross_reportsOnly ..).trans (.of_same rfl rfl rfl)) (cross_reportsOnly ..)) (.refl s)

theorem riseNormal_reportsOnly (s : State) (vdd : Half) : ReportsOnly s (s.riseNormal vdd) :=
  .ite (cross_reportsOnly ..) (.refl s)

theorem endWake_reportsOnly (s : State) (w : Wake) (duration : Half) : ReportsOnly s (s.endWake w duration) := by
  have hwoken : ReportsOnly s (s.woken w duration) := (report_keeps ..).reportsOnly.behind rfl rfl rfl
  exact .ite (hwoken.trans (haltEvent_reportsOnly ..)) hwoken

theorem edge_reportsOnly (s : State) : ReportsOnly s s.edge := by
  have hrunning : ReportsOnly s (if s.sup.detection then s.finishWalk.haltEvent .edge
      else { s with sup := { s.sup with edgeMemory := true } }) :=
    .ite ((finishWalk_keeps s).reportsOnly.trans (haltEvent_reportsOnly ..)) (.of_same rfl rfl rfl)
  unfold State.edge
  split
  · exact .refl s
  · exact hrunning
  · exact hrunning
  · exact .ite (.of_same rfl rfl rfl) (.refl s)
  · exact .ite (.of_same rfl rfl rfl) (.refl s)

/-! ### Every command -/

/-- A command that is taken and adds reports alone. -/
theorem runs_of_reportsOnly {s u : State} (h : ReportsOnly s u) : ∃ t, (done u : Result) = .next t ∧ PortKept s t :=
  ⟨u, rfl, h.port⟩

theorem eventRow_port {i : Instr} (hf : requestFrame i = none) (s : State) : ∃ t, exec i s = .next t ∧ PortKept s t := by
  have hbegun : ReportsOnly s s.beginHead := (beginHead_keeps s).reportsOnly
  have hsettled : ReportsOnly s s.settleWalk := (settleWalk_keeps s).reportsOnly
  cases i with
  | unknownRequest => exact unknownRequest_port ..
  | wellFormedFrame => exact ⟨_, rfl, hsettled.port.trans (arrive_port ..)⟩
  | frameSent => exact ⟨_, rfl, hsettled.port.trans (sendFirst_port _)⟩
  | frameDiscard | byteGap => exact runs_of_reportsOnly (.of_same rfl rfl rfl)
  | startByte => exact runs_of_reportsOnly (.ite (.refl s) (.of_same rfl rfl rfl))
  | linkSilenceExpiry =>
    exact runs_of_reportsOnly (.ite ((finishWalk_keeps s).reportsOnly.trans (silenceExpires_reportsOnly _)) (.refl s))
  | audioFrame =>
    refine runs_of_reportsOnly ?_
    split
    · exact .ite (.refl s) (readyFrame_reportsOnly ..)
    · exact .ite (.refl s) (.of_same rfl rfl rfl)
    · exact .refl s
  | tickBoundary now => exact runs_of_reportsOnly (hbegun.trans (takeTick_reportsOnly _ now))
  | countInBegin now => exact runs_of_reportsOnly (hbegun.trans (countInBegins_reportsOnly _ now))
  | countInEnd now => exact runs_of_reportsOnly (hbegun.trans (countInOver_reportsOnly _ now))
  | startInstant now => exact runs_of_reportsOnly (hbegun.trans (startsNow_reportsOnly _ now))
  | pendingTempoApply => exact runs_of_reportsOnly (hsettled.trans (applyDue_keeps _).reportsOnly)
  | cueExecute => exact runs_of_reportsOnly (.ite (cueStep_keeps s).reportsOnly (.refl s))
  | endPendingSeal => exact runs_of_reportsOnly (hsettled.trans (sealDue_keeps ..).reportsOnly)
  | trackLengthEnd => exact runs_of_reportsOnly (hsettled.trans (lengthEndDue_keeps ..).reportsOnly)
  | oneShotSelfMute => exact runs_of_reportsOnly (hsettled.trans (selfMute_keeps ..).reportsOnly)
  | bounceStart => exact runs_of_reportsOnly (hsettled.trans (startHead_keeps _).reportsOnly)
  | bounceIndexBegin => exact runs_of_reportsOnly hbegun
  | bounceIndexFinish => exact runs_of_reportsOnly (hsettled.trans (finishHead_keeps _).reportsOnly)
  | sceneCountdownEnd | dueSceneApply =>
    exact runs_of_reportsOnly (.ite (takeSceneStep_keeps s).reportsOnly (.refl s))
  | clickEnd | haltLineInactive => exact runs_of_reportsOnly (.ite (.of_same rfl rfl rfl) (.refl s))
  | toneLoad | waveformFlip =>
    refine runs_of_reportsOnly ?_
    repeat' split
    all_goals exact .of_same rfl rfl rfl
  | toneEntryEnd => exact runs_of_reportsOnly (hsettled.trans (entryEnd_keeps _).reportsOnly)
  | power | brown | pin => exact ⟨_, rfl, startReset_port ..⟩
  | requestWarm | requestCold => exact ⟨_, rfl, .ite (startReset_port ..) (.refl s)⟩
  | coldResetEnd => exact ⟨_, rfl, .ite (coldValues_port ..) (.refl s)⟩
  | warmResetEnd => exact ⟨_, rfl, .ite (endWarm_port s) (.refl s)⟩
  | verifyVisitEnd =>
    refine runs_of_reportsOnly ?_
    split
    · exact .refl s
    · exact .ite (visitEnd_reportsOnly ..) (.refl s)
  | supplyLow => exact runs_of_reportsOnly (hsettled.trans (fallLow_reportsOnly ..))
  | supplyOk => exact runs_of_reportsOnly (hsettled.trans (riseNormal_reportsOnly ..))
  | wakeEnd =>
    refine runs_of_reportsOnly ?_
    split
    · exact .refl s
    · exact .ite (endWake_reportsOnly ..) (.refl s)
  | haltEdge => exact runs_of_reportsOnly (.ite (.refl s) ((edge_reportsOnly _).behind rfl rfl rfl))
  | _ => cases hf

/-- Every command answers a next state, leaves the commands that wait, and keeps the link port's limits. -/
theorem exec_port (i : Instr) (s : State) : ∃ t, exec i s = .next t ∧ PortKept s t := by
  cases hf : requestFrame i with
  | none => exact eventRow_port hf s
  | some f => exact requestRow_port hf s

/-- Settles O6, by the command at the front of the queue. -/
theorem linkLimitsAreKeptByEveryStep : Obligations.LinkLimitsAreKeptByEveryStep := by
  intro s t hs h
  unfold step at h
  split at h
  · cases h
    exact hs
  · next i rest _ =>
    obtain ⟨u, hu, hport⟩ := exec_port i { s with pending := rest }
    obtain rfl : u = t := Host.Outcome.next.inj (hu.symm.trans h)
    exact hport.limits hs

/-- Settles O3: `exec_port` says it of each command. -/
theorem everyCommandRunsAndKeepsTheQueue : Obligations.EveryCommandRunsAndKeepsTheQueue := fun i s => by
  obtain ⟨t, ht, hport⟩ := exec_port i s
  exact ⟨t, ht, hport.pending⟩

end Sys2Proof.Machine
end

