-- ==== Sys2Proof/Proofs/RequestReplies.lean ====
section
/-! The taking of a request, and the replies to every request row: BAD_LENGTH, UNKNOWN, and a payload of the catalogue's length
(R183, R184, R185, R188, R189, R192). -/

namespace Sys2Proof.Machine

/-! ### The taking of a request (R185, R188) -/

theorem arriveNow_finishWalk {s : State} (hwalk : s.bnd.walk = none) (hstep : s.bnd.sceneStep = none)
    (hbegin : s.beginIsDue = false) : s.arriveNow.finishWalk = s.arriveNow := by
  rw [arriveNow_fields]
  exact finishWalk_idle hbegin hwalk hstep

/-- A request sees the frees behind the claims of the frame taken, and the place of what is freed next kept (R97, R100). -/
theorem Pool.seen_some {p : Pool} {n : Nat} (h : p.behind = some n) : p.seen = freesTaken p (some 0) := by
  unfold Pool.seen Pool.takeBehind Pool.arm freesTaken
  rw [h]
  simp

/-- Settles O10: with nothing to finish, the pool is what the request sees of it, by `Pool.seen_none` and `Pool.seen_some`. -/
theorem requestTakenChangesOnlyTheLink : Obligations.RequestTakenChangesOnlyTheLink := by
  intro s hwalk hstep hbegin taken
  have htaken : s.takeRequest = { taken with pool := s.pool.seen } := by
    unfold State.takeRequest
    rw [arriveNow_finishWalk hwalk hstep hbegin, arriveNow_fields]
  refine ⟨fun h => ?_, fun n h => ?_⟩
  · rw [htaken, Pool.seen_none h]
  · rw [htaken, Pool.seen_some h]

/-! ### A KIND or a LEN that the catalogue does not give (R184, R189) -/

theorem execUnknownRequest_answers {s : State} {kind tag : Byte} {p : List Byte} (hk : kind.toNat < 0x80)
    (hc : s.canTake { kind := kind, tag := tag, payload := p } = true) (hl : catalogueLength kind ≠ some p.length) :
    execUnknownRequest kind tag p s
      = .next (s.takeRequest.reply kind tag [if catalogueLength kind = none then 2 else 1]) := by
  have hhost : hostKind kind = true := decide_eq_true hk
  unfold execUnknownRequest
  rw [if_neg (by simp [hc, hhost, hl])]
  cases catalogueLength kind <;> rfl

/-- Settles O11: a row serves its frame, by `requestRow_serves`, and a wrong length by `serve_badLength`. -/
theorem wrongLengthsAndUnknownKindsAreAnswered : Obligations.WrongLengthsAndUnknownKindsAreAnswered := by
  refine ⟨fun i f s hf hw hc hl => ?_, fun kind tag p s hk hc hl => execUnknownRequest_answers hk hc hl⟩
  obtain ⟨others, owner, h⟩ := requestRow_serves hf s
  rw [h.runs, serve_badLength hc (h.spelled hw) hl]

/-! ### The reply's length (R189) -/

/-- A request that is served is answered behind all that is queued, by its owner's payload. -/
theorem serve_replies {kind tag : Byte} {others p : List Byte} {owner : Owner} {s : State}
    (hc : s.canTake { kind := kind, tag := tag, payload := p } = true) (hs : firstByteNot others p = true)
    (hl : catalogueLength kind = some p.length) (ho : AnswersLength kind owner) :
    ∃ q, (serve kind others tag p owner s).link.tx.getLast? = some { kind := kind + 0x80, tag := tag, payload := q }
      ∧ q.length = replyLength kind := by
  rw [serve_taken hc (spellsOther_eq_false hs) hl]
  exact ⟨_, List.getLast?_concat .., ho _ _ hl⟩

/-- Settles O12: each row's owner answers a payload of the catalogue's length. -/
theorem repliesHaveTheCatalogueLength : Obligations.RepliesHaveTheCatalogueLength := by
  intro i f s hf hw hc hl
  have answered : ∀ {kind tag : Byte} {p others : List Byte} {owner : Owner}, some ⟨kind, tag, p⟩ = some f →
      exec i s = .next (serve kind others tag p owner s) → firstByteNot others p = true → AnswersLength kind owner →
      ∃ t q, exec i s = .next t ∧ t.link.tx.getLast? = some { kind := f.kind + 0x80, tag := f.tag, payload := q }
        ∧ q.length = replyLength f.kind := by
    rintro kind tag p others owner ⟨⟩ hruns hs ho
    obtain ⟨q, hq⟩ := serve_replies hc hs hl ho
    exact ⟨_, q, hruns, hq⟩
  have alone : ∀ p, firstByteNot [] p = true := firstByteNot_nil
  have among : ∀ {p others : List Byte}, (payloadFits p && firstByteNot others p) = true → firstByteNot others p = true :=
    fun h => (Bool.and_eq_true_iff.1 h).2
  cases i with
  | getStatus => exact answered hf rfl (alone _) (ownGetStatus_length _)
  | resetCauseRead => exact answered hf rfl (among hw) ownResetCauseRead_length
  | resetCauseReadAndClear => exact answered hf rfl (among hw) ownResetCauseReadAndClear_length
  | restartWarm | restartCold => exact answered hf rfl (among hw) (ownRestart_length _)
  | standby => exact answered hf rfl (alone _) ownStandby_length
  | linkConfigRead => exact answered hf rfl (among hw) ownLinkConfigRead_length
  | linkConfigWrite => exact answered hf rfl (among hw) ownLinkConfigWrite_length
  | supplyConfigRead => exact answered hf rfl (among hw) (ownSupplyConfigRead_length _)
  | supplyConfigWrite => exact answered hf rfl (among hw) (ownSupplyConfigWrite_length _)
  | haltConfigRead => exact answered hf rfl (among hw) ownHaltConfigRead_length
  | haltConfigWrite => exact answered hf rfl (among hw) ownHaltConfigWrite_length
  | haltClear => exact answered hf rfl (alone _) ownHaltClear_length
  | setTempo => exact answered hf rfl (alone _) ownSetTempo_length
  | tap => exact answered hf rfl (alone _) ownTap_length
  | start => exact answered hf rfl (alone _) ownStart_length
  | stop => exact answered hf rfl (alone _) ownStop_length
  | getPosition => exact answered hf rfl (alone _) ownGetPosition_length
  | cue => exact answered hf rfl (alone _) ownCue_length
  | cancelCueById => exact answered hf rfl (among hw) ownCancelCueById_length
  | cancelCueByTrack => exact answered hf rfl (among hw) ownCancelCueByTrack_length
  | cancelCueAll => exact answered hf rfl (among hw) ownCancelCueAll_length
  | listCues => exact answered hf rfl (alone _) ownListCues_length
  | trackConfig => exact answered hf rfl (alone _) ownTrackConfig_length
  | trackInfo => exact answered hf rfl (alone _) ownTrackInfo_length
  | layerInfo => exact answered hf rfl (alone _) ownLayerInfo_length
  | layerMap => exact answered hf rfl (alone _) ownLayerMap_length
  | setLevel => exact answered hf rfl (alone _) ownSetLevel_length
  | poolInfo => exact answered hf rfl (alone _) ownPoolInfo_length
  | clearAll => exact answered hf rfl (alone _) ownClearAll_length
  | bounce => exact answered hf rfl (alone _) ownBounce_length
  | cancelBounceById => exact answered hf rfl (among hw) ownCancelBounceById_length
  | cancelBounceAll => exact answered hf rfl (among hw) ownCancelBounceAll_length
  | bounceInfo => exact answered hf rfl (alone _) ownBounceInfo_length
  | foldConfig => exact answered hf rfl (alone _) ownFoldConfig_length
  | sceneWrite => exact answered hf rfl (alone _) ownSceneWrite_length
  | sceneRead => exact answered hf rfl (alone _) ownSceneRead_length
  | sceneNextSet => exact answered hf rfl (among hw) ownSceneNextSet_length
  | sceneNextEmpty => exact answered hf rfl (among hw) ownSceneNextEmpty_length
  | sceneStop => exact answered hf rfl (alone _) ownSceneStop_length
  | clickConfigRead => exact answered hf rfl (among hw) ownClickConfigRead_length
  | clickConfigWrite => exact answered hf rfl (among hw) ownClickConfigWrite_length
  | tones => exact answered hf rfl (alone _) ownTones_length
  | toneFlush => exact answered hf rfl (alone _) ownToneFlush_length
  | monitorConfigRead => exact answered hf rfl (among hw) ownMonitorConfigRead_length
  | monitorConfigWrite => exact answered hf rfl (among hw) ownMonitorConfigWrite_length
  | _ => cases hf

end Sys2Proof.Machine
end

