-- ==== Sys2Proof/Proofs/StatusRequests.lean ====
section
/-! GET_STATUS, RESET_CAUSE_READ, RESET_CAUSE_READ_AND_CLEAR, GET_POSITION and POOL_INFO (R44, R103, R169, R188, R190). -/

namespace Sys2Proof.Machine

/-! ### The rows -/

section
variable {s : State} {tag : Byte}

/-- GetStatus shows the autopilot flag that its own taking clears (R190; log 43). -/
theorem exec_getStatus (h : s.canTake { kind := 0x01, tag := tag, payload := [] } = true) :
    exec (.getStatus tag []) s
      = .next (State.reply { s.takeRequest with link := { s.takeRequest.link with lost := false } } 0x01 tag
          (0 :: s.takeRequest.statusBytes s.link.autopilot)) :=
  congrArg Host.Outcome.next (serve_taken h rfl rfl)

theorem exec_resetCauseRead (h : s.canTake { kind := 0x02, tag := tag, payload := [0] } = true) :
    exec (.resetCauseRead tag [0]) s = .next (s.takeRequest.reply 0x02 tag [0, s.takeRequest.sup.causes.byte]) :=
  congrArg Host.Outcome.next (serve_taken h rfl rfl)

theorem exec_resetCauseReadAndClear (h : s.canTake { kind := 0x02, tag := tag, payload := [1] } = true) :
    exec (.resetCauseReadAndClear tag [1]) s
      = .next (State.reply { s.takeRequest with sup := { s.takeRequest.sup with causes := CauseSet.empty } } 0x02 tag
          [0, s.takeRequest.sup.causes.byte]) :=
  congrArg Host.Outcome.next (serve_taken h rfl rfl)

theorem exec_getPosition (h : s.canTake { kind := 0x14, tag := tag, payload := [] } = true) :
    exec (.getPosition tag []) s = .next (s.takeRequest.reply 0x14 tag (0 :: s.takeRequest.positionBytes)) :=
  congrArg Host.Outcome.next (serve_taken h rfl rfl)

theorem exec_poolInfo (h : s.canTake { kind := 0x25, tag := tag, payload := [] } = true) :
    exec (.poolInfo tag []) s = .next (s.takeRequest.reply 0x25 tag (0 :: s.takeRequest.poolBytes)) :=
  congrArg Host.Outcome.next (serve_taken h rfl rfl)

end

/-! ### The fields -/

/-- A block's number in a field, 0xFFFF where there is none (R103). -/
theorem optBlockBytes_eq (b : Option BlockId) : optBlockBytes b = (b.map fun b => le2 b.val).getD [0xFF, 0xFF] :=
  mapEntryBytes_eq b

/-- Settles O14: each row is its owner's answer, which reads the state in which the request is carried out; the supervisor is
as it stood (`takeRequest_sup`). -/
theorem statusPositionAndPoolAreAnswered : Obligations.StatusPositionAndPoolAreAnswered := by
  refine ⟨⟨fun s tag h => ?_, fun s tag => ⟨fun h => ?_, fun h => ?_⟩⟩, fun s tag => ⟨fun h => ?_, fun h => ?_⟩⟩
  · rw [exec_getStatus h]
    rfl
  · rw [exec_resetCauseRead h, takeRequest_sup]
  · rw [exec_resetCauseReadAndClear h, takeRequest_sup]
  · rw [exec_getPosition h]
    rfl
  · rw [exec_poolInfo h]
    unfold State.poolBytes
    simp only [optBlockBytes_eq]
    rfl

end Sys2Proof.Machine
end

section
/-! One step by its queue: a command at the front is run, and an empty queue idles (log 25). -/

namespace Sys2Proof.Machine

/-- Settles O1: the queue's form selects the branch of the step that runs the front command. -/
theorem stepRunsTheFrontCommand : Obligations.StepRunsTheFrontCommand := by
  intro s c rest front
  unfold step
  rw [front]

/-- Settles O2: the empty queue selects the branch of the step that idles (log 25). -/
theorem emptyQueueLeavesTheState : Obligations.EmptyQueueLeavesTheState := by
  intro s empty
  unfold step
  rw [empty]

end Sys2Proof.Machine
end

