-- ==== Sys2Proof/Proofs/RedoDrops.lean ====
section
/-! The discard of a redo list: its track, the voices, the free list, L, and the reports in their order (R6, R9, R35, R70,
R88, R134). -/

namespace Sys2Proof.Machine

/-! ### Frees and the reports they stand between -/

/-- Two states form the same reports: they agree in the supervisor, the bar clock and the link port. -/
structure ReportsAlike (s u : State) : Prop where
  sup : u.sup = s.sup
  clock : u.clock = s.clock
  link : u.link = s.link

theorem ReportsAlike.refl (s : State) : ReportsAlike s s := ⟨rfl, rfl, rfl⟩

theorem ReportsAlike.trans {s t u : State} (h : ReportsAlike s t) (k : ReportsAlike t u) : ReportsAlike s u :=
  ⟨k.sup.trans h.sup, k.clock.trans h.clock, k.link.trans h.link⟩

theorem ReportsAlike.report {s u : State} (h : ReportsAlike s u) (r : Report) (p : List Byte) :
    ReportsAlike (s.report r p) (u.report r p) where
  sup := by rw [State.report_sup, State.report_sup, h.sup]
  clock := by rw [State.report_clock, State.report_clock, h.clock]
  link := State.report_link_congr r p h.sup h.link h.clock

/-- The blocks that the map of a layer record names. -/
def State.namesOf (s : State) (x : LayerId) : List BlockId := namedBlocks (((s.layer x).map (·.map)).getD [])

theorem namesOf_some {s : State} {x : LayerId} {l : Layer} (h : s.layer x = some l) : s.namesOf x = namedBlocks l.map := by
  unfold State.namesOf; rw [h]; rfl

theorem namesOf_none {s : State} {x : LayerId} (h : s.layer x = none) : s.namesOf x = [] := by
  unfold State.namesOf; rw [h]; rfl

theorem namesOf_congr {s u : State} {x : LayerId} (h : u.layer x = s.layer x) : u.namesOf x = s.namesOf x := by
  unfold State.namesOf; rw [h]

theorem blocksOf_eq_namesOf (s : State) (x : LayerId) : s.blocksOf x = (s.namesOf x).length := by
  unfold State.blocksOf State.namesOf
  cases s.layer x <;> rfl

/-- A free that leaves a record in use, or that finds L absent, forms no report and leaves the clock (R35). -/
theorem freeLayer_alike {s : State} {x : LayerId} (h : s.clock.loop = none ∨ ∃ y, y ≠ x ∧ s.layer y ≠ none) :
    ReportsAlike s (s.freeLayer x) := by
  cases hx : s.layer x with
  | none => rw [freeLayer_none hx]; exact ReportsAlike.refl s
  | some l =>
    rw [freeLayer_some hx]
    split
    · next hu =>
      rcases h with hloop | ⟨y, hne, hy⟩
      · rw [clearLoop_none (s := s.dropped x l) hloop]
        exact ⟨rfl, rfl, rfl⟩
      · have hgone := State.inUse_eq_nil.1 hu y
        rw [layer_dropped, if_neg hne] at hgone
        exact absurd hgone hy
    · exact ⟨rfl, rfl, rfl⟩

/-- The free of the last record in use clears L, with LOOP_SET (R35). -/
theorem freeLayer_last {s : State} {x : LayerId} (hx : s.layer x ≠ none) (hlast : ∀ y, y ≠ x → s.layer y = none)
    (hloop : s.clock.loop ≠ none) :
    (s.freeLayer x).clock
        = { s.clock with loop := none, bar := 0, loopPos := s.clock.loopPos % (s.clock.b * 48 * s.clock.p) }
      ∧ (s.freeLayer x).link = (s.report .loopSet [0, 0, 0, 0, 0, 0]).link
      ∧ (s.freeLayer x).sup = s.sup := by
  obtain ⟨l, hl⟩ := Option.ne_none_iff_exists'.1 hx
  obtain ⟨n, hn⟩ := Option.ne_none_iff_exists'.1 hloop
  have hnone : (s.dropped x l).inUse = [] := State.inUse_eq_nil.2 fun y => by
    rw [layer_dropped]
    split
    · rfl
    · next hy => exact hlast y hy
  have hclear : (s.dropped x l).clearLoop = State.reportLoop
      { s.dropped x l with
        clock := { s.clock with loop := none, bar := 0, loopPos := s.clock.loopPos % s.clock.barFrames } } := by
    unfold State.clearLoop
    rw [show (s.dropped x l).clock.loop = some n from hn]
    rfl
  have hfields : le4 (0 * (s.clock.b * 48 * s.clock.p)) = [0, 0, 0, 0] := by rw [Nat.zero_mul]; rfl
  refine ⟨?_, ?_, (freeLayer_freesOnly s x).sup⟩
  · rw [freeLayer_some hl, if_pos hnone, hclear, State.reportLoop, State.report_clock]
    rfl
  · rw [freeLayer_some hl, if_pos hnone, hclear]
    refine (congrArg (fun p => (State.report _ .loopSet (_ ++ p)).link) hfields).trans ?_
    exact reportWith_link_congr _ _ _ rfl rfl

/-! ### What a fold of frees leaves of the pool and the voices -/

section
variable {f : State → LayerId → State} (hf : FreesEach f)
include hf

/-- The blocks of every freed layer are FREE (R93). -/
theorem FreesEach.foldl_entry_freed {b : BlockId} {x : LayerId} (l : List LayerId) (s : State) (hx : x ∈ l)
    (hb : b ∈ s.namesOf x) : (l.foldl f s).pool.entry b = none := by
  have hkeep : ∀ (u : State) (y : LayerId), u.pool.entry b = none → (f u y).pool.entry b = none := fun u y hu => by
    rw [hf.pool]
    cases hy : u.layer y with
    | none => rw [freeLayer_none hy]; exact hu
    | some m => rw [pool_freeLayer hy, Pool.entry_release, hu, ite_self]
  have hfree : ∀ u : State, u.layer x = s.layer x → (f u x).pool.entry b = none := fun u hu => by
    rw [hf.pool]
    cases hl : s.layer x with
    | none => rw [namesOf_none hl] at hb; exact absurd hb List.not_mem_nil
    | some m => rw [pool_freeLayer (hu.trans hl), Pool.entry_release, if_pos (namesOf_some hl ▸ hb)]
  refine foldl_reaches (I := fun u => u.layer x = s.layer x ∨ u.pool.entry b = none)
    (P := fun u => u.pool.entry b = none) (x := x) (fun u y hu => ?_) (fun u hu => ?_) (fun u y _ => hkeep u y) l hx s
    (Or.inl rfl)
  · by_cases e : x = y
    · subst e
      exact Or.inr (hu.elim (hfree u) (hkeep u x))
    · rw [hf.layer, if_neg e]
      exact hu.imp_right (hkeep u y)
  · exact hu.elim (hfree u) (hkeep u x)

/-- The frees of layers in use drop their voices, one after another (R134). -/
theorem FreesEach.foldl_mix (l : List LayerId) (hl : l.Nodup) (s : State) (h : ∀ x ∈ l, s.layer x ≠ none) :
    (l.foldl f s).mix = l.foldl Mix.drop s.mix := by
  induction l generalizing s with
  | nil => rfl
  | cons x l ih =>
    obtain ⟨hx, hl⟩ := List.nodup_cons.1 hl
    obtain ⟨m, hm⟩ := Option.ne_none_iff_exists'.1 (h x List.mem_cons_self)
    rw [List.foldl_cons, List.foldl_cons, ih hl, hf.mix, mix_freeLayer hm]
    intro y hy
    rw [hf.layer, if_neg fun e : y = x => hx (e ▸ hy)]
    exact h y (List.mem_cons_of_mem _ hy)

/-- The track of a redo list behind its discard: the list is empty, and the span goes where nothing else needs it (R9). -/
theorem FreesEach.foldl_redo_track {t : TrackId} (l : List LayerId) (hne : l ≠ []) (hl : l.Nodup) (s : State)
    (hredo : (s.track t).redo = l) (h : ∀ x ∈ l, (s.layer x).map (·.track) = some t ∧ x ∉ (s.track t).stack) :
    (l.foldl f s).track t = Track.trimmed { s.track t with redo := [] } := by
  induction l generalizing s with
  | nil => exact absurd rfl hne
  | cons x l ih =>
    obtain ⟨hx, hl⟩ := List.nodup_cons.1 hl
    obtain ⟨hown, hoff⟩ := h x List.mem_cons_self
    obtain ⟨m, hm, hmt⟩ := Option.map_eq_some_iff.1 hown
    have hwithout : (s.track t).without x = { s.track t with redo := l } := by
      have hstack : (s.track t).stack.filter (fun y => decide (y ≠ x)) = (s.track t).stack :=
        List.filter_eq_self.2 fun y hy => by simpa using fun e : y = x => hoff (e ▸ hy)
      have hrest : (x :: l).filter (fun y => decide (y ≠ x)) = l := by
        rw [List.filter_cons_of_neg (by simp)]
        exact List.filter_eq_self.2 fun y hy => by simpa using fun e : y = x => hx (e ▸ hy)
      unfold Track.without
      rw [hstack, hredo, hrest]
    have htrack : (f s x).track t = Track.trimmed { s.track t with redo := l } := by
      rw [State.track_congr (hf.tracks s x), track_freeLayer hm, if_pos hmt.symm, hwithout]
    cases l with
    | nil => exact htrack
    | cons y l =>
      have hkept : (f s x).track t = { s.track t with redo := y :: l } := htrack.trans (if_neg (by simp))
      rw [List.foldl_cons, ih (by simp) hl (f s x) (by rw [hkept]) fun z hz => ?_, hkept]
      rw [hf.layer, if_neg fun e : z = x => hx (e ▸ hz), hkept]
      exact h z (List.mem_cons_of_mem _ hz)

end

/-- The voices and the wait list with some layers dropped. -/
theorem Mix.foldl_drop_eq (l : List LayerId) (m : Mix) :
    l.foldl Mix.drop m = { m with
      voices := m.voices.map (Option.filter fun x => decide (x ∉ l))
      wait := m.wait.filter fun w => decide (w.layer ∉ l) } := by
  induction l generalizing m with
  | nil =>
    have hv : m.voices.map (Option.filter fun x => decide (x ∉ ([] : List LayerId))) = m.voices :=
      Vector.ext fun i hi => by rw [Vector.getElem_map]; cases m.voices[i] <;> simp
    rw [hv]
    simp
  | cons x l ih =>
    have hv : (m.voices.map fun v => if v = some x then none else v).map (Option.filter fun y => decide (y ∉ l))
        = m.voices.map (Option.filter fun y => decide (y ∉ x :: l)) := Vector.ext fun i hi => by
      rw [Vector.getElem_map, Vector.getElem_map, Vector.getElem_map]
      cases m.voices[i] with
      | none => rfl
      | some y =>
        by_cases e : y = x
        · simp [e, Option.filter]
        · simp [e, Option.filter]
    have hw : (m.wait.filter fun w => decide (w.layer ≠ x)).filter (fun w => decide (w.layer ∉ l))
        = m.wait.filter fun w => decide (w.layer ∉ x :: l) := by
      rw [List.filter_filter]
      exact List.filter_congr fun w _ => by rw [Bool.eq_iff_iff]; simp [and_comm]
    rw [List.foldl_cons, ih]
    unfold Mix.drop
    dsimp only
    rw [hv, hw]

/-! ### The reports of a discard (R88) -/

/-- LAYER_DISCARDED (REDO_DROPPED) of a layer as it stands in s, formed in w. -/
def redoDropReported (s : State) (t : TrackId) (w : State) (x : LayerId) : State :=
  w.reportDiscard t x .redoDropped (s.blocksOf x)

theorem redoDropReported_eq (s : State) (t : TrackId) (w : State) (x : LayerId) : redoDropReported s t w x
    = w.report .layerDiscarded ([byte t.val, byte x.val, 4] ++ le2 (s.namesOf x).length) := by
  rw [← blocksOf_eq_namesOf]; rfl

/-- The discard of layers that leaves another record in use, or finds L absent: the reports alone, in order. -/
theorem discards_alike {s : State} {t : TrackId} (l : List LayerId) (hl : l.Nodup) {u w : State}
    (hlayer : ∀ x ∈ l, w.layer x = s.layer x) (hc : w.clock.loop = none ∨ ∃ y, y ∉ l ∧ w.layer y ≠ none)
    (h : ReportsAlike u w) :
    ReportsAlike (l.foldl (redoDropReported s t) u) (l.foldl (fun w x => w.discardLayer t x .redoDropped) w) := by
  induction l generalizing u w with
  | nil => exact h
  | cons x l ih =>
    obtain ⟨hx, hl⟩ := List.nodup_cons.1 hl
    have hblocks : w.blocksOf x = s.blocksOf x := by
      rw [blocksOf_eq_namesOf, blocksOf_eq_namesOf, namesOf_congr (hlayer x List.mem_cons_self)]
    have hfree : ReportsAlike w (w.freeLayer x) := freeLayer_alike <| hc.imp_right fun ⟨y, hy, hin⟩ =>
      ⟨y, fun e => hy (e ▸ List.mem_cons_self), hin⟩
    have hstep : ReportsAlike (redoDropReported s t u x) (w.discardLayer t x .redoDropped) := by
      unfold redoDropReported State.discardLayer State.reportDiscard
      rw [hblocks]
      exact (h.trans hfree).report ..
    have hfe := freesEach_discardLayer t .redoDropped
    refine ih hl (fun y hy => ?_) ?_ hstep
    · exact (hfe.layer w x y).trans ((if_neg fun e : y = x => hx (e ▸ hy)).trans (hlayer y (List.mem_cons_of_mem _ hy)))
    · refine hc.imp (fun hnone => ?_) fun ⟨y, hy, hin⟩ => ⟨y, fun e => hy (List.mem_cons_of_mem _ e), ?_⟩
      · exact (discardLayer_loopFollows ..).absent hnone
      · rw [hfe.layer, if_neg fun e : y = x => hy (e ▸ List.mem_cons_self)]
        exact hin

/-- The discard that frees the last record in use: L is cleared with it, and LOOP_SET comes ahead of its report. -/
theorem discards_last {s : State} {t : TrackId} {before : List LayerId} {x : LayerId} (hl : (before ++ [x]).Nodup)
    (hx : s.layer x ≠ none) (hloop : s.clock.loop ≠ none) (hlast : ∀ y, s.layer y ≠ none → y ∈ before ++ [x]) :
    let v := (before ++ [x]).foldl (fun w x => w.discardLayer t x .redoDropped) s
    v.clock = { s.clock with loop := none, bar := 0, loopPos := s.clock.loopPos % (s.clock.b * 48 * s.clock.p) }
      ∧ v.link
        = (redoDropReported s t ((before.foldl (redoDropReported s t) s).report .loopSet [0, 0, 0, 0, 0, 0]) x).link := by
  obtain ⟨hbefore, -, hapart⟩ := List.nodup_append.1 hl
  have hnot : x ∉ before := fun hmem => hapart x hmem x (List.mem_singleton.2 rfl) rfl
  have halike := discards_alike (t := t) before hbefore (fun _ _ => rfl) (.inr ⟨x, hnot, hx⟩) (.refl s)
  have hlayer := (freesEach_discardLayer t .redoDropped).foldl_layer before s
  rw [List.foldl_append, List.foldl_cons, List.foldl_nil]
  generalize before.foldl (fun w x => w.discardLayer t x .redoDropped) s = w at halike hlayer ⊢
  have hclock : w.clock = s.clock := halike.clock.trans <|
    foldl_invariant (I := fun u => u.clock = s.clock) (fun u y hu => (State.report_clock ..).trans hu) before s rfl
  have hxw : w.layer x = s.layer x := by rw [hlayer, if_neg hnot]
  obtain ⟨hcleared, hset, hsup⟩ := freeLayer_last (s := w) (hxw ▸ hx)
    (fun y hy => by
      rw [hlayer]
      split
      · rfl
      · next hmem =>
        by_contra hin
        exact (List.mem_append.1 (hlast y hin)).elim hmem fun e => hy (List.mem_singleton.1 e))
    (hclock ▸ hloop)
  have hlink : (w.report .loopSet [0, 0, 0, 0, 0, 0]).link
      = ((before.foldl (redoDropReported s t) s).report .loopSet [0, 0, 0, 0, 0, 0]).link := (halike.report ..).link
  refine ⟨?_, ?_⟩
  · unfold State.discardLayer State.reportDiscard
    rw [State.report_clock, hcleared, hclock]
  · unfold redoDropReported State.discardLayer State.reportDiscard
    rw [blocksOf_eq_namesOf, blocksOf_eq_namesOf, namesOf_congr hxw]
    have hheader : (w.freeLayer x).header
        = ((before.foldl (redoDropReported s t) s).report .loopSet [0, 0, 0, 0, 0, 0]).header := by
      unfold State.header
      rw [hcleared, State.report_clock, ← halike.clock]
    unfold State.report
    rw [hheader]
    exact reportWith_link_congr _ _ _ (hsup.trans (halike.sup.trans (State.report_sup ..).symm)) (hset.trans hlink)

/-! ### The redo list (R70, R73) -/

theorem exists_inUse_of_not_forall {s : State} {l : List LayerId} (h : ¬∀ y, s.layer y ≠ none → y ∈ l) :
    ∃ y, y ∉ l ∧ s.layer y ≠ none :=
  let ⟨y, hy⟩ := not_forall.1 h
  ⟨y, (Classical.not_imp.1 hy).symm⟩

/-- Where a record in use is not on the redo list, it stays in use, and the bar clock stays with it (R35). -/
theorem discardRedo_clock {s : State} {t : TrackId} (h : ¬∀ y, s.layer y ≠ none → y ∈ (s.track t).redo) :
    (s.discardRedo t).clock = s.clock := by
  obtain ⟨y, hoff, hy⟩ := exists_inUse_of_not_forall h
  refine (LoopFollows.foldl (fun w x => discardLayer_loopFollows w t x .redoDropped) _ s).kept fun e => hy ?_
  have hgone := State.inUse_eq_nil.1 e y
  rwa [(freesEach_discardLayer t .redoDropped).foldl_layer, if_neg hoff] at hgone

theorem redoDropReported_dropped (s : State) (t : TrackId) : redoDropReported s t = fun w x =>
    w.report .layerDiscarded
      ([byte t.val, byte x.val, 4] ++ le2 (namedBlocks (((s.layer x).map (·.map)).getD [])).length) :=
  funext fun w => funext fun x => redoDropReported_eq s t w x

theorem discardRedo_freesOnly (s : State) (t : TrackId) : FreesOnly s (s.discardRedo t) :=
  FreesOnly.foldl (fun s x => discardLayer_freesOnly s t x _) _ s

/-- The discard of a redo list, whatever the state: `discardRedo_discarded` for the tables, `discards_alike` and
`discards_last` for L and the reports. -/
theorem discardRedo_drops (s : State) (t : TrackId) : RedoDropped s (s.discardRedo t) t := by
  have hf := freesEach_discardLayer t .redoDropped
  have hfrees := discardRedo_freesOnly s t
  unfold RedoDropped
  intro redo blocks emptied dropped last
  have hdropped : dropped = redoDropReported s t := (redoDropReported_dropped s t).symm
  refine ⟨fun hnil => ?_, hfrees.head0, hfrees.head1, hfrees.mem, hfrees.bounce, hfrees.cues, hfrees.sup, hfrees.scenes,
    hfrees.tones, hfrees.bnd, discardRedo_clock, fun hne hnodup hown => ?_⟩
  · unfold State.discardRedo
    rw [show (s.track t).redo = [] from hnil]
    rfl
  · have hin : ∀ x ∈ redo, s.layer x ≠ none := fun x hx e => by
      have htrack := (hown x hx).1
      rw [e] at htrack
      exact absurd htrack (by simp)
    refine ⟨?_, (discardRedo_discarded hown).other, hf.foldl_layer redo s, hf.foldl_free redo hnodup s, fun b hb => ?_, ?_,
      fun hc => ?_, fun hloop hlast => ?_⟩
    · refine (hf.foldl_redo_track redo hne hnodup s rfl hown).trans ?_
      unfold Track.trimmed
      exact if_congr (by simp) rfl rfl
    · obtain ⟨x, hx, hbx⟩ := List.mem_flatMap.1 hb
      exact hf.foldl_entry_freed redo s hx hbx
    · exact (hf.foldl_mix redo hnodup s hin).trans (Mix.foldl_drop_eq redo s.mix)
    · have halike := discards_alike (t := t) redo hnodup (fun _ _ => rfl)
        (hc.imp_right exists_inUse_of_not_forall) (.refl s)
      rw [hdropped]
      refine ⟨halike.clock.trans ?_, halike.link⟩
      exact foldl_invariant (I := fun u => u.clock = s.clock) (fun u y hu => (State.report_clock ..).trans hu) redo s rfl
    · have hends : ∀ before x, redo = before ++ [x] → _ := fun before x e =>
        discards_last (t := t) (e ▸ hnodup) (hin x (by simp [e])) hloop (e ▸ hlast)
      refine ⟨?_, fun before x e => ?_⟩
      · have hcleared := (hends _ _ (List.dropLast_append_getLast hne).symm).1
        rwa [List.dropLast_append_getLast hne] at hcleared
      · rw [hdropped]
        have hreports := (hends before x e).2
        rwa [← e] at hreports

end Sys2Proof.Machine
end

