-- ==== Sys2Proof/Proofs/RecordingStarts.lean ====
section
/-! REC and DUB that pass their checks: the head, the record and the layer they take, and what stays (R4, R68..R73). -/

namespace Sys2Proof.Machine

/-! ### The state in which a recording begins -/

/-- From v to w, with a recording to begin on track t: nothing changes that the recording's layer and head are made of, but
the track's span and pass index and the pending tempo. -/
structure RecordsFrom (v w : State) (t : TrackId) : Prop where
  heads : ∀ j, w.head j = v.head j
  layers : w.layers = v.layers
  track : w.track t = { v.track t with
    span := (w.track t).span, pass := (w.track t).pass, passSet := (w.track t).passSet }
  others : ∀ j, j ≠ t → w.track j = v.track j
  songBar : w.songBarNow = v.songBarNow
  mem : w.mem = v.mem
  pool : w.pool = v.pool
  mix : w.mix = v.mix
  bounce : w.bounce = v.bounce
  cues : w.cues = v.cues
  sup : w.sup = v.sup

theorem RecordsFrom.refl (v : State) (t : TrackId) : RecordsFrom v v t :=
  ⟨fun _ => rfl, rfl, rfl, fun _ _ => rfl, rfl, rfl, rfl, rfl, rfl, rfl, rfl⟩

theorem gainSpan_track (v : State) (t j : TrackId) (span : Span) (pass : Nat) : (v.gainSpan t span pass).track j
    = if j = t then { v.track t with span := some span, pass := pass, passSet := v.loopAhead } else v.track j :=
  State.track_modTrack ..

theorem gainSpan_recordsFrom (v : State) (t : TrackId) (span : Span) (pass : Nat) :
    RecordsFrom v (v.gainSpan t span pass) t where
  heads := (gainSpan_heads ..).head
  layers := rfl
  track := by rw [gainSpan_track, if_pos rfl]
  others j hj := by rw [gainSpan_track, if_neg hj]
  songBar := rfl
  mem := rfl
  pool := rfl
  mix := rfl
  bounce := rfl
  cues := rfl
  sup := rfl

/-- A full pending slot is emptied, with TEMPO; an empty one stays (R38). -/
theorem dropTempo_eq (w : State) : w.dropTempo = { w with
    clock := { w.clock with pendingTempo := none }
    bnd := { w.bnd with tempo := w.bnd.tempo && w.clock.pendingTempo.isNone }
    link := w.dropTempo.link } := by
  unfold State.dropTempo
  split
  · next h =>
    have hclock : { w.clock with pendingTempo := none } = w.clock := by rw [← h]
    rw [h, hclock, Option.isNone_none, Bool.and_true]
  · next p b h =>
    rw [h, Option.isNone_some, Bool.and_false]
    exact State.report_eq ..

theorem RecordsFrom.dropTempo {v w : State} {t : TrackId} (h : RecordsFrom v w t) : RecordsFrom v w.dropTempo t where
  heads j := (State.head_congr (congrArg State.head0 (dropTempo_eq w) :) (congrArg State.head1 (dropTempo_eq w) :) j).trans
    (h.heads j)
  layers := (congrArg State.layers (dropTempo_eq w)).trans h.layers
  track := by rw [State.track_congr (congrArg State.tracks (dropTempo_eq w) :)]; exact h.track
  others j hj := by rw [State.track_congr (congrArg State.tracks (dropTempo_eq w) :)]; exact h.others j hj
  songBar := (congrArg State.songBarNow (dropTempo_eq w)).trans h.songBar
  mem := (congrArg State.mem (dropTempo_eq w)).trans h.mem
  pool := (congrArg State.pool (dropTempo_eq w)).trans h.pool
  mix := (congrArg State.mix (dropTempo_eq w)).trans h.mix
  bounce := (congrArg State.bounce (dropTempo_eq w)).trans h.bounce
  cues := (congrArg State.cues (dropTempo_eq w)).trans h.cues
  sup := (congrArg State.sup (dropTempo_eq w)).trans h.sup

/-! ### The head and the layer (R4, R67, R70) -/

section
variable {v w : State} {h : HeadId} {x : LayerId} {origin : Origin} {map : List (Option BlockId)} {r : Recording}

theorem beginRecording_track (w : State) (h : HeadId) (x : LayerId) (origin : Origin) (map : List (Option BlockId))
    (r : Recording) (j : TrackId) : (w.beginRecording h x origin map r).track j
      = if j = r.track then { w.track j with stack := (w.track j).stack ++ [x] } else w.track j := by
  refine (State.track_congr (State.setHead_tracks ..) j).trans ((State.track_modTrack ..).trans ?_)
  split
  · next e => rw [e]; rfl
  · rfl

theorem beginRecording_span (j : TrackId) :
    ((w.beginRecording h x origin map r).track j).span = (w.track j).span := by
  rw [beginRecording_track]; split <;> rfl

theorem beginRecording_pass (j : TrackId) :
    ((w.beginRecording h x origin map r).track j).pass = (w.track j).pass := by
  rw [beginRecording_track]; split <;> rfl

theorem beginRecording_clock : (w.beginRecording h x origin map r).clock = w.clock := State.setHead_clock ..

theorem beginRecording_bnd : (w.beginRecording h x origin map r).bnd = w.bnd := State.setHead_bnd ..

/-- The head and the layer record are given, and the layer lies on top of the stack. -/
theorem beginRecording_begins (hw : RecordsFrom v w r.track) (hmask : r.mask = (v.track r.track).mask) :
    RecordingBegins v (w.beginRecording h x origin map r) h x r.track origin map r := by
  have hlayer : ∀ y, (w.beginRecording h x origin map r).layer y
      = (w.takeRecord x r.track origin map (some r.mask) []).layer y := fun y =>
    State.layer_congr (State.setHead_layers ..) y
  have htrack := beginRecording_track w h x origin map r
  refine ⟨State.head_setHead_same .., fun j hj => ?_, ?_, ?_, ?_, fun y hy => ?_, fun j hj => ?_,
    (State.setHead_mem ..).trans hw.mem, (State.setHead_pool ..).trans hw.pool, (State.setHead_mix ..).trans hw.mix,
    (State.setHead_bounce ..).trans hw.bounce, (State.setHead_cues ..).trans hw.cues, (State.setHead_sup ..).trans hw.sup⟩
  · exact (State.head_setHead_other _ _ _ _ hj).trans ((State.head_congr rfl rfl j).trans (hw.heads j))
  · rw [htrack, if_pos rfl, hw.track]
  · rw [htrack, if_pos rfl, hw.track]
  · rw [hlayer, ← hmask, ← hw.songBar]
    exact State.layer_setLayer_same ..
  · rw [hlayer]
    exact (State.layer_setLayer_other _ _ _ _ hy).trans (State.layer_congr hw.layers y)
  · rw [htrack, if_neg hj, hw.others j hj]

end

/-! ### The checks (R69, R73) -/

section
variable {s : State} {t : TrackId} {h : HeadId} {x : LayerId}

theorem idleHead_discardRedo (hh : TakesHead s h) : (s.discardRedo t).idleHead = some h := by
  have heads := discardRedo_heads s t
  unfold TakesHead at hh
  exact State.idleHead_eq_some ⟨(heads.head h).trans hh.1, fun e => heads.head0 ▸ hh.2 e⟩

/-- A head that is to be taken is idle. -/
theorem not_heads_busy (hh : TakesHead s h) : ¬(s.head0 ≠ none ∧ s.head1 ≠ none) := fun ⟨h0, h1⟩ => by
  cases h with
  | h0 => exact h0 hh.1
  | h1 => exact h1 hh.1

/-- A record that is FREE behind the discard of the redo list was FREE before, or the list was not empty. -/
theorem not_records_used (hx : TakesRecord (s.discardRedo t) x) :
    ¬((∀ y, s.layer y ≠ none) ∧ (s.track t).redo = []) := fun ⟨hall, hredo⟩ =>
  hall x (((discardRedo_drops s t).1 hredo) ▸ hx.1)

theorem not_low (hsup : (s.sup.low && s.sup.guard) = false) : ¬(s.sup.low = true ∧ s.sup.guard = true) := by
  rw [← Bool.and_eq_true, hsup]
  exact Bool.false_ne_true

theorem recRefusal_none {span : Span} (hsup : (s.sup.low && s.sup.guard) = false) (hh : TakesHead s h)
    (hx : TakesRecord (s.discardRedo t) x) (hstack : (s.track t).stack = []) (hres : (s.track t).reservations = 0)
    (hloop : ¬(s.clock.loop = none ∧ s.definingRuns = true))
    (hlong : ¬((s.clock.loop ≠ none ∧ ∃ x, s.layer x ≠ none ∧ x ∉ (s.track t).redo)
      ∧ 1024 < (span.loops * ((s.clock.loop.getD 0) * (s.clock.b * 48 * s.clock.p)) + 4095) / 4096)) :
    s.recRefusal t span = none := by
  rw [State.recRefusal_eq, if_neg (by simp [hstack, hres]), if_neg hloop, if_neg (not_low hsup),
    if_neg (not_heads_busy hh), if_neg (not_records_used hx), if_neg hlong]

theorem dubRefusal_none (hsup : (s.sup.low && s.sup.guard) = false) (hh : TakesHead s h)
    (hx : TakesRecord (s.discardRedo t) x) (hplay : s.trackState t = .play)
    (hplaces : (s.track t).stack.length + (s.track t).reservations ≠ 6) : s.dubRefusal t = none := by
  rw [State.dubRefusal_eq, if_neg (not_not.2 hplay), if_neg hplaces, if_neg (not_low hsup), if_neg (not_heads_busy hh),
    if_neg (not_records_used hx)]

theorem startRec_eq (span : Span) (bars : Nat) (hh : TakesHead s h) (hx : TakesRecord (s.discardRedo t) x) :
    s.startRec t span bars
      = if s.recDefines t then (s.discardRedo t).startDefining h x t bars
        else (s.discardRedo t).startFixed h x t span := by
  unfold State.startRec
  dsimp only
  rw [idleHead_discardRedo hh, State.freeRecord_eq_some.2 hx]

theorem startDub_eq (chain : Bool) (hh : TakesHead s h) (hx : TakesRecord (s.discardRedo t) x) :
    s.startDub t chain = (s.discardRedo t).beginRecording h x .dub ((s.discardRedo t).fullMap t)
      (newRecording t x .dub ((s.discardRedo t).track t).mask .length chain 0 ((s.discardRedo t).dubStart t)) := by
  unfold State.startDub
  dsimp only
  rw [idleHead_discardRedo hh, State.freeRecord_eq_some.2 hx]

end

/-! ### The starts (R71, R72, R73) -/

/-- A DEFINING recording begins at the present frame of the bar; its track has a span of one loop, and no tempo is
pending. -/
theorem startDefining_begins (v : State) (h : HeadId) (x : LayerId) (t : TrackId) (bars : Nat) :
    let u := v.startDefining h x t bars
    RecordingBegins v u h x t .base (List.replicate (v.clock.loopPos / 4096) none)
        (newRecording t x .defining (v.track t).mask (if bars = 0 then .openEnd else .bars bars) false v.clock.loopPos 0)
      ∧ (u.track t).span = some .one ∧ (u.track t).pass = 0 ∧ u.clock = { v.clock with pendingTempo := none }
      ∧ u.bnd = { v.bnd with tempo := v.bnd.tempo && v.clock.pendingTempo.isNone } := by
  have hw := (gainSpan_recordsFrom v t .one 0).dropTempo
  have hclock : ((v.gainSpan t .one 0).dropTempo).clock = { v.clock with pendingTempo := none } :=
    (congrArg State.clock (dropTempo_eq (v.gainSpan t .one 0)) :)
  have hbnd : ((v.gainSpan t .one 0).dropTempo).bnd
      = { v.bnd with tempo := v.bnd.tempo && v.clock.pendingTempo.isNone } :=
    (congrArg State.bnd (dropTempo_eq (v.gainSpan t .one 0)) :)
  have htrack : ((v.gainSpan t .one 0).dropTempo).track t = (v.gainSpan t .one 0).track t :=
    State.track_congr (congrArg State.tracks (dropTempo_eq (v.gainSpan t .one 0)) :) t
  intro u
  have hu : u = ((v.gainSpan t .one 0).dropTempo).beginRecording h x .base
      (List.replicate (v.clock.loopPos / 4096) none)
      (newRecording t x .defining (v.track t).mask (if bars = 0 then .openEnd else .bars bars) false
        v.clock.loopPos 0) := by
    change State.startDefining v h x t bars = _
    unfold State.startDefining
    dsimp only
    rw [hclock, htrack, gainSpan_track, if_pos rfl]
  rw [hu, beginRecording_span, beginRecording_pass, htrack, gainSpan_track, if_pos rfl]
  exact ⟨beginRecording_begins hw rfl, rfl, rfl, beginRecording_clock.trans hclock, beginRecording_bnd.trans hbnd⟩

/-- A FIXED recording begins with a map SILENT over its span. -/
theorem startFixed_begins (v : State) (h : HeadId) (x : LayerId) (t : TrackId) (span : Span) :
    let u := v.startFixed h x t span
    RecordingBegins v u h x t .base (List.replicate (v.clock.mapLength span) none)
        (newRecording t x .fixed (v.track t).mask .length false 0 v.clock.loopPos)
      ∧ (u.track t).span = some span ∧ (u.track t).pass = 0 ∧ u.clock = v.clock := by
  intro u
  have hu : u = (v.gainSpan t span 0).beginRecording h x .base (List.replicate (v.clock.mapLength span) none)
      (newRecording t x .fixed (v.track t).mask .length false 0 v.clock.loopPos) := by
    change State.startFixed v h x t span = _
    unfold State.startFixed
    dsimp only
    rw [gainSpan_track, if_pos rfl]
    rfl
  rw [hu, beginRecording_span, beginRecording_pass, gainSpan_track, if_pos rfl]
  exact ⟨beginRecording_begins (gainSpan_recordsFrom v t span 0) rfl, rfl, rfl, beginRecording_clock⟩

end Sys2Proof.Machine
end

