-- ==== Sys2Proof/Proofs/AbortsApart.lean ====
section
/-! Bounces aborted whose products lie apart, one after another in queue order: the free list, the voices, the tracks, L
and the reports (R8, R109, R118, R119). -/

namespace Sys2Proof.Machine

/-! ### Entries that run apart (R109) -/

/-- Every entry of the queue runs apart, and none but its head runs. -/
structure QueueApart (s : State) : Prop where
  apart : ∀ e ∈ s.bounce.queue, RunsApart s e
  one : ∀ e ∈ s.bounce.queue.tail, e.run = none

theorem produces_iff {e : Bounce} {x : LayerId} : e.produces x = true ↔ ∃ r, e.run = some r ∧ r.product = x := by
  unfold Bounce.produces
  rw [Option.any_eq_true]
  simp

theorem produces_of_queued {e : Bounce} (h : e.run = none) (x : LayerId) : e.produces x = false := by
  unfold Bounce.produces
  rw [h]
  rfl

theorem productNames_queued {e : Bounce} (s : State) (h : e.run = none) : productNames s e = [] := by
  unfold productNames
  rw [h]
  rfl

theorem productNames_running {e : Bounce} {r : Run} (s : State) (h : e.run = some r) :
    productNames s e = s.namesOf r.product := by
  unfold productNames
  rw [h]
  rfl

/-- What a running entry's product is, and where it is not. -/
theorem RunsApart.product {s : State} {e : Bounce} {x : LayerId} (h : RunsApart s e) (hx : e.produces x = true) :
    (s.layer x).map (·.track) = some e.dest ∧ (∀ k, x ∉ (s.track k).stack ∧ x ∉ (s.track k).redo)
      ∧ ∀ f ∈ s.bounce.queue, x ∉ f.sources := by
  obtain ⟨r, hr, rfl⟩ := produces_iff.1 hx
  exact h r hr

theorem afterAborts_owner {gone : List Bounce} {x : LayerId} (o : Option Layer) (h : ∀ e ∈ gone, e.produces x = false) :
    (afterAborts gone x o).map (·.track) = o.map (·.track) ∧ (afterAborts gone x o).map (·.map) = o.map (·.map) := by
  have hp : ¬gone.any (·.produces x) = true := fun hany => by
    obtain ⟨e, he, hex⟩ := List.any_eq_true.1 hany
    rw [h e he] at hex
    exact Bool.false_ne_true hex
  unfold afterAborts
  rw [if_neg hp]
  split
  · rw [Option.map_map, Option.map_map]
    exact ⟨rfl, rfl⟩
  · exact ⟨rfl, rfl⟩

/-! ### What aborts leave of the rest (R118) -/

/-- From s to t these entries, which run apart, are aborted, the queue and the reports aside. -/
structure AbortsApart (s t : State) (gone : List Bounce) : Prop where
  leaves : AbortsLeave s t gone
  loop : LoopFollows s t
  nextId : t.bounce.nextId = s.bounce.nextId
  threshold : t.bounce.threshold = s.bounce.threshold
  free : t.pool.free = s.pool.free ++ gone.flatMap (productNames s)
  unowned : ∀ b, s.pool.entry b = none ∨ b ∈ gone.flatMap (productNames s) → t.pool.entry b = none
  voices : ∀ y, (∀ e ∈ gone, e.produces y = false) →
    t.mix.voiceOf y = s.mix.voiceOf y ∧ t.mix.waits y = s.mix.waits y
  lists : ∀ k, (t.track k).stack = (s.track k).stack ∧ (t.track k).redo = (s.track k).redo
  other : ∀ k, (∀ e ∈ gone, e.dest ≠ k) → t.track k = s.track k
  spanless : ∀ k, (s.track k).span = none → (t.track k).span = none
  trimmed : ∀ k, (∃ e ∈ gone, e.reserves k = true) → (s.track k).stack = [] → (s.track k).redo = [] →
    (t.track k).reservations = 0 → (t.track k).span = none

theorem AbortsApart.refl (s : State) : AbortsApart s s [] where
  leaves := .refl s
  loop := .refl s
  nextId := rfl
  threshold := rfl
  free := (List.append_nil _).symm
  unowned _ h := h.elim id fun h => absurd h List.not_mem_nil
  voices _ _ := ⟨rfl, rfl⟩
  lists _ := ⟨rfl, rfl⟩
  other _ _ := rfl
  spanless _ h := h
  trimmed _ h := by simp at h

theorem AbortsApart.trans {s t u : State} {as bs : List Bounce} (h : AbortsApart s t as) (k : AbortsApart t u bs)
    (hnames : ∀ e ∈ bs, productNames t e = productNames s e) : AbortsApart s u (as ++ bs) := by
  have hbs : bs.flatMap (productNames t) = bs.flatMap (productNames s) := List.flatMap_congr hnames
  refine ⟨h.leaves.trans k.leaves, h.loop.trans k.loop, k.nextId.trans h.nextId, k.threshold.trans h.threshold, ?_,
    fun b hb => ?_, fun y hy => ?_, fun j => ?_, fun j hj => ?_, fun j hj => k.spanless j (h.spanless j hj),
    fun j hj hstack hredo hres => ?_⟩
  · rw [k.free, h.free, hbs, List.flatMap_append, List.append_assoc]
  · rw [List.flatMap_append, List.mem_append, ← hbs, ← or_assoc] at hb
    exact k.unowned b (hb.imp_left (h.unowned b))
  · obtain ⟨h1, h2⟩ := h.voices y fun e he => hy e (List.mem_append_left _ he)
    obtain ⟨k1, k2⟩ := k.voices y fun e he => hy e (List.mem_append_right _ he)
    exact ⟨k1.trans h1, k2.trans h2⟩
  · exact ⟨(k.lists j).1.trans (h.lists j).1, (k.lists j).2.trans (h.lists j).2⟩
  · rw [k.other j fun e he => hj e (List.mem_append_right _ he), h.other j fun e he => hj e (List.mem_append_left _ he)]
  · by_cases hb : ∃ e ∈ bs, e.reserves j = true
    · exact k.trimmed j hb ((h.lists j).1.trans hstack) ((h.lists j).2.trans hredo) hres
    · have hnone : bs.filter (·.reserves j) = [] := List.filter_eq_nil_iff.2 fun e he hr => hb ⟨e, he, hr⟩
      have hsame : (t.track j).reservations = 0 := by
        have hr := k.leaves.reservations j
        rw [hnone, hres] at hr
        exact hr.symm
      obtain ⟨e, he, hr⟩ := hj
      have ha : e ∈ as := (List.mem_append.1 he).elim id fun hbe => absurd ⟨e, hbe, hr⟩ hb
      exact k.spanless j (h.trimmed j ⟨e, ha, hr⟩ hstack hredo hsame)

/-! ### One abort -/

/-- No record becomes FREE or is taken, and the bar clock stays. -/
theorem loopFollows_of_records {s u : State} (hl : ∀ y, u.layer y = none ↔ s.layer y = none) (hc : u.clock = s.clock) :
    LoopFollows s u where
  frees y := (hl y).2
  absent hs := by rw [hc, hs]
  kept _ := hc
  cleared hs hu := absurd (State.inUse_eq_nil.2 fun y => (hl y).1 (State.inUse_eq_nil.1 hu y)) hs

section
variable {s : State} {e : Bounce} {i : Nat}

theorem freeProduct_queued (h : e.run = none) : s.freeProduct e = s := by
  unfold State.freeProduct
  rw [h]

theorem freeProduct_running {r : Run} (h : e.run = some r) : s.freeProduct e = s.freeLayer r.product := by
  unfold State.freeProduct
  rw [h]

theorem productBlocks_eq (s : State) (e : Bounce) : s.productBlocks e = (productNames s e).length := by
  unfold State.productBlocks
  cases h : e.run with
  | none => rw [productNames_queued s h]; rfl
  | some r => rw [productNames_running s h]; exact blocksOf_eq_namesOf ..

theorem freeProduct_free (s : State) (e : Bounce) : (s.freeProduct e).pool.free = s.pool.free ++ productNames s e := by
  cases h : e.run with
  | none => rw [freeProduct_queued h, productNames_queued s h, List.append_nil]
  | some r =>
    rw [freeProduct_running h, productNames_running s h]
    cases hl : s.layer r.product with
    | none => rw [freeLayer_none hl, namesOf_none hl, List.append_nil]
    | some l => rw [pool_freeLayer hl, namesOf_some hl]; rfl

theorem freeProduct_unowned {b : BlockId} (hb : s.pool.entry b = none ∨ b ∈ productNames s e) :
    (s.freeProduct e).pool.entry b = none := by
  cases h : e.run with
  | none =>
    rw [productNames_queued s h] at hb
    rw [freeProduct_queued h]
    exact hb.elim id fun hb => absurd hb List.not_mem_nil
  | some r =>
    rw [productNames_running s h] at hb
    rw [freeProduct_running h]
    cases hl : s.layer r.product with
    | none =>
      rw [namesOf_none hl] at hb
      rw [freeLayer_none hl]
      exact hb.elim id fun hb => absurd hb List.not_mem_nil
    | some l =>
      rw [namesOf_some hl] at hb
      rw [pool_freeLayer hl, Pool.entry_release]
      split
      · rfl
      · next hn => exact hb.elim id fun hb => absurd hb hn

theorem freeProduct_voices {y : LayerId} (hy : e.produces y = false) :
    (s.freeProduct e).mix.voiceOf y = s.mix.voiceOf y ∧ (s.freeProduct e).mix.waits y = s.mix.waits y := by
  cases h : e.run with
  | none => rw [freeProduct_queued h]; exact ⟨rfl, rfl⟩
  | some r =>
    have hne : y ≠ r.product := fun e' => by
      rw [produces_iff.2 ⟨r, h, e'.symm⟩] at hy
      exact Bool.false_ne_true hy.symm
    rw [freeProduct_running h]
    cases hl : s.layer r.product with
    | none => rw [freeLayer_none hl]; exact ⟨rfl, rfl⟩
    | some l =>
      rw [mix_freeLayer hl, Mix.waits_drop, decide_eq_true hne, Bool.and_true]
      exact ⟨Mix.voiceOf_drop_other hne, rfl⟩

/-- A product that runs apart is on no list, so its free at most trims its destination's span. -/
theorem freeProduct_track (ha : RunsApart s e) (k : TrackId) :
    (s.freeProduct e).track k = s.track k ∨ k = e.dest ∧ (s.freeProduct e).track k = (s.track k).trimmed := by
  cases h : e.run with
  | none => rw [freeProduct_queued h]; exact .inl rfl
  | some r =>
    obtain ⟨hown, hoff, -⟩ := ha r h
    obtain ⟨l, hl, hlt⟩ := Option.map_eq_some_iff.1 hown
    rw [freeProduct_running h, track_freeLayer hl]
    split
    · next hk =>
      have hfilter : ∀ xs : List LayerId, r.product ∉ xs → xs.filter (fun y => decide (y ≠ r.product)) = xs :=
        fun xs hxs => List.filter_eq_self.2 fun y hy => by simpa using fun e' : y = r.product => hxs (e' ▸ hy)
      have hwithout : (s.track k).without r.product = s.track k := by
        unfold Track.without
        rw [hfilter _ (hoff k).1, hfilter _ (hoff k).2]
      exact .inr ⟨hk.trans hlt, by rw [hwithout]⟩
    · exact .inl rfl

/-- A COPY gives up its place on its destination; a FOLD has none (R118, step 3). -/
theorem unreserve_track (s : State) (e : Bounce) (k : TrackId) : (s.unreserve e).track k
    = if e.reserves k then Track.trimmed { s.track k with reservations := (s.track k).reservations - 1 }
      else s.track k := by
  unfold State.unreserve Bounce.reserves
  cases e.fold with
  | true => rfl
  | false =>
    refine (State.track_modTrack _ e.dest k Track.trimmed).trans ?_
    by_cases hk : k = e.dest
    · subst hk
      rw [if_pos rfl, State.track_modTrack_same]
      simp
    · rw [if_neg hk, State.track_modTrack_other _ _ _ _ hk]
      simp [Ne.symm hk]

theorem Track.trimmed_spanless {r : Track} (h : r.span = none) : r.trimmed.span = none :=
  r.trimmed_span.elim (fun e => e.trans h) fun e => e.2.2

theorem abortBounce_track (h : s.bounce.queue[i]? = some e) (cause : AbortCause) (k : TrackId) :
    (s.abortBounce i cause).track k
      = if e.reserves k then
          Track.trimmed { (s.freeProduct e).track k with reservations := ((s.freeProduct e).track k).reservations - 1 }
        else (s.freeProduct e).track k := by
  rw [abortBounce_same h]
  refine (unreserve_track ((s.freeProduct e).setPins none e.sources) e k).trans ?_
  have hpins : ((s.freeProduct e).setPins none e.sources).track k = (s.freeProduct e).track k :=
    State.track_congr (congrArg State.tracks (setPins_same (s.freeProduct e) none e.sources) :) k
  rw [hpins]

/-- Behind the free of its product an abort leaves the pool, the voices and the bar clock, and the records in use. -/
theorem abortBounce_rest (h : s.bounce.queue[i]? = some e) (cause : AbortCause) :
    (s.abortBounce i cause).pool = (s.freeProduct e).pool ∧ (s.abortBounce i cause).mix = (s.freeProduct e).mix
      ∧ (s.abortBounce i cause).clock = (s.freeProduct e).clock
      ∧ ∀ y, (s.abortBounce i cause).layer y = none ↔ (s.freeProduct e).layer y = none := by
  refine ⟨?_, ?_, ?_, fun y => ?_⟩
  · rw [abortBounce_same h, unreserve_same, setPins_same]
  · rw [abortBounce_same h, unreserve_same, setPins_same]
  · rw [abortBounce_same h, unreserve_same, setPins_same]
  · rw [abortBounce_same h, unreserve_same]
    exact (setPins_pinsOnly (s.freeProduct e) none e.sources).frees y

theorem freeProduct_loopFollows (s : State) (e : Bounce) : LoopFollows s (s.freeProduct e) := by
  unfold State.freeProduct
  split
  · exact freeLayer_loopFollows ..
  · exact LoopFollows.refl s

theorem abortBounce_loopFollows (s : State) (i : Nat) (cause : AbortCause) : LoopFollows s (s.abortBounce i cause) := by
  cases h : s.bounce.queue[i]? with
  | none => unfold State.abortBounce; rw [h]; exact LoopFollows.refl s
  | some e =>
    obtain ⟨-, -, hclock, hrecords⟩ := abortBounce_rest h cause
    exact (freeProduct_loopFollows s e).trans (loopFollows_of_records hrecords hclock)

theorem abortBounce_apart (h : s.bounce.queue[i]? = some e) (ha : RunsApart s e) (cause : AbortCause) :
    AbortsApart s (s.abortBounce i cause) [e] := by
  obtain ⟨hpool, hmix, -, -⟩ := abortBounce_rest h cause
  have htrack := abortBounce_track h cause
  have hlists : ∀ k, ((s.freeProduct e).track k).stack = (s.track k).stack
      ∧ ((s.freeProduct e).track k).redo = (s.track k).redo := fun k => by
    rcases freeProduct_track ha k with hk | ⟨-, hk⟩ <;> rw [hk]
    · exact ⟨rfl, rfl⟩
    · exact Track.trimmed_lists _
  have hbounce : (s.abortBounce i cause).bounce = (s.removeBounce i).bounce := by rw [abortBounce_same h]
  refine ⟨abortBounce_leaves h cause, abortBounce_loopFollows s i cause, ?_, ?_, ?_, fun b hb => ?_, fun y hy => ?_,
    fun k => ?_, fun k hk => ?_, fun k hk => ?_, fun k hk hstack hredo hres => ?_⟩
  · rw [hbounce]; rfl
  · rw [hbounce]; rfl
  · rw [hpool, freeProduct_free, List.flatMap_singleton]
  · rw [List.flatMap_singleton] at hb
    rw [hpool]
    exact freeProduct_unowned hb
  · rw [hmix]
    exact freeProduct_voices (hy e (List.mem_singleton.2 rfl))
  · rw [htrack]
    split
    · exact ⟨(Track.trimmed_lists _).1.trans (hlists k).1, (Track.trimmed_lists _).2.trans (hlists k).2⟩
    · exact hlists k
  · have hdest := hk e (List.mem_singleton.2 rfl)
    rw [htrack, if_neg (by simp [Bounce.reserves, hdest])]
    exact (freeProduct_track ha k).elim id fun hd => absurd hd.1.symm hdest
  · have hfreed : ((s.freeProduct e).track k).span = none := by
      rcases freeProduct_track ha k with hf | ⟨-, hf⟩ <;> rw [hf]
      · exact hk
      · exact Track.trimmed_spanless hk
    rw [htrack]
    split
    · exact Track.trimmed_spanless hfreed
    · exact hfreed
  · have hr : e.reserves k = true := by simpa using hk
    rw [htrack, if_pos hr, Track.trimmed_reservations] at hres
    rw [htrack, if_pos hr]
    unfold Track.trimmed
    rw [if_pos ⟨(hlists k).1.trans hstack, (hlists k).2.trans hredo, hres⟩]

/-- An abort that leaves a record in use forms BOUNCE_ABORTED alone (R118, step 5). -/
theorem abortBounce_alike (h : s.bounce.queue[i]? = some e) (cause : AbortCause)
    (hu : (s.abortBounce i cause).inUse ≠ []) {w : State} (hw : ReportsAlike w s) :
    ReportsAlike (abortReported s cause.code cause.reason.byte w e) (s.abortBounce i cause) := by
  obtain ⟨-, -, -, hrecords⟩ := abortBounce_rest h cause
  have hfree : ReportsAlike s (s.freeProduct e) := by
    cases hr : e.run with
    | none => rw [freeProduct_queued hr]; exact ReportsAlike.refl s
    | some r =>
      rw [freeProduct_running hr]
      obtain ⟨y, hy⟩ := List.exists_mem_of_ne_nil _ hu
      have hin : (s.freeLayer r.product).layer y ≠ none := fun hn =>
        State.mem_inUse.1 hy ((hrecords y).2 (by rw [freeProduct_running hr]; exact hn))
      rw [layer_freeLayer] at hin
      refine freeLayer_alike (.inr ⟨y, fun hyp => ?_, fun hn => ?_⟩)
      · rw [if_pos hyp] at hin; exact hin rfl
      · rw [hn, ite_self] at hin; exact hin rfl
  have hsteps : ReportsAlike (s.freeProduct e)
      ((((s.freeProduct e).setPins none e.sources).unreserve e).removeBounce i) := by
    refine ⟨?_, ?_, ?_⟩
    · rw [State.removeBounce_sup, unreserve_same, setPins_same]
    · rw [State.removeBounce_clock, unreserve_same, setPins_same]
    · rw [State.removeBounce_link, unreserve_same, setPins_same]
  have hfields : ∀ v : State, v.reportAbort e cause (s.productBlocks e)
      = abortReported s cause.code cause.reason.byte v e := fun v => by
    unfold State.reportAbort abortReported Bounce.modeCode Bounce.originCode
    rw [productBlocks_eq]
    cases e.run <;> rfl
  rw [abortBounce_eq h, hfields]
  exact (hw.trans (hfree.trans hsteps)).report ..

end

/-! ### The aborts of all entries that a test gives a cause for (R119) -/

section
variable {f : State → Bounce → Option AbortCause}

/-- The first entry with a cause is aborted first. -/
theorem abortWhere_cons {s : State} {before after : List Bounce} {e : Bounce} {cause : AbortCause} (n : Nat)
    (hq : s.bounce.queue = before ++ e :: after) (hb : ∀ a ∈ before, f s a = none) (he : f s e = some cause) :
    State.abortWhere f (n + 1) s = State.abortWhere f n (s.abortBounce before.length cause) := by
  have hfirst : (s.bounce.queue.findIdx? fun e => (f s e).isSome) = some before.length := by
    rw [hq]
    exact findIdx?_append_cons after (fun a ha => by simp [hb a ha]) (by simp [he])
  have hentry : s.bounce.queue[before.length]? = some e := by rw [hq]; simp
  rw [State.abortWhere, hfirst]
  simp only [hentry, Option.bind_some, he]

/-- With no entry that has a cause nothing is aborted. -/
theorem abortWhere_nil {s : State} (n : Nat) (hq : ∀ e ∈ s.bounce.queue, f s e = none) : State.abortWhere f n s = s := by
  cases n with
  | zero => rfl
  | succ n =>
    have hnone : (s.bounce.queue.findIdx? fun e => (f s e).isSome) = none :=
      List.findIdx?_eq_none_iff.2 fun e he => by simp [hq e he]
    rw [State.abortWhere, hnone]

end

section
variable {s : State} {before after : List Bounce} {e : Bounce}

theorem abortBounce_queue_cons (hq : s.bounce.queue = before ++ e :: after) (cause : AbortCause) :
    (s.abortBounce before.length cause).bounce.queue = before ++ after := by
  have hentry : s.bounce.queue[before.length]? = some e := by rw [hq]; simp
  rw [abortBounce_queue hentry, hq, List.eraseIdx_append_of_length_le (Nat.le_refl _)]
  simp

/-- No entry but the queue's head runs, so of two entries of the queue one waits. -/
theorem QueueApart.one_waits (h : QueueApart s) (hq : s.bounce.queue = before ++ e :: after) :
    e.run = none ∨ ∀ a ∈ before ++ after, a.run = none := by
  have hone := h.one
  rw [hq] at hone
  cases before with
  | nil => exact .inr hone
  | cons b before => exact .inl (hone e (by simp))

/-- The entries that stay behind an abort still run apart, and name the same blocks. -/
theorem QueueApart.abort (h : QueueApart s) (hq : s.bounce.queue = before ++ e :: after) (cause : AbortCause) :
    QueueApart (s.abortBounce before.length cause)
      ∧ (∀ a ∈ before ++ after, productNames (s.abortBounce before.length cause) a = productNames s a)
      ∧ ∀ a ∈ before ++ after, ∀ x, a.produces x = true → e.produces x = false := by
  have hentry : s.bounce.queue[before.length]? = some e := by rw [hq]; simp
  have hrest := abortBounce_queue_cons hq cause
  have hmem : ∀ a ∈ before ++ after, a ∈ s.bounce.queue := fun a ha => by
    rw [hq, List.mem_append, List.mem_cons]
    exact (List.mem_append.1 ha).imp_right .inr
  have hleft := abortBounce_apart hentry (h.apart e (by rw [hq]; simp)) cause
  have hdiffer : ∀ a ∈ before ++ after, ∀ x, a.produces x = true → e.produces x = false := fun a ha x hx => by
    rcases h.one_waits hq with he | hwait
    · exact produces_of_queued he x
    · rw [produces_of_queued (hwait a ha)] at hx
      exact absurd hx Bool.false_ne_true
  have howner : ∀ x, e.produces x = false →
      ((s.abortBounce before.length cause).layer x).map (·.track) = (s.layer x).map (·.track)
        ∧ ((s.abortBounce before.length cause).layer x).map (·.map) = (s.layer x).map (·.map) := fun x hx => by
    rw [hleft.leaves.layer]
    exact afterAborts_owner _ fun a ha => List.mem_singleton.1 ha ▸ hx
  refine ⟨⟨fun a ha r hr => ?_, fun a ha => ?_⟩, fun a ha => ?_, hdiffer⟩
  · rw [hrest] at ha
    obtain ⟨hown, hoff, hsrc⟩ := h.apart a (hmem a ha) r hr
    refine ⟨?_, fun k => ?_, fun g hg => hsrc g (hmem g (hrest ▸ hg))⟩
    · rw [(howner _ (hdiffer a ha _ (produces_iff.2 ⟨r, hr, rfl⟩))).1, hown]
    · rw [(hleft.lists k).1, (hleft.lists k).2]
      exact hoff k
  · rw [hrest] at ha
    have hone := h.one
    rw [hq] at hone
    cases before with
    | nil => exact hone a (List.mem_of_mem_tail ha)
    | cons b before =>
      refine hone a ?_
      rw [List.cons_append, List.tail_cons, List.mem_append, List.mem_cons]
      exact (List.mem_append.1 ha).imp_right .inr
  · cases hr : a.run with
    | none => rw [productNames_queued _ hr, productNames_queued _ hr]
    | some r =>
      rw [productNames_running _ hr, productNames_running _ hr]
      unfold State.namesOf
      rw [(howner _ (hdiffer a ha _ (produces_iff.2 ⟨r, hr, rfl⟩))).2]

end

/-- The reports of entries aborted for these causes, one after another. -/
def abortsReported (s : State) (cause : Bounce → AbortCause) (w : State) (gone : List Bounce) : State :=
  gone.foldl (fun w e => abortReported s (cause e).code (cause e).reason.byte w e) w

theorem abortsReported_congr {s t : State} {cause other : Bounce → AbortCause} {gone : List Bounce}
    (h : ∀ e ∈ gone, productNames t e = productNames s e ∧ other e = cause e) (w : State) :
    abortsReported t other w gone = abortsReported s cause w gone := by
  refine List.foldl_ext _ _ _ fun u e he => ?_
  unfold abortReported
  rw [(h e he).1, (h e he).2]

/-- From s to t these entries are aborted, for these causes, and the queue keeps the others in their order. -/
structure AllAborted (s t : State) (gone stay : List Bounce) (cause : Bounce → AbortCause) : Prop where
  queue : t.bounce.queue = stay
  apart : AbortsApart s t gone
  queueApart : QueueApart t
  names : ∀ e ∈ stay, productNames t e = productNames s e
  alike : t.inUse ≠ [] → ∀ w, ReportsAlike w s → ReportsAlike (abortsReported s cause w gone) t

theorem AllAborted.none {s : State} (h : QueueApart s) (cause : Bounce → AbortCause) :
    AllAborted s s [] s.bounce.queue cause :=
  ⟨rfl, .refl s, h, fun _ _ => rfl, fun _ _ hw => hw⟩

/-- One entry is aborted, and then others. -/
theorem AllAborted.cons {s t : State} {before after gone stay : List Bounce} {e : Bounce} {cause : Bounce → AbortCause}
    (hs : QueueApart s) (hq : s.bounce.queue = before ++ e :: after) (hgone : ∀ a ∈ gone, a ∈ before ++ after)
    (hstay : ∀ a ∈ stay, a ∈ before ++ after)
    (h : AllAborted (s.abortBounce before.length (cause e)) t gone stay cause) :
    AllAborted s t (e :: gone) stay cause := by
  have hentry : s.bounce.queue[before.length]? = some e := by rw [hq]; simp
  obtain ⟨-, hnames, -⟩ := hs.abort hq (cause e)
  have hfirst := abortBounce_apart hentry (hs.apart e (by rw [hq]; simp)) (cause e)
  refine ⟨h.queue, hfirst.trans h.apart fun a ha => hnames a (hgone a ha), h.queueApart, fun a ha => ?_, fun hu w hw => ?_⟩
  · exact (h.names a ha).trans (hnames a (hstay a ha))
  · have hmid : (s.abortBounce before.length (cause e)).inUse ≠ [] := fun hn => hu (h.apart.loop.inUse hn)
    have hreports := h.alike hu _ (abortBounce_alike hentry (cause e) hmid hw)
    rwa [abortsReported_congr (s := s) (cause := cause) fun a ha => ⟨hnames a (hgone a ha), rfl⟩] at hreports

/-- Aborts leave what a test finds of the entries that stay. -/
def StableTest (f : State → Bounce → Option AbortCause) : Prop :=
  ∀ s, QueueApart s → ∀ before e after cause, s.bounce.queue = before ++ e :: after → ∀ a ∈ before ++ after,
    f (s.abortBounce before.length cause) a = f s a

/-- At most as many aborts as the queue has entries abort all that a stable test gives a cause for, in queue order. -/
theorem abortWhere_all {f : State → Bounce → Option AbortCause} (hf : StableTest f) (n : Nat) (s : State)
    (hs : QueueApart s) (hn : s.bounce.queue.length ≤ n) {g : Bounce → Option AbortCause} (hg : ∀ e ∈ s.bounce.queue, f s e = g e) :
    AllAborted s (State.abortWhere f n s) (s.bounce.queue.filter fun e => (g e).isSome)
      (s.bounce.queue.filter fun e => !(g e).isSome) (fun e => (g e).getD .cancelled) := by
  induction n generalizing s with
  | zero =>
    have hnil := List.length_eq_zero_iff.1 (Nat.le_zero.1 hn)
    have hnone := AllAborted.none hs fun e => (g e).getD .cancelled
    rw [hnil] at hnone ⊢
    exact hnone
  | succ n ih =>
    rcases forall_not_or_first (fun e => (g e).isSome) s.bounce.queue with hnone | ⟨before, e, after, hq, hb, he⟩
    · rw [abortWhere_nil _ fun e he => (hg e he).trans (by simpa using hnone e he),
        List.filter_eq_nil_iff.2 fun a ha => by simp [hnone a ha], List.filter_eq_self.2 fun a ha => by simp [hnone a ha]]
      exact .none hs _
    · obtain ⟨cause, hcause⟩ := Option.isSome_iff_exists.1 he
      have hmem : ∀ a ∈ before ++ after, a ∈ s.bounce.queue := fun a ha => by
        rw [hq, List.mem_append, List.mem_cons]
        exact (List.mem_append.1 ha).imp_right .inr
      have hrest := abortBounce_queue_cons hq cause
      have hgone : s.bounce.queue.filter (fun e => (g e).isSome)
          = e :: (before ++ after).filter fun e => (g e).isSome := by
        rw [hq, List.filter_append, List.filter_append, List.filter_eq_nil_iff.2 fun a ha => by simp [hb a ha]]
        simp [he]
      have hstay : s.bounce.queue.filter (fun e => !(g e).isSome)
          = (before ++ after).filter fun e => !(g e).isSome := by
        rw [hq, List.filter_append, List.filter_append, List.filter_cons_of_neg (by rw [he]; exact Bool.false_ne_true)]
      have hlength : (before ++ after).length ≤ n := by
        rw [hq] at hn
        simp only [List.length_append, List.length_cons] at hn ⊢
        omega
      have hnext := ih (s.abortBounce before.length cause) (hs.abort hq cause).1 (by rw [hrest]; exact hlength)
        fun a ha => (hf s hs before e after cause hq a (hrest ▸ ha)).trans (hg a (hmem a (hrest ▸ ha)))
      rw [hrest] at hnext
      rw [abortWhere_cons n hq (fun a ha => (hg a (by rw [hq]; simp [ha])).trans (by simpa using hb a ha))
        ((hg e (by rw [hq]; simp)).trans hcause), hgone, hstay]
      have hgetD : cause = (g e).getD .cancelled := by rw [hcause]; rfl
      exact .cons hs hq (fun a ha => (List.mem_filter.1 ha).1) (fun a ha => (List.mem_filter.1 ha).1) (hgetD ▸ hnext)

end Sys2Proof.Machine
end

