-- ==== Sys2Proof/Proofs/UndoRedo.lean ====
section
/-! UNDO and REDO: a recording's layer discarded, the top layer to the redo list and back, and the bounces that an UNDO
aborts (R14, R15, R16, R118, R119); with REC and DUB (R68..R73). -/

namespace Sys2Proof.Machine

/-! ### UNDO of a recording (R14) -/

section
variable {s : State} {t : TrackId}

theorem abortRecording_eq {h : HeadId} {r : Recording} (reason : DiscardReason) (hk : s.headOn t = some h)
    (hr : s.head h = some r) : s.abortRecording t reason = s.discardRecording h r reason := by
  unfold State.abortRecording
  rw [hk]
  dsimp only
  rw [hr]

theorem abortRecording_idle (reason : DiscardReason) (hk : s.headOn t = none) : s.abortRecording t reason = s := by
  unfold State.abortRecording
  rw [hk]

theorem doUndo_recording (h : s.trackState t = .recording ∨ s.trackState t = .dub) :
    s.doUndo t = (.ok, s.abortRecording t .undone) := by
  unfold State.doUndo
  rcases h with h | h <;> rw [h]

theorem discardRecording_head_other {h j : HeadId} {r : Recording} (reason : DiscardReason) (hj : j ≠ h) :
    (s.discardRecording h r reason).head j = s.head j :=
  ((discardRecording_heads s h r reason).head j).trans (State.head_setHead_other _ _ _ _ hj)

/-! ### The top layer and the redo list (R15, R16) -/

theorem doUndo_play {x : LayerId} {rest : List LayerId} (h : s.trackState t = .play)
    (hstack : (s.track t).stack = rest ++ [x]) : s.doUndo t = (.ok, s.undoTop t x) := by
  unfold State.doUndo
  rw [h]
  dsimp only
  rw [hstack, List.getLast?_concat]

theorem moveToRedo_track (s : State) (t k : TrackId) (x : LayerId) : (s.moveToRedo t x).track k
    = if k = t then { s.track t with stack := (s.track t).stack.dropLast, redo := x :: (s.track t).redo }
      else s.track k :=
  State.track_modTrack s t k fun r => { r with stack := r.stack.dropLast, redo := x :: r.redo }

theorem moveToRedo_layer (s : State) (t : TrackId) (x y : LayerId) : (s.moveToRedo t x).layer y
    = if y = x then (s.layer x).map fun l => { l with state := .undone } else s.layer y :=
  State.layer_modLayer (s.modTrack t _) x y _

theorem moveFromRedo_track (s : State) (t k : TrackId) (x : LayerId) (rest : List LayerId) :
    (s.moveFromRedo t x rest).track k
      = if k = t then { s.track t with stack := (s.track t).stack ++ [x], redo := rest } else s.track k :=
  State.track_modTrack s t k fun r => { r with stack := r.stack ++ [x], redo := rest }

theorem moveFromRedo_layer (s : State) (t : TrackId) (x y : LayerId) (rest : List LayerId) :
    (s.moveFromRedo t x rest).layer y
      = if y = x then (s.layer x).map fun l => { l with state := .sealed } else s.layer y :=
  State.layer_modLayer (s.modTrack t _) x y _

/-- A REDO up to the auto-fold check: the layer claims a voice, and an audible track is armed. -/
def State.redone (s : State) (t : TrackId) (x : LayerId) (rest : List LayerId) : State :=
  let c := (s.moveFromRedo t x rest).claimVoice t x
  if c.trackAudible t then c.armOneShot t else c

theorem afterRedo_eq (s : State) (t : TrackId) (x : LayerId) (rest : List LayerId) :
    (s.moveFromRedo t x rest).afterRedo t x = (s.redone t x rest).autoFold t := rfl

theorem redone_voicesOnly (s : State) (t : TrackId) (x : LayerId) (rest : List LayerId) :
    VoicesOnly (s.moveFromRedo t x rest) (s.redone t x rest) :=
  (claimVoice_voicesOnly ..).trans (VoicesOnly.ite (armOneShot_voicesOnly ..) (VoicesOnly.refl _))

theorem redone_track_other (s : State) {t k : TrackId} (x : LayerId) (rest : List LayerId) (hk : k ≠ t) :
    (s.redone t x rest).track k = s.track k := by
  have hclaim : ((s.moveFromRedo t x rest).claimVoice t x).track k = s.track k := by
    rw [State.track_claimVoice_other x hk, moveFromRedo_track, if_neg hk]
  unfold State.redone
  dsimp only
  split
  · rw [State.track_armOneShot_other hk, hclaim]
  · exact hclaim

/-! ### The bounces that an UNDO aborts (R15, R119) -/

/-- The test for the bounce that the pin of a layer names (R15, step 1). -/
def pinTest (x : LayerId) (s : State) (e : Bounce) : Option AbortCause :=
  if s.pinnedBy x e then some .sourceUndone else none

/-- The test for the COPYs to a track (R15, step 2). -/
def copyTest (t : TrackId) (_ : State) (e : Bounce) : Option AbortCause :=
  if !e.fold && e.dest = t then some .destUndone else none

theorem undoTop_eq (s : State) (t : TrackId) (x : LayerId) :
    s.undoTop t x = ((s.abortBounces (pinTest x)).abortBounces (copyTest t)).moveToRedo t x := rfl

/-- The pin of layer l, which is x, names the entry, and x is a source of it. -/
def namedBy (l : Layer) (x : LayerId) (e : Bounce) : Bool := decide (l.pin = some e.id) && e.sources.contains x

theorem pinnedBy_eq {x : LayerId} {l : Layer} (hl : s.layer x = some l) (e : Bounce) : s.pinnedBy x e = namedBy l x e := by
  unfold State.pinnedBy namedBy
  rw [hl]
  rfl

theorem namedBy_unpinned {x : LayerId} {l : Layer} (hl : l.pin = none) (e : Bounce) : namedBy l x e = false := by
  unfold namedBy
  rw [hl]
  rfl

theorem pinTest_named {x : LayerId} {l : Layer} (hl : s.layer x = some l) {e : Bounce} (h : namedBy l x e = true) :
    pinTest x s e = some .sourceUndone := by
  unfold pinTest
  rw [pinnedBy_eq hl, if_pos h]

theorem pinTest_other {x : LayerId} {l : Layer} (hl : s.layer x = some l) {e : Bounce} (h : namedBy l x e = false) :
    pinTest x s e = none := by
  unfold pinTest
  rw [pinnedBy_eq hl, h]
  rfl

theorem copyTest_isSome (t : TrackId) (s : State) (e : Bounce) :
    (copyTest t s e).isSome = (!e.fold && decide (e.dest = t)) := by
  unfold copyTest
  split
  · next h => exact h.symm
  · next h => exact (Bool.eq_false_of_not_eq_true h).symm

/-- A layer that is no entry's product is in use behind their aborts too, with its pin cleared if it is a source. -/
theorem afterAborts_kept {gone : List Bounce} {x : LayerId} {l : Layer} (h : ∀ e ∈ gone, e.produces x = false) :
    afterAborts gone x (some l)
      = some { l with pin := if gone.any (·.sources.contains x) then none else l.pin } := by
  have hp : ¬gone.any (·.produces x) = true := fun hany => by
    obtain ⟨e, he, hex⟩ := List.any_eq_true.1 hany
    rw [h e he] at hex
    exact Bool.false_ne_true hex
  unfold afterAborts
  rw [if_neg hp]
  split <;> rfl

/-- A layer of a stack is no entry's product. -/
theorem QueueApart.stack_layer (hs : QueueApart s) {x : LayerId} (hx : x ∈ (s.track t).stack) {e : Bounce}
    (he : e ∈ s.bounce.queue) : e.produces x = false :=
  Bool.eq_false_of_not_eq_true fun hp => ((hs.apart e he).product hp).2.1 t |>.1 hx

/-- The first abort clears the layer's pin, so at most one entry is aborted for it. -/
theorem pinAborts_all {x : LayerId} {l : Layer} (hs : QueueApart s) (hl : s.layer x = some l)
    (hx : x ∈ (s.track t).stack) :
    AllAborted s (s.abortBounces (pinTest x)) (s.bounce.queue.find? (namedBy l x)).toList
      (s.bounce.queue.eraseP (namedBy l x)) fun _ => .sourceUndone := by
  unfold State.abortBounces
  rcases forall_not_or_first (namedBy l x) s.bounce.queue with hnone | ⟨before, e, after, hq, hb, he⟩
  · have hfind : s.bounce.queue.find? (namedBy l x) = none :=
      List.find?_eq_none.2 fun e he => by rw [hnone e he]; exact Bool.false_ne_true
    have herase : s.bounce.queue.eraseP (namedBy l x) = s.bounce.queue :=
      List.eraseP_of_forall_not fun e he => by rw [hnone e he]; exact Bool.false_ne_true
    rw [abortWhere_nil _ fun e he => pinTest_other hl (hnone e he), hfind, herase]
    exact .none hs _
  · have hmem : e ∈ s.bounce.queue := by rw [hq]; simp
    have hentry : s.bounce.queue[before.length]? = some e := by rw [hq]; simp
    have hfind : s.bounce.queue.find? (namedBy l x) = some e :=
      List.find?_eq_some_iff_append.2 ⟨he, before, after, hq, fun a ha => by rw [hb a ha]; rfl⟩
    have herase : s.bounce.queue.eraseP (namedBy l x) = before ++ after := by
      rw [hq, List.eraseP_append_right _ fun a ha => by rw [hb a ha]; exact Bool.false_ne_true, List.eraseP_cons_of_pos he]
    have hlength : s.bounce.queue.length = (before ++ after).length + 1 := by
      rw [hq, List.length_append, List.length_append, List.length_cons, Nat.add_assoc]
    have hsource : ([e].any fun a => a.sources.contains x) = true := by
      unfold namedBy at he
      rw [List.any_cons, (Bool.and_eq_true_iff.1 he).2]
      rfl
    have hcleared : (s.abortBounce before.length .sourceUndone).layer x = some { l with pin := none } := by
      rw [(abortBounce_leaves hentry .sourceUndone).layer, hl,
        afterAborts_kept fun a ha => List.mem_singleton.1 ha ▸ hs.stack_layer hx hmem, if_pos hsource]
    have hnext := AllAborted.none (hs.abort hq .sourceUndone).1 fun _ => .sourceUndone
    rw [abortBounce_queue_cons hq] at hnext
    rw [hlength, abortWhere_cons _ hq (fun a ha => pinTest_other hl (hb a ha)) (pinTest_named hl he),
      abortWhere_nil _ fun a _ => pinTest_other hcleared (namedBy_unpinned rfl a), hfind, herase]
    exact .cons hs hq (fun _ h => absurd h List.not_mem_nil) (fun _ h => h) hnext

theorem copyTest_stable (t : TrackId) : StableTest (copyTest t) := fun _ _ _ _ _ _ _ _ _ => rfl

/-- The COPYs to the track are aborted in queue order. -/
theorem copyAborts_all (hs : QueueApart s) (t : TrackId) :
    let copies := fun e : Bounce => !e.fold && decide (e.dest = t)
    AllAborted s (s.abortBounces (copyTest t)) (s.bounce.queue.filter copies) (s.bounce.queue.filter fun e => !copies e)
      fun _ => .destUndone := by
  intro copies
  have hall := abortWhere_all (copyTest_stable t) _ s hs (Nat.le_refl _) fun e _ => (rfl : copyTest t s e = copyTest t s e)
  simp only [copyTest_isSome] at hall
  refine ⟨hall.queue, hall.apart, hall.queueApart, hall.names, fun hu w hw => ?_⟩
  have hreports := hall.alike hu w hw
  rwa [abortsReported_congr (s := s) (cause := fun _ => .destUndone) fun e he => ⟨rfl, ?_⟩] at hreports
  have hcopy : copies e = true := (List.mem_filter.1 he).2
  unfold copyTest
  rw [if_pos hcopy]
  rfl

/-- The layer's move to the redo list leaves what the aborts left (R15, step 3). -/
theorem moveToRedo_undone {v : State} {x : LayerId} {named copies : List Bounce} (h : AbortsApart s v (named ++ copies))
    (hlink : v.link = (copies.foldl (abortReported s 2 6) (named.foldl (abortReported s 1 6) s)).link)
    (hin : v.layer x ≠ none) (hscenes : v.scenes = s.scenes) :
    BouncesUndone s (v.moveToRedo t x) t x named copies := by
  have hlayer := moveToRedo_layer v t x
  have htrack := fun k => moveToRedo_track v t k x
  have hused : v.inUse ≠ [] := fun e => hin (State.inUse_eq_nil.1 e x)
  refine ⟨hlink, h.nextId, h.threshold, fun e he r hr => ?_, fun e he y hy m hm => ?_, fun y hne hy => ?_, h.free,
    fun b hb => h.unowned b (.inr hb), fun y hne hy => ?_,
    fun k => ⟨?_, fun hk => ⟨?_, ?_, fun hd => ?_, fun hc hst hre hres => ?_⟩⟩,
    h.leaves.mem, h.loop.kept hused, h.leaves.cues, h.leaves.head0, h.leaves.head1, h.leaves.sup, hscenes⟩
  · have hnone := h.leaves.product he hr
    rw [hlayer]
    split
    · next e' => rw [← e', hnone]; rfl
    · exact hnone
  · rw [hlayer] at hm
    split at hm
    · next e' =>
      obtain ⟨l, hl, rfl⟩ := Option.map_eq_some_iff.1 hm
      have hpin : l.pin = none := h.leaves.unpinned he (e' ▸ hy) hl
      exact hpin
    · exact h.leaves.unpinned he hy hm
  · rw [hlayer, if_neg hne]
    exact h.leaves.other hy
  · have hvoices := h.voices y fun e he => Bool.eq_false_of_not_eq_true fun hp => by
      obtain ⟨r, hr, hry⟩ := produces_iff.1 hp
      exact hy e he r hr hry
    change (v.mix.drop x).voiceOf y = _ ∧ (v.mix.drop x).waits y = _
    rw [Mix.voiceOf_drop_other hne, Mix.waits_drop, decide_eq_true hne, Bool.and_true]
    exact hvoices
  · rw [htrack]
    refine Eq.trans ?_ (h.leaves.reservations k)
    split
    · next e' => rw [e']
    · rfl
  · rw [htrack, if_neg hk]
    exact (h.lists k).1
  · rw [htrack, if_neg hk]
    exact (h.lists k).2
  · rw [htrack, if_neg hk]
    exact h.other k hd
  · obtain ⟨e, he, hfold, hdest⟩ := hc
    rw [htrack, if_neg hk]
    exact h.trimmed k ⟨e, he, by simp [Bounce.reserves, hfold, hdest]⟩ hst hre ((h.leaves.reservations k).trans hres)

end

/-! ### The statement's parts -/

/-- REC without L, or with no record in use but those of the redo list (R71). -/
theorem record_defines {s : State} {t : TrackId} {h : HeadId} {x : LayerId} (hrun : s.clock.transport = .running)
    (hsup : (s.sup.low && s.sup.guard) = false) (hh : TakesHead s h) (hx : TakesRecord (s.discardRedo t) x)
    (hstack : (s.track t).stack = []) (hres : (s.track t).reservations = 0) (span : Span) (bars : Nat)
    (hc : (s.clock.loop = none ∧ s.definingRuns = false)
      ∨ (s.clock.loop ≠ none ∧ ∀ y, s.layer y ≠ none → y ∈ (s.track t).redo)) :
    s.doAction (.record t span bars) = (.ok, (s.discardRedo t).startDefining h x t bars) := by
  have hnot : ¬(s.clock.loop ≠ none ∧ ∃ x, s.layer x ≠ none ∧ x ∉ (s.track t).redo) := fun ⟨hloop, y, hy, hoff⟩ =>
    hc.elim (fun hn => hloop hn.1) fun hall => hoff (hall.2 y hy)
  have hloop : ¬(s.clock.loop = none ∧ s.definingRuns = true) := fun ⟨hn, hd⟩ =>
    hc.elim (fun hf => absurd (hf.2.symm.trans hd) Bool.false_ne_true) fun hs => hs.1 hn
  have hdefines : s.recDefines t = true := Bool.eq_true_of_not_eq_false fun hf => hnot (State.recDefines_false.1 hf)
  rw [State.doAction_record _ _ _ hrun,
    State.doRec_starts _ (recRefusal_none hsup hh hx hstack hres hloop fun hl => hnot hl.1), startRec_eq _ _ hh hx,
    if_pos hdefines]

/-- REC with L and another record in use (R72). -/
theorem record_fixes {s : State} {t : TrackId} {h : HeadId} {x y : LayerId} (hrun : s.clock.transport = .running)
    (hsup : (s.sup.low && s.sup.guard) = false) (hh : TakesHead s h) (hx : TakesRecord (s.discardRedo t) x)
    (hstack : (s.track t).stack = []) (hres : (s.track t).reservations = 0) {span : Span} (bars : Nat)
    (hloop : s.clock.loop ≠ none) (hy : s.layer y ≠ none) (hoff : y ∉ (s.track t).redo)
    (hshort : (span.loops * ((s.clock.loop.getD 0) * (s.clock.b * 48 * s.clock.p)) + 4095) / 4096 ≤ 1024) :
    s.doAction (.record t span bars) = (.ok, (s.discardRedo t).startFixed h x t span) := by
  have hfixed : s.recDefines t = false := State.recDefines_false.2 ⟨hloop, y, hy, hoff⟩
  rw [State.doAction_record _ _ _ hrun,
    State.doRec_starts _ (recRefusal_none hsup hh hx hstack hres (fun hn => hloop hn.1) fun hl => by omega),
    startRec_eq _ _ hh hx, if_neg (by rw [hfixed]; exact Bool.false_ne_true)]

/-- UNDO on a track in PLAY with no bounce to abort (R15). -/
theorem undoTop_unpinned {s : State} {t : TrackId} {x : LayerId} {l : Layer} (hl : s.layer x = some l)
    (hpin : l.pin = none) (hcopies : ∀ e ∈ s.bounce.queue, e.dest = t → e.fold = true) : s.undoTop t x = s.moveToRedo t x := by
  have hnamed : s.abortBounces (pinTest x) = s :=
    abortWhere_nil _ fun e _ => pinTest_other hl (namedBy_unpinned hpin e)
  have hcopy : s.abortBounces (copyTest t) = s := abortWhere_nil _ fun e he => by
    unfold copyTest
    rw [if_neg]
    rw [Bool.and_eq_true, decide_eq_true_eq]
    rintro ⟨hfold, hdest⟩
    rw [hcopies e he hdest] at hfold
    exact Bool.false_ne_true hfold
  rw [undoTop_eq, hnamed, hcopy]

/-- UNDO on a track in PLAY with its bounces (R15, R118, R119). -/
theorem undoTop_undone {s : State} {t : TrackId} {x : LayerId} {l : Layer} (hs : QueueApart s) (hl : s.layer x = some l)
    (hx : x ∈ (s.track t).stack) :
    let copies := fun e : Bounce => !e.fold && decide (e.dest = t)
    let others := s.bounce.queue.eraseP (namedBy l x)
    let first := s.bounce.queue.find? (namedBy l x)
    let gone := first.toList ++ others.filter copies
    let u := s.undoTop t x
    BouncesUndone s u t x first.toList (others.filter copies) ∧ u.bounce.queue = (others.filter fun e => !copies e)
      ∧ (u.track t).stack = (s.track t).stack.dropLast ∧ (u.track t).redo = x :: (s.track t).redo
      ∧ u.layer x = some { l with state := .undone, pin := if gone.any (·.sources.contains x) then none else l.pin }
      ∧ u.mix.Silent x := by
  intro copies others first gone u
  have hfirst := pinAborts_all hs hl hx
  have hu : u = _ := undoTop_eq s t x
  have hstays : ((s.abortBounces (pinTest x)).abortBounces (copyTest t)).scenes = s.scenes :=
    ((abortBounces_stays ..).trans (abortBounces_stays ..)).scenes
  generalize s.abortBounces (pinTest x) = v at hfirst hu hstays
  have hthen := copyAborts_all hfirst.queueApart t
  generalize v.abortBounces (copyTest t) = w at hthen hu hstays
  rw [hfirst.queue] at hthen
  have hnames : ∀ e ∈ others.filter copies, productNames v e = productNames s e := fun e he =>
    hfirst.names e (List.mem_filter.1 he).1
  have hall : AbortsApart s w gone := hfirst.apart.trans hthen.apart hnames
  have hgone : ∀ e ∈ gone, e.produces x = false := fun e he => hs.stack_layer hx <| by
    rcases List.mem_append.1 he with he | he
    · exact List.mem_of_find?_eq_some (Option.mem_toList.1 he)
    · exact List.mem_of_mem_eraseP (List.mem_filter.1 he).1
  have hlayer : w.layer x = some { l with pin := if gone.any (·.sources.contains x) then none else l.pin } := by
    rw [hall.leaves.layer, hl, afterAborts_kept hgone]
  have hin : w.layer x ≠ none := by rw [hlayer]; exact Option.some_ne_none _
  have hused : w.inUse ≠ [] := fun e => hin (State.inUse_eq_nil.1 e x)
  have hlink := (hthen.alike hused _ (hfirst.alike (fun e => hused (hthen.apart.loop.inUse e)) s (.refl s))).link
  rw [abortsReported_congr (s := s) (cause := fun _ => .destUndone) fun e he => ⟨hnames e he, rfl⟩] at hlink
  rw [hu, moveToRedo_track, if_pos rfl, moveToRedo_layer, if_pos rfl, hlayer]
  refine ⟨moveToRedo_undone hall hlink hin hstays, hthen.queue, ?_, ?_, rfl, Mix.silent_drop_same ..⟩
  · exact congrArg List.dropLast (hall.lists t).1
  · exact congrArg (List.cons x) (hall.lists t).2

/-- Settles O26: `discardRedo_drops` for the redo list, `startDefining_begins`, `startFixed_begins` and
`beginRecording_begins` for the starts, `undoTop_undone` for the aborts of an UNDO, and `redone_voicesOnly` for a REDO. -/
theorem recUndoAndRedoTakeTheirEffect : Obligations.RecUndoAndRedoTakeTheirEffect := by
  refine ⟨discardRedo_drops, fun s t h x hrun => ?_, fun s t h r l hk hr hl hst => ?_, fun s t x l rest hl => ⟨?_, ?_, ?_⟩⟩
  · intro v hsup hh hx loopFrames begins
    refine ⟨fun hstack hres span bars => ⟨fun hc => ?_, fun n y hloop hy hoff hshort => ?_⟩, fun hplay hplaces chain => ?_⟩
    · obtain ⟨hbegins, hspan, hpass, hclock, hbnd⟩ := startDefining_begins v h x t bars
      refine ⟨_, record_defines hrun hsup hh hx hstack hres span bars hc, hbegins, hspan, hpass, hclock, ?_⟩
      have hfrees : FreesOnly s v := discardRedo_freesOnly s t
      have hpending : v.clock.pendingTempo = s.clock.pendingTempo := (congrArg Clock.pendingTempo hfrees.clock :)
      rw [hbnd, hfrees.bnd, hpending]
    · obtain ⟨hbegins, hspan, hpass, hclock⟩ := startFixed_begins v h x t span
      have hv : v.clock = s.clock := discardRedo_clock fun hall => hoff (hall y hy)
      rw [hv] at hbegins hclock
      exact ⟨_, record_fixes hrun hsup hh hx hstack hres bars (by simp [hloop]) hy hoff hshort, hbegins, hspan, hpass,
        hclock⟩
    · have hdub : s.doAction (.dub t chain) = (.ok, _) := (State.doAction_dub _ _ hrun).trans
        ((State.doDub_starts _ (dubRefusal_none hsup hh hx hplay hplaces)).trans (by rw [startDub_eq chain hh hx]))
      exact ⟨_, hdub, beginRecording_begins (.refl v t) rfl, beginRecording_span t, beginRecording_pass t,
        beginRecording_clock⟩
  · refine ⟨_, (doUndo_recording hst).trans (by rw [abortRecording_eq _ hk hr]), discardRecording_leaves _ hl,
      fun j hj => discardRecording_head_other _ hj, (discardRecording_stays ..).cues, (discardRecording_keeps ..).sup⟩
  · intro hplay hstack hpin hcopies
    refine ⟨s.moveToRedo t x, (doUndo_play hplay hstack).trans (by rw [undoTop_unpinned hl hpin hcopies]), ?_, ?_, ?_,
      s.mix.voiceOf_drop_same x, (s.mix.silent_drop_same x).2, fun y hy => ?_, fun k hk => ?_, rfl, rfl, rfl, rfl, rfl,
      rfl⟩
    · rw [moveToRedo_track, if_pos rfl, hstack]
      exact List.dropLast_concat
    · rw [moveToRedo_track, if_pos rfl]
    · rw [moveToRedo_layer, if_pos rfl, hl]
      rfl
    · rw [moveToRedo_layer, if_neg hy]
    · rw [moveToRedo_track, if_neg hk]
  · intro hplay hstack hapart hone named copies others first gone
    obtain ⟨hundone, hqueue, hlower, hredo, hlayer, hvoice, hwaits⟩ :=
      undoTop_undone (t := t) ⟨hapart, hone⟩ hl (by rw [hstack]; simp)
    rw [hstack, List.dropLast_concat] at hlower
    exact ⟨_, doUndo_play hplay hstack, hundone, hqueue, hlower, hredo, hlayer, hvoice, hwaits⟩
  · intro hrec hdub hredo
    have hfront : s.doAction (.redo t) = _ := State.doRedo_front hrec hdub hredo
    rw [afterRedo_eq] at hfront
    refine ⟨fun hfull => hfront.trans (if_pos hfull), fun hplace => ?_⟩
    have hvoices := redone_voicesOnly s t x rest
    refine ⟨s.redone t x rest, hfront.trans (if_neg hplace), ?_, ?_, ?_, fun y hy => ?_,
      fun k hk => redone_track_other s x rest hk, hvoices.mem, hvoices.pool, hvoices.clock, hvoices.head0, hvoices.head1,
      hvoices.bounce⟩
    · rw [hvoices.stack, moveFromRedo_track, if_pos rfl]
    · rw [hvoices.redo, moveFromRedo_track, if_pos rfl]
    · rw [hvoices.layer, moveFromRedo_layer, if_pos rfl, hl]
      rfl
    · rw [hvoices.layer, moveFromRedo_layer, if_neg hy]

end Sys2Proof.Machine
end

