-- ==== Sys2Proof/Proofs/Clears.lean ====
section
/-! CLEAR and CLEAR_ALL: the recording ended, the bounces aborted, the layers freed and the track's fields cleared (R18,
R19, R118, R119). -/

namespace Sys2Proof.Machine

/-! ### What the steps of a CLEAR keep, whatever the state (R18) -/

/-- A track whose span, pass index, flags and count a CLEAR has cleared (R18, step 4). -/
structure Track.IsCleared (r : Track) : Prop where
  span : r.span = none
  pass : r.pass = 0
  mute : r.mute = false
  oneShot : r.oneShot = false
  remaining : r.remaining = 0

/-- What a track's record is after steps of a CLEAR: its settings stay, and it stays cleared. -/
structure Track.Follows (r v : Track) : Prop where
  gain : v.gain = r.gain
  pan : v.pan = r.pan
  mask : v.mask = r.mask
  cleared : r.IsCleared → v.IsCleared

theorem Track.Follows.refl (r : Track) : r.Follows r := ⟨rfl, rfl, rfl, id⟩

theorem Track.Follows.trans {r v w : Track} (h : r.Follows v) (k : v.Follows w) : r.Follows w :=
  ⟨k.gain.trans h.gain, k.pan.trans h.pan, k.mask.trans h.mask, fun c => k.cleared (h.cleared c)⟩

theorem Track.without_follows (r : Track) (x : LayerId) : r.Follows (r.without x) :=
  ⟨rfl, rfl, rfl, fun ⟨h1, h2, h3, h4, h5⟩ => ⟨h1, h2, h3, h4, h5⟩⟩

theorem Track.trimmed_follows (r : Track) : r.Follows r.trimmed := by
  unfold Track.trimmed
  split
  · exact ⟨rfl, rfl, rfl, fun ⟨_, _, h3, h4, h5⟩ => ⟨rfl, rfl, h3, h4, h5⟩⟩
  · exact .refl r

theorem Track.unreserved_follows (r : Track) : r.Follows { r with reservations := r.reservations - 1 } :=
  ⟨rfl, rfl, rfl, fun ⟨h1, h2, h3, h4, h5⟩ => ⟨h1, h2, h3, h4, h5⟩⟩

theorem Track.cleared_follows (r : Track) : r.Follows r.cleared := ⟨rfl, rfl, rfl, fun _ => ⟨rfl, rfl, rfl, rfl, rfl⟩⟩

theorem Track.cleared_isCleared (r : Track) : r.cleared.IsCleared := ⟨rfl, rfl, rfl, rfl, rfl⟩

/-- From s to u steps of CLEARs are taken: what leaves a list of a track is FREE, and no FREE record is taken. -/
structure ClearSteps (s u : State) : Prop where
  stack : ∀ k y, y ∈ (s.track k).stack → y ∈ (u.track k).stack ∨ u.layer y = none
  redo : ∀ k y, y ∈ (s.track k).redo → y ∈ (u.track k).redo ∨ u.layer y = none
  track : ∀ k, (s.track k).Follows (u.track k)
  loop : LoopFollows s u

theorem ClearSteps.refl (s : State) : ClearSteps s s :=
  ⟨fun _ _ => .inl, fun _ _ => .inl, fun _ => .refl _, .refl s⟩

theorem ClearSteps.trans {s t u : State} (h : ClearSteps s t) (k : ClearSteps t u) : ClearSteps s u where
  stack j y hy := (h.stack j y hy).elim (k.stack j y) fun hn => .inr (k.loop.frees y hn)
  redo j y hy := (h.redo j y hy).elim (k.redo j y) fun hn => .inr (k.loop.frees y hn)
  track j := (h.track j).trans (k.track j)
  loop := h.loop.trans k.loop

theorem ClearSteps.foldl {α : Type} {f : State → α → State} (h : ∀ s x, ClearSteps s (f s x)) (l : List α) (s : State) :
    ClearSteps s (l.foldl f s) :=
  foldl_invariant (I := ClearSteps s) (fun _ x hu => hu.trans (h _ x)) l s (.refl s)

/-- A step that changes at most reports, heads, pins, the queue, and of the tracks nothing but what `Follows` allows. -/
theorem ClearSteps.of_lists {s u : State} (hs : ∀ k, (u.track k).stack = (s.track k).stack)
    (hr : ∀ k, (u.track k).redo = (s.track k).redo) (ht : ∀ k, (s.track k).Follows (u.track k)) (hl : LoopFollows s u) :
    ClearSteps s u :=
  ⟨fun k _ hy => .inl (hs k ▸ hy), fun k _ hy => .inl (hr k ▸ hy), ht, hl⟩

theorem ClearSteps.of_tracks {s u : State} (ht : u.tracks = s.tracks) (hl : LoopFollows s u) : ClearSteps s u :=
  .of_lists (fun k => by rw [State.track_congr ht]) (fun k => by rw [State.track_congr ht])
    (fun k => by rw [State.track_congr ht]; exact .refl _) hl

theorem freeLayer_clearSteps (s : State) (x : LayerId) : ClearSteps s (s.freeLayer x) := by
  have hfreed := fun k => trackFreed_freeLayer s x k
  have hkept : ∀ k y, y = x ∨ (!s.freesOf [x] k y) = true := fun k y => by
    by_cases hy : y = x
    · exact .inl hy
    · exact .inr (by simp [State.freesOf, hy])
  have hgone : ∀ y, y = x → (s.freeLayer x).layer y = none := fun y hy => by rw [layer_freeLayer, if_pos hy]
  refine ⟨fun k y hy => ?_, fun k y hy => ?_, fun k => ?_, freeLayer_loopFollows s x⟩
  · rw [(hfreed k).stack]
    exact (hkept k y).symm.imp (fun h => List.mem_filter.2 ⟨hy, h⟩) (hgone y)
  · rw [(hfreed k).redo]
    exact (hkept k y).symm.imp (fun h => List.mem_filter.2 ⟨hy, h⟩) (hgone y)
  · cases h : s.layer x with
    | none => rw [freeLayer_none h]; exact .refl _
    | some l =>
      rw [track_freeLayer h]
      split
      · exact (Track.without_follows _ x).trans (Track.trimmed_follows _)
      · exact .refl _

theorem report_clearSteps (s : State) (r : Report) (p : List Byte) : ClearSteps s (s.report r p) :=
  .of_tracks (State.report_tracks ..) (report_loopFollows ..)

theorem abortRecording_clearSteps (s : State) (t : TrackId) (reason : DiscardReason) :
    ClearSteps s (s.abortRecording t reason) := by
  unfold State.abortRecording
  split
  · exact .refl s
  · next h _ =>
    split
    · exact .refl s
    · refine ClearSteps.trans ?_ ((freeLayer_clearSteps ..).trans (report_clearSteps ..))
      exact .of_tracks (State.setHead_tracks ..) (loopFollows_of_same (State.setHead_layers ..) (State.setHead_clock ..))

theorem freeProduct_clearSteps (s : State) (e : Bounce) : ClearSteps s (s.freeProduct e) := by
  unfold State.freeProduct
  split
  · exact freeLayer_clearSteps ..
  · exact .refl s

theorem setPins_clearSteps (s : State) (pin : Option Byte) (xs : List LayerId) : ClearSteps s (s.setPins pin xs) := by
  have hpins := setPins_pinsOnly s pin xs
  exact .of_tracks hpins.tracks (loopFollows_of_records hpins.frees hpins.clock)

theorem unreserve_clearSteps (s : State) (e : Bounce) : ClearSteps s (s.unreserve e) := by
  have htrack := unreserve_track s e
  refine .of_lists (fun k => ?_) (fun k => ?_) (fun k => ?_) (loopFollows_of_same ?_ ?_)
  · rw [htrack]; split
    · exact (Track.trimmed_lists _).1
    · rfl
  · rw [htrack]; split
    · exact (Track.trimmed_lists _).2
    · rfl
  · rw [htrack]; split
    · exact (Track.unreserved_follows _).trans (Track.trimmed_follows _)
    · exact .refl _
  · rw [unreserve_same]
  · rw [unreserve_same]

theorem removeBounce_clearSteps (s : State) (i : Nat) : ClearSteps s (s.removeBounce i) :=
  .of_tracks rfl (loopFollows_of_same rfl rfl)

theorem abortBounce_clearSteps (s : State) (i : Nat) (cause : AbortCause) : ClearSteps s (s.abortBounce i cause) := by
  unfold State.abortBounce
  split
  · exact .refl s
  · next e _ =>
    exact (freeProduct_clearSteps s e).trans ((setPins_clearSteps _ none e.sources).trans ((unreserve_clearSteps _ e).trans
      ((removeBounce_clearSteps _ i).trans (report_clearSteps ..))))

theorem abortWhere_clearSteps (f : State → Bounce → Option AbortCause) (n : Nat) (s : State) :
    ClearSteps s (State.abortWhere f n s) := by
  induction n generalizing s with
  | zero => exact .refl s
  | succ n ih =>
    unfold State.abortWhere
    split
    · exact .refl s
    · split
      · exact .refl s
      · exact (abortBounce_clearSteps ..).trans (ih _)

theorem modTrack_cleared_clearSteps (s : State) (t : TrackId) : ClearSteps s (s.modTrack t Track.cleared) := by
  have htrack := fun k => State.track_modTrack s t k Track.cleared
  refine .of_lists (fun k => ?_) (fun k => ?_) (fun k => ?_) (loopFollows_of_same rfl rfl)
  · rw [htrack]; split
    · next e => rw [e]; rfl
    · rfl
  · rw [htrack]; split
    · next e => rw [e]; rfl
    · rfl
  · rw [htrack]; split
    · next e => rw [e]; exact Track.cleared_follows _
    · exact .refl _

/-! ### CLEAR of a track (R18) -/

/-- The state of a CLEAR in which the recording has ended and the bounces are aborted. -/
def State.clearAborted (s : State) (t : TrackId) : State := (s.abortRecording t .cleared).abortBounces (clearCause t)

/-- The state of a CLEAR in which the stack's layers are FREE too. -/
def State.stackCleared (s : State) (t : TrackId) : State :=
  ((s.clearAborted t).track t).stack.foldl State.freeLayer (s.clearAborted t)

theorem clearTrack_eq (s : State) (t : TrackId) : s.clearTrack t
    = (((s.stackCleared t).track t).redo.foldl State.freeLayer (s.stackCleared t)).modTrack t Track.cleared := rfl

theorem clearAborted_clearSteps (s : State) (t : TrackId) : ClearSteps s (s.clearAborted t) :=
  (abortRecording_clearSteps ..).trans (abortWhere_clearSteps ..)

theorem stackCleared_clearSteps (s : State) (t : TrackId) : ClearSteps s (s.stackCleared t) :=
  (clearAborted_clearSteps s t).trans (.foldl freeLayer_clearSteps _ _)

theorem clearTrack_clearSteps (s : State) (t : TrackId) : ClearSteps s (s.clearTrack t) :=
  (stackCleared_clearSteps s t).trans ((ClearSteps.foldl freeLayer_clearSteps _ _).trans (modTrack_cleared_clearSteps ..))

/-- Whatever the state, a CLEAR frees every layer that a list of the track names. -/
theorem clearTrack_freed {s : State} {t : TrackId} {x : LayerId} (hx : x ∈ (s.track t).stack ∨ x ∈ (s.track t).redo) :
    (s.clearTrack t).layer x = none := by
  have hgone : ∀ (l : List LayerId) (v : State), x ∈ l ∨ v.layer x = none → (l.foldl State.freeLayer v).layer x = none :=
    fun l v h => by
      rw [freesEach_freeLayer.foldl_layer]
      split
      · rfl
      · next hn => exact h.elim (fun hm => absurd hm hn) id
  have hfields : ∀ v : State, (v.modTrack t Track.cleared).layer x = v.layer x := fun _ => rfl
  rw [clearTrack_eq, hfields]
  refine hgone _ _ ?_
  rcases hx with hx | hx
  · exact .inr (hgone _ _ ((clearAborted_clearSteps s t).stack t x hx))
  · exact (stackCleared_clearSteps s t).redo t x hx

/-- Whatever the state, a CLEAR clears the track's own fields. -/
theorem clearTrack_isCleared (s : State) (t : TrackId) : ((s.clearTrack t).track t).IsCleared := by
  rw [clearTrack_eq, State.track_modTrack_same]
  exact Track.cleared_isCleared _

theorem freeLayers_heads (l : List LayerId) (s : State) : SameHeads s (l.foldl State.freeLayer s) :=
  SameHeads.foldl freeLayer_heads l s

/-- Behind the end of its recording a CLEAR leaves the heads. -/
theorem clearTrack_heads (s : State) (t : TrackId) : SameHeads (s.abortRecording t .cleared) (s.clearTrack t) :=
  (abortBounces_heads ..).trans ((freeLayers_heads ..).trans ((freeLayers_heads ..).trans (modTrack_heads ..)))

theorem freeLayers_reservations (l : List LayerId) (s : State) (k : TrackId) :
    ((l.foldl State.freeLayer s).track k).reservations = (s.track k).reservations :=
  foldl_invariant (I := fun u => (u.track k).reservations = (s.track k).reservations)
    (fun u x hu => (freeLayer_reservations u x k).trans hu) l s rfl

theorem stackCleared_reservations (s : State) (t k : TrackId) :
    ((s.stackCleared t).track k).reservations = ((s.clearAborted t).track k).reservations := by
  unfold State.stackCleared
  exact freeLayers_reservations ..

theorem modTrack_cleared_reservations (s : State) (t k : TrackId) :
    ((s.modTrack t Track.cleared).track k).reservations = (s.track k).reservations := by
  rw [State.track_modTrack]
  split
  · next e => rw [e]; rfl
  · rfl

/-- Behind its aborts a CLEAR leaves the reservations. -/
theorem clearTrack_reservations (s : State) (t k : TrackId) :
    ((s.clearTrack t).track k).reservations = ((s.clearAborted t).track k).reservations := by
  rw [clearTrack_eq, modTrack_cleared_reservations, freeLayers_reservations, stackCleared_reservations]

/-- A head on a track records. -/
theorem headOn_some {s : State} {t : TrackId} {h : HeadId} (hk : s.headOn t = some h) : ∃ r, s.head h = some r := by
  have htrack : (s.head h).map (·.track) = some t := by
    unfold State.headOn at hk
    split at hk
    · next e => obtain rfl := Option.some.inj hk; exact e
    · split at hk
      · next e => obtain rfl := Option.some.inj hk; exact e
      · exact absurd hk (by simp)
  obtain ⟨r, hr, -⟩ := Option.map_eq_some_iff.1 htrack
  exact ⟨r, hr⟩

theorem clearTrack_head {s : State} {t : TrackId} {h : HeadId} (hk : s.headOn t = some h) :
    (s.clearTrack t).head h = none := by
  obtain ⟨r, hr⟩ := headOn_some hk
  rw [(clearTrack_heads s t).head, abortRecording_eq _ hk hr, (discardRecording_heads ..).head]
  exact State.head_setHead_same ..

/-! ### The layers freed, with no recording on the track (R18, step 3) -/

section
variable {s : State} {t : TrackId}

/-- The stack's layers bottom to top, then the redo list's. -/
def State.listed (s : State) (t : TrackId) : List LayerId := (s.track t).stack ++ (s.track t).redo

/-- The layers on a track's lists are the track's, each on one of them. -/
structure ListsOwn (s : State) (t : TrackId) : Prop where
  own : ∀ x ∈ s.listed t, (s.layer x).map (·.track) = some t
  nodup : (s.listed t).Nodup

theorem ListsOwn.inUse (h : ListsOwn s t) {x : LayerId} (hx : x ∈ s.listed t) : s.layer x ≠ none := fun hn => by
  have hown := h.own x hx
  rw [hn] at hown
  exact absurd hown (by simp)

/-- The frees of the stack's layers leave the redo list, so that both lists are freed in one row. -/
theorem clearLists_eq (h : ListsOwn s t) :
    ((((s.track t).stack.foldl State.freeLayer s).track t).redo.foldl State.freeLayer
      ((s.track t).stack.foldl State.freeLayer s)) = (s.listed t).foldl State.freeLayer s := by
  obtain ⟨hstack, -, hapart⟩ := List.nodup_append.1 h.nodup
  have hredo : (((s.track t).stack.foldl State.freeLayer s).track t).redo = (s.track t).redo := by
    rw [(freesEach_freeLayer.foldl_track _ hstack s t).redo]
    refine List.filter_eq_self.2 fun y hy => ?_
    have hoff : y ∉ (s.track t).stack := fun hm => hapart y hm y hy rfl
    simp [State.freesOf, hoff]
  rw [hredo, State.listed, List.foldl_append]

/-- The track whose layers are all freed keeps no list. -/
theorem clearLists_track (h : ListsOwn s t) : (((s.listed t).foldl State.freeLayer s).track t).cleared
    = { s.track t with
        stack := [], redo := [], span := none, pass := 0, passSet := false, mute := false, oneShot := false
        remaining := 0, selfMuteDue := false } := by
  have hfreed := freesEach_freeLayer.foldl_track _ h.nodup s t
  have hnone : ∀ l : List LayerId, (∀ y ∈ l, y ∈ s.listed t) → l.filter (fun y => !s.freesOf (s.listed t) t y) = [] :=
    fun l hl => List.filter_eq_nil_iff.2 fun y hy => by simp [State.freesOf, hl y hy, h.own y (hl y hy)]
  have hstack := hfreed.stack.trans (hnone _ fun y hy => List.mem_append_left _ hy)
  have hredo := hfreed.redo.trans (hnone _ fun y hy => List.mem_append_right _ hy)
  rw [hfreed.rest, hstack, hredo]
  rfl

theorem modTrack_freesOnly (s : State) (t : TrackId) (f : Track → Track) : FreesOnly s (s.modTrack t f) :=
  ⟨rfl, rfl, rfl, rfl, fun _ h => h, fun _ _ h => h⟩

/-- From v to u the layers on the lists of a track are freed, and its own fields cleared (R18, steps 3 and 4). -/
structure ListsCleared (v u : State) (t : TrackId) : Prop where
  frees : FreesOnly v u
  track : u.track t = { v.track t with
    stack := [], redo := [], span := none, pass := 0, passSet := false, mute := false, oneShot := false
    remaining := 0, selfMuteDue := false }
  other : ∀ k, k ≠ t → u.track k = v.track k
  layer : ∀ x, x ∉ v.listed t → u.layer x = v.layer x
  free : u.pool.free = v.pool.free ++ (v.listed t).flatMap v.namesOf
  silent : ∀ x ∈ v.listed t, u.mix.Silent x
  alike : u.inUse ≠ [] → ReportsAlike v u

/-- Frees that leave a record in use form no report (R35). -/
theorem freeLayers_alike {v : State} (l : List LayerId) (hu : (l.foldl State.freeLayer v).inUse ≠ []) :
    ReportsAlike v (l.foldl State.freeLayer v) := by
  induction l generalizing v with
  | nil => exact .refl v
  | cons x l ih =>
    have hfirst : (v.freeLayer x).inUse ≠ [] := fun hn =>
      hu ((LoopFollows.foldl freeLayer_loopFollows l (v.freeLayer x)).inUse hn)
    obtain ⟨y, hy⟩ := List.exists_mem_of_ne_nil _ hfirst
    have hin := State.mem_inUse.1 hy
    rw [layer_freeLayer] at hin
    refine (freeLayer_alike (.inr ⟨y, fun e => ?_, fun hn => ?_⟩)).trans (ih hu)
    · rw [if_pos e] at hin; exact hin rfl
    · rw [hn, ite_self] at hin; exact hin rfl

theorem listsCleared (h : ListsOwn s t) :
    ListsCleared s (((s.listed t).foldl State.freeLayer s).modTrack t Track.cleared) t := by
  have hf := freesEach_freeLayer
  refine ⟨(FreesOnly.foldl freeLayer_freesOnly _ s).trans (modTrack_freesOnly ..), ?_, fun k hk => ?_, fun x hx => ?_, ?_,
    fun x hx => ?_, fun hu => ?_⟩
  · rw [State.track_modTrack_same]
    exact clearLists_track h
  · rw [State.track_modTrack_other _ _ _ _ hk]
    exact hf.foldl_track_other _ s fun x hx e => hk (Option.some.inj (e.symm.trans (h.own x hx)))
  · rw [State.layer_congr (State.modTrack_layers ..), hf.foldl_layer, if_neg hx]
  · rw [State.modTrack_pool]
    exact hf.foldl_free _ h.nodup s
  · rw [State.modTrack_mix]
    exact hf.foldl_silent _ s hx (.inl (h.inUse hx))
  · rw [State.inUse_congr (State.modTrack_layers ..)] at hu
    obtain ⟨hsup, hclock, hlink⟩ := freeLayers_alike _ hu
    refine ⟨?_, ?_, ?_⟩
    · rw [State.modTrack_sup, hsup]
    · rw [State.modTrack_clock, hclock]
    · rw [State.modTrack_link, hlink]

/-- A CLEAR behind its aborts. -/
theorem clearTrack_lists (h : ListsOwn (s.clearAborted t) t) : ListsCleared (s.clearAborted t) (s.clearTrack t) t := by
  have hlists := listsCleared h
  rw [← clearLists_eq h] at hlists
  exact hlists

/-- With no recording on the track and no bounce queued a CLEAR aborts nothing. -/
theorem clearAborted_idle (hk : s.headOn t = none) (hq : s.bounce.queue = []) : s.clearAborted t = s := by
  unfold State.clearAborted State.abortBounces
  rw [abortRecording_idle _ hk, hq]
  rfl

/-! ### The bounces that a CLEAR aborts (R119; log 34) -/

/-- An entry with a source on the track, as its layers' owners stand in s. -/
def drawnFrom (s : State) (t : TrackId) (e : Bounce) : Bool :=
  e.sources.any fun x => decide ((s.layer x).map (·.track) = some t)

/-- An entry that a CLEAR of the track reaches. -/
def clearReaches (s : State) (t : TrackId) (e : Bounce) : Bool := drawnFrom s t e || decide (e.dest = t)

theorem clearCause_eq (s : State) (t : TrackId) (e : Bounce) : clearCause t s e
    = if drawnFrom s t e then some .sourceCleared else if e.dest = t then some .destCleared else none := rfl

theorem clearCause_isSome (s : State) (t : TrackId) (e : Bounce) :
    (clearCause t s e).isSome = clearReaches s t e := by
  rw [clearCause_eq]
  unfold clearReaches
  cases drawnFrom s t e with
  | true => rfl
  | false => by_cases h : e.dest = t <;> simp [h]

/-- The cause that BOUNCE_ABORTED carries for an entry that a CLEAR reaches, and its reason. -/
theorem clearCause_code {e : Bounce} (h : clearReaches s t e = true) :
    ((clearCause t s e).getD .cancelled).code = (if drawnFrom s t e then 3 else 4)
      ∧ ((clearCause t s e).getD .cancelled).reason.byte = 10 := by
  unfold clearReaches at h
  rw [clearCause_eq]
  cases hd : drawnFrom s t e with
  | true => exact ⟨rfl, rfl⟩
  | false =>
    rw [hd, Bool.false_or, decide_eq_true_eq] at h
    rw [if_neg Bool.false_ne_true, if_pos h]
    exact ⟨rfl, rfl⟩

/-- No entry's product is another's source, so an abort leaves the owners of the other entries' sources. -/
theorem clearCause_stable (t : TrackId) : StableTest (clearCause t) := by
  intro s hs before e after cause hq a ha
  have hmem : e ∈ s.bounce.queue := by rw [hq]; simp
  have hentry : s.bounce.queue[before.length]? = some e := by rw [hq]; simp
  have hqueued : a ∈ s.bounce.queue := by
    rw [hq, List.mem_append, List.mem_cons]
    exact (List.mem_append.1 ha).imp_right .inr
  have hdrawn : drawnFrom (s.abortBounce before.length cause) t a = drawnFrom s t a := by
    unfold drawnFrom
    rw [Bool.eq_iff_iff, List.any_eq_true, List.any_eq_true]
    refine exists_congr fun x => and_congr_right fun hx => ?_
    have hnot : e.produces x = false := Bool.eq_false_of_not_eq_true fun hp =>
      ((hs.apart e hmem).product hp).2.2 a hqueued hx
    rw [(abortBounce_leaves hentry cause).layer,
      (afterAborts_owner (s.layer x) fun b hb => List.mem_singleton.1 hb ▸ hnot).1]
  rw [clearCause_eq, clearCause_eq, hdrawn]

/-- The reports of the entries that a CLEAR reaches. -/
def clearReported (s : State) (t : TrackId) (w : State) (e : Bounce) : State :=
  abortReported s (if drawnFrom s t e then 3 else 4) 10 w e

theorem clearAborts_all (hs : QueueApart s) (hk : s.headOn t = none) :
    AllAborted s (s.clearAborted t) (s.bounce.queue.filter (clearReaches s t))
      (s.bounce.queue.filter fun e => !clearReaches s t e) fun e => (clearCause t s e).getD .cancelled := by
  have hall := abortWhere_all (clearCause_stable t) _ s hs (Nat.le_refl _)
    fun e _ => (rfl : clearCause t s e = clearCause t s e)
  simp only [clearCause_isSome] at hall
  unfold State.clearAborted State.abortBounces
  rw [abortRecording_idle _ hk]
  exact hall

theorem clearReported_foldl (w : State) :
    abortsReported s (fun e => (clearCause t s e).getD .cancelled) w (s.bounce.queue.filter (clearReaches s t))
      = (s.bounce.queue.filter (clearReaches s t)).foldl (clearReported s t) w := by
  refine List.foldl_ext _ _ _ fun u e he => ?_
  obtain ⟨hcode, hreason⟩ := clearCause_code (List.mem_filter.1 he).2
  unfold clearReported
  rw [hcode, hreason]

/-- A layer on a track's lists is no entry's product. -/
theorem QueueApart.listed_layer (hs : QueueApart s) {x : LayerId} (hx : x ∈ s.listed t) {e : Bounce}
    (he : e ∈ s.bounce.queue) : e.produces x = false :=
  Bool.eq_false_of_not_eq_true fun hp =>
    have hoff := ((hs.apart e he).product hp).2.1 t
    (List.mem_append.1 hx).elim hoff.1 hoff.2

/-- The aborts leave the track's lists, and the owners and maps of the layers on them. -/
theorem listsOwn_aborted (hs : QueueApart s) (hk : s.headOn t = none) (h : ListsOwn s t) :
    ListsOwn (s.clearAborted t) t ∧ (s.clearAborted t).listed t = s.listed t
      ∧ ∀ x ∈ s.listed t, (s.clearAborted t).namesOf x = s.namesOf x := by
  have hleft := (clearAborts_all hs hk).apart
  have hlisted : (s.clearAborted t).listed t = s.listed t := by
    unfold State.listed
    rw [(hleft.lists t).1, (hleft.lists t).2]
  have howner : ∀ x ∈ s.listed t, ((s.clearAborted t).layer x).map (·.track) = (s.layer x).map (·.track)
      ∧ ((s.clearAborted t).layer x).map (·.map) = (s.layer x).map (·.map) := fun x hx => by
    rw [hleft.leaves.layer]
    exact afterAborts_owner _ fun e he => hs.listed_layer hx (List.mem_filter.1 he).1
  refine ⟨⟨fun x hx => ?_, hlisted ▸ h.nodup⟩, hlisted, fun x hx => ?_⟩
  · rw [hlisted] at hx
    rw [(howner x hx).1, h.own x hx]
  · unfold State.namesOf
    rw [(howner x hx).2]

end

/-! ### CLEAR_ALL (R19) -/

/-- The tracks cleared in ascending order; irreducible, so that no unification walks through eight CLEARs. -/
@[irreducible] def State.tracksCleared (s : State) : State := (List.finRange 8).foldl State.clearTrack s

theorem tracksCleared_eq (s : State) : s.tracksCleared = (List.finRange 8).foldl State.clearTrack s := by
  unfold State.tracksCleared
  rfl

theorem tracksCleared_clearSteps (s : State) : ClearSteps s s.tracksCleared := by
  rw [tracksCleared_eq]
  exact ClearSteps.foldl clearTrack_clearSteps _ s

theorem tracksCleared_stays (s : State) : Stays s s.tracksCleared := by
  rw [tracksCleared_eq]
  exact Stays.foldl clearTrack_stays _ s

theorem tracksCleared_keeps (s : State) : Keeps s s.tracksCleared := by
  rw [tracksCleared_eq]
  exact Keeps.foldl clearTrack_keeps _ s

/-- Every layer that a track's list names is FREE once all tracks are cleared. -/
theorem tracksCleared_freed {s : State} {k : TrackId} {x : LayerId}
    (hx : x ∈ (s.track k).stack ∨ x ∈ (s.track k).redo) : s.tracksCleared.layer x = none := by
  rw [tracksCleared_eq]
  refine foldl_reaches (I := fun u => (x ∈ (u.track k).stack ∨ x ∈ (u.track k).redo) ∨ u.layer x = none)
    (P := fun u => u.layer x = none) (x := k) (fun u j hu => ?_) (fun u hu => ?_)
    (fun u j _ => (clearTrack_clearSteps u j).loop.frees x) _ (List.mem_finRange k) s (.inl hx)
  · have hsteps := clearTrack_clearSteps u j
    rcases hu with (hu | hu) | hu
    · exact (hsteps.stack k x hu).imp_left .inl
    · exact (hsteps.redo k x hu).imp_left .inr
    · exact .inr (hsteps.loop.frees x hu)
  · exact hu.elim clearTrack_freed ((clearTrack_clearSteps u k).loop.frees x)

theorem tracksCleared_isCleared (s : State) (k : TrackId) : (s.tracksCleared.track k).IsCleared := by
  rw [tracksCleared_eq]
  exact foldl_reaches (I := fun _ => True) (P := fun u => (u.track k).IsCleared) (x := k) (fun _ _ _ => trivial)
    (fun u _ => clearTrack_isCleared u k) (fun u j _ => ((clearTrack_clearSteps u j).track k).cleared) _
    (List.mem_finRange k) s trivial

theorem doAction_clear_all (s : State) : s.doAction (.clear .all) = (.ok, s.tracksCleared.scenesIdle) := by
  rw [tracksCleared_eq]
  rfl

theorem exec_clearAll {s : State} {tag : Byte} (h : s.canTake { kind := 0x26, tag := tag, payload := [] } = true) :
    exec (.clearAll tag []) s
      = .next ((ownClearAll s.takeRequest []).1.reply 0x26 tag (ownClearAll s.takeRequest []).2) :=
  congrArg Host.Outcome.next (serve_taken h rfl rfl)

theorem ownClearAll_ready {u : State} (hu : u.isReady = true) :
    ownClearAll u [] = u.requestCue (.clear .all) .now 0 false := by
  unfold ownClearAll
  rw [hu]
  rfl

/-- The state in which a cue is executed at once: its id is taken. -/
def State.idTaken (u : State) : State := { u with cues := { u.cues with nextId := u.cues.nextId + 1 } }

/-- CLEAR_ALL with the halt latch clear: an id is taken, the tracks are cleared, the sequencer is IDLE, and CUE_DONE is
formed. -/
def State.allCleared (u : State) : State :=
  u.idTaken.tracksCleared.scenesIdle.reportWith u.header .cueDone
    [u.cues.nextId, Action.code (.clear .all), Action.targetCode (.clear .all)]

theorem allCleared_layer (u : State) (x : LayerId) : u.allCleared.layer x = u.idTaken.tracksCleared.layer x :=
  State.layer_congr (State.reportWith_layers ..) x

theorem allCleared_track (u : State) (k : TrackId) : u.allCleared.track k = u.idTaken.tracksCleared.track k :=
  State.track_congr (State.reportWith_tracks ..) k

theorem allCleared_clock (u : State) : u.allCleared.clock = u.idTaken.tracksCleared.clock := State.reportWith_clock ..

theorem allCleared_cues (u : State) : u.allCleared.cues = { u.cues with nextId := u.cues.nextId + 1 } :=
  (State.reportWith_cues ..).trans (tracksCleared_stays u.idTaken).cues

/-- From a request's state to the one that a CLEAR_ALL leaves, only steps of CLEARs are taken in the tables. -/
theorem allCleared_clearSteps (u : State) : ClearSteps u u.allCleared := by
  have htaken : ClearSteps u u.idTaken := .of_tracks rfl (loopFollows_of_same rfl rfl)
  refine (htaken.trans (tracksCleared_clearSteps u.idTaken)).trans ?_
  exact .of_tracks (State.reportWith_tracks ..) (loopFollows_of_same (State.reportWith_layers ..) (allCleared_clock u))

theorem executeCue_clearAll (u : State) : u.idTaken.executeCue u.cues.nextId (.clear .all) = (.ok, u.allCleared) := by
  rw [executeCue_eq, doAction_clear_all, if_pos rfl]
  rfl

theorem requestCue_clearAll {u : State} (hu : u.sup.latch = false) : u.requestCue (.clear .all) .now 0 false
    = (u.allCleared, [0, 2, u.cues.nextId, 0, byte u.cues.list.length]) := by
  rw [requestCue_now _ _ _ hu, acceptCue_now, keptCues_false, Nat.sub_self]
  refine (congrArg (fun r : Code × State => cueReply r.2 r.1 2 u.cues.nextId 0) (executeCue_clearAll u)).trans ?_
  unfold cueReply answer
  dsimp only
  rw [allCleared_cues]
  rfl

/-- Settles O28: the frees of a CLEAR by `clearTrack_freed`, `clearTrack_frees` and `clearLists_track`, its aborts by
`clearAborts_all`, and CLEAR_ALL by what every CLEAR keeps (`ClearSteps`). -/
theorem clearAllFreesEveryLayer : Obligations.ClearAllFreesEveryLayer := by
  refine ⟨fun s t => ⟨s.clearTrack t, rfl, fun x => clearTrack_freed, fun h => clearTrack_head,
    fun hk hq hown hnodup => ?_, fun hk hapart hone hown hnodup => ?_⟩, fun s => ?_,
    fun s tag h hs => ⟨fun hlatch => ?_, fun hlatch => ?_⟩⟩
  · have hlists : ListsCleared s (s.clearTrack t) t := by
      have hcleared := clearTrack_lists (s := s) (t := t)
      rw [clearAborted_idle hk hq] at hcleared
      exact hcleared ⟨hown, hnodup⟩
    have hloop := (clearTrack_clearSteps s t).loop
    have hfrees := hlists.frees
    exact ⟨hlists.track, hlists.other, hlists.layer, hlists.free, hlists.silent, hfrees.mem, hfrees.scenes, hfrees.bounce,
      hfrees.cues, hfrees.head0, hfrees.head1, hfrees.sup, hloop.kept, hloop.cleared⟩
  · intro drawn gone
    have hs : QueueApart s := ⟨hapart, hone⟩
    have haborted := clearAborts_all hs hk
    have hleaves := haborted.apart.leaves
    obtain ⟨hown, hlisted, hnames⟩ := listsOwn_aborted hs hk ⟨hown, hnodup⟩
    have hlists := clearTrack_lists hown
    have hfrees := hlists.frees
    refine ⟨?_, fun e he r hr => ?_, fun e he y hy m hm => ?_, fun k => ?_, ?_, fun hu => ?_⟩
    · rw [hfrees.bounce]
      exact haborted.queue
    · exact hfrees.sub _ (hleaves.product he hr)
    · exact hleaves.unpinned he hy (hfrees.kept y m hm)
    · rw [clearTrack_reservations]
      exact hleaves.reservations k
    · rw [hlists.free, haborted.apart.free, hlisted]
      exact congrArg _ (List.flatMap_congr hnames)
    · have hmid : (s.clearAborted t).inUse ≠ [] := fun hn => hu (hfrees.inUse_nil hn)
      have hreports := (haborted.alike hmid s (.refl s)).trans (hlists.alike hu)
      rw [clearReported_foldl] at hreports
      exact hreports.link
  · have hscenes : s.tracksCleared.scenes = s.scenes := (tracksCleared_stays s).scenes
    intro v
    have hv : v = s.tracksCleared := (tracksCleared_eq s).symm
    rw [doAction_clear_all, State.scenesIdle, hscenes, hv]
    rfl
  · have hready := isReady_of_ready hs
    rw [exec_clearAll h, ownClearAll_ready hready, requestCue_halted _ _ _ _ (by rw [takeRequest_sup]; exact hlatch)]
    rfl
  · have hready := isReady_of_ready hs
    have hclosed : s.takeRequest.sup.latch = false := by rw [takeRequest_sup]; exact hlatch
    rw [exec_clearAll h, ownClearAll_ready hready, requestCue_clearAll hclosed]
    generalize s.takeRequest = u
    have hsteps := allCleared_clearSteps u
    have hstays := tracksCleared_stays u.idTaken
    refine ⟨u.allCleared, rfl, allCleared_cues u, fun k x hx => ?_, fun k => ?_, ?_, hsteps.loop.cleared, ?_, ?_, ?_⟩
    · rw [allCleared_layer]
      exact tracksCleared_freed hx
    · obtain ⟨hspan, hpass, hmute, honeShot, hremaining⟩ := tracksCleared_isCleared u.idTaken k
      obtain ⟨hgain, hpan, hmask, -⟩ := hsteps.track k
      rw [allCleared_track] at hgain hpan hmask ⊢
      exact ⟨hspan, hpass, hmute, honeShot, hremaining, hgain, hpan, hmask⟩
    · exact (State.reportWith_scenes ..).trans (congrArg Sequencer.idle hstays.scenes)
    · exact (State.reportWith_tones ..).trans hstays.tones
    · exact (State.reportWith_sup ..).trans (tracksCleared_keeps u.idTaken).sup
    · rw [allCleared_clock, hstays.clock]
      rfl

end Sys2Proof.Machine
end
